-- ==== Sys2Proof/Word.lean ====
section
/-!
DEFINITION. The words of the Huffman codec core: names for the widths the spec fixes (00_scope.md R12, R15, R16).
-/

namespace Sys2Proof

/-- A stored byte (00_scope.md R18). -/
abbrev Byte := BitVec 8

/-- A host-visible register's value and a host bus word (00_scope.md R16). -/
abbrev Word := BitVec 32

/-- A host bus byte address (00_scope.md R16). -/
abbrev Addr := BitVec 32

/-- A symbol value: 0..255 in single-byte mode, 0..65535 in pair mode (00_scope.md R12). -/
abbrev SymVal := BitVec 16

/-- A bit string, first stream bit first (00_scope.md R20). -/
abbrev Bits := List Bool

end Sys2Proof
end

