-- ==== Sys2Proof/Syntax.lean ====
section
/-!
DEFINITION. The instructions of the Huffman codec core, one constructor per row of spec/opcode_table.json
(00_scope.md R4, R5: host commands, host transactions and wire-format field codes), and the encoded forms they are
read from: the host transaction of 30_encoding.md R170 and the stream fields of 30_encoding.md R144.
-/

namespace Sys2Proof

/-- The size of a host access: n ∈ {1, 4} bytes (30_encoding.md R170). -/
inductive Size where
  /-- n = 1. -/
  | b1
  /-- n = 4. -/
  | b4
  deriving DecidableEq, Repr

/-- One host bus transaction `(dir, n, addr, data)` (30_encoding.md R170). A read carries no data. A write of n = 1
carries the low 8 bits of `data` (log entry 24). -/
inductive Txn where
  /-- dir = R. -/
  | read (n : Size) (addr : Addr)
  /-- dir = W. -/
  | write (n : Size) (addr : Addr) (data : Word)
  deriving DecidableEq, Repr

/-- The kinds of field a compressed stream is made of (30_encoding.md R144). -/
inductive FieldKind where
  /-- The mode flag, 1 bit (R145). -/
  | modeFlag
  /-- A byte-mode size class, 2 bits (R146). -/
  | sizeClass
  /-- A byte-mode frequency value of 8 bits (R148). -/
  | value8
  /-- A byte-mode frequency value of 16 bits (R148). -/
  | value16
  /-- A byte-mode frequency value of 32 bits (R148). -/
  | value32
  /-- A pair-mode existence bit (R149). -/
  | existence
  /-- A pair-mode size bit and the value after it (R150). -/
  | pairSize
  /-- One bit of the coded section (R152). -/
  | codeBit
  /-- The padding (R153). -/
  | padding
  deriving DecidableEq, Repr

/-- What the decoder is given: a host transaction, or the bits of a stream field, first stream bit first. Which of the
two, and which kind of field, follows from where the bits stand (30_encoding.md, introduction). -/
inductive Code where
  /-- A host transaction. -/
  | txn (t : Txn)
  /-- The bits of a stream field. -/
  | field (k : FieldKind) (bits : Bits)
  deriving DecidableEq, Repr

/-- The instructions: one constructor per row of spec/opcode_table.json, in the table's order. -/
inductive Instr where
  /-- CFG: a CTRL write with START = 0 (10_state.md R41). -/
  | cfg (cmd : BitVec 2) (mode irqEn : Bool)
  /-- COMPRESS: a CTRL write with START = 1 and CMD = 01 (45_orchestration.md R342). -/
  | compress (mode irqEn : Bool)
  /-- DECOMPRESS: a CTRL write with START = 1 and CMD = 10 (45_orchestration.md R343). -/
  | decompress (mode irqEn : Bool)
  /-- BADCMD00: a CTRL write with START = 1 and the reserved CMD = 00 (60_exceptions.md R401). -/
  | badCmd00 (mode irqEn : Bool)
  /-- BADCMD11: a CTRL write with START = 1 and the reserved CMD = 11 (60_exceptions.md R401). -/
  | badCmd11 (mode irqEn : Bool)
  /-- STATUS_W1C: a STATUS write (10_state.md R46). -/
  | statusW1c (doneClr errClr : Bool)
  /-- WR32: MemWrite(addr, 4, data) (20_memory.md R105). -/
  | wr32 (addr : Addr) (data : Word)
  /-- WR8: MemWrite(addr, 1, data) (20_memory.md R105). -/
  | wr8 (addr : Addr) (data : Byte)
  /-- RD32: MemRead(addr, 4) (20_memory.md R104). -/
  | rd32 (addr : Addr)
  /-- RD8: MemRead(addr, 1) (20_memory.md R104). -/
  | rd8 (addr : Addr)
  /-- MODE_BYTE: the mode flag 0 (30_encoding.md R145). -/
  | modeByte
  /-- MODE_PAIR: the mode flag 1 (30_encoding.md R145). -/
  | modePair
  /-- CLASS_ABSENT: size class 00, no value (30_encoding.md R147). -/
  | classAbsent
  /-- CLASS_F8: size class 01 in the marker section (`none`), or its 8-bit value in the value section (`some v`)
  (30_encoding.md R147, R148). -/
  | classF8 (value : Option (BitVec 8))
  /-- CLASS_F16: size class 10 in the marker section (`none`), or its 16-bit value in the value section (`some v`). -/
  | classF16 (value : Option (BitVec 16))
  /-- CLASS_F32: size class 11 in the marker section (`none`), or its 32-bit value in the value section (`some v`). -/
  | classF32 (value : Option (BitVec 32))
  /-- PAIR_ABSENT: existence bit 0 (30_encoding.md R149). -/
  | pairAbsent
  /-- PAIR_PRESENT: existence bit 1 (30_encoding.md R149). -/
  | pairPresent
  /-- PAIR_SIZE8: size bit 0 and its 8-bit value (30_encoding.md R150). -/
  | pairSize8 (value : BitVec 8)
  /-- PAIR_SIZE16: size bit 1 and its 16-bit value (30_encoding.md R150). -/
  | pairSize16 (value : BitVec 16)
  /-- CODE_LEFT: coded bit 0 (30_encoding.md R152). -/
  | codeLeft
  /-- CODE_RIGHT: coded bit 1 (30_encoding.md R152). -/
  | codeRight
  /-- PAD: n padding bits, all 0 (30_encoding.md R153). -/
  | pad (n : Nat)
  deriving DecidableEq, Repr

end Sys2Proof
end

