-- ==== Sys2Proof/WellFormed.lean ====
section
/-!
DEFINITION. Which terms of `Instr` stand for words of the hardware.
-/

namespace Sys2Proof

/-- A WR32 to CTRL (0x000) or STATUS (0x004) is the row of that register's write, not the row WR32 (spec/opcode_table.json,
format column; 30_encoding.md R140), and padding is 0 to 7 bits long (30_encoding.md R153). Every other term is well formed. -/
def Instr.wellFormed : Instr → Bool
  | .wr32 addr _ => addr != 0x000 && addr != 0x004
  | .pad n => n < 8
  | .cfg _ _ _ | .compress _ _ | .decompress _ _ | .badCmd00 _ _ | .badCmd11 _ _ | .statusW1c _ _ => true
  | .wr8 _ _ | .rd32 _ | .rd8 _ => true
  | .modeByte | .modePair | .classAbsent | .classF8 _ | .classF16 _ | .classF32 _ => true
  | .pairAbsent | .pairPresent | .pairSize8 _ | .pairSize16 _ | .codeLeft | .codeRight => true

end Sys2Proof
end

