-- ==== Sys2Proof/Decode.lean ====
section
/-!
DEFINITION. The decoder and the encoder: the CTRL word (30_encoding.md R140 to R143), the host transaction
(30_encoding.md R170, R171) and the stream fields (30_encoding.md R144 to R153), with the bit-string helpers
(20_memory.md R114, 30_encoding.md R154).
-/

namespace Sys2Proof

/-! ### Bit strings -/

/-- The low `k` bits of `v`, most significant first (20_memory.md R114). -/
def bitsOf : Nat → Nat → Bits
  | 0, _ => []
  | k + 1, v => v.testBit k :: bitsOf k v

/-- The unsigned value of a bit string, its first bit the most significant (30_encoding.md R154). -/
def bitsVal : Bits → Nat
  | [] => 0
  | b :: bs => b.toNat * 2 ^ bs.length + bitsVal bs

/-! ### Decoding -/

/-- Why bits stand for no instruction. -/
inductive DecodeError where
  /-- A field of kind `k` is not `n` bits long. -/
  | wrongLength (k : FieldKind) (n : Nat)
  /-- Padding holds a 1 (30_encoding.md R153). -/
  | paddingNotZero
  /-- More bits than the field or word holds. -/
  | wordTooWide
  deriving DecidableEq, Repr

/-- The offset of CTRL (10_state.md R39). -/
def ctrlAddr : Addr := 0x000

/-- The offset of STATUS (10_state.md R39). -/
def statusAddr : Addr := 0x004

/-- A word written to CTRL: START = v[0], CMD = v[2:1], MODE = v[3], IRQ_EN = v[4], bits 31:5 ignored
(30_encoding.md R140, R141, R155). -/
def decodeCtrl (v : Word) : Instr :=
  let cmd := v.extractLsb' 1 2
  let mode := v.getLsbD 3
  let irqEn := v.getLsbD 4
  if v.getLsbD 0 then
    if cmd = 0b01 then .compress mode irqEn
    else if cmd = 0b10 then .decompress mode irqEn
    else if cmd = 0b00 then .badCmd00 mode irqEn
    else .badCmd11 mode irqEn
  else .cfg cmd mode irqEn

/-- A word written to STATUS: only bits 1 and 2 count (10_state.md R46). -/
def decodeStatus (v : Word) : Instr :=
  .statusW1c (v.getLsbD 1) (v.getLsbD 2)

/-- The instruction a host transaction is (30_encoding.md R171): a 4-byte write to CTRL or STATUS is the row of that
register's write. -/
def decodeTxn : Txn → Instr
  | .read .b1 addr => .rd8 addr
  | .read .b4 addr => .rd32 addr
  | .write .b1 addr data => .wr8 addr (data.setWidth 8)
  | .write .b4 addr data =>
    if addr = ctrlAddr then decodeCtrl data
    else if addr = statusAddr then decodeStatus data
    else .wr32 addr data

/-- The instruction the bits of a stream field are (30_encoding.md R145 to R153). Only the length can be wrong: the
stream has no illegal encodings (30_encoding.md R157). -/
def decodeField : FieldKind → Bits → Except DecodeError Instr
  | .modeFlag, [b] => .ok (if b then .modePair else .modeByte)
  | .sizeClass, [hi, lo] =>
    .ok (match hi, lo with
      | false, false => .classAbsent
      | false, true => .classF8 none
      | true, false => .classF16 none
      | true, true => .classF32 none)
  | .value8, bs =>
    if bs.length = 8 then .ok (.classF8 (some (BitVec.ofNat 8 (bitsVal bs)))) else .error (.wrongLength .value8 bs.length)
  | .value16, bs =>
    if bs.length = 16 then .ok (.classF16 (some (BitVec.ofNat 16 (bitsVal bs)))) else .error (.wrongLength .value16 bs.length)
  | .value32, bs =>
    if bs.length = 32 then .ok (.classF32 (some (BitVec.ofNat 32 (bitsVal bs)))) else .error (.wrongLength .value32 bs.length)
  | .existence, [b] => .ok (if b then .pairPresent else .pairAbsent)
  | .pairSize, false :: bs =>
    if bs.length = 8 then .ok (.pairSize8 (BitVec.ofNat 8 (bitsVal bs))) else .error (.wrongLength .pairSize (bs.length + 1))
  | .pairSize, true :: bs =>
    if bs.length = 16 then .ok (.pairSize16 (BitVec.ofNat 16 (bitsVal bs))) else .error (.wrongLength .pairSize (bs.length + 1))
  | .codeBit, [b] => .ok (if b then .codeRight else .codeLeft)
  | .padding, bs =>
    if 8 ≤ bs.length then .error (.wrongLength .padding bs.length)
    else if bs.any (fun b => b) then .error .paddingNotZero
    else .ok (.pad bs.length)
  | k, bs => .error (.wrongLength k bs.length)

/-- The decoder: total on every transaction and every bit string of every kind of field. -/
def decode : Code → Except DecodeError Instr
  | .txn t => .ok (decodeTxn t)
  | .field k bits => decodeField k bits

/-! ### Encoding -/

/-- The CTRL word with the given fields and zeros in bits 31:5 (30_encoding.md R140). -/
def encodeCtrl (start : Bool) (cmd : BitVec 2) (mode irqEn : Bool) : Word :=
  0#27 ++ BitVec.ofBool irqEn ++ BitVec.ofBool mode ++ cmd ++ BitVec.ofBool start

/-- The STATUS word that clears what is asked (10_state.md R46). -/
def encodeStatus (doneClr errClr : Bool) : Word :=
  0#29 ++ BitVec.ofBool errClr ++ BitVec.ofBool doneClr ++ 0#1

/-- The encoder: the transaction or the field bits of an instruction, from the same tables. -/
def encode : Instr → Code
  | .cfg cmd mode irqEn => .txn (.write .b4 ctrlAddr (encodeCtrl false cmd mode irqEn))
  | .compress mode irqEn => .txn (.write .b4 ctrlAddr (encodeCtrl true 0b01 mode irqEn))
  | .decompress mode irqEn => .txn (.write .b4 ctrlAddr (encodeCtrl true 0b10 mode irqEn))
  | .badCmd00 mode irqEn => .txn (.write .b4 ctrlAddr (encodeCtrl true 0b00 mode irqEn))
  | .badCmd11 mode irqEn => .txn (.write .b4 ctrlAddr (encodeCtrl true 0b11 mode irqEn))
  | .statusW1c doneClr errClr => .txn (.write .b4 statusAddr (encodeStatus doneClr errClr))
  | .wr32 addr data => .txn (.write .b4 addr data)
  | .wr8 addr data => .txn (.write .b1 addr (data.setWidth 32))
  | .rd32 addr => .txn (.read .b4 addr)
  | .rd8 addr => .txn (.read .b1 addr)
  | .modeByte => .field .modeFlag [false]
  | .modePair => .field .modeFlag [true]
  | .classAbsent => .field .sizeClass [false, false]
  | .classF8 none => .field .sizeClass [false, true]
  | .classF8 (some v) => .field .value8 (bitsOf 8 v.toNat)
  | .classF16 none => .field .sizeClass [true, false]
  | .classF16 (some v) => .field .value16 (bitsOf 16 v.toNat)
  | .classF32 none => .field .sizeClass [true, true]
  | .classF32 (some v) => .field .value32 (bitsOf 32 v.toNat)
  | .pairAbsent => .field .existence [false]
  | .pairPresent => .field .existence [true]
  | .pairSize8 v => .field .pairSize (false :: bitsOf 8 v.toNat)
  | .pairSize16 v => .field .pairSize (true :: bitsOf 16 v.toNat)
  | .codeLeft => .field .codeBit [false]
  | .codeRight => .field .codeBit [true]
  | .pad n => .field .padding (List.replicate n false)

/-- The stream bits of a field instruction; a host command has none. -/
def fieldBits (i : Instr) : Bits :=
  match encode i with
  | .field _ bits => bits
  | .txn _ => []

/-! ### The host's numbering of a table row's bits -/

/-- What the bits of a table row stand for when nothing says where they stand. Rows of spec/opcode_table.json share
words: the spec tells them apart by the bus address or by the place in the stream, which are not part of the row's
bits (log entry 6). No bits are empty padding; one byte holds a mode flag if it is below 2 and else a size class if it
is below 4; everything else is a word written to CTRL. -/
def codeOfTableWord (nbits w : Nat) : Except DecodeError Code :=
  if 2 ^ nbits ≤ w || 32 < nbits then .error .wordTooWide
  else if nbits = 0 then .ok (.field .padding [])
  else if nbits ≤ 8 && w < 2 then .ok (.field .modeFlag (bitsOf 1 w))
  else if nbits ≤ 8 && w < 4 then .ok (.field .sizeClass (bitsOf 2 w))
  else .ok (.txn (.write .b4 ctrlAddr (BitVec.ofNat 32 w)))

/-- The instruction the decoder reads from a table row's bits (log entry 6). -/
def decodeTableWord (nbits w : Nat) : Option Instr :=
  match codeOfTableWord nbits w with
  | .ok c => (decode c).toOption
  | .error _ => none

end Sys2Proof
end

