-- ==== Sys2Proof/Config.lean ====
section
/-!
DEFINITION. What one implementation fixes: the two capacities (00_scope.md R13, R14; 92_eei_decisions.md D5), and the
values the spec leaves unspecified (93_implementation_defined.md S1 to S4), each an opaque constant with no body.
-/

namespace Sys2Proof

/-- The parameters of the step relation (10_state.md R32), in bytes. -/
structure Config where
  /-- IN_CAP, 00_scope.md R13. -/
  inCap : Nat
  /-- OUT_CAP, 00_scope.md R14. -/
  outCap : Nat
  deriving DecidableEq, Repr

/-- The ranges of 00_scope.md R13 and R14. -/
def Config.valid (c : Config) : Bool :=
  1 ≤ c.inCap && c.inCap ≤ 2 ^ 29 - 1 && 1 ≤ c.outCap && c.outCap ≤ 2 ^ 29 - 1

/-- IN_CAP − 1 of the block at hand: any value of its range 0..2^29 − 2, none chosen. UNVERIFIED, safe (log entry 1). -/
opaque Config.freeInCap : Fin 536870911

/-- OUT_CAP − 1 of the block at hand: any value of its range 0..2^29 − 2, none chosen. UNVERIFIED, safe (log entry 1). -/
opaque Config.freeOutCap : Fin 536870911

/-- The capacities of the block that `State.reset` describes (10_state.md R32). -/
def Config.platform : Config := ⟨Config.freeInCap.val + 1, Config.freeOutCap.val + 1⟩

/-- The byte at a bus address of IN_MEM or OUT_MEM that nothing has written since the reset numbered by the first
argument: unspecified (10_state.md R60, R61, R66; 93_implementation_defined.md S4). Free value, safe (log entry 7). -/
opaque Config.unwrittenByte : Nat → Nat → BitVec 8

/-- A byte of the output window read while busy: unspecified per byte (20_memory.md R109; 93_implementation_defined.md
S3). First argument: the model's counter; second: the bus address. Free value (log entry 8). -/
opaque Config.busyByte : Nat → Nat → BitVec 8

/-- A result or code register read while busy: unspecified (10_state.md R52, R53, R56, R58; 93_implementation_defined.md
S1, S2). First argument: the model's counter; second: the register's offset. Free value (log entry 8). -/
opaque Config.busyWord : Nat → Nat → BitVec 32

end Sys2Proof
end

