-- ==== Sys2Proof/Machine/Table.lean ====
section
/-!
DEFINITION. Sparse tables and memories as plain data: a list of (key, entry) pairs with strictly rising keys, so that
equal tables are equal lists (log entries 7 and 13).
-/

namespace Sys2Proof.Machine

/-- A table from keys to entries, in canonical form when `Table.wf` holds. -/
abbrev Table (α : Type) := List (Nat × α)

/-- The entry listed at key `k`, if any. -/
def Table.look {α : Type} (k : Nat) : Table α → Option α
  | [] => none
  | (j, v) :: t => if j = k then some v else Table.look k t

/-- The table with `v` at key `k`, every other entry kept. -/
def Table.put {α : Type} (k : Nat) (v : α) : Table α → Table α
  | [] => [(k, v)]
  | (j, w) :: t =>
    if k < j then (k, v) :: (j, w) :: t
    else if j = k then (k, v) :: t
    else (j, w) :: Table.put k v t

/-- The table with no entry at key `k`, every other entry kept. -/
def Table.del {α : Type} (k : Nat) : Table α → Table α
  | [] => []
  | (j, w) :: t => if j = k then t else (j, w) :: Table.del k t

/-- The keys rise strictly and start at `lo` or above. -/
def Table.risingFrom {α : Type} (lo : Nat) : Table α → Bool
  | [] => true
  | (j, _) :: t => lo ≤ j && Table.risingFrom (j + 1) t

/-- The canonical form: keys strictly rising, all below `bound`. -/
def Table.wf {α : Type} (bound : Nat) (t : Table α) : Bool :=
  Table.risingFrom 0 t && t.all (fun e => e.1 < bound)

/-- The entry at key `k` of a table whose absent entries read `d`. -/
def Table.lookD {α : Type} (d : α) (k : Nat) (t : Table α) : α :=
  (Table.look k t).getD d

/-- Sets key `k` of a table whose absent entries read `d`: writing `d` removes the entry. -/
def Table.putD {α : Type} [DecidableEq α] (d : α) (k : Nat) (v : α) (t : Table α) : Table α :=
  if v = d then Table.del k t else Table.put k v t

/-- A buffer's bytes: (index, byte) pairs, an index listed exactly when a write has reached it since the last reset. -/
abbrev Memory := List Host.Cell

/-- The byte written at index `i`; no value where nothing has been written since the last reset. -/
def Memory.read? (m : Memory) (i : Nat) : Option Byte :=
  Table.look i m

/-- The memory with `b` written at index `i`. -/
def Memory.write (m : Memory) (i : Nat) (b : Byte) : Memory :=
  Table.put i b m

/-- The canonical form: indices strictly rising, all below the capacity `cap`. An unlisted index reads as no value, so
no listed byte equals what an unlisted index reads as. -/
def Memory.wf (cap : Nat) (m : Memory) : Bool :=
  Table.wf cap m

end Sys2Proof.Machine
end

