-- ==== Sys2Proof/Machine/State.lean ====
section
/-!
DEFINITION. The state of the Huffman codec core, all of it plain data: the host registers (10_state.md R39 to R59), the
datapath registers (R33), PHASE and the loop positions (R36), the memories and tables (R60 to R65), and the model's own
fields. `State.reset` is the state of 10_state.md R66.
-/

namespace Sys2Proof.Machine

/-- Why the model stops. No rule of the spec stops the block: a run error is a next state (60_exceptions.md R410). -/
inductive Fault where
  /-- Raised by the engine in D_WALK when the walk stands at an Empty tree with symbols still to emit. No rule gives
  that a meaning, and no run reaches it: D_BUILD is entered only with a present symbol (45_orchestration.md R360,
  42_tree.md R255). Safe (log entry 17). -/
  | walkOnEmptyTree
  deriving DecidableEq, Repr

/-- Why an instruction has no meaning where it stands. -/
inductive Refusal where
  /-- Raised by the dispatch for an instruction that has no meaning yet. Safe. -/
  | notModelled (mnemonic : String)
  /-- Raised by the meaning of a stream field when the engine does not stand at that field: the field is then no part of
  the stream at this place, and the spec gives it no effect there. The step function never asks for it. Safe (log
  entry 16). -/
  | fieldNotHere
  deriving DecidableEq, Repr

/-- PHASE (10_state.md R36). The value 0xF is never produced, so no constructor stands for it. -/
inductive Phase where
  /-- 0x0: no run since reset. -/
  | idle
  /-- 0x1: COMPRESS, frequency accumulation. -/
  | cScan
  /-- 0x2: COMPRESS, range check. -/
  | cCheck
  /-- 0x3: COMPRESS, mode flag and header. -/
  | cHdr
  /-- 0x4: COMPRESS, tree build. -/
  | cBuild
  /-- 0x5: COMPRESS, code generation. -/
  | cCodegen
  /-- 0x6: COMPRESS, re-scan and emit codes. -/
  | cEmit
  /-- 0x7: COMPRESS, writer finish. -/
  | cFlush
  /-- 0x8: DECOMPRESS, read the mode flag. -/
  | dMode
  /-- 0x9: DECOMPRESS, read the header. -/
  | dHdr
  /-- 0xA: DECOMPRESS, tree build. -/
  | dBuild
  /-- 0xB: DECOMPRESS, bit walk. -/
  | dWalk
  /-- 0xC: DECOMPRESS, writer finish. -/
  | dFlush
  /-- 0xD: the last run completed without error. -/
  | done
  /-- 0xE: the last run ended with an error. -/
  | error
  deriving DecidableEq, Repr

/-- The run errors of 60_exceptions.md R400. -/
inductive RunError where
  /-- 1: START with a reserved CMD (R401). -/
  | badCmd
  /-- 2: START with IN_LEN > IN_CAP (R402). -/
  | inLenRange
  /-- 3: a count would pass 2^32 − 1 (R403). -/
  | freqOverflow
  /-- 4: a flush past OUT_CAP (R404). -/
  | outOverflow
  /-- 5: a pair count above 65535 (R405). -/
  | pairFreqRange
  deriving DecidableEq, Repr

/-- CTRL's stored fields (10_state.md R40); START is not stored. -/
structure Ctrl where
  /-- CMD. -/
  cmd : BitVec 2
  /-- MODE. -/
  mode : Bool
  /-- IRQ_EN. -/
  irqEn : Bool
  deriving DecidableEq, Repr

/-- STATUS's stored fields (10_state.md R45); BUSY and PHASE are read from `State.phase`. -/
structure Status where
  /-- DONE. -/
  done : Bool
  /-- ERR. -/
  err : Bool
  /-- TRUNC. -/
  trunc : Bool
  /-- RUN_MODE. -/
  runMode : Bool
  /-- ERRCODE. -/
  errcode : BitVec 4
  deriving DecidableEq, Repr

/-- OUT_LEN and the statistics registers (10_state.md R52, R53). -/
structure Results where
  /-- OUT_LEN. -/
  outLen : Word
  /-- STAT_ORIG. -/
  statOrig : Word
  /-- STAT_HDR_BITS. -/
  statHdrBits : Word
  /-- STAT_HDR_BYTES. -/
  statHdrBytes : Word
  /-- STAT_CODED_BITS. -/
  statCodedBits : Word
  /-- STAT_CODED_BYTES. -/
  statCodedBytes : Word
  /-- STAT_COMP. -/
  statComp : Word
  /-- TOTAL_LO. -/
  totalLo : Word
  /-- TOTAL_HI, 7:0. -/
  totalHi : BitVec 8
  /-- DECODED. -/
  decoded : Word
  /-- NSYM, 16:0. -/
  nsym : BitVec 17
  deriving DecidableEq, Repr

/-- The reader's registers (10_state.md R33, R34). -/
structure Reader where
  /-- rd_byte. -/
  byte : BitVec 32
  /-- rd_bit. -/
  bit : BitVec 3
  /-- rd_len. -/
  len : BitVec 32
  deriving DecidableEq, Repr

/-- The writer's registers (10_state.md R33, R35). -/
structure Writer where
  /-- wr_pend. -/
  pend : BitVec 8
  /-- wr_cnt. -/
  cnt : BitVec 3
  /-- wr_idx. -/
  idx : BitVec 32
  /-- wr_bits. -/
  bits : BitVec 32
  deriving DecidableEq, Repr

/-- The remaining datapath registers (10_state.md R33). -/
structure Datapath where
  /-- mode: false is single-byte, true is pair. -/
  mode : Bool
  /-- total. -/
  total : BitVec 40
  /-- done_syms. -/
  doneSyms : BitVec 40
  /-- nsym. -/
  nsym : BitVec 17
  /-- hdr_bits. -/
  hdrBits : BitVec 32
  /-- coded_bits. -/
  codedBits : BitVec 32
  /-- trunc. -/
  trunc : Bool
  deriving DecidableEq, Repr

/-- A symbol: a tagged value (00_scope.md R12), the tag of 42_tree.md R251. -/
structure Sym where
  /-- The tag: false is a single-byte symbol, true is a symbol pair. -/
  pair : Bool
  /-- The value. -/
  val : SymVal
  deriving DecidableEq, Repr

/-- A tree (00_scope.md R24), node frequencies 40 bits wide (00_scope.md R15). -/
inductive Tree where
  /-- The tree of the empty table. -/
  | empty
  /-- Leaf(sym, f). -/
  | leaf (sym : Sym) (f : BitVec 40)
  /-- Node(l, r, f, key). -/
  | node (l r : Tree) (f : BitVec 40) (key : Sym)
  deriving DecidableEq, Repr

/-- Where in the current phase's pseudocode the engine stands (10_state.md R36): before its first loop, in its first
loop, or in its second loop. -/
inductive Stage where
  /-- At the phase's start. -/
  | entry
  /-- In the first (or only) loop. -/
  | pass1
  /-- In the second loop. -/
  | pass2
  deriving DecidableEq, Repr

/-- The loop positions (10_state.md R36). -/
structure Loop where
  /-- Which loop. -/
  stage : Stage
  /-- The symbol index s of a table pass, 17 bits. -/
  s : BitVec 17
  /-- The walk's current node. -/
  cur : Tree
  /-- C_EMIT: the bits of the current symbol's code still to be written; none between symbols. -/
  emit : Option Bits
  deriving DecidableEq, Repr

/-- One thing the outside world lets happen (10_state.md R31, 70_reset_and_hazards.md R450, R470, R471). -/
inductive Event where
  /-- A host bus access. -/
  | host (t : Txn)
  /-- An engine step: the rest of the current phase. -/
  | engine
  /-- A finer engine step: one stream field or one loop iteration. -/
  | fine
  /-- The reset event. -/
  | reset
  deriving DecidableEq, Repr

/-- A bus response (20_memory.md R104, R105): OK or BUSERR, and the read data (0 for a write and for BUSERR). -/
structure Response where
  /-- True for OK, false for BUSERR. -/
  ok : Bool
  /-- The read data. -/
  data : Word
  deriving DecidableEq, Repr

/-- The state of one block instance. -/
structure State where
  /-- IN_CAP and OUT_CAP: parameters that no step changes (10_state.md R32). -/
  cfg : Config
  /-- CTRL (10_state.md R40). -/
  ctrl : Ctrl
  /-- STATUS (10_state.md R45). -/
  status : Status
  /-- PHASE (10_state.md R36). -/
  phase : Phase
  /-- IN_LEN (10_state.md R51). -/
  inLen : Word
  /-- OUT_LEN and the statistics (10_state.md R52, R53). -/
  res : Results
  /-- ERR_INFO (10_state.md R54). -/
  errInfo : Word
  /-- CODE_SEL.SYM (10_state.md R55). -/
  codeSel : BitVec 16
  /-- CODE_WSEL.WIDX (10_state.md R57). -/
  codeWsel : BitVec 11
  /-- The reader (10_state.md R33). -/
  rd : Reader
  /-- The writer (10_state.md R33). -/
  wr : Writer
  /-- The other datapath registers (10_state.md R33). -/
  dp : Datapath
  /-- The loop positions (10_state.md R36). -/
  loop : Loop
  /-- IN_MEM (10_state.md R60). -/
  inMem : Memory
  /-- OUT_MEM (10_state.md R61). -/
  outMem : Memory
  /-- The frequency table, an absent entry reading 0 (10_state.md R62). -/
  freq : Table (BitVec 32)
  /-- The tree (10_state.md R63). -/
  tree : Tree
  /-- The code table, an absent entry being invalid (10_state.md R64). -/
  code : Table Bits
  /-- The marker buffer cls, an absent entry reading 00 (43_header.md R286). -/
  cls : Table (BitVec 2)
  /-- The marker buffer ex, an absent entry reading 0 (43_header.md R287). -/
  ex : Table Bool
  /-- The model's own: what the outside world lets happen next, oldest first (log entry 2). -/
  pending : List Event
  /-- The model's own: the response of the last host access (log entry 11). -/
  resp : Option Response
  /-- The model's own: the index of the free values read while busy (log entry 8). -/
  freeCtr : Nat
  /-- The model's own: the number of the reset that left the memories unspecified (log entry 7). -/
  memSeed : Nat
  deriving DecidableEq, Repr

/-- The results that START and reset write (45_orchestration.md R341, 10_state.md R66). -/
def Results.zero : Results :=
  { outLen := 0, statOrig := 0, statHdrBits := 0, statHdrBytes := 0, statCodedBits := 0, statCodedBytes := 0
    statComp := 0, totalLo := 0, totalHi := 0, decoded := 0, nsym := 0 }

/-- The loop position at a phase's start. -/
def Loop.start : Loop := { stage := .entry, s := 0, cur := .empty, emit := none }

/-- The state right after reset (10_state.md R66, 70_reset_and_hazards.md R451). The datapath registers, the tables and
the loop positions are unspecified there; the values here are DESIGN CHOICE (log entry 10). The model's own fields are
DESIGN CHOICE too (log entries 2, 7, 8, 11). -/
def State.reset : State :=
  { cfg := Config.platform
    ctrl := { cmd := 0, mode := false, irqEn := false }
    status := { done := false, err := false, trunc := false, runMode := false, errcode := 0 }
    phase := .idle
    inLen := 0
    res := Results.zero
    errInfo := 0
    codeSel := 0
    codeWsel := 0
    rd := { byte := 0, bit := 0, len := 0 }
    wr := { pend := 0, cnt := 0, idx := 0, bits := 0 }
    dp := { mode := false, total := 0, doneSyms := 0, nsym := 0, hdrBits := 0, codedBits := 0, trunc := false }
    loop := Loop.start
    inMem := []
    outMem := []
    freq := []
    tree := .empty
    code := []
    cls := []
    ex := []
    pending := []
    resp := none
    freeCtr := 0
    memSeed := 0 }

end Sys2Proof.Machine
end

