-- ==== Sys2Proof/Machine/Flags.lean ====
section
/-!
DEFINITION. The flags: PHASE's code and busy (10_state.md R36, R37), the CTRL and STATUS words (R43, R45), W1C (R46),
irq (R50) and the error codes (60_exceptions.md R400).
-/

namespace Sys2Proof.Machine

/-- The 4-bit value of PHASE (10_state.md R36). -/
def Phase.code : Phase → BitVec 4
  | .idle => 0x0
  | .cScan => 0x1
  | .cCheck => 0x2
  | .cHdr => 0x3
  | .cBuild => 0x4
  | .cCodegen => 0x5
  | .cEmit => 0x6
  | .cFlush => 0x7
  | .dMode => 0x8
  | .dHdr => 0x9
  | .dBuild => 0xA
  | .dWalk => 0xB
  | .dFlush => 0xC
  | .done => 0xD
  | .error => 0xE

/-- Busy: PHASE ∉ {IDLE, DONE, ERROR} (10_state.md R37). -/
def Phase.busy : Phase → Bool
  | .idle | .done | .error => false
  | .cScan | .cCheck | .cHdr | .cBuild | .cCodegen | .cEmit | .cFlush => true
  | .dMode | .dHdr | .dBuild | .dWalk | .dFlush => true

/-- STATUS.BUSY (10_state.md R37, R45). -/
def State.busy (s : State) : Bool :=
  s.phase.busy

/-- ERRCODE of a run error (60_exceptions.md R400). -/
def RunError.code : RunError → BitVec 4
  | .badCmd => 1
  | .inLenRange => 2
  | .freqOverflow => 3
  | .outOverflow => 4
  | .pairFreqRange => 5

/-- What a read of CTRL returns: zext_32(IRQ_EN << 4 | MODE << 3 | CMD << 1) (10_state.md R43). -/
def State.ctrlWord (s : State) : Word :=
  0#27 ++ BitVec.ofBool s.ctrl.irqEn ++ BitVec.ofBool s.ctrl.mode ++ s.ctrl.cmd ++ 0#1

/-- What a read of STATUS returns (10_state.md R45): PHASE [15:12], ERRCODE [11:8], RUN_MODE 4, TRUNC 3, ERR 2, DONE 1,
BUSY 0, every other bit 0. -/
def State.statusWord (s : State) : Word :=
  0#16 ++ s.phase.code ++ s.status.errcode ++ 0#3 ++ BitVec.ofBool s.status.runMode ++ BitVec.ofBool s.status.trunc
    ++ BitVec.ofBool s.status.err ++ BitVec.ofBool s.status.done ++ BitVec.ofBool s.busy

/-- The effect of a STATUS write on the flags (10_state.md R46). -/
def State.clearFlags (doneClr errClr : Bool) (s : State) : State :=
  { s with status := { s.status with done := s.status.done && !doneClr, err := s.status.err && !errClr } }

/-- The interrupt output (10_state.md R50, 60_exceptions.md R420). -/
def State.irq (s : State) : Bool :=
  s.ctrl.irqEn && (s.status.done || s.status.err)

end Sys2Proof.Machine
end

