-- ==== Sys2Proof/Machine/Ops.lean ====
section
/-!
DEFINITION. The shared operations: reading the buffers, the reader (40_bitstream.md R200 to R207), raising a run error
(60_exceptions.md R410, the block's form of taking an exception), completing a run (45_orchestration.md R368), the
writer (40_bitstream.md R210 to R216), START (45_orchestration.md R340, R341) and the reset event (70_reset_and_hazards.md
R450).
-/

namespace Sys2Proof.Machine

/-! ### Buffers -/

/-- The bus address of IN[0] (20_memory.md R100). -/
def inBase : Nat := 0x40000000

/-- The bus address of OUT[0] (20_memory.md R100). -/
def outBase : Nat := 0x80000000

/-- IN[i]; a byte nothing has written since the last reset is a free value (10_state.md R60, R66; log entry 7). -/
def State.inByte (s : State) (i : Nat) : Byte :=
  (s.inMem.read? i).getD (Config.unwrittenByte s.memSeed (inBase + i))

/-- OUT[i]; a byte nothing has written since the last reset is a free value (10_state.md R61, R66; log entry 7). -/
def State.outByte (s : State) (i : Nat) : Byte :=
  (s.outMem.read? i).getD (Config.unwrittenByte s.memSeed (outBase + i))

/-! ### The reader -/

/-- reader_reset (40_bitstream.md R200). -/
def Reader.reset (r : Reader) : Reader :=
  { r with byte := 0, bit := 0 }

/-- The bit position 8 × rd_byte + rd_bit (10_state.md R34). -/
def Reader.pos (r : Reader) : Nat :=
  8 * r.byte.toNat + r.bit.toNat

/-- bits_left (40_bitstream.md R206). -/
def Reader.bitsLeft (r : Reader) : Nat :=
  8 * r.len.toNat - r.pos

/-- read_bit (40_bitstream.md R201): the next bit, or none for EOS, and the reader afterwards. -/
def Reader.readBit (byteAt : Nat → Byte) (r : Reader) : Option Bool × Reader :=
  if r.len.toNat ≤ r.byte.toNat then (none, r)
  else
    let b := (byteAt r.byte.toNat).getLsbD (7 - r.bit.toNat)
    if r.bit = 7 then (some b, { r with bit := 0, byte := r.byte + 1 })
    else (some b, { r with bit := r.bit + 1 })

/-- The loop of read_n_bits with `k` bits to go and the value `v` so far (40_bitstream.md R203). -/
def Reader.readNLoop (byteAt : Nat → Byte) : Nat → Nat → Reader → Option Nat × Reader
  | 0, v, r => (some v, r)
  | k + 1, v, r =>
    match r.readBit byteAt with
    | (none, r') => (none, r')
    | (some b, r') => Reader.readNLoop byteAt k (2 * v + b.toNat) r'

/-- read_n_bits(k) (40_bitstream.md R203). -/
def Reader.readN (byteAt : Nat → Byte) (k : Nat) (r : Reader) : Option Nat × Reader :=
  Reader.readNLoop byteAt k 0 r

/-- read_or_zero(k) (40_bitstream.md R207): a field cut off by the end of the stream reads 0 as a whole. -/
def Reader.readOrZero (byteAt : Nat → Byte) (k : Nat) (r : Reader) : Nat × Reader :=
  let p := r.readN byteAt k
  (p.1.getD 0, p.2)

/-- read_n_bits(k) of the block's input: the value. -/
def State.peekN (s : State) (k : Nat) : Option Nat :=
  (s.rd.readN s.inByte k).1

/-- The state after read_n_bits(k): only the reader has moved. -/
def State.skipN (k : Nat) (s : State) : State :=
  { s with rd := (s.rd.readN s.inByte k).2 }

/-! ### Ending a run -/

/-- The tree is not kept past the phase that last reads it (42_tree.md R260, 10_state.md R63): it is Empty afterwards, and
so is the walk's node (log entry 14). -/
def State.discardTree (s : State) : State :=
  { s with tree := .empty, loop := { s.loop with cur := .empty } }

/-- raise E(info) (60_exceptions.md R410, R411): the run ends here. The statistics keep the 0 that START wrote, the
writer's pending bits are discarded (wr_bits counts the flushed ones, 10_state.md R35; log entry 12), and the tree is not
kept (42_tree.md R260). -/
def State.raise (e : RunError) (info : Word) (s : State) : State :=
  { s.discardTree with
    wr := { pend := 0, cnt := 0, idx := s.wr.idx, bits := s.wr.idx <<< 3 }
    res := { s.res with outLen := s.wr.idx }
    code := []
    status := { s.status with trunc := false, errcode := e.code, err := true }
    errInfo := info
    phase := .error }

/-- The result registers of a completed run (45_orchestration.md R368, R370 to R376). -/
def State.results (compress : Bool) (s : State) : Results :=
  let orig := if compress then s.rd.len else s.wr.idx
  let comp := if compress then s.wr.idx else s.rd.len
  let hdrBytes := s.dp.hdrBits >>> 3
  { outLen := s.wr.idx
    statOrig := orig
    statHdrBits := s.dp.hdrBits
    statHdrBytes := hdrBytes
    statCodedBits := s.dp.codedBits
    statCodedBytes := comp - hdrBytes
    statComp := comp
    totalLo := s.dp.total.setWidth 32
    totalHi := s.dp.total.extractLsb' 32 8
    decoded := s.dp.doneSyms.setWidth 32
    nsym := s.dp.nsym }

/-- Completion with DONE (45_orchestration.md R368). -/
def State.complete (compress : Bool) (s : State) : State :=
  { s with
    res := s.results compress
    status := { s.status with trunc := s.dp.trunc, errcode := 0, done := true }
    errInfo := 0
    phase := .done }

/-- Where a pseudocode line leaves the run: going on, or ended by a raise, after which no later line is executed
(00_scope.md R23). -/
inductive Flow where
  /-- The run goes on. -/
  | run (s : State)
  /-- A raise has ended it; the state is the one after the raise. -/
  | ended (s : State)
  deriving DecidableEq, Repr

/-- The next line of pseudocode, executed only if the run goes on. -/
def Flow.andThen (f : Flow) (k : State → Flow) : Flow :=
  match f with
  | .run s => k s
  | .ended s => .ended s

/-- The state a step leaves, the run ended or not. -/
def Flow.state : Flow → State
  | .run s => s
  | .ended s => s

/-- The outcome of a step whose pseudocode ends so: a raise is a next state. -/
def Flow.outcome (f : Flow) : Host.Outcome State Fault Refusal :=
  .next f.state

/-! ### The writer -/

/-- flush(x) (40_bitstream.md R212, 60_exceptions.md R404). -/
def flush (x : Byte) (s : State) : Flow :=
  if s.cfg.outCap ≤ s.wr.idx.toNat then .ended (s.raise .outOverflow (s.phase.code.setWidth 32))
  else .run { s with outMem := s.outMem.write s.wr.idx.toNat x, wr := { s.wr with idx := s.wr.idx + 1 } }

/-- write_bit(b) (40_bitstream.md R210). The bit is counted after its byte is flushed, so that wr_bits never wraps
(10_state.md R67; log entry 19). -/
def writeBit (b : Bool) (s : State) : Flow :=
  let pend := (s.wr.pend <<< 1) ||| (BitVec.ofBool b).setWidth 8
  if s.wr.cnt = 7 then
    (flush pend s).andThen fun t =>
      .run { t with wr := { t.wr with pend := 0, cnt := 0, bits := t.wr.bits + 1 } }
  else .run { s with wr := { s.wr with pend := pend, bits := s.wr.bits + 1, cnt := s.wr.cnt + 1 } }

/-- Writes a bit string, first bit first. -/
def writeBits : Bits → State → Flow
  | [], s => .run s
  | b :: bs, s => (writeBit b s).andThen (writeBits bs)

/-- write_n_bits(n, v) (40_bitstream.md R211): the low n bits of v, most significant first. -/
def writeN : Nat → Nat → State → Flow
  | 0, _, s => .run s
  | n + 1, v, s => (writeBit (v.testBit n) s).andThen (writeN n v)

/-- finish() (40_bitstream.md R215). -/
def finish (s : State) : Flow :=
  if s.wr.cnt = 0 then .run s
  else
    (flush (s.wr.pend <<< (8 - s.wr.cnt.toNat)) s).andThen fun t =>
      .run { t with wr := { t.wr with pend := 0, cnt := 0 } }

/-- The number of padding bits at a stream position (30_encoding.md R153): (8 − (bits mod 8)) mod 8. -/
def padLength (bits : Nat) : Nat :=
  (8 - bits % 8) % 8

/-! ### Phases and START -/

/-- `PHASE <- p` (00_scope.md R21): the engine stands at the start of phase p (log entry 26). -/
def State.enter (p : Phase) (s : State) : State :=
  { s with phase := p, loop := Loop.start }

/-- init_run() (45_orchestration.md R341). It also initialises the marker buffers and the loop positions (10_state.md R65),
for which R341's table has no row: cls and ex all 0 and the phase's start are DESIGN CHOICE (log entry 27). -/
def State.initRun (s : State) : State :=
  let m := if s.ctrl.cmd = 0b01 then s.ctrl.mode else false
  { s with
    status := { done := false, err := false, trunc := false, runMode := m, errcode := 0 }
    errInfo := 0
    res := Results.zero
    code := []
    freq := []
    tree := .empty
    rd := { byte := 0, bit := 0, len := s.inLen }
    wr := { pend := 0, cnt := 0, idx := 0, bits := 0 }
    dp := { mode := m, total := 0, doneSyms := 0, nsym := 0, hdrBits := 0, codedBits := 0, trunc := false }
    loop := Loop.start
    cls := []
    ex := [] }

/-- The checks of START and the command's first phase, after init_run (45_orchestration.md R340; 60_exceptions.md R401,
R402, R430). -/
def State.launch (s : State) : State :=
  if s.ctrl.cmd != 0b01 && s.ctrl.cmd != 0b10 then s.raise .badCmd (s.ctrl.cmd.setWidth 32)
  else if s.inLen.toNat ≤ s.cfg.inCap then
    if s.ctrl.cmd = 0b01 then s.enter .cScan else s.enter .dMode
  else s.raise .inLenRange s.inLen

/-- START (45_orchestration.md R340). -/
def State.start (s : State) : State :=
  s.initRun.launch

/-- A write to CTRL (10_state.md R41, R42): while busy only IRQ_EN is stored; else the fields are stored, and START = 1
starts a run with them. -/
def State.writeCtrl (go : Bool) (cmd : BitVec 2) (mode irqEn : Bool) (s : State) : State :=
  if s.busy then { s with ctrl := { s.ctrl with irqEn := irqEn } }
  else
    let t := { s with ctrl := { cmd := cmd, mode := mode, irqEn := irqEn } }
    if go then t.start else t

/-! ### The host port and reset -/

/-- The response of a host access. -/
def State.respond (r : Response) (s : State) : State :=
  { s with resp := some r }

/-- OK with read data 0: the response of a write that passes its checks (20_memory.md R105). -/
def Response.okWrite : Response := { ok := true, data := 0 }

/-- BUSERR with data 0 (20_memory.md R111). -/
def Response.busErr : Response := { ok := false, data := 0 }

/-- The reset event (70_reset_and_hazards.md R450, R451): every piece of state takes its reset value. The parameters stay
(10_state.md R32), what the outside world does next stays, and the memories hold new unspecified bytes. -/
def State.resetEvent (s : State) : State :=
  { State.reset with cfg := s.cfg, pending := s.pending, freeCtr := s.freeCtr, memSeed := s.memSeed + 1 }

end Sys2Proof.Machine
end

