-- ==== Sys2Proof/Machine/Operands.lean ====
section
/-!
DEFINITION. The operands: where a host access goes and what it reads or writes there (20_memory.md R100 to R112,
10_state.md R39 to R59), and the stream field the engine stands at (30_encoding.md R144 to R153).
-/

namespace Sys2Proof.Machine

/-! ### Host accesses -/

/-- What a bus address names (20_memory.md R100, R101). -/
inductive Target where
  /-- The register window, by offset. -/
  | reg (off : Nat)
  /-- IN[i]. -/
  | inp (i : Nat)
  /-- OUT[i]. -/
  | out (i : Nat)
  /-- No window holds it. -/
  | unmapped
  deriving DecidableEq, Repr

/-- The window of a bus address (20_memory.md R100). -/
def busTarget (c : Config) (addr : Addr) : Target :=
  let a := addr.toNat
  if a < 0x1000 then .reg a
  else if inBase ≤ a && a - inBase < c.inCap then .inp (a - inBase)
  else if outBase ≤ a && a - outBase < c.outCap then .out (a - outBase)
  else .unmapped

/-- A register access must be 4 bytes, 4-aligned (20_memory.md R106). -/
def regAccessOk (n : Size) (off : Nat) : Bool :=
  n == .b4 && off % 4 == 0

/-- A window access is 1 byte at any index, or 4 bytes at a 4-aligned index and inside the capacity (20_memory.md
R107). -/
def windowAccessOk (n : Size) (i cap : Nat) : Bool :=
  match n with
  | .b1 => true
  | .b4 => i % 4 == 0 && i + 3 < cap

/-- The little-endian word of four bytes, the first at the lowest index (20_memory.md R107). -/
def wordOfBytes (b0 b1 b2 b3 : Byte) : Word :=
  b3 ++ b2 ++ b1 ++ b0

/-- The data of a window read of bytes `byteAt i`, ... (20_memory.md R107). -/
def windowRead (n : Size) (byteAt : Nat → Byte) (i : Nat) : Word :=
  match n with
  | .b1 => (byteAt i).setWidth 32
  | .b4 => wordOfBytes (byteAt i) (byteAt (i + 1)) (byteAt (i + 2)) (byteAt (i + 3))

/-- The buffer after a window write of the low bytes of `v` (20_memory.md R107). -/
def windowWrite (n : Size) (i : Nat) (v : Word) (m : Memory) : Memory :=
  match n with
  | .b1 => m.write i (v.setWidth 8)
  | .b4 => (((m.write i (v.extractLsb' 0 8)).write (i + 1) (v.extractLsb' 8 8)).write (i + 2) (v.extractLsb' 16 8)).write
      (i + 3) (v.extractLsb' 24 8)

/-- The byte a host read of OUT[i] sees: stored when not busy, unspecified while busy (20_memory.md R109; log entry 8). -/
def State.hostOutByte (s : State) (i : Nat) : Byte :=
  if s.busy then Config.busyByte s.freeCtr (outBase + i) else s.outByte i

/-- The entry CODE_SEL selects (10_state.md R56). -/
def State.selectedCode (s : State) : Option Bits :=
  Table.look s.codeSel.toNat s.code

/-- CODE_INFO while not busy: VALID in bit 31, LEN in bits 15:0 (10_state.md R56). -/
def State.codeInfoWord (s : State) : Word :=
  match s.selectedCode with
  | some c => 1#1 ++ 0#15 ++ BitVec.ofNat 16 c.length
  | none => 0

/-- Window `w` of a code: bit 31 − j is code bit 32w + j, bits past the end are 0 (10_state.md R58). -/
def codeWindow (c : Bits) (w : Nat) : Word :=
  let bits := (c.drop (32 * w)).take 32
  BitVec.ofNat 32 (bitsVal (bits ++ List.replicate (32 - bits.length) false))

/-- CODE_WORD while not busy (10_state.md R58). -/
def State.codeWordWord (s : State) : Word :=
  match s.selectedCode with
  | some c => codeWindow c s.codeWsel.toNat
  | none => 0

/-- A register that is unspecified while busy (10_state.md R52, R53, R56, R58; log entry 8); the bits outside `fields` are
reserved and read 0 even then (R39, 93_implementation_defined.md V3). -/
def State.unlessBusy (s : State) (off : Nat) (fields v : Word) : Word :=
  if s.busy then Config.busyWord s.freeCtr off &&& fields else v

/-- What a read of the register at an offset returns (10_state.md R39). -/
def State.readReg (s : State) (off : Nat) : Word :=
  match off with
  | 0x000 => s.ctrlWord
  | 0x004 => s.statusWord
  | 0x008 => s.inLen
  | 0x00C => s.unlessBusy 0x00C 0xFFFFFFFF s.res.outLen
  | 0x010 => s.unlessBusy 0x010 0xFFFFFFFF s.res.statOrig
  | 0x014 => s.unlessBusy 0x014 0xFFFFFFFF s.res.statHdrBits
  | 0x018 => s.unlessBusy 0x018 0xFFFFFFFF s.res.statHdrBytes
  | 0x01C => s.unlessBusy 0x01C 0xFFFFFFFF s.res.statCodedBits
  | 0x020 => s.unlessBusy 0x020 0xFFFFFFFF s.res.statCodedBytes
  | 0x024 => s.unlessBusy 0x024 0xFFFFFFFF s.res.statComp
  | 0x028 => s.unlessBusy 0x028 0xFFFFFFFF s.res.totalLo
  | 0x02C => s.unlessBusy 0x02C 0x000000FF (s.res.totalHi.setWidth 32)
  | 0x030 => s.unlessBusy 0x030 0xFFFFFFFF s.res.decoded
  | 0x034 => s.unlessBusy 0x034 0x0001FFFF (s.res.nsym.setWidth 32)
  | 0x038 => s.errInfo
  | 0x040 => s.codeSel.setWidth 32
  | 0x044 => s.unlessBusy 0x044 0x8000FFFF s.codeInfoWord
  | 0x048 => s.codeWsel.setWidth 32
  | 0x04C => s.unlessBusy 0x04C 0xFFFFFFFF s.codeWordWord
  | 0x050 => BitVec.ofNat 32 s.cfg.inCap
  | 0x054 => BitVec.ofNat 32 s.cfg.outCap
  | _ => 0

/-- The effect of a 4-byte write of `v` to the register at an offset (10_state.md R39 to R59, 20_memory.md R112): a
read-only register and a reserved offset ignore it. -/
def State.writeReg (off : Nat) (v : Word) (s : State) : State :=
  match off with
  | 0x000 => s.writeCtrl (v.getLsbD 0) (v.extractLsb' 1 2) (v.getLsbD 3) (v.getLsbD 4)
  | 0x004 => s.clearFlags (v.getLsbD 1) (v.getLsbD 2)
  | 0x008 => if s.busy then s else { s with inLen := v }
  | 0x040 => { s with codeSel := v.setWidth 16 }
  | 0x048 => { s with codeWsel := v.setWidth 11 }
  | _ => s

/-- MemRead(addr, n) (20_memory.md R104): the response. -/
def State.memRead (s : State) (n : Size) (addr : Addr) : Response :=
  match busTarget s.cfg addr with
  | .reg off => if regAccessOk n off then { ok := true, data := s.readReg off } else .busErr
  | .inp i => if windowAccessOk n i s.cfg.inCap then { ok := true, data := windowRead n s.inByte i } else .busErr
  | .out i => if windowAccessOk n i s.cfg.outCap then { ok := true, data := windowRead n s.hostOutByte i } else .busErr
  | .unmapped => .busErr

/-- A host read step: no state but the port's response changes (20_memory.md R104, R119). -/
def State.readStep (n : Size) (addr : Addr) (s : State) : State :=
  s.respond (s.memRead n addr)

/-- MemWrite(addr, n, v) (20_memory.md R105): a host write step. A write to IN while busy is discarded with OK (R108), a
write to OUT gets BUSERR (R110). -/
def State.writeStep (n : Size) (addr : Addr) (v : Word) (s : State) : State :=
  match busTarget s.cfg addr with
  | .reg off => if regAccessOk n off then (s.writeReg off v).respond .okWrite else s.respond .busErr
  | .inp i =>
    if windowAccessOk n i s.cfg.inCap then
      if s.busy then s.respond .okWrite
      else { s with inMem := windowWrite n i v s.inMem, resp := some .okWrite }
    else s.respond .busErr
  | .out _ => s.respond .busErr
  | .unmapped => s.respond .busErr

/-! ### Stream fields -/

/-- NSYMS of a mode (00_scope.md R17). -/
def nsyms (pair : Bool) : Nat :=
  if pair then 65536 else 256

/-- W of a mode (00_scope.md R17). -/
def symWidth (pair : Bool) : Nat :=
  if pair then 16 else 8

/-- freq[k] (10_state.md R62). -/
def State.freqAt (s : State) (k : Nat) : BitVec 32 :=
  Table.lookD 0 k s.freq

/-- cls[k] (43_header.md R286). -/
def State.clsAt (s : State) (k : Nat) : BitVec 2 :=
  Table.lookD 0 k s.cls

/-- ex[k] (43_header.md R287). -/
def State.exAt (s : State) (k : Nat) : Bool :=
  Table.lookD false k s.ex

/-- class(f) (43_header.md R281). -/
def sizeClass (f : BitVec 32) : BitVec 2 :=
  if f.toNat = 0 then 0b00
  else if f.toNat ≤ 255 then 0b01
  else if f.toNat ≤ 65535 then 0b10
  else 0b11

/-- width(c) (43_header.md R282). R282 gives none for class 00, which has no value: 0 is DESIGN CHOICE (log entry 9), and
no field is read with it. -/
def classWidth (c : BitVec 2) : Nat :=
  if c = 0b01 then 8 else if c = 0b10 then 16 else if c = 0b11 then 32 else 0

/-- psize(f) (43_header.md R284). -/
def pairSize (f : BitVec 32) : Bool :=
  255 < f.toNat

/-- The size class c as a marker (30_encoding.md R147). -/
def classMarker (c : BitVec 2) : Instr :=
  if c = 0b00 then .classAbsent else if c = 0b01 then .classF8 none else if c = 0b10 then .classF16 none else .classF32 none

/-- The value of a present symbol with frequency f, in the width of class c (30_encoding.md R148). -/
def classValue (c : BitVec 2) (f : BitVec 32) : Instr :=
  if c = 0b01 then .classF8 (some (f.setWidth 8))
  else if c = 0b10 then .classF16 (some (f.setWidth 16))
  else .classF32 (some f)

/-- The size bit and the value of a present pair with frequency f (30_encoding.md R150). -/
def pairValue (f : BitVec 32) : Instr :=
  if pairSize f then .pairSize16 (f.setWidth 16) else .pairSize8 (f.setWidth 8)

/-- The value field of class c. -/
def valueKind (c : BitVec 2) : FieldKind :=
  if c = 0b01 then .value8 else if c = 0b10 then .value16 else .value32

/-- One bit of the coded section (30_encoding.md R152). -/
def codeBit (b : Bool) : Instr :=
  if b then .codeRight else .codeLeft

/-- The next `k` input bits as read_or_zero sees them: all 0 when the stream ends among them (40_bitstream.md R207). -/
def State.peekField (s : State) (k : Nat) : Bits :=
  bitsOf k ((s.peekN k).getD 0)

/-- The next size bit and value as two read_or_zero fields (43_header.md R287). -/
def State.peekPairSize (s : State) : Bits :=
  let z := s.peekField 1
  let t := s.skipN 1
  z ++ t.peekField (if z = [true] then 16 else 8)

/-- The field DECOMPRESS stands at in its header, in the marker loop (43_header.md R286, R287). -/
def State.markerField (s : State) : Option Instr :=
  if s.dp.mode then (decodeField .existence (s.peekField 1)).toOption
  else (decodeField .sizeClass (s.peekField 2)).toOption

/-- The field DECOMPRESS stands at in its header, in the value loop; an absent symbol has none (43_header.md R286,
R287). -/
def State.valueField (s : State) : Option Instr :=
  if s.dp.mode then
    if s.exAt s.loop.s.toNat then (decodeField .pairSize s.peekPairSize).toOption else none
  else
    let c := s.clsAt s.loop.s.toNat
    if c = 0b00 then none else (decodeField (valueKind c) (s.peekField (classWidth c))).toOption

/-- The field of D_WALK (45_orchestration.md R361, R362): when every symbol is out, the rest of the byte is padding; at a
Node with a bit left, the next code bit; at a leaf or at the end of the stream, none. -/
def State.walkField (s : State) : Option Instr :=
  if s.dp.doneSyms = s.dp.total then some (.pad (padLength s.rd.pos))
  else
    match s.loop.cur with
    | .node _ _ _ _ =>
      match s.peekN 1 with
      | some v => (decodeField .codeBit (bitsOf 1 v)).toOption
      | none => none
    | .leaf _ _ => none
    | .empty => none

/-- The stream field the engine stands at, if any: in a COMPRESS phase the one it writes next (43_header.md R280, R281,
R283, R284; 45_orchestration.md R351, R356, R357), in a DECOMPRESS phase the one the decoder reads from the stream
(45_orchestration.md R358, R359, R362). -/
def State.nextField (s : State) : Option Instr :=
  match s.phase with
  | .cHdr =>
    match s.loop.stage with
    | .entry => some (if s.dp.mode then .modePair else .modeByte)
    | .pass1 =>
      if s.loop.s.toNat < nsyms s.dp.mode then
        if s.dp.mode then some (if s.freqAt s.loop.s.toNat = 0 then .pairAbsent else .pairPresent)
        else some (classMarker (sizeClass (s.freqAt s.loop.s.toNat)))
      else none
    | .pass2 =>
      if s.loop.s.toNat < nsyms s.dp.mode && s.freqAt s.loop.s.toNat != 0 then
        if s.dp.mode then some (pairValue (s.freqAt s.loop.s.toNat))
        else some (classValue (sizeClass (s.freqAt s.loop.s.toNat)) (s.freqAt s.loop.s.toNat))
      else none
  | .cEmit =>
    match s.loop.emit with
    | some (b :: _) => some (codeBit b)
    | some [] => none
    | none => none
  | .cFlush => some (.pad (padLength s.wr.bits.toNat))
  | .dMode => (decodeField .modeFlag (s.peekField 1)).toOption
  | .dHdr =>
    match s.loop.stage with
    | .entry => none
    | .pass1 => if s.loop.s.toNat < nsyms s.dp.mode then s.markerField else none
    | .pass2 => if s.loop.s.toNat < nsyms s.dp.mode then s.valueField else none
  | .dWalk => s.walkField
  | .idle | .cScan | .cCheck | .cBuild | .cCodegen | .dBuild | .dFlush | .done | .error => none

end Sys2Proof.Machine
end

