-- ==== Sys2Proof/Machine/Command.lean ====
section
/-!
DEFINITION. The CTRL and STATUS writes: CFG, COMPRESS, DECOMPRESS, BADCMD00, BADCMD11 and STATUS_W1C. Each is one host
step with response OK (20_memory.md R105, R112); what a START leads to is `State.writeCtrl` (10_state.md R41, R42).
-/

namespace Sys2Proof.Machine

/-- CFG: stores CMD, MODE and IRQ_EN; while busy only IRQ_EN (10_state.md R41, R42). -/
def execCfg (cmd : BitVec 2) (mode irqEn : Bool) (s : State) : Host.Outcome State Fault Refusal :=
  .next ((s.writeCtrl false cmd mode irqEn).respond .okWrite)

/-- COMPRESS: START with CMD = 01 (45_orchestration.md R340, R342). -/
def execCompress (mode irqEn : Bool) (s : State) : Host.Outcome State Fault Refusal :=
  .next ((s.writeCtrl true 0b01 mode irqEn).respond .okWrite)

/-- DECOMPRESS: START with CMD = 10 (45_orchestration.md R340, R343). -/
def execDecompress (mode irqEn : Bool) (s : State) : Host.Outcome State Fault Refusal :=
  .next ((s.writeCtrl true 0b10 mode irqEn).respond .okWrite)

/-- BADCMD00: START with the reserved CMD = 00 raises BAD_CMD (60_exceptions.md R401). -/
def execBadCmd00 (mode irqEn : Bool) (s : State) : Host.Outcome State Fault Refusal :=
  .next ((s.writeCtrl true 0b00 mode irqEn).respond .okWrite)

/-- BADCMD11: START with the reserved CMD = 11 raises BAD_CMD (60_exceptions.md R401). -/
def execBadCmd11 (mode irqEn : Bool) (s : State) : Host.Outcome State Fault Refusal :=
  .next ((s.writeCtrl true 0b11 mode irqEn).respond .okWrite)

/-- STATUS_W1C: clears DONE and ERR where the written bit is 1, and changes nothing else (10_state.md R46). -/
def execStatusW1c (doneClr errClr : Bool) (s : State) : Host.Outcome State Fault Refusal :=
  .next ((s.clearFlags doneClr errClr).respond .okWrite)

end Sys2Proof.Machine
end

