-- ==== Sys2Proof/Machine/Codec.lean ====
section
/-!
DEFINITION. What the engine computes between stream fields: the accumulator and the range check (41_frequency.md), the
tree builder (42_tree.md), the code generator (44_codegen.md), and the loop iterations and phase ends of COMPRESS and
DECOMPRESS that touch no stream field (45_orchestration.md R350 to R367).
-/

namespace Sys2Proof.Machine

/-! ### Frequency table -/

/-- One symbol counted: the body of accumulate's loop (41_frequency.md R230, R233). -/
def State.count (r : Nat) (s : State) : Flow :=
  let f := s.freqAt r
  if f.toNat = 2 ^ 32 - 1 then .ended (s.raise .freqOverflow (BitVec.ofNat 32 r))
  else
    .run { s with
      freq := Table.put r (f + 1) s.freq
      dp := { s.dp with total := s.dp.total + 1, nsym := if f = 0 then s.dp.nsym + 1 else s.dp.nsym } }

/-- The smallest symbol of a table in canonical form whose count exceeds 65535 (41_frequency.md R236). -/
def overRange (freq : Table (BitVec 32)) : Option Nat :=
  (freq.find? (fun e => 65535 < e.2.toNat)).map Prod.fst

/-- pair_range_check() (41_frequency.md R236, 60_exceptions.md R405). -/
def State.pairRangeCheck (s : State) : Flow :=
  if s.dp.mode then
    match overRange s.freq with
    | some k => .ended (s.raise .pairFreqRange (BitVec.ofNat 32 k))
    | none => .run s
  else .run s

/-- Σ_s freq[s] (43_header.md R289). -/
def freqTotal (freq : Table (BitVec 32)) : Nat :=
  (freq.map (fun e => e.2.toNat)).sum

/-- The number of present symbols (43_header.md R289). -/
def freqPresent (freq : Table (BitVec 32)) : Nat :=
  freq.countP (fun e => e.2 != 0)

/-! ### The tree -/

/-- The order of symbol identities: a pair before a byte, then the lower value (42_tree.md R251). -/
def Sym.before (a b : Sym) : Bool :=
  (a.pair && !b.pair) || (a.pair == b.pair && a.val.toNat < b.val.toNat)

/-- The smaller of two keys (42_tree.md R253). -/
def Sym.min (a b : Sym) : Sym :=
  if b.before a then b else a

/-- freq(t) (00_scope.md R24). R24 gives none for Empty: 0 is DESIGN CHOICE (log entry 9), and no run applies freq to
Empty. -/
def Tree.freq : Tree → BitVec 40
  | .empty => 0
  | .leaf _ f => f
  | .node _ _ f _ => f

/-- key(t) (00_scope.md R24). R24 gives none for Empty: the byte symbol 0 is DESIGN CHOICE (log entry 9), and no run
applies key to Empty. -/
def Tree.key : Tree → Sym
  | .empty => { pair := false, val := 0 }
  | .leaf s _ => s
  | .node _ _ _ k => k

/-- The extraction order `(freq, tag, key)` (42_tree.md R251). -/
def Tree.before (a b : Tree) : Bool :=
  a.freq.toNat < b.freq.toNat || (a.freq == b.freq && a.key.before b.key)

/-- extract_min of the queue `t :: q`: its least element under the order of R251, and the rest (42_tree.md R250). -/
def extractMin (t : Tree) : List Tree → Tree × List Tree
  | [] => (t, [])
  | u :: q =>
    if u.before t then
      let p := extractMin u q
      (p.1, t :: p.2)
    else
      let p := extractMin t q
      (p.1, u :: p.2)

/-- Node(a, b, freq(a) + freq(b), min(key(a), key(b))): the first extracted is the left child (42_tree.md R250, R252,
R253). -/
def Tree.merge (a b : Tree) : Tree :=
  .node a b (a.freq + b.freq) (a.key.min b.key)

/-- The merge loop of build_tree, at most `n` merges (42_tree.md R250). -/
def mergeLoop : Nat → List Tree → Tree
  | _, [] => .empty
  | _, [t] => t
  | 0, t :: _ :: _ => t
  | n + 1, t :: u :: q =>
    let a := extractMin t (u :: q)
    match a.2 with
    | [] => a.1
    | v :: q' =>
      let b := extractMin v q'
      mergeLoop n (a.1.merge b.1 :: b.2)

/-- The leaves of the present symbols (42_tree.md R250). -/
def leaves (pair : Bool) (freq : Table (BitVec 32)) : List Tree :=
  (freq.filter (fun e => e.2 != 0)).map fun e =>
    .leaf { pair := pair, val := BitVec.ofNat 16 e.1 } (e.2.setWidth 40)

/-- build_tree(freq) (42_tree.md R250, R254, R255). -/
def buildTree (pair : Bool) (freq : Table (BitVec 32)) : Tree :=
  mergeLoop (leaves pair freq).length (leaves pair freq)

/-! ### The code table -/

/-- gen(t, p) (44_codegen.md R320). R320 gives none for Empty: leaving the code table as it is, is DESIGN CHOICE (log entry
9), and no run calls gen on Empty. -/
def genCodes : Tree → Bits → Table Bits → Table Bits
  | .empty, _, code => code
  | .leaf s _, p, code => Table.put s.val.toNat p code
  | .node l r _ _, p, code => genCodes r (p ++ [true]) (genCodes l (p ++ [false]) code)

/-! ### Loop iterations and phase ends -/

/-- The loop position moves to the next symbol. -/
def State.nextSym (s : State) : State :=
  { s with loop := { s.loop with s := s.loop.s + 1 } }

/-- The loop position moves to the start of a loop. -/
def State.toStage (g : Stage) (s : State) : State :=
  { s with loop := { s.loop with stage := g, s := 0 } }

/-- C_SCAN (45_orchestration.md R350, 41_frequency.md R230): first the loop's set-up, then one symbol. -/
def scanStep (s : State) : Flow :=
  match s.loop.stage with
  | .entry => .run ({ s with rd := s.rd.reset, dp := { s.dp with total := 0, nsym := 0 } }.toStage .pass1)
  | .pass1 | .pass2 =>
    match s.peekN (symWidth s.dp.mode) with
    | none => .run ((s.skipN (symWidth s.dp.mode)).enter .cCheck)
    | some r => (s.skipN (symWidth s.dp.mode)).count r

/-- C_CHECK (45_orchestration.md R352, R353). -/
def checkStep (s : State) : Flow :=
  s.pairRangeCheck.andThen fun t => .run (t.enter (if t.dp.total = 0 then .cFlush else .cHdr))

/-- C_HDR where no field is left in a loop or the symbol has none (45_orchestration.md R351, 43_header.md R280, R283). -/
def headerOutStep (s : State) : Flow :=
  match s.loop.stage with
  | .entry => .run (s.toStage .pass1)
  | .pass1 => .run (s.toStage .pass2)
  | .pass2 =>
    if s.loop.s.toNat < nsyms s.dp.mode then .run s.nextSym
    else .run ({ s with dp := { s.dp with hdrBits := s.wr.bits } }.enter .cBuild)

/-- C_BUILD (45_orchestration.md R354). -/
def buildOutStep (s : State) : Flow :=
  .run ({ s with tree := buildTree s.dp.mode s.freq }.enter .cCodegen)

/-- C_CODEGEN (45_orchestration.md R355), the last phase of COMPRESS that reads the tree (42_tree.md R260). -/
def codegenStep (s : State) : Flow :=
  .run ({ s with code := genCodes s.tree [] s.code }.discardTree.enter .cEmit)

/-- C_EMIT between code bits (45_orchestration.md R356): the loop's set-up, the end of a symbol's code, or the next
symbol; a symbol with no valid code is skipped (R383). -/
def emitStep (s : State) : Flow :=
  match s.loop.stage with
  | .entry => .run ({ s with rd := s.rd.reset }.toStage .pass1)
  | .pass1 | .pass2 =>
    match s.loop.emit with
    | some _ =>
      .run { s with dp := { s.dp with doneSyms := s.dp.doneSyms + 1 }, loop := { s.loop with emit := none } }
    | none =>
      match s.peekN (symWidth s.dp.mode) with
      | none =>
        .run ({ s.skipN (symWidth s.dp.mode) with dp := { s.dp with codedBits := s.wr.bits - s.dp.hdrBits } }.enter .cFlush)
      | some r =>
        let t := s.skipN (symWidth s.dp.mode)
        match Table.look r s.code with
        | some c => .run { t with loop := { t.loop with emit := some c } }
        | none => .run t

/-- D_HDR where no field is left in a loop or the symbol has none (45_orchestration.md R359, R360; 43_header.md R286 to
R289). -/
def headerInStep (s : State) : Flow :=
  match s.loop.stage with
  | .entry => .run (s.toStage .pass1)
  | .pass1 => .run (s.toStage .pass2)
  | .pass2 =>
    if s.loop.s.toNat < nsyms s.dp.mode then
      .run { s with freq := Table.putD 0 s.loop.s.toNat 0 s.freq }.nextSym
    else
      let t := { s with
        dp := { s.dp with
          total := BitVec.ofNat 40 (freqTotal s.freq)
          nsym := BitVec.ofNat 17 (freqPresent s.freq)
          hdrBits := BitVec.ofNat 32 s.rd.pos } }
      .run (t.enter (if t.dp.total = 0 then .dFlush else .dBuild))

/-- D_BUILD (45_orchestration.md R367). -/
def buildInStep (s : State) : Flow :=
  let t := { s with tree := buildTree s.dp.mode s.freq }.enter .dWalk
  .run { t with loop := { t.loop with cur := t.tree } }

/-- D_WALK at a leaf or at the end of the stream (45_orchestration.md R363 to R365); the walk at an Empty tree has no
meaning (42_tree.md R255). -/
def walkStep (s : State) : Host.Outcome State Fault Refusal :=
  match s.loop.cur with
  | .leaf sym _ =>
    ((writeN (symWidth s.dp.mode) sym.val.toNat s).andThen fun t =>
      .run { t with
        dp := { t.dp with doneSyms := t.dp.doneSyms + 1 }
        loop := { t.loop with cur := t.tree } }).outcome
  | .node _ _ _ _ => .next ({ s with dp := { s.dp with trunc := true } }.discardTree.enter .dFlush)
  | .empty => .fault .walkOnEmptyTree

/-- finish() and the completion (45_orchestration.md R357, R366, R368). -/
def flushAndComplete (compress : Bool) (s : State) : Flow :=
  (finish s).andThen fun t => .run (t.complete compress)

/-- The engine's next loop iteration or phase end, where it stands at no stream field. The phases C_FLUSH and D_MODE
always stand at a field; while not busy the engine takes no step (70_reset_and_hazards.md R470). -/
def internalStep (s : State) : Host.Outcome State Fault Refusal :=
  match s.phase with
  | .cScan => (scanStep s).outcome
  | .cCheck => (checkStep s).outcome
  | .cHdr => (headerOutStep s).outcome
  | .cBuild => (buildOutStep s).outcome
  | .cCodegen => (codegenStep s).outcome
  | .cEmit => (emitStep s).outcome
  | .dHdr => (headerInStep s).outcome
  | .dBuild => (buildInStep s).outcome
  | .dWalk => walkStep s
  | .dFlush => (flushAndComplete false s).outcome
  | .cFlush | .dMode => .next s
  | .idle | .done | .error => .next s

end Sys2Proof.Machine
end

