-- ==== Sys2Proof/Machine/StreamHeader.lean ====
section
/-!
DEFINITION. The fields of the mode flag and the header: MODE_*, CLASS_*, PAIR_* (30_encoding.md R145 to R151). In C_HDR
the engine writes the field (45_orchestration.md R351; 43_header.md R280, R283); in D_MODE and D_HDR it reads the field
(45_orchestration.md R358, R359; 43_header.md R286, R287). A field has a meaning only where the engine stands at it (log
entry 16).
-/

namespace Sys2Proof.Machine

/-- The meaning of field `i` where the engine stands at it. -/
def atField (i : Instr) (s : State) (k : Host.Outcome State Fault Refusal) : Host.Outcome State Fault Refusal :=
  if s.nextField = some i then k else .refused .fieldNotHere

/-- The mode flag (45_orchestration.md R351, R358). -/
def modeField (pair : Bool) (i : Instr) (s : State) : Host.Outcome State Fault Refusal :=
  match s.phase with
  | .cHdr => ((writeBits (fieldBits i) s).andThen fun t => .run (t.toStage .pass1)).outcome
  | .dMode =>
    .next ({ s.skipN 1 with
      dp := { s.dp with mode := pair }
      status := { s.status with runMode := pair } }.enter .dHdr)
  | _ => .refused .fieldNotHere

/-- A header field of the current symbol: COMPRESS writes its bits (43_header.md R280, R283), DECOMPRESS does `decoded`
(43_header.md R286, R287); the loop then moves to the next symbol. -/
def headerField (i : Instr) (decoded : State → State) (s : State) : Host.Outcome State Fault Refusal :=
  match s.phase with
  | .cHdr => ((writeBits (fieldBits i) s).andThen fun t => .run t.nextSym).outcome
  | .dHdr => .next (decoded s).nextSym
  | _ => .refused .fieldNotHere

/-- `cls[s] <- read_or_zero(2)` (43_header.md R286). -/
def State.decodeClass (c : BitVec 2) (s : State) : State :=
  { s.skipN 2 with cls := Table.putD 0 s.loop.s.toNat c s.cls }

/-- `ex[s] <- read_or_zero(1)` (43_header.md R287). -/
def State.decodeExistence (e : Bool) (s : State) : State :=
  { s.skipN 1 with ex := Table.putD false s.loop.s.toNat e s.ex }

/-- `freq[s] <- read_or_zero(width)` (43_header.md R286, R287); 0 is the absent entry (43_header.md R288). -/
def State.decodeFreq (width : Nat) (f : BitVec 32) (s : State) : State :=
  { s.skipN width with freq := Table.putD 0 s.loop.s.toNat f s.freq }

/-- MODE_BYTE: write_bit(0) in C_HDR; mode ← 0 and RUN_MODE ← 0 in D_MODE (30_encoding.md R145). -/
def execModeByte (s : State) : Host.Outcome State Fault Refusal :=
  atField .modeByte s (modeField false .modeByte s)

/-- MODE_PAIR: write_bit(1) in C_HDR; mode ← 1 and RUN_MODE ← 1 in D_MODE (30_encoding.md R145). -/
def execModePair (s : State) : Host.Outcome State Fault Refusal :=
  atField .modePair s (modeField true .modePair s)

/-- CLASS_ABSENT: size class 00 (30_encoding.md R147). -/
def execClassAbsent (s : State) : Host.Outcome State Fault Refusal :=
  atField .classAbsent s (headerField .classAbsent (State.decodeClass 0b00) s)

/-- CLASS_F8: size class 01, and in the value section an 8-bit frequency (30_encoding.md R147, R148). -/
def execClassF8 (value : Option (BitVec 8)) (s : State) : Host.Outcome State Fault Refusal :=
  atField (.classF8 value) s (headerField (.classF8 value)
    (match value with
      | none => State.decodeClass 0b01
      | some v => State.decodeFreq 8 (v.setWidth 32)) s)

/-- CLASS_F16: size class 10, and in the value section a 16-bit frequency (30_encoding.md R147, R148). -/
def execClassF16 (value : Option (BitVec 16)) (s : State) : Host.Outcome State Fault Refusal :=
  atField (.classF16 value) s (headerField (.classF16 value)
    (match value with
      | none => State.decodeClass 0b10
      | some v => State.decodeFreq 16 (v.setWidth 32)) s)

/-- CLASS_F32: size class 11, the 32-bit tier (90_conflicts.md C1), and in the value section a 32-bit frequency
(30_encoding.md R147, R148). -/
def execClassF32 (value : Option (BitVec 32)) (s : State) : Host.Outcome State Fault Refusal :=
  atField (.classF32 value) s (headerField (.classF32 value)
    (match value with
      | none => State.decodeClass 0b11
      | some v => State.decodeFreq 32 v) s)

/-- PAIR_ABSENT: existence bit 0 (30_encoding.md R149). -/
def execPairAbsent (s : State) : Host.Outcome State Fault Refusal :=
  atField .pairAbsent s (headerField .pairAbsent (State.decodeExistence false) s)

/-- PAIR_PRESENT: existence bit 1 (30_encoding.md R149). -/
def execPairPresent (s : State) : Host.Outcome State Fault Refusal :=
  atField .pairPresent s (headerField .pairPresent (State.decodeExistence true) s)

/-- PAIR_SIZE8: size bit 0 and an 8-bit frequency (30_encoding.md R150). -/
def execPairSize8 (value : BitVec 8) (s : State) : Host.Outcome State Fault Refusal :=
  atField (.pairSize8 value) s
    (headerField (.pairSize8 value) (fun t => (t.skipN 1).decodeFreq 8 (value.setWidth 32)) s)

/-- PAIR_SIZE16: size bit 1 and a 16-bit frequency (30_encoding.md R150). -/
def execPairSize16 (value : BitVec 16) (s : State) : Host.Outcome State Fault Refusal :=
  atField (.pairSize16 value) s
    (headerField (.pairSize16 value) (fun t => (t.skipN 1).decodeFreq 16 (value.setWidth 32)) s)

end Sys2Proof.Machine
end

