-- ==== Sys2Proof/Machine/StreamCode.lean ====
section
/-!
DEFINITION. The fields of the coded section and the padding: CODE_LEFT, CODE_RIGHT and PAD (30_encoding.md R152, R153).
In C_EMIT the engine writes a code bit (45_orchestration.md R356), in D_WALK it descends by one (R362). The padding is
written by C_FLUSH's finish (40_bitstream.md R215); the decoder stops before it and never reads it (45_orchestration.md
R361).
-/

namespace Sys2Proof.Machine

/-- The child a code bit leads to (45_orchestration.md R362). R362 gives none for a Leaf or Empty: staying there is DESIGN
CHOICE (log entry 9), and the walk applies it to a Node only. -/
def Tree.child (b : Bool) : Tree → Tree
  | .node l r _ _ => if b then r else l
  | .leaf s f => .leaf s f
  | .empty => .empty

/-- One bit of the coded section (45_orchestration.md R356, R362). -/
def codeField (b : Bool) (i : Instr) (s : State) : Host.Outcome State Fault Refusal :=
  match s.phase with
  | .cEmit =>
    ((writeBits (fieldBits i) s).andThen fun t =>
      .run { t with loop := { t.loop with emit := t.loop.emit.map List.tail } }).outcome
  | .dWalk =>
    .next { s.skipN 1 with
      dp := { s.dp with codedBits := s.dp.codedBits + 1 }
      loop := { s.loop with cur := s.loop.cur.child b } }
  | _ => .refused .fieldNotHere

/-- The padding: C_FLUSH completes the last byte and the run (45_orchestration.md R357); D_WALK ends without reading it
(45_orchestration.md R361). -/
def padField (s : State) : Host.Outcome State Fault Refusal :=
  match s.phase with
  | .cFlush => (flushAndComplete true s).outcome
  | .dWalk => .next (s.discardTree.enter .dFlush)
  | _ => .refused .fieldNotHere

/-- CODE_LEFT: write_bit(0) in C_EMIT; descend to the left child in D_WALK (30_encoding.md R152). -/
def execCodeLeft (s : State) : Host.Outcome State Fault Refusal :=
  atField .codeLeft s (codeField false .codeLeft s)

/-- CODE_RIGHT: write_bit(1) in C_EMIT; descend to the right child in D_WALK (30_encoding.md R152). -/
def execCodeRight (s : State) : Host.Outcome State Fault Refusal :=
  atField .codeRight s (codeField true .codeRight s)

/-- PAD: n zero bits end the stream (30_encoding.md R153). -/
def execPad (n : Nat) (s : State) : Host.Outcome State Fault Refusal :=
  atField (.pad n) s (padField s)

end Sys2Proof.Machine
end

