-- ==== Sys2Proof/Machine/Transaction.lean ====
section
/-!
DEFINITION. The host transactions WR32, WR8, RD32 and RD8 (30_encoding.md R171, 20_memory.md R104, R105). The response
is in `State.resp`.
-/

namespace Sys2Proof.Machine

/-- WR32 addr, data: MemWrite(addr, 4, data) (20_memory.md R105). -/
def execWr32 (addr : Addr) (data : Word) (s : State) : Host.Outcome State Fault Refusal :=
  .next (s.writeStep .b4 addr data)

/-- WR8 addr, data: MemWrite(addr, 1, data) (20_memory.md R105). -/
def execWr8 (addr : Addr) (data : Byte) (s : State) : Host.Outcome State Fault Refusal :=
  .next (s.writeStep .b1 addr (data.setWidth 32))

/-- RD32 addr: MemRead(addr, 4) (20_memory.md R104). -/
def execRd32 (addr : Addr) (s : State) : Host.Outcome State Fault Refusal :=
  .next (s.readStep .b4 addr)

/-- RD8 addr: MemRead(addr, 1) (20_memory.md R104). -/
def execRd8 (addr : Addr) (s : State) : Host.Outcome State Fault Refusal :=
  .next (s.readStep .b1 addr)

end Sys2Proof.Machine
end

