-- ==== Sys2Proof/Machine/Dispatch.lean ====
section
/-! DEFINITION. The dispatch: one arm per constructor of Instr. -/

namespace Sys2Proof.Machine

def exec (i : Instr) (s : State) : Host.Outcome State Fault Refusal :=
  match i with
  | .cfg cmd mode irqEn => Sys2Proof.Machine.execCfg cmd mode irqEn s
  | .compress mode irqEn => Sys2Proof.Machine.execCompress mode irqEn s
  | .decompress mode irqEn => Sys2Proof.Machine.execDecompress mode irqEn s
  | .badCmd00 mode irqEn => Sys2Proof.Machine.execBadCmd00 mode irqEn s
  | .badCmd11 mode irqEn => Sys2Proof.Machine.execBadCmd11 mode irqEn s
  | .statusW1c doneClr errClr => Sys2Proof.Machine.execStatusW1c doneClr errClr s
  | .wr32 addr data => Sys2Proof.Machine.execWr32 addr data s
  | .wr8 addr data => Sys2Proof.Machine.execWr8 addr data s
  | .rd32 addr => Sys2Proof.Machine.execRd32 addr s
  | .rd8 addr => Sys2Proof.Machine.execRd8 addr s
  | .modeByte => Sys2Proof.Machine.execModeByte s
  | .modePair => Sys2Proof.Machine.execModePair s
  | .classAbsent => Sys2Proof.Machine.execClassAbsent s
  | .classF8 value => Sys2Proof.Machine.execClassF8 value s
  | .classF16 value => Sys2Proof.Machine.execClassF16 value s
  | .classF32 value => Sys2Proof.Machine.execClassF32 value s
  | .pairAbsent => Sys2Proof.Machine.execPairAbsent s
  | .pairPresent => Sys2Proof.Machine.execPairPresent s
  | .pairSize8 value => Sys2Proof.Machine.execPairSize8 value s
  | .pairSize16 value => Sys2Proof.Machine.execPairSize16 value s
  | .codeLeft => Sys2Proof.Machine.execCodeLeft s
  | .codeRight => Sys2Proof.Machine.execCodeRight s
  | .pad n => Sys2Proof.Machine.execPad n s

end Sys2Proof.Machine
end

