-- ==== Sys2Proof/Machine/Engine.lean ====
section
/-!
DEFINITION. The engine: the finer step (70_reset_and_hazards.md R471), the engine step of R470 made of finer steps, what
each event of the outside world does, and how a word is placed where the step fetches.
-/

namespace Sys2Proof.Machine

/-- One finer step of the engine (70_reset_and_hazards.md R471): the stream field it stands at, or else one loop
iteration or phase end. While not busy the engine takes no step (R470). -/
def fineStep (s : State) : Host.Outcome State Fault Refusal :=
  if s.busy then
    match s.nextField with
    | some i => exec i s
    | none => internalStep s
  else .next s

/-- Finer steps until PHASE changes, at most `n` of them. -/
def runPhase : Nat → State → Host.Outcome State Fault Refusal
  | 0, s => .next s
  | n + 1, s =>
    match fineStep s with
    | .next t => if t.phase = s.phase then runPhase n t else .next t
    | .fault f => .fault f
    | .refused r => .refused r

/-- More finer steps than any phase has (45_orchestration.md R345; log entry 18): two table passes, the scans and the
walk over the input, and the writes that OUT_CAP allows. -/
def State.phaseBound (s : State) : Nat :=
  16 * s.rd.len.toNat + 16 * s.cfg.outCap + 131200

/-- An engine step: the current phase from where the engine stands to the phase transition, the completion or the raise
(70_reset_and_hazards.md R470). -/
def engineStep (s : State) : Host.Outcome State Fault Refusal :=
  runPhase s.phaseBound s

/-- The free values of the next step are new ones, after any step but a host read (log entry 8). -/
def State.newFree (s : State) : State :=
  { s with freeCtr := s.freeCtr + 1 }

/-- An outcome with the next state changed by `f`. -/
def mapNext (f : State → State) (o : Host.Outcome State Fault Refusal) : Host.Outcome State Fault Refusal :=
  match o with
  | .next s => .next (f s)
  | .fault r => .fault r
  | .refused r => .refused r

/-- A host access: the instruction the transaction decodes to. A read has no side effect, so it leaves the free values
as they are (20_memory.md R104, R119). -/
def hostStep (t : Txn) (s : State) : Host.Outcome State Fault Refusal :=
  match t with
  | .read n addr => exec (decodeTxn (.read n addr)) s
  | .write n addr data => mapNext State.newFree (exec (decodeTxn (.write n addr data)) s)

/-- What one event of the outside world does, the event already taken off the list. -/
def eventStep (e : Event) (s : State) : Host.Outcome State Fault Refusal :=
  match e with
  | .host t => hostStep t s
  | .engine => mapNext State.newFree (if s.busy then engineStep s else .next s)
  | .fine => mapNext State.newFree (fineStep s)
  | .reset => .next s.resetEvent.newFree

/-- With nothing listed, a busy engine takes its step (70_reset_and_hazards.md R472) and an idle block waits for the host
(R452). -/
def quietStep (s : State) : Host.Outcome State Fault Refusal :=
  if s.busy then mapNext State.newFree (engineStep s) else .next s

/-- The state with a transaction as the next thing on the host port. -/
def State.withTxn (t : Txn) (s : State) : State :=
  { s with pending := .host t :: s.pending }

/-- The state with the engine standing at the mode flag of a stream whose first bits are `bits` (at most 8), and a finer
engine step next (45_orchestration.md R358). -/
def State.atModeFlag (bits : Bits) (s : State) : State :=
  { s with
    phase := .dMode
    rd := { byte := 0, bit := 0, len := 1 }
    inMem := s.inMem.write 0 (BitVec.ofNat 8 (bitsVal (bits ++ List.replicate (8 - bits.length) false)))
    pending := .fine :: s.pending }

/-- The state with the engine standing at the first size class of a byte-mode header whose first bits are `bits`, and a
finer engine step next (43_header.md R286). -/
def State.atSizeClass (bits : Bits) (s : State) : State :=
  { s.atModeFlag (false :: bits) with
    phase := .dHdr
    rd := { byte := 0, bit := 1, len := 1 }
    dp := { s.dp with mode := false }
    loop := { Loop.start with stage := .pass1 } }

/-- The state with the engine at C_FLUSH with nothing pending, where the padding is empty, and a finer engine step next
(45_orchestration.md R357). -/
def State.atPadding (s : State) : State :=
  { s with phase := .cFlush, wr := { s.wr with cnt := 0, bits := 0 }, pending := .fine :: s.pending }

end Sys2Proof.Machine
end

