-- ==== Sys2Proof/Machine/Step.lean ====
section
/-! DEFINITION. The step, and the state whose next step runs a given word. -/

namespace Sys2Proof.Machine

/-- One step of the block: the oldest event of the outside world, or the quiet step (10_state.md R31; log entries 2, 3). -/
def step (s : State) : Host.Outcome State Fault Refusal :=
  match s.pending with
  | e :: rest => eventStep e { s with pending := rest }
  | [] => quietStep s

/-- The state whose next step fetches and runs the table word `w` of `nbits` bits (log entries 5, 6): a CTRL word is the
next transaction on the host port; a stream field is what the engine stands at. -/
def State.withFetchWord (s : State) (nbits w : Nat) : State :=
  match codeOfTableWord nbits w with
  | .ok (.txn t) => s.withTxn t
  | .ok (.field .sizeClass bits) => s.atSizeClass bits
  | .ok (.field .padding _) => s.atPadding
  | .ok (.field _ bits) => s.atModeFlag bits
  | .error _ => s

end Sys2Proof.Machine
end

