-- ==== Sys2Proof/Safety.lean ====
section
/-!
DEFINITION. The terms in which claims are stated: the invariant of every run, the bits of a buffer seen as a stream, the
allowed phase transitions, and what a tree or a code table is.
-/

namespace Sys2Proof.Machine

/-! ### Streams -/

/-- Bit p of the stream that the bytes `byteAt 0`, `byteAt 1`, … form, most significant bit first (20_memory.md R102,
R113). -/
def streamBit (byteAt : Nat → Byte) (p : Nat) : Bool :=
  (byteAt (p / 8)).getLsbD (7 - p % 8)

/-- The k bits of the stream from position p on. -/
def streamBits (byteAt : Nat → Byte) (p : Nat) : Nat → Bits
  | 0 => []
  | k + 1 => streamBit byteAt p :: streamBits byteAt (p + 1) k

/-- The reader stands inside its input or at its end (40_bitstream.md R201, R206). -/
def Reader.ok (r : Reader) : Prop :=
  r.byte.toNat ≤ r.len.toNat ∧ (r.byte.toNat = r.len.toNat → r.bit = 0)

/-- The writer counts its bits (10_state.md R35), and its pending byte holds no more than wr_cnt significant bits
(40_bitstream.md R210). -/
def Writer.ok (w : Writer) : Prop :=
  w.bits.toNat = 8 * w.idx.toNat + w.cnt.toNat ∧ w.pend.toNat < 2 ^ w.cnt.toNat

/-- The output bit stream: the bits the writer has accepted this run (20_memory.md R102), the flushed bytes' bits and
then the pending ones. -/
def State.written (s : State) : Bits :=
  streamBits s.outByte 0 (8 * s.wr.idx.toNat) ++ bitsOf s.wr.cnt.toNat s.wr.pend.toNat

/-- The reader moved to bit position p. -/
def Reader.moveTo (p : Nat) (r : Reader) : Reader :=
  { r with byte := BitVec.ofNat 32 (p / 8), bit := BitVec.ofNat 3 (p % 8) }

/-- The next field of k bits as read_or_zero reads it (40_bitstream.md R207): the next k bits, or zeros when fewer are
left. -/
def State.nextBits (s : State) (k : Nat) : Bits :=
  if s.rd.pos + k ≤ 8 * s.rd.len.toNat then streamBits s.inByte s.rd.pos k else List.replicate k false

/-- The reader past a field of k bits, or at the end of the input (40_bitstream.md R203, R204). -/
def State.past (k : Nat) (s : State) : State :=
  { s with rd := s.rd.moveTo (min (s.rd.pos + k) (8 * s.rd.len.toNat)) }

/-- OUT_MEM has room for every byte that k more bits complete (40_bitstream.md R212). -/
def State.room (s : State) (k : Nat) : Prop :=
  (s.wr.bits.toNat + k) / 8 ≤ s.cfg.outCap

/-- `t` is `s` after the writer has accepted `bits`: only the writer and the bytes it flushed have changed. -/
def State.wrote (s : State) (bits : Bits) (t : State) : Prop :=
  t = { s with wr := t.wr, outMem := t.outMem } ∧ t.written = s.written ++ bits ∧ t.wr.ok ∧
    t.wr.bits.toNat = s.wr.bits.toNat + bits.length ∧
    ∀ a, a < s.wr.idx.toNat ∨ t.wr.idx.toNat ≤ a → t.outByte a = s.outByte a

/-- Executing `i` in `s` appends `bits` to the output, moves the loop position to `l`, and changes nothing else. -/
def State.appends (s : State) (i : Instr) (bits : Bits) (l : Loop) : Prop :=
  ∃ t, exec i s = .next { t with loop := l } ∧ s.wrote bits t

/-! ### Runs -/

/-- `s` with the run started that a CTRL write of the given fields starts (45_orchestration.md R340, R341): every row of
R341's table, the marker buffers and loop positions of 10_state.md R65 at the model's choice of start values (log entry
27), and the first phase. -/
def State.started (s : State) (cmd : BitVec 2) (mode irqEn runMode : Bool) (p : Phase) : State :=
  { s with
    ctrl := { cmd := cmd, mode := mode, irqEn := irqEn }
    status := { done := false, err := false, trunc := false, runMode := runMode, errcode := 0 }
    phase := p
    res := { outLen := 0, statOrig := 0, statHdrBits := 0, statHdrBytes := 0, statCodedBits := 0, statCodedBytes := 0
             statComp := 0, totalLo := 0, totalHi := 0, decoded := 0, nsym := 0 }
    errInfo := 0
    rd := { byte := 0, bit := 0, len := s.inLen }
    wr := { pend := 0, cnt := 0, idx := 0, bits := 0 }
    dp := { mode := runMode, total := 0, doneSyms := 0, nsym := 0, hdrBits := 0, codedBits := 0, trunc := false }
    loop := { stage := .entry, s := 0, cur := .empty, emit := none }
    freq := []
    tree := .empty
    code := []
    cls := []
    ex := [] }

/-- `s` with its run ended by error `e` (60_exceptions.md R410): the pending bits discarded and wr_bits the flushed ones
(log entry 12), OUT_LEN the bytes flushed, every statistic 0, no code valid, and no tree kept (42_tree.md R260; log entry
14). -/
def State.failed (s : State) (e : RunError) (info : Word) : State :=
  { s with
    status := { done := false, err := true, trunc := false, runMode := s.status.runMode, errcode := e.code }
    phase := .error
    res := { Results.zero with outLen := s.wr.idx }
    errInfo := info
    wr := { pend := 0, cnt := 0, idx := s.wr.idx, bits := BitVec.ofNat 32 (8 * s.wr.idx.toNat) }
    loop := { s.loop with cur := .empty }
    tree := .empty
    code := [] }

/-- `s` with the response of a host access. -/
def State.answered (s : State) (ok : Bool) (data : Word) : State :=
  { s with resp := some { ok := ok, data := data } }

/-- A 4-byte read of `addr` answers OK with `v` and changes nothing else. -/
def State.reads (s : State) (addr : Addr) (v : Word) : Prop :=
  exec (.rd32 addr) s = .next (s.answered true v)

/-- n steps. -/
def stepN : Nat → State → Host.Outcome State Fault Refusal
  | 0, s => .next s
  | n + 1, s =>
    match step s with
    | .next t => stepN n t
    | .fault f => .fault f
    | .refused r => .refused r

/-- The symbols of the input, in order; a trailing partial symbol is dropped (41_frequency.md R231, R232). -/
def inputSymbols (pair : Bool) (byteAt : Nat → Byte) (len : Nat) : List Nat :=
  if pair then (List.range (len / 2)).map fun k => 256 * (byteAt (2 * k)).toNat + (byteAt (2 * k + 1)).toNat
  else (List.range len).map fun k => (byteAt k).toNat

/-! ### Headers -/

/-- The width of a present symbol's value (43_header.md R281, R282, R284); an absent symbol has none. -/
def valueWidth (pair : Bool) (f : BitVec 32) : Nat :=
  if f = 0 then 0
  else if f.toNat ≤ 255 then 8
  else if pair || f.toNat ≤ 65535 then 16
  else 32

/-- The marker of a symbol: its size class or its existence bit (30_encoding.md R147, R149). -/
def markerBits (pair : Bool) (f : BitVec 32) : Bits :=
  if pair then [f != 0]
  else if f = 0 then [false, false]
  else if f.toNat ≤ 255 then [false, true]
  else if f.toNat ≤ 65535 then [true, false]
  else [true, true]

/-- The value section's bits of a symbol: in pair mode a size bit first (30_encoding.md R148, R150). -/
def valueBits (pair : Bool) (f : BitVec 32) : Bits :=
  if f = 0 then []
  else (if pair then [decide (255 < f.toNat)] else []) ++ bitsOf (valueWidth pair f) f.toNat

/-- The header after the mode flag: every marker, then every value (43_header.md R280, R283). -/
def headerBits (pair : Bool) (freqOf : Nat → BitVec 32) : Bits :=
  (List.range (nsyms pair)).flatMap (fun k => markerBits pair (freqOf k)) ++
    (List.range (nsyms pair)).flatMap (fun k => valueBits pair (freqOf k))

/-- The header's length, the mode flag included (43_header.md R285). -/
def headerLength (pair : Bool) (freqOf : Nat → BitVec 32) : Nat :=
  if pair then
    65537 + ((List.range 65536).map fun k => if freqOf k = 0 then 0 else 1 + valueWidth true (freqOf k)).sum
  else 513 + ((List.range 256).map fun k => valueWidth false (freqOf k)).sum

/-- `t` is `s` at the end of D_HDR: the table's total and number of symbols, and the reader's position, are recorded
(43_header.md R289, R292; 45_orchestration.md R359), and a total of 0 goes to D_FLUSH (R360). -/
def State.headerEnds (s t : State) : Prop :=
  t = { s with
    dp := { s.dp with total := t.dp.total, nsym := t.dp.nsym, hdrBits := t.dp.hdrBits }
    phase := if t.dp.total = 0 then .dFlush else .dBuild
    loop := Loop.start } ∧
  t.dp.total.toNat = ((List.range (nsyms s.dp.mode)).map fun k => (s.freqAt k).toNat).sum ∧
  t.dp.nsym.toNat = (List.range (nsyms s.dp.mode)).countP (fun k => s.freqAt k != 0) ∧
  t.dp.hdrBits.toNat = s.rd.pos

/-! ### Trees -/

/-- No Empty stands inside the tree: every internal node has two children (42_tree.md R258). -/
def Tree.full : Tree → Bool
  | .empty => false
  | .leaf _ _ => true
  | .node l r _ _ => l.full && r.full

/-- The leaves, left to right, each with its symbol and frequency. -/
def Tree.leafList : Tree → List (Sym × BitVec 40)
  | .empty => []
  | .leaf s f => [(s, f)]
  | .node l r _ _ => l.leafList ++ r.leafList

/-- The number of internal nodes. -/
def Tree.internal : Tree → Nat
  | .empty => 0
  | .leaf _ _ => 0
  | .node l r _ _ => l.internal + r.internal + 1

/-- The number of edges on the longest path. -/
def Tree.depth : Tree → Nat
  | .empty => 0
  | .leaf _ _ => 0
  | .node l r _ _ => max l.depth r.depth + 1

/-- Every node's frequency is the sum of its leaves' frequencies, and its key the smallest of their symbols (42_tree.md
R258). -/
def Tree.consistent : Tree → Prop
  | .empty => True
  | .leaf _ _ => True
  | .node l r f k =>
    l.consistent ∧ r.consistent ∧ f.toNat = ((l.leafList ++ r.leafList).map fun e => e.2.toNat).sum ∧
    (∃ e ∈ l.leafList ++ r.leafList, e.1 = k) ∧ ∀ e ∈ l.leafList ++ r.leafList, e.1.before k = false

/-- The path from the root to each leaf with the leaf's symbol (44_codegen.md R320). -/
def Tree.paths : Tree → List (Sym × Bits)
  | .empty => []
  | .leaf s _ => [(s, [])]
  | .node l r _ _ =>
    l.paths.map (fun e => (e.1, false :: e.2)) ++ r.paths.map (fun e => (e.1, true :: e.2))

/-! ### Phases -/

/-- The phase transitions of 45_orchestration.md R342 and R343, without START. -/
def Phase.mayBecome : Phase → Phase → Bool
  | .cScan, q => q == .cCheck || q == .error
  | .cCheck, q => q == .cHdr || q == .cFlush || q == .error
  | .cHdr, q => q == .cBuild || q == .error
  | .cBuild, q => q == .cCodegen
  | .cCodegen, q => q == .cEmit
  | .cEmit, q => q == .cFlush || q == .error
  | .cFlush, q => q == .done || q == .error
  | .dMode, q => q == .dHdr
  | .dHdr, q => q == .dBuild || q == .dFlush
  | .dBuild, q => q == .dWalk
  | .dWalk, q => q == .dFlush || q == .error
  | .dFlush, q => q == .done
  | .idle, _ => false
  | .done, _ => false
  | .error, _ => false

/-- The phases of DECOMPRESS (10_state.md R36). -/
def Phase.decompress : Phase → Bool
  | .dMode | .dHdr | .dBuild | .dWalk | .dFlush => true
  | .idle | .cScan | .cCheck | .cHdr | .cBuild | .cCodegen | .cEmit | .cFlush | .done | .error => false

/-- The phases of DECOMPRESS and the COMPRESS phases before C_CODEGEN ends: the code table is invalid there
(10_state.md R64, 45_orchestration.md R369). -/
def Phase.noCodes : Phase → Bool
  | .idle | .cScan | .cCheck | .cHdr | .cBuild | .cCodegen => true
  | .dMode | .dHdr | .dBuild | .dWalk | .dFlush | .error => true
  | .cEmit | .cFlush | .done => false

/-! ### The invariant -/

/-- What holds of every state a run reaches. -/
structure Inv (s : State) : Prop where
  /-- The parameters are in range (00_scope.md R13, R14). -/
  cfgValid : s.cfg.valid = true
  /-- IN_MEM is in canonical form (10_state.md R60). -/
  inMemWf : s.inMem.wf s.cfg.inCap = true
  /-- OUT_MEM is in canonical form (10_state.md R61). -/
  outMemWf : s.outMem.wf s.cfg.outCap = true
  /-- The frequency table is in canonical form (10_state.md R62). -/
  freqWf : Table.wf 65536 s.freq = true
  /-- It lists present symbols only (10_state.md R62). -/
  freqPresent : ∀ e ∈ s.freq, e.2 ≠ 0
  /-- The code table is in canonical form (10_state.md R64). -/
  codeWf : Table.wf 65536 s.code = true
  /-- The marker buffer cls is in canonical form (43_header.md R286). -/
  clsWf : Table.wf 256 s.cls = true
  /-- It lists no 00. -/
  clsPresent : ∀ e ∈ s.cls, e.2 ≠ 0
  /-- The marker buffer ex is in canonical form (43_header.md R287). -/
  exWf : Table.wf 65536 s.ex = true
  /-- It lists no 0. -/
  exPresent : ∀ e ∈ s.ex, e.2 ≠ false
  /-- DONE is set only by a completion and PHASE keeps DONE until the next START (10_state.md R45, R49). -/
  doneFlag : s.status.done = true → s.phase = .done
  /-- ERR is set only by a raise and PHASE keeps ERROR until the next START (10_state.md R45, R49). -/
  errFlag : s.status.err = true → s.phase = .error
  /-- ERRCODE ≠ 0 exactly when the last run ended with an error (60_exceptions.md R413). -/
  errcode : s.status.errcode ≠ 0 ↔ s.phase = .error
  /-- ERR_INFO is 0 but after an error (10_state.md R54). -/
  errInfo : s.phase ≠ .error → s.errInfo = 0
  /-- TRUNC is 0 but after a completion (10_state.md R48, 60_exceptions.md R410). -/
  truncFlag : s.phase ≠ .done → s.status.trunc = false
  /-- Before a completion the results are 0, OUT_LEN after an error apart (10_state.md R52, R53). -/
  results : s.phase ≠ .done → s.phase ≠ .error → s.res = Results.zero
  /-- After an error every statistic is 0 (60_exceptions.md R410). -/
  errResults : s.phase = .error → s.res = { Results.zero with outLen := s.res.outLen }
  /-- The code table is all invalid but in and after the end of COMPRESS (45_orchestration.md R369). -/
  codes : s.phase.noCodes = true → s.code = []
  /-- The reader stands inside the input (10_state.md R67). -/
  reader : s.busy = true → s.rd.ok ∧ s.rd.len.toNat ≤ s.cfg.inCap
  /-- The writer counts its bits and has flushed at most OUT_CAP bytes (10_state.md R35, R67). -/
  writer : s.busy = true → s.wr.ok ∧ s.wr.idx.toNat ≤ s.cfg.outCap
  /-- The header bits are among the bits read or written so far (10_state.md R67). -/
  headerCount : s.busy = true →
    s.dp.hdrBits.toNat ≤ if s.phase.decompress then 8 * s.rd.len.toNat else s.wr.bits.toNat
  /-- Nothing is written before C_HDR (45_orchestration.md R352, R353). -/
  unwritten : s.phase = .cScan ∨ s.phase = .cCheck → s.wr.bits = 0 ∧ s.dp.hdrBits = 0 ∧ s.dp.codedBits = 0
  /-- In C_FLUSH every bit written is a header bit or a coded bit (45_orchestration.md R382). -/
  codedCount : s.phase = .cFlush → s.wr.bits.toNat = s.dp.hdrBits.toNat + s.dp.codedBits.toNat
  /-- In DECOMPRESS the writer holds whole bytes between steps (45_orchestration.md R365, R366). -/
  aligned : s.phase.decompress = true → s.wr.cnt = 0
  /-- D_BUILD is entered only with a present symbol (45_orchestration.md R360). -/
  buildable : s.phase = .dBuild → s.freq ≠ []
  /-- The walk's trees have two children at every node (42_tree.md R258). -/
  walkable : s.phase = .dWalk → s.tree.full = true ∧ s.loop.cur.full = true
  /-- The phases that read the tree have the table's tree (45_orchestration.md R354, R367). -/
  built : s.phase = .cCodegen ∨ s.phase = .dWalk → s.tree = buildTree s.dp.mode s.freq
  /-- No other phase keeps a tree (42_tree.md R260); that none is Empty is the model's reading (log entry 14), at reset its
  choice (log entry 10). -/
  discarded : s.phase ≠ .cCodegen → s.phase ≠ .dWalk → s.tree = .empty
  /-- Only the walk has a current node (10_state.md R36, 42_tree.md R260); that none is Empty is the model's reading (log
  entry 14), at reset its choice (log entry 10). -/
  noNode : s.phase ≠ .dWalk → s.loop.cur = .empty
  /-- A byte-mode run uses entries 0..255 only (10_state.md R62). -/
  freqByte : s.busy = true → s.dp.mode = false → ∀ e ∈ s.freq, e.1 < 256
  /-- After C_SCAN and C_CHECK a pair-mode run has no count above 65535 (41_frequency.md R236, 43_header.md R287). -/
  freqPair : s.busy = true → s.phase ≠ .cScan → s.phase ≠ .cCheck → s.dp.mode = true → ∀ e ∈ s.freq, e.2.toNat ≤ 65535
  /-- Before the header is read the table is as START left it (45_orchestration.md R341, R358). -/
  freqUnread : s.phase = .dMode → s.freq = []

end Sys2Proof.Machine
end

