-- ==== Sys2Proof/Certificates/Slice0/Obligations.lean ====
section
/-!
DEFINITION. The statements for the provers. `Inv s` as a premise rules out states no run reaches; that reset meets it and
every step keeps it are statements of their own.
-/

open Sys2Proof Sys2Proof.Machine

/-! ### Encodings -/

/-- Decoding the encoding of a well-formed instruction gives it back, with every operand (30_encoding.md R140 to R153,
R170, R171). -/
def Obligations.DecodeOfEncodeIsIdentity : Prop :=
  ∀ i : Instr, i.wellFormed = true → decode (encode i) = .ok i

/-- The command words of 30_encoding.md R142. -/
def Obligations.ExampleCommandWordsDecode : Prop :=
  decode (.txn (.write .b4 0x000 0x00000003)) = .ok (.compress false false) ∧
  decode (.txn (.write .b4 0x000 0x0000000B)) = .ok (.compress true false) ∧
  decode (.txn (.write .b4 0x000 0x00000005)) = .ok (.decompress false false) ∧
  decode (.txn (.write .b4 0x000 0x00000013)) = .ok (.compress false true) ∧
  decode (.txn (.write .b4 0x000 0x0000001B)) = .ok (.compress true true) ∧
  decode (.txn (.write .b4 0x000 0x00000015)) = .ok (.decompress false true) ∧
  decode (.txn (.write .b4 0x000 0x00000010)) = .ok (.cfg 0 false true) ∧
  ∀ v : Word, v.getLsbD 0 = false → ∃ cmd mode irqEn, decode (.txn (.write .b4 0x000 v)) = .ok (.cfg cmd mode irqEn)

/-- Field codes of the stream, written out bit by bit (30_encoding.md R145, R147 to R150, R152, R153), and the four host
transactions (R171). -/
def Obligations.ExampleFieldCodesDecode : Prop :=
  decode (.field .modeFlag [false]) = .ok .modeByte ∧
  decode (.field .modeFlag [true]) = .ok .modePair ∧
  decode (.field .sizeClass [false, false]) = .ok .classAbsent ∧
  decode (.field .sizeClass [false, true]) = .ok (.classF8 none) ∧
  decode (.field .sizeClass [true, false]) = .ok (.classF16 none) ∧
  decode (.field .sizeClass [true, true]) = .ok (.classF32 none) ∧
  decode (.field .value8 [false, false, false, false, false, true, false, true]) = .ok (.classF8 (some 5)) ∧
  decode (.field .value16 ([true] ++ List.replicate 13 false ++ [true, true])) = .ok (.classF16 (some 0x8003)) ∧
  decode (.field .existence [false]) = .ok .pairAbsent ∧
  decode (.field .existence [true]) = .ok .pairPresent ∧
  decode (.field .pairSize [false, true, false, false, false, false, false, false, true]) = .ok (.pairSize8 0x81) ∧
  decode (.field .pairSize ([true] ++ List.replicate 7 false ++ [true] ++ List.replicate 8 false)) =
    .ok (.pairSize16 0x0100) ∧
  decode (.field .codeBit [false]) = .ok .codeLeft ∧
  decode (.field .codeBit [true]) = .ok .codeRight ∧
  decode (.field .padding [false, false, false]) = .ok (.pad 3) ∧
  decode (.txn (.write .b4 0x40000000 0xDEADBEEF)) = .ok (.wr32 0x40000000 0xDEADBEEF) ∧
  decode (.txn (.write .b1 0x40000003 0x00000041)) = .ok (.wr8 0x40000003 0x41) ∧
  decode (.txn (.read .b4 0x00000004)) = .ok (.rd32 0x00000004) ∧
  decode (.txn (.read .b1 0x80000000)) = .ok (.rd8 0x80000000)

/-- The CTRL fields are bits 0, 2:1, 3 and 4 of the written word, whatever bits 31:5 are (30_encoding.md R155, R141). -/
def Obligations.CtrlWordFieldsAreItsLowBits : Prop :=
  ∀ v : Word,
    let cmd := v.toNat / 2 % 4
    let mode := decide (v.toNat / 8 % 2 = 1)
    let irqEn := decide (v.toNat / 16 % 2 = 1)
    decode (.txn (.write .b4 0x000 v)) = .ok
      (if v.toNat % 2 = 0 then .cfg (BitVec.ofNat 2 cmd) mode irqEn
       else if cmd = 1 then .compress mode irqEn
       else if cmd = 2 then .decompress mode irqEn
       else if cmd = 0 then .badCmd00 mode irqEn
       else .badCmd11 mode irqEn)

/-- Every bit string of the width of a stream field is an instruction (30_encoding.md R157). -/
def Obligations.StreamFieldsAreNeverIllegal : Prop :=
  (∀ k bits, (k, bits.length) ∈
      [(FieldKind.modeFlag, 1), (.sizeClass, 2), (.value8, 8), (.value16, 16), (.value32, 32), (.existence, 1), (.codeBit, 1)] →
    ∃ i, decode (.field k bits) = .ok i ∧ i.wellFormed = true ∧ fieldBits i = bits) ∧
  ∀ z bits, bits.length = (if z then 16 else 8) →
    ∃ i, decode (.field .pairSize (z :: bits)) = .ok i ∧ i.wellFormed = true ∧ fieldBits i = z :: bits

/-! ### The host's writes -/

/-- A CTRL write while idle: CFG stores the fields; COMPRESS and DECOMPRESS with a legal IN_LEN start a run from the
values of 45_orchestration.md R341 and leave everything else alone. The start values of the marker buffers and the loop
positions, which R341 does not give, are the model's choice (log entry 27). -/
def Obligations.CtrlWriteWhileIdle : Prop :=
  ∀ (s : State), s.busy = false →
    (∀ cmd mode irqEn, exec (.cfg cmd mode irqEn) s =
      .next ({ s with ctrl := { cmd := cmd, mode := mode, irqEn := irqEn } }.answered true 0)) ∧
    (s.inLen.toNat ≤ s.cfg.inCap → ∀ mode irqEn,
      exec (.compress mode irqEn) s = .next ((s.started 1 mode irqEn mode .cScan).answered true 0) ∧
      exec (.decompress mode irqEn) s = .next ((s.started 2 mode irqEn false .dMode).answered true 0))

/-- The errors of START (60_exceptions.md R401, R402): BAD_CMD whatever IN_LEN is, else IN_LEN_RANGE. The start values of
the marker buffers and the loop positions are the model's choice (log entry 27). -/
def Obligations.StartErrorsEndTheRunAtOnce : Prop :=
  ∀ (s : State) (mode irqEn : Bool), s.busy = false →
    exec (.badCmd00 mode irqEn) s =
      .next (((s.started 0 mode irqEn false .idle).failed .badCmd 0).answered true 0) ∧
    exec (.badCmd11 mode irqEn) s =
      .next (((s.started 3 mode irqEn false .idle).failed .badCmd 3).answered true 0) ∧
    (s.cfg.inCap < s.inLen.toNat →
      exec (.compress mode irqEn) s =
        .next (((s.started 1 mode irqEn mode .idle).failed .inLenRange s.inLen).answered true 0) ∧
      exec (.decompress mode irqEn) s =
        .next (((s.started 2 mode irqEn false .idle).failed .inLenRange s.inLen).answered true 0))

/-- A CTRL write while busy stores IRQ_EN and nothing else (10_state.md R42). -/
def Obligations.CtrlWriteWhileBusyStoresOnlyIrqEn : Prop :=
  ∀ (s : State) (cmd : BitVec 2) (mode irqEn : Bool), s.busy = true →
    ∀ i ∈ [Instr.cfg cmd mode irqEn, .compress mode irqEn, .decompress mode irqEn, .badCmd00 mode irqEn, .badCmd11 mode irqEn],
      exec i s = .next ({ s with ctrl := { s.ctrl with irqEn := irqEn } }.answered true 0)

/-- A STATUS write clears what its bits 1 and 2 ask for and changes nothing else (10_state.md R46). -/
def Obligations.StatusWriteClearsOnlyDoneAndErr : Prop :=
  ∀ (s : State) (v : Word) (i : Instr), decode (.txn (.write .b4 0x004 v)) = .ok i →
    i = .statusW1c (v.getLsbD 1) (v.getLsbD 2) ∧
    exec i s = .next ({ s with
      status := { s.status with
        done := if v.getLsbD 1 then false else s.status.done
        err := if v.getLsbD 2 then false else s.status.err } }.answered true 0)

/-- WR32 to the writable registers IN_LEN, CODE_SEL and CODE_WSEL, and to every other register or reserved offset but
CTRL and STATUS (10_state.md R39, R51, R55, R57; 20_memory.md R112). -/
def Obligations.RegisterWritesStoreOrAreIgnored : Prop :=
  ∀ (s : State) (v : Word),
    (s.busy = false → exec (.wr32 0x008 v) s = .next ({ s with inLen := v }.answered true 0)) ∧
    (s.busy = true → exec (.wr32 0x008 v) s = .next (s.answered true 0)) ∧
    exec (.wr32 0x040 v) s = .next ({ s with codeSel := v.extractLsb' 0 16 }.answered true 0) ∧
    exec (.wr32 0x048 v) s = .next ({ s with codeWsel := v.extractLsb' 0 11 }.answered true 0) ∧
    ∀ addr : Addr, addr.toNat < 0x1000 → addr.toNat % 4 = 0 →
      addr.toNat ∉ [0x000, 0x004, 0x008, 0x040, 0x048] →
      exec (.wr32 addr v) s = .next (s.answered true 0)

/-! ### BUSERR -/

/-- The accesses that get BUSERR, which changes nothing and reads 0 (20_memory.md R101, R106, R110, R111; the window
cases of R107). -/
def Obligations.BadAccessGetsBusErr : Prop :=
  ∀ (s : State) (addr : Addr), s.cfg.valid = true →
    let a := addr.toNat
    let rds := [Instr.rd32 addr, .rd8 addr]
    let inWindow := 0x40000000 ≤ a ∧ a < 0x40000000 + s.cfg.inCap
    let outWindow := 0x80000000 ≤ a ∧ a < 0x80000000 + s.cfg.outCap
    ∀ (v : Word) (b : Byte) (i : Instr),
      ((0x1000 ≤ a ∧ ¬ inWindow ∧ ¬ outWindow) ∧ i ∈ rds ++ [.wr32 addr v, .wr8 addr b]) ∨
      (a < 0x1000 ∧ i ∈ [.rd8 addr, .wr8 addr b]) ∨
      ((a < 0x1000 ∧ a % 4 ≠ 0) ∧ i ∈ [.rd32 addr, .wr32 addr v]) ∨
      ((inWindow ∧ (a % 4 ≠ 0 ∨ 0x40000000 + s.cfg.inCap ≤ a + 3)) ∧ i ∈ [.rd32 addr, .wr32 addr v]) ∨
      ((outWindow ∧ (a % 4 ≠ 0 ∨ 0x80000000 + s.cfg.outCap ≤ a + 3)) ∧ i = .rd32 addr) ∨
      (outWindow ∧ i ∈ [.wr32 addr v, .wr8 addr b]) →
      exec i s = .next (s.answered false 0)

/-! ### The host's reads -/

/-- What a 4-byte read of each register returns: at any time CTRL (10_state.md R43), STATUS, IN_LEN, ERR_INFO, CODE_SEL,
CODE_WSEL, the capacities (R59) and the reserved offsets; while idle OUT_LEN and the statistics. While busy those answer
some value (R52, R53), with the reserved bits of TOTAL_HI and NSYM 0 (R39). -/
def Obligations.RegisterReadsReturnTheirFields : Prop :=
  ∀ s : State,
    s.reads 0x000 (BitVec.ofNat 32 (16 * s.ctrl.irqEn.toNat + 8 * s.ctrl.mode.toNat + 2 * s.ctrl.cmd.toNat)) ∧
    s.reads 0x004 (BitVec.ofNat 32 (4096 * s.phase.code.toNat + 256 * s.status.errcode.toNat +
      16 * s.status.runMode.toNat + 8 * s.status.trunc.toNat + 4 * s.status.err.toNat + 2 * s.status.done.toNat +
      s.busy.toNat)) ∧
    s.reads 0x008 s.inLen ∧ s.reads 0x038 s.errInfo ∧
    s.reads 0x040 (BitVec.ofNat 32 s.codeSel.toNat) ∧ s.reads 0x048 (BitVec.ofNat 32 s.codeWsel.toNat) ∧
    s.reads 0x050 (BitVec.ofNat 32 s.cfg.inCap) ∧ s.reads 0x054 (BitVec.ofNat 32 s.cfg.outCap) ∧
    (∀ addr : Addr, addr.toNat % 4 = 0 → addr.toNat = 0x03C ∨ (0x058 ≤ addr.toNat ∧ addr.toNat < 0x1000) →
      s.reads addr 0) ∧
    (s.busy = false →
      s.reads 0x00C s.res.outLen ∧ s.reads 0x010 s.res.statOrig ∧ s.reads 0x014 s.res.statHdrBits ∧
      s.reads 0x018 s.res.statHdrBytes ∧ s.reads 0x01C s.res.statCodedBits ∧ s.reads 0x020 s.res.statCodedBytes ∧
      s.reads 0x024 s.res.statComp ∧ s.reads 0x028 s.res.totalLo ∧
      s.reads 0x02C (BitVec.ofNat 32 s.res.totalHi.toNat) ∧ s.reads 0x030 s.res.decoded ∧
      s.reads 0x034 (BitVec.ofNat 32 s.res.nsym.toNat)) ∧
    (s.busy = true →
      (∀ addr ∈ [(0x00C : Addr), 0x010, 0x014, 0x018, 0x01C, 0x020, 0x024, 0x028, 0x030], ∃ v, s.reads addr v) ∧
      (∃ v, s.reads 0x02C v ∧ v.toNat < 2 ^ 8) ∧ ∃ v, s.reads 0x034 v ∧ v.toNat < 2 ^ 17)

/-- The code-table dump while idle (10_state.md R56, R58): VALID in bit 31, LEN below it, and the code's window with its
first bit in bit 31; an invalid entry reads 0. While busy some value is returned, CODE_INFO's reserved bits 0 (R39). -/
def Obligations.CodeDumpShowsTheSelectedCode : Prop :=
  ∀ s : State,
    (s.busy = false →
      (∀ c, Table.look s.codeSel.toNat s.code = some c →
        (c.length ≤ 65535 → s.reads 0x044 (BitVec.ofNat 32 (2 ^ 31 + c.length))) ∧
        ∃ w, s.reads 0x04C w ∧
          ∀ j, j < 32 → w.getLsbD (31 - j) = c.getD (32 * s.codeWsel.toNat + j) false) ∧
      (Table.look s.codeSel.toNat s.code = none → s.reads 0x044 0 ∧ s.reads 0x04C 0)) ∧
    (s.busy = true → ∃ v w, s.reads 0x044 v ∧ v.toNat / 2 ^ 16 % 2 ^ 15 = 0 ∧ s.reads 0x04C w)

/-- While busy STATUS reads BUSY, RUN_MODE and PHASE, every other field 0 (10_state.md R48), and ERR_INFO reads 0
(R54). -/
def Obligations.StatusReadsExactlyWhileBusy : Prop :=
  ∀ s : State, Inv s → s.busy = true →
    s.reads 0x004 (BitVec.ofNat 32 (4096 * s.phase.code.toNat + 16 * s.status.runMode.toNat + 1)) ∧ s.reads 0x038 0

/-- Window reads: IN at any time, OUT while idle, 4 bytes little-endian; OUT while busy answers some value
(20_memory.md R107, R109). -/
def Obligations.WindowReadsReturnStoredBytes : Prop :=
  ∀ (s : State) (addr : Addr) (i : Nat), s.cfg.valid = true →
    let word := fun (byteAt : Nat → Byte) => BitVec.ofNat 32 ((byteAt i).toNat + 2 ^ 8 * (byteAt (i + 1)).toNat +
      2 ^ 16 * (byteAt (i + 2)).toNat + 2 ^ 24 * (byteAt (i + 3)).toNat)
    (addr.toNat = 0x40000000 + i → i < s.cfg.inCap →
      exec (.rd8 addr) s = .next (s.answered true (BitVec.ofNat 32 (s.inByte i).toNat)) ∧
      (i % 4 = 0 → i + 3 < s.cfg.inCap → s.reads addr (word s.inByte))) ∧
    (addr.toNat = 0x80000000 + i → i < s.cfg.outCap →
      (s.busy = false →
        exec (.rd8 addr) s = .next (s.answered true (BitVec.ofNat 32 (s.outByte i).toNat)) ∧
        (i % 4 = 0 → i + 3 < s.cfg.outCap → s.reads addr (word s.outByte))) ∧
      (s.busy = true →
        (∃ v : Byte, exec (.rd8 addr) s = .next (s.answered true (BitVec.ofNat 32 v.toNat))) ∧
        (i % 4 = 0 → i + 3 < s.cfg.outCap → ∃ v, s.reads addr v)))

/-- Writes to the input window (20_memory.md R107, R108): while idle the bytes are stored, least significant first, and
every other byte stays; while busy the write is discarded with OK. -/
def Obligations.WindowWritesStoreWhileIdle : Prop :=
  ∀ (s : State) (addr : Addr) (i : Nat) (v : Word) (b : Byte), s.cfg.valid = true → addr.toNat = 0x40000000 + i →
    i < s.cfg.inCap →
    (s.busy = false →
      (∃ t : State, exec (.wr8 addr b) s = .next (t.answered true 0) ∧ t = { s with inMem := t.inMem } ∧
        ∀ a, t.inByte a = if a = i then b else s.inByte a) ∧
      (i % 4 = 0 → i + 3 < s.cfg.inCap →
        ∃ t : State, exec (.wr32 addr v) s = .next (t.answered true 0) ∧ t = { s with inMem := t.inMem } ∧
          ∀ a, t.inByte a = if i ≤ a ∧ a < i + 4 then BitVec.ofNat 8 (v.toNat / 2 ^ (8 * (a - i))) else s.inByte a)) ∧
    (s.busy = true →
      exec (.wr8 addr b) s = .next (s.answered true 0) ∧
      (i % 4 = 0 → i + 3 < s.cfg.inCap → exec (.wr32 addr v) s = .next (s.answered true 0)))

/-- A host read step changes only the port's response, and the same read again gives the same response (20_memory.md
R104, R119). -/
def Obligations.HostReadsHaveNoSideEffect : Prop :=
  ∀ (s : State) (n : Size) (addr : Addr), ∃ r,
    hostStep (.read n addr) s = .next { s with resp := some r } ∧
    hostStep (.read n addr) { s with resp := some r } = .next { s with resp := some r }

/-! ### Steps -/

/-- A host access that is next runs the instruction its transaction decodes to; a write then leaves the free values of the
next step new (log entry 8). -/
def Obligations.StepRunsTheHostTransaction : Prop :=
  ∀ (s : State) (t : Txn) (rest : List Event) (i : Instr), s.pending = .host t :: rest → decode (.txn t) = .ok i →
    match t with
    | .read _ _ => step s = exec i { s with pending := rest }
    | .write _ _ _ => step s = mapNext State.newFree (exec i { s with pending := rest })

/-- A finer engine step runs the stream field the engine stands at, and the free values of the next step are new: that a
step is one field, and that the counter advances, are the model's own (log entries 4 and 8). In DECOMPRESS that field is
what the decoder reads from the next bits of the input (45_orchestration.md R358, R359, R362; 43_header.md R286, R287). -/
def Obligations.StepRunsTheStreamField : Prop :=
  (∀ (s : State) (rest : List Event) (i : Instr), s.pending = .fine :: rest → s.busy = true → s.nextField = some i →
    step s = mapNext State.newFree (exec i { s with pending := rest })) ∧
  ∀ (s : State) (i : Instr), s.rd.ok →
    (s.phase = .dMode → decode (.field .modeFlag (s.nextBits 1)) = .ok i → s.nextField = some i) ∧
    (s.phase = .dHdr → s.loop.stage = .pass1 → s.loop.s.toNat < nsyms s.dp.mode →
      (s.dp.mode = false → decode (.field .sizeClass (s.nextBits 2)) = .ok i → s.nextField = some i) ∧
      (s.dp.mode = true → decode (.field .existence (s.nextBits 1)) = .ok i → s.nextField = some i)) ∧
    (s.phase = .dHdr → s.loop.stage = .pass2 → s.loop.s.toNat < nsyms s.dp.mode → s.dp.mode = false →
      (s.clsAt s.loop.s.toNat = 1 → decode (.field .value8 (s.nextBits 8)) = .ok i → s.nextField = some i) ∧
      (s.clsAt s.loop.s.toNat = 2 → decode (.field .value16 (s.nextBits 16)) = .ok i → s.nextField = some i) ∧
      (s.clsAt s.loop.s.toNat = 3 → decode (.field .value32 (s.nextBits 32)) = .ok i → s.nextField = some i)) ∧
    (s.phase = .dHdr → s.loop.stage = .pass2 → s.loop.s.toNat < nsyms s.dp.mode → s.dp.mode = true →
      s.exAt s.loop.s.toNat = true →
      ∀ z, s.nextBits 1 = [z] →
        decode (.field .pairSize (z :: (s.past 1).nextBits (if z then 16 else 8))) = .ok i → s.nextField = some i) ∧
    (s.phase = .dWalk → s.dp.doneSyms ≠ s.dp.total → (∃ l r f k, s.loop.cur = .node l r f k) →
      s.rd.pos < 8 * s.rd.len.toNat → decode (.field .codeBit (s.nextBits 1)) = .ok i → s.nextField = some i)

/-! ### COMPRESS writes its fields -/

/-- The one-bit fields that COMPRESS writes: the mode flag at the start of C_HDR (30_encoding.md R145) and the code bits of
C_EMIT (R152). -/
def Obligations.OneBitFieldsAreWritten : Prop :=
  ∀ s : State, Inv s → s.room 1 →
    (s.phase = .cHdr → s.loop.stage = .entry →
      (s.dp.mode = false → s.appends .modeByte [false] { s.loop with stage := .pass1, s := 0 }) ∧
      (s.dp.mode = true → s.appends .modePair [true] { s.loop with stage := .pass1, s := 0 })) ∧
    (s.phase = .cEmit → ∀ rest,
      (s.loop.emit = some (false :: rest) → s.appends .codeLeft [false] { s.loop with emit := some rest }) ∧
      (s.loop.emit = some (true :: rest) → s.appends .codeRight [true] { s.loop with emit := some rest }))

/-- The byte-mode header fields that COMPRESS writes for symbol s: its class in the marker loop, its value in the value
loop (43_header.md R280, R281; 30_encoding.md R147, R148). -/
def Obligations.ByteHeaderFieldsAreWritten : Prop :=
  ∀ s : State, Inv s → s.phase = .cHdr → s.dp.mode = false → s.loop.s.toNat < 256 →
    let f := s.freqAt s.loop.s.toNat
    let l := { s.loop with s := s.loop.s + 1 }
    (s.loop.stage = .pass1 → s.room 2 →
      (f.toNat = 0 → s.appends .classAbsent [false, false] l) ∧
      (1 ≤ f.toNat → f.toNat ≤ 255 → s.appends (.classF8 none) [false, true] l) ∧
      (256 ≤ f.toNat → f.toNat ≤ 65535 → s.appends (.classF16 none) [true, false] l) ∧
      (65536 ≤ f.toNat → s.appends (.classF32 none) [true, true] l)) ∧
    (s.loop.stage = .pass2 →
      (∀ v : BitVec 8, f.toNat = v.toNat → 1 ≤ v.toNat → s.room 8 →
        s.appends (.classF8 (some v)) (bitsOf 8 v.toNat) l) ∧
      (∀ v : BitVec 16, f.toNat = v.toNat → 256 ≤ v.toNat → s.room 16 →
        s.appends (.classF16 (some v)) (bitsOf 16 v.toNat) l) ∧
      (∀ v : BitVec 32, f.toNat = v.toNat → 65536 ≤ v.toNat → s.room 32 →
        s.appends (.classF32 (some v)) (bitsOf 32 v.toNat) l))

/-- The pair-mode header fields that COMPRESS writes for symbol s: its existence bit in the marker loop, its size bit and
value in the value loop (43_header.md R283, R284; 30_encoding.md R149, R150). -/
def Obligations.PairHeaderFieldsAreWritten : Prop :=
  ∀ s : State, Inv s → s.phase = .cHdr → s.dp.mode = true → s.loop.s.toNat < 65536 →
    let f := s.freqAt s.loop.s.toNat
    let l := { s.loop with s := s.loop.s + 1 }
    (s.loop.stage = .pass1 → s.room 1 →
      (f = 0 → s.appends .pairAbsent [false] l) ∧ (f ≠ 0 → s.appends .pairPresent [true] l)) ∧
    (s.loop.stage = .pass2 →
      (∀ v : BitVec 8, f.toNat = v.toNat → 1 ≤ v.toNat → s.room 9 →
        s.appends (.pairSize8 v) (false :: bitsOf 8 v.toNat) l) ∧
      (∀ v : BitVec 16, f.toNat = v.toNat → 256 ≤ v.toNat → s.room 17 →
        s.appends (.pairSize16 v) (true :: bitsOf 16 v.toNat) l))

/-- A field that does not fit OUT_MEM, and the last byte of C_FLUSH that does not fit, end the run with OUT_OVERFLOW: the
first OUT_CAP bytes of the output are stored and nothing else changes but what a raise writes (40_bitstream.md R212;
60_exceptions.md R404, R410, R411). What a raise leaves of the writer and the
tree is the model's reading (log entries 12 and 14). -/
def Obligations.OutputOverflowEndsTheRun : Prop :=
  ∀ s : State, Inv s →
    (∀ i, s.phase = .cHdr ∨ s.phase = .cEmit → s.nextField = some i → ¬ s.room (fieldBits i).length →
      ∃ t : State, exec i s = .next (t.failed .outOverflow (BitVec.ofNat 32 s.phase.code.toNat)) ∧
        t = { s with wr := t.wr, outMem := t.outMem } ∧ t.wr.idx.toNat = s.cfg.outCap ∧
        streamBits t.outByte 0 (8 * s.cfg.outCap) = (s.written ++ fieldBits i).take (8 * s.cfg.outCap) ∧
        ∀ a, a < s.wr.idx.toNat ∨ s.cfg.outCap ≤ a → t.outByte a = s.outByte a) ∧
    (s.phase = .cFlush → s.wr.cnt ≠ 0 → s.wr.idx.toNat = s.cfg.outCap →
      exec (.pad (padLength s.wr.bits.toNat)) s = .next (s.failed .outOverflow 7))

/-- PAD in C_FLUSH ends COMPRESS: the last byte is filled with zeros, and the completion writes every result register
(45_orchestration.md R357, R368, R370 to R376). -/
def Obligations.PaddingCompletesCompress : Prop :=
  ∀ s : State, Inv s → s.phase = .cFlush → s.wr.cnt = 0 ∨ s.wr.idx.toNat < s.cfg.outCap →
    let n := padLength s.wr.bits.toNat
    let len := (s.wr.bits.toNat + 7) / 8
    ∃ outMem idx, exec (.pad n) s = .next { s with
        outMem := outMem
        wr := { pend := if s.wr.cnt = 0 then s.wr.pend else 0, cnt := 0, idx := idx, bits := s.wr.bits }
        res :=
          { outLen := idx
            statOrig := s.rd.len
            statHdrBits := s.dp.hdrBits
            statHdrBytes := BitVec.ofNat 32 (s.dp.hdrBits.toNat / 8)
            statCodedBits := s.dp.codedBits
            statCodedBytes := BitVec.ofNat 32 (len - s.dp.hdrBits.toNat / 8)
            statComp := idx
            totalLo := BitVec.ofNat 32 s.dp.total.toNat
            totalHi := BitVec.ofNat 8 (s.dp.total.toNat / 2 ^ 32)
            decoded := BitVec.ofNat 32 s.dp.doneSyms.toNat
            nsym := s.dp.nsym }
        status := { done := true, err := false, trunc := s.dp.trunc, runMode := s.status.runMode, errcode := 0 }
        errInfo := 0
        phase := .done } ∧
      idx.toNat = len ∧
      streamBits ({ s with outMem := outMem }).outByte 0 (8 * len) = s.written ++ List.replicate n false ∧
      ∀ a, a < s.wr.idx.toNat ∨ len ≤ a → ({ s with outMem := outMem }).outByte a = s.outByte a

/-! ### DECOMPRESS reads its fields -/

/-- D_MODE reads the mode flag; an ended stream reads 0 (45_orchestration.md R358). -/
def Obligations.ModeFlagIsRead : Prop :=
  ∀ (s : State) (b : Bool), Inv s → s.phase = .dMode → s.nextBits 1 = [b] →
    exec (if b then .modePair else .modeByte) s = .next { s.past 1 with
      dp := { s.dp with mode := b }
      status := { s.status with runMode := b }
      phase := .dHdr
      loop := Loop.start }

/-- The byte-mode header fields that DECOMPRESS reads for symbol s (43_header.md R286, R288): the class goes to cls[s],
the value to freq[s], an absent symbol's entry becomes 0; every other entry stays. After symbol 255 the marker loop is
followed by the value loop, and that by the end of the phase (R289, R292). -/
def Obligations.ByteHeaderFieldsAreRead : Prop :=
  ∀ s : State, Inv s → s.phase = .dHdr → s.dp.mode = false →
    let k := s.loop.s.toNat
    let l := { s.loop with s := s.loop.s + 1 }
    let sets := fun (i : Instr) (c : BitVec 2) =>
      ∃ t : State, exec i s = .next t ∧ t = { s.past 2 with cls := t.cls, loop := l } ∧
        ∀ j, t.clsAt j = if j = k then c else s.clsAt j
    let holds := fun (i : Instr) (width v : Nat) =>
      ∃ t : State, exec i s = .next t ∧ t = { s.past width with freq := t.freq, loop := l } ∧
        ∀ j, t.freqAt j = if j = k then BitVec.ofNat 32 v else s.freqAt j
    (k < 256 → s.loop.stage = .pass1 →
      (s.nextBits 2 = [false, false] → sets .classAbsent 0) ∧
      (s.nextBits 2 = [false, true] → sets (.classF8 none) 1) ∧
      (s.nextBits 2 = [true, false] → sets (.classF16 none) 2) ∧
      (s.nextBits 2 = [true, true] → sets (.classF32 none) 3)) ∧
    (k < 256 → s.loop.stage = .pass2 →
      (s.clsAt k = 0 → ∃ t : State, fineStep s = .next t ∧ t = { s with freq := t.freq, loop := l } ∧
        ∀ j, t.freqAt j = if j = k then 0 else s.freqAt j) ∧
      (s.clsAt k = 1 → ∀ v : BitVec 8, s.nextBits 8 = bitsOf 8 v.toNat → holds (.classF8 (some v)) 8 v.toNat) ∧
      (s.clsAt k = 2 → ∀ v : BitVec 16, s.nextBits 16 = bitsOf 16 v.toNat → holds (.classF16 (some v)) 16 v.toNat) ∧
      (s.clsAt k = 3 → ∀ v : BitVec 32, s.nextBits 32 = bitsOf 32 v.toNat → holds (.classF32 (some v)) 32 v.toNat)) ∧
    (256 ≤ k → s.loop.stage = .pass1 → fineStep s = .next { s with loop := { s.loop with stage := .pass2, s := 0 } }) ∧
    (256 ≤ k → s.loop.stage = .pass2 → ∃ t : State, fineStep s = .next t ∧ s.headerEnds t)

/-- The pair-mode header fields that DECOMPRESS reads for symbol s (43_header.md R287, R288), an absent symbol's entry
becoming 0; and the ends of its two loops after symbol 65535 (R289, R292). -/
def Obligations.PairHeaderFieldsAreRead : Prop :=
  ∀ s : State, Inv s → s.phase = .dHdr → s.dp.mode = true →
    let k := s.loop.s.toNat
    let l := { s.loop with s := s.loop.s + 1 }
    let sets := fun (i : Instr) (e : Bool) =>
      ∃ t : State, exec i s = .next t ∧ t = { s.past 1 with ex := t.ex, loop := l } ∧
        ∀ j, t.exAt j = if j = k then e else s.exAt j
    let holds := fun (i : Instr) (width v : Nat) =>
      ∃ t : State, exec i s = .next t ∧ t = { (s.past 1).past width with freq := t.freq, loop := l } ∧
        ∀ j, t.freqAt j = if j = k then BitVec.ofNat 32 v else s.freqAt j
    (k < 65536 → s.loop.stage = .pass1 →
      (s.nextBits 1 = [false] → sets .pairAbsent false) ∧ (s.nextBits 1 = [true] → sets .pairPresent true)) ∧
    (k < 65536 → s.loop.stage = .pass2 → s.exAt k = false →
      ∃ t : State, fineStep s = .next t ∧ t = { s with freq := t.freq, loop := l } ∧
        ∀ j, t.freqAt j = if j = k then 0 else s.freqAt j) ∧
    (k < 65536 → s.loop.stage = .pass2 → s.exAt k = true →
      (s.nextBits 1 = [false] → ∀ v : BitVec 8, (s.past 1).nextBits 8 = bitsOf 8 v.toNat →
        holds (.pairSize8 v) 8 v.toNat) ∧
      (s.nextBits 1 = [true] → ∀ v : BitVec 16, (s.past 1).nextBits 16 = bitsOf 16 v.toNat →
        holds (.pairSize16 v) 16 v.toNat)) ∧
    (65536 ≤ k → s.loop.stage = .pass1 → fineStep s = .next { s with loop := { s.loop with stage := .pass2, s := 0 } }) ∧
    (65536 ≤ k → s.loop.stage = .pass2 → ∃ t : State, fineStep s = .next t ∧ s.headerEnds t)

/-! ### The walk -/

/-- A bit read at a Node descends by one and counts as a coded bit (45_orchestration.md R362; 30_encoding.md R152). -/
def Obligations.CodeBitDescends : Prop :=
  ∀ (s : State) (b : Bool) (l r : Tree) (f : BitVec 40) (k : Sym), Inv s → s.phase = .dWalk → s.loop.cur = .node l r f k →
    s.dp.doneSyms ≠ s.dp.total → s.rd.pos < 8 * s.rd.len.toNat → s.nextBits 1 = [b] →
    exec (if b then .codeRight else .codeLeft) s = .next { s.past 1 with
      dp := { s.dp with codedBits := s.dp.codedBits + 1 }
      loop := { s.loop with cur := if b then r else l } }

/-- When every symbol is out the walk stops, wherever it stands, and reads nothing: the padding and what follows it stay
unread (45_orchestration.md R361). That this stop is the decoder's PAD, with the number of bits to the end of the reader's
byte, is the model's reading (log entry 22), and so is the Empty that the discarded tree leaves (log entry 14). -/
def Obligations.WalkStopsOnTheCount : Prop :=
  ∀ s : State, s.phase = .dWalk → s.dp.doneSyms = s.dp.total →
    let t := { s with
      phase := .dFlush
      tree := .empty
      loop := Loop.start }
    exec (.pad (padLength s.rd.pos)) s = .next t ∧ fineStep s = .next t

/-- At a Node with the input exhausted the walk stops with trunc = 1 and goes to D_FLUSH (45_orchestration.md R364); the
tree is discarded (42_tree.md R260), leaving Empty (log entry 14). -/
def Obligations.WalkStopsAtTheEndOfTheInput : Prop :=
  ∀ (s : State) (l r : Tree) (f : BitVec 40) (k : Sym), Inv s → s.phase = .dWalk → s.loop.cur = .node l r f k →
    s.dp.doneSyms ≠ s.dp.total → s.rd.pos = 8 * s.rd.len.toNat →
    fineStep s = .next { s with
      dp := { s.dp with trunc := true }
      phase := .dFlush
      tree := .empty
      loop := Loop.start }

/-- At a leaf, the root included, the walk emits the symbol's value, in pair mode its high byte first, without reading a
bit, and returns to the root; a byte that does not fit ends the run, and what fits is stored (45_orchestration.md R363,
R365; 60_exceptions.md R404, R411; what a raise leaves of the writer and the tree is log entries 12 and 14). -/
def Obligations.WalkEmitsTheSymbolOfALeaf : Prop :=
  ∀ (s : State) (sym : Sym) (f : BitVec 40), Inv s → s.phase = .dWalk → s.loop.cur = .leaf sym f →
    s.dp.doneSyms ≠ s.dp.total →
    let bits := bitsOf (if s.dp.mode then 16 else 8) sym.val.toNat
    (s.room bits.length →
      ∃ t : State, s.wrote bits t ∧
        fineStep s = .next { t with
          dp := { s.dp with doneSyms := s.dp.doneSyms + 1 }
          loop := { s.loop with cur := s.tree } } ∧
        (s.dp.mode = false → t.outByte s.wr.idx.toNat = BitVec.ofNat 8 sym.val.toNat) ∧
        (s.dp.mode = true → t.outByte s.wr.idx.toNat = BitVec.ofNat 8 (sym.val.toNat / 256) ∧
          t.outByte (s.wr.idx.toNat + 1) = BitVec.ofNat 8 sym.val.toNat)) ∧
    (¬ s.room bits.length →
      ∃ t : State, fineStep s = .next (t.failed .outOverflow 11) ∧ t = { s with wr := t.wr, outMem := t.outMem } ∧
        t.wr.idx.toNat = s.cfg.outCap ∧
        streamBits t.outByte 0 (8 * s.cfg.outCap) = (s.written ++ bits).take (8 * s.cfg.outCap) ∧
        ∀ a, a < s.wr.idx.toNat ∨ s.cfg.outCap ≤ a → t.outByte a = s.outByte a)

/-- D_FLUSH has no partial byte to write and cannot raise: it completes with DONE and TRUNC = trunc (45_orchestration.md
R366, R368, R370 to R376). -/
def Obligations.DecompressFlushCompletes : Prop :=
  ∀ s : State, Inv s → s.phase = .dFlush →
    fineStep s = .next { s with
      res :=
        { outLen := s.wr.idx
          statOrig := s.wr.idx
          statHdrBits := s.dp.hdrBits
          statHdrBytes := BitVec.ofNat 32 (s.dp.hdrBits.toNat / 8)
          statCodedBits := s.dp.codedBits
          statCodedBytes := BitVec.ofNat 32 (s.rd.len.toNat - s.dp.hdrBits.toNat / 8)
          statComp := s.rd.len
          totalLo := BitVec.ofNat 32 s.dp.total.toNat
          totalHi := BitVec.ofNat 8 (s.dp.total.toNat / 2 ^ 32)
          decoded := BitVec.ofNat 32 s.dp.doneSyms.toNat
          nsym := s.dp.nsym }
      status := { done := true, err := false, trunc := s.dp.trunc, runMode := s.status.runMode, errcode := 0 }
      errInfo := 0
      phase := .done }

/-- The model's own convention (log entry 16): a stream field executed where the engine does not stand at it is refused by
name. -/
def Obligations.FieldElsewhereIsRefused : Prop :=
  ∀ (s : State) (i : Instr) (k : FieldKind) (bits : Bits), encode i = .field k bits → s.nextField ≠ some i →
    exec i s = .refused .fieldNotHere

/-! ### The phases of COMPRESS -/

/-- C_SCAN counts the input's symbols: freq, total and nsym (41_frequency.md R230 to R234), and never overflows a count
(R233). -/
def Obligations.ScanCountsTheInput : Prop :=
  ∀ s : State, Inv s → s.phase = .cScan → s.loop.stage = .entry → s.freq = [] →
    let syms := inputSymbols s.dp.mode s.inByte s.rd.len.toNat
    ∃ t : State, engineStep s = .next t ∧ t.phase = .cCheck ∧
      (∀ k, (t.freqAt k).toNat = syms.count k) ∧
      t.dp.total.toNat = freqTotal t.freq ∧ t.dp.total.toNat = 8 * s.rd.len.toNat / symWidth s.dp.mode ∧
      t.dp.nsym.toNat = freqPresent t.freq ∧ t.dp.nsym.toNat ≤ min t.dp.total.toNat (2 ^ symWidth s.dp.mode) ∧
      (s.dp.mode = false → ∀ k, 256 ≤ k → t.freqAt k = 0) ∧
      t.wr = s.wr ∧ t.inMem = s.inMem ∧ t.outMem = s.outMem

/-- A count that is already 2^32 − 1 is not incremented: the run ends with FREQ_OVERFLOW and the symbol in ERR_INFO
(60_exceptions.md R403). -/
def Obligations.FullCountRaisesFreqOverflow : Prop :=
  ∀ (s : State) (r : Nat), Inv s → s.phase = .cScan → s.loop.stage = .pass1 →
    s.rd.pos + symWidth s.dp.mode ≤ 8 * s.rd.len.toNat → r = bitsVal (s.nextBits (symWidth s.dp.mode)) →
    (s.freqAt r).toNat = 2 ^ 32 - 1 →
    fineStep s = .next ((s.past (symWidth s.dp.mode)).failed .freqOverflow (BitVec.ofNat 32 r))

/-- C_CHECK (41_frequency.md R236; 45_orchestration.md R352, R353): a pair count above 65535 ends the run with the smallest
such symbol and OUT_LEN = 0; else an empty table goes to C_FLUSH and any other to C_HDR. -/
def Obligations.CheckRejectsPairCountsAbove65535 : Prop :=
  ∀ s : State, Inv s → s.phase = .cCheck →
    (∀ k, s.dp.mode = true → 65535 < (s.freqAt k).toNat → (∀ j, j < k → (s.freqAt j).toNat ≤ 65535) →
      s.wr.idx = 0 ∧ fineStep s = .next (s.failed .pairFreqRange (BitVec.ofNat 32 k))) ∧
    (s.dp.mode = false ∨ (∀ k, (s.freqAt k).toNat ≤ 65535) →
      fineStep s = .next { s with
        phase := if s.dp.total = 0 then .cFlush else .cHdr
        loop := Loop.start })

/-- C_HDR writes the mode flag and the header of 30_encoding.md R144 to R151, and records its length (43_header.md R280,
R283, R285; 45_orchestration.md R351). -/
def Obligations.HeaderPhaseWritesTheHeader : Prop :=
  ∀ s : State, Inv s → s.phase = .cHdr → s.loop.stage = .entry → s.wr.bits = 0 →
    (s.dp.mode = true → ∀ k, (s.freqAt k).toNat ≤ 65535) → s.room (headerLength s.dp.mode s.freqAt) →
    ∃ t : State, engineStep s = .next t ∧ t.phase = .cBuild ∧
      t.written = s.dp.mode :: headerBits s.dp.mode s.freqAt ∧
      t.dp = { s.dp with hdrBits := t.dp.hdrBits } ∧
      t.dp.hdrBits.toNat = headerLength s.dp.mode s.freqAt ∧
      t.rd = s.rd ∧ t.freq = s.freq ∧ t.code = s.code ∧ t.inMem = s.inMem ∧ t.status = s.status ∧ t.res = s.res

/-- C_EMIT writes the codes of the input's symbols in order, a symbol without a code writing nothing, and counts the coded
symbols and bits (45_orchestration.md R356; 30_encoding.md R152). -/
def Obligations.EmitPhaseWritesTheCodes : Prop :=
  ∀ s : State, Inv s → s.phase = .cEmit → s.loop.stage = .entry → s.loop.emit = none → s.dp.doneSyms = 0 →
    let syms := inputSymbols s.dp.mode s.inByte s.rd.len.toNat
    let bits := syms.flatMap fun r => (Table.look r s.code).getD []
    s.room bits.length → s.wr.bits = s.dp.hdrBits →
    ∃ t : State, engineStep s = .next t ∧ t.phase = .cFlush ∧ t.written = s.written ++ bits ∧
      t.dp.codedBits.toNat = bits.length ∧
      t.dp.doneSyms.toNat = syms.countP (fun r => (Table.look r s.code).isSome) ∧
      t.dp.hdrBits = s.dp.hdrBits ∧ t.dp.total = s.dp.total ∧ t.code = s.code ∧ t.inMem = s.inMem

/-- The bytes of a finished output: every bit written, in order, then zeros to the end of the last byte; and reading them
back bit by bit gives those bits, each field that was written, then the end of the stream (40_bitstream.md R216, R217). -/
def Obligations.ReaderReadsBackWhatTheWriterWrote : Prop :=
  ∀ (s t u : State) (bs : Bits), s.cfg.valid = true → s.wr = { pend := 0, cnt := 0, idx := 0, bits := 0 } →
    writeBits bs s = .run t → finish t = .run u →
    u.wr.idx.toNat = (bs.length + 7) / 8 ∧
    streamBits u.outByte 0 (8 * u.wr.idx.toNat) = bs ++ List.replicate (padLength bs.length) false ∧
    (∀ p, p < 8 * u.wr.idx.toNat →
      Reader.readBit u.outByte ({ byte := 0, bit := 0, len := u.wr.idx : Reader }.moveTo p) =
        (some (streamBit u.outByte p), { byte := 0, bit := 0, len := u.wr.idx : Reader }.moveTo (p + 1))) ∧
    (∀ (pre post : Bits) (n v : Nat), bs = pre ++ bitsOf n v ++ post → n ≤ 32 → v < 2 ^ n →
      (Reader.readN u.outByte n ({ byte := 0, bit := 0, len := u.wr.idx : Reader }.moveTo pre.length)).1 = some v) ∧
    Reader.readBit u.outByte ({ byte := 0, bit := 0, len := u.wr.idx : Reader }.moveTo (8 * u.wr.idx.toNat)) =
      (none, { byte := 0, bit := 0, len := u.wr.idx : Reader }.moveTo (8 * u.wr.idx.toNat))

/-! ### Trees and codes -/

/-- The tree of a table with a present symbol (42_tree.md R258): one leaf per present symbol with its frequency, one
internal node fewer, two children each, every node's frequency the sum and its key the least
symbol of its leaves. -/
def Obligations.TreeHasOneLeafPerPresentSymbol : Prop :=
  ∀ (pair : Bool) (freq : Table (BitVec 32)), Table.wf 65536 freq = true → 1 ≤ freqPresent freq →
    freqTotal freq < 2 ^ 40 →
    let t := buildTree pair freq
    t.full = true ∧ t.consistent ∧ t.freq.toNat = freqTotal freq ∧
    t.leafList.Perm ((freq.filter (fun e => e.2 != 0)).map fun e =>
      ({ pair := pair, val := BitVec.ofNat 16 e.1 }, BitVec.ofNat 40 e.2.toNat)) ∧
    t.leafList.length = freqPresent freq ∧ t.internal + 1 = freqPresent freq ∧ t.depth + 1 ≤ freqPresent freq

/-- The tree depends on the set of nodes only, not on the order in which the priority structure holds them (42_tree.md
R257). -/
def Obligations.TreeIsIndependentOfTheQueueOrder : Prop :=
  ∀ q q' : List Tree, q.Perm q' → (q.map Tree.key).Nodup → mergeLoop q.length q = mergeLoop q'.length q'

/-- One present symbol: its leaf is the root, and its code is valid and empty (42_tree.md R254; 44_codegen.md R322). -/
def Obligations.SingleSymbolHasTheEmptyCode : Prop :=
  ∀ (pair : Bool) (k : Nat) (f : BitVec 32), k < 65536 → f ≠ 0 →
    buildTree pair [(k, f)] = .leaf { pair := pair, val := BitVec.ofNat 16 k } (BitVec.ofNat 40 f.toNat) ∧
    genCodes (buildTree pair [(k, f)]) [] [] = [(k, [])]

/-- C_BUILD and D_BUILD leave the table's tree, D_BUILD with the walk at its root (45_orchestration.md R354, R367). After
C_CODEGEN the code table is valid exactly for the present symbols (44_codegen.md R321; 45_orchestration.md R355), no code
is longer than nsym − 1 (R325), and the tree is discarded (42_tree.md R260), leaving Empty (log entry 14). That C_CODEGEN
at an Empty tree, which no run reaches, makes no code and goes on is the model's choice (log entry 9). -/
def Obligations.CodesAreValidForThePresentSymbols : Prop :=
  ∀ s : State, Inv s →
    let root := buildTree s.dp.mode s.freq
    (s.phase = .cBuild → fineStep s = .next { s with tree := root, phase := .cCodegen, loop := Loop.start }) ∧
    (s.phase = .dBuild →
      fineStep s = .next { s with tree := root, phase := .dWalk, loop := { Loop.start with cur := root } }) ∧
    (s.phase = .cCodegen → ∃ t : State, fineStep s = .next t ∧
      t = { s with phase := .cEmit, code := t.code, tree := .empty, loop := Loop.start } ∧
      (∀ k c, Table.look k t.code = some c ↔ ({ pair := s.dp.mode, val := BitVec.ofNat 16 k }, c) ∈ root.paths ∧ k < 65536) ∧
      (∀ k, (Table.look k t.code).isSome = true ↔ s.freqAt k ≠ 0) ∧
      ∀ k c, Table.look k t.code = some c → c.length + 1 ≤ freqPresent s.freq ∧ c.length ≤ 65535)

/-- With two or more present symbols every code has a bit, and no code is a prefix of another's (44_codegen.md R323). -/
def Obligations.CodesArePrefixFree : Prop :=
  ∀ (pair : Bool) (freq : Table (BitVec 32)), Table.wf 65536 freq = true → 2 ≤ freqPresent freq →
    let code := genCodes (buildTree pair freq) [] []
    ∀ k c, Table.look k code = some c →
      1 ≤ c.length ∧ ∀ j d, j ≠ k → Table.look j code = some d → ¬ c <+: d

/-- With two or more present symbols the code is complete: the sum of 2^(−length) is 1 (44_codegen.md R324). -/
def Obligations.CodeLengthsSumToOne : Prop :=
  ∀ (pair : Bool) (freq : Table (BitVec 32)), Table.wf 65536 freq = true → 2 ≤ freqPresent freq →
    ((genCodes (buildTree pair freq) [] []).map fun e => (1 / 2 : ℚ) ^ e.2.length).sum = 1

/-! ### Headline results -/

/-- The header round-trips (43_header.md R290): D_HDR at stream bit 1 of a stream that holds the header of a table rebuilds
the table, its total and its count, and stands at the first coded bit. -/
def Obligations.HeaderRoundTrips : Prop :=
  ∀ (s : State) (f : Nat → BitVec 32), Inv s → s.phase = .dHdr →
    s.loop = { stage := .entry, s := 0, cur := s.loop.cur, emit := none } → s.freq = [] → s.cls = [] → s.ex = [] →
    s.rd.pos = 1 → (s.dp.mode = true → ∀ k, (f k).toNat ≤ 65535) →
    1 + (headerBits s.dp.mode f).length ≤ 8 * s.rd.len.toNat →
    streamBits s.inByte 1 (headerBits s.dp.mode f).length = headerBits s.dp.mode f →
    ∃ t : State, engineStep s = .next t ∧
      (∀ k, t.freqAt k = if k < nsyms s.dp.mode then f k else 0) ∧
      t.rd.pos = headerLength s.dp.mode f ∧ t.dp.hdrBits.toNat = headerLength s.dp.mode f ∧
      t.dp.total.toNat = ((List.range (nsyms s.dp.mode)).map fun k => (f k).toNat).sum ∧
      t.dp.nsym.toNat = (List.range (nsyms s.dp.mode)).countP (fun k => f k != 0) ∧
      t.phase = if t.dp.total = 0 then .dFlush else .dBuild

/-- Round trip (45_orchestration.md R380): DECOMPRESS of the output of a COMPRESS that completed gives the input back, in
pair mode without a last odd byte. -/
def Obligations.DecompressInvertsCompress : Prop :=
  ∀ (s s0 s1 t : State) (mode irqEn mode' irqEn' : Bool), Inv s → Inv t → s.busy = false → t.busy = false →
    s.pending = [] → t.pending = [] → s.inLen.toNat ≤ s.cfg.inCap →
    exec (.compress mode irqEn) s = .next s0 → stepN 7 s0 = .next s1 → s1.status.done = true →
    t.inLen = s1.res.outLen → t.inLen.toNat ≤ t.cfg.inCap → s.inLen.toNat ≤ t.cfg.outCap →
    (∀ a, a < t.inLen.toNat → t.inByte a = s1.outByte a) →
    ∃ t0 t1, exec (.decompress mode' irqEn') t = .next t0 ∧ stepN 5 t0 = .next t1 ∧
      t1.status.done = true ∧ t1.status.trunc = false ∧
      t1.res.outLen.toNat = (if mode then 2 * (s.inLen.toNat / 2) else s.inLen.toNat) ∧
      ∀ a, a < t1.res.outLen.toNat → t1.outByte a = s.inByte a

/-- Determinism (45_orchestration.md R381): what a run leaves depends on its command, for COMPRESS its mode, the input and
the capacities only; DECOMPRESS ignores CTRL.MODE (R385). -/
def Obligations.RunsAreDeterminedByTheirInput : Prop :=
  ∀ (s t s0 t0 s1 t1 : State) (i j : Instr) (n : Nat), Inv s → Inv t → s.busy = false → t.busy = false →
    s.pending = [] → t.pending = [] → s.cfg = t.cfg → s.inLen = t.inLen →
    (∀ a, a < s.inLen.toNat → s.inByte a = t.inByte a) →
    (∃ m p q, i = .compress m p ∧ j = .compress m q) ∨ (∃ m m' p q, i = .decompress m p ∧ j = .decompress m' q) →
    exec i s = .next s0 → exec j t = .next t0 → stepN n s0 = .next s1 → stepN n t0 = .next t1 →
    s1.phase = t1.phase ∧ s1.res = t1.res ∧ s1.status = t1.status ∧ s1.errInfo = t1.errInfo ∧ s1.code = t1.code ∧
      ∀ a, a < s1.res.outLen.toNat → s1.outByte a = t1.outByte a

/-- An engine step ends its phase, and enters only a phase that 45_orchestration.md R342 and R343 allow next (R344,
70_reset_and_hazards.md R470). -/
def Obligations.EngineStepsFollowThePhaseOrder : Prop :=
  ∀ s : State, Inv s → s.busy = true → ∃ t : State, engineStep s = .next t ∧ s.phase.mayBecome t.phase = true

/-- Every run ends: at most 7 engine steps, for DECOMPRESS at most 5 (45_orchestration.md R345; 70_reset_and_hazards.md
R470, R472). -/
def Obligations.EveryRunEnds : Prop :=
  ∀ s : State, Inv s → s.busy = true → s.pending = [] →
    ∃ n t, stepN n s = .next t ∧ n ≤ (if s.phase.decompress then 5 else 7) ∧ (t.phase = .done ∨ t.phase = .error)

/-- The finer steps of 70_reset_and_hazards.md R471 lead where the engine step of R470 leads (the finer steps are the
model's reading, log entry 4). -/
def Obligations.FinerStepsReachTheSamePhaseEnd : Prop :=
  ∀ s t : State, Inv s → s.busy = true → fineStep s = .next t → t.phase = s.phase → engineStep s = engineStep t

/-- The host cannot disturb a run (10_state.md R42, R44; 20_memory.md R108, R123; 60_exceptions.md R442): an access while
busy changes only IRQ_EN, CODE_SEL, CODE_WSEL and the port, and the engine's step after it is the one it would have
taken. -/
def Obligations.HostCannotDisturbARun : Prop :=
  ∀ (s u v : State) (x : Txn), Inv s → s.busy = true → hostStep x s = .next u → engineStep s = .next v →
    u = { s with
      ctrl := { s.ctrl with irqEn := u.ctrl.irqEn }
      codeSel := u.codeSel
      codeWsel := u.codeWsel
      resp := u.resp
      freeCtr := u.freeCtr } ∧
    engineStep u = .next { v with
      ctrl := u.ctrl
      codeSel := u.codeSel
      codeWsel := u.codeWsel
      resp := u.resp
      freeCtr := u.freeCtr }

/-- After every completion with DONE, header bytes and coded bytes add up to the compressed size, and COMPRESS's is the
number of bytes its bits take (45_orchestration.md R377). -/
def Obligations.HeaderAndCodedBytesAddUp : Prop :=
  ∀ s t : State, Inv s → s.busy = true → engineStep s = .next t → t.phase = .done →
    t.res.statHdrBytes.toNat + t.res.statCodedBytes.toNat = t.res.statComp.toNat ∧
    (s.phase = .cFlush →
      t.res.statComp.toNat = (t.res.statHdrBits.toNat + t.res.statCodedBits.toNat + 7) / 8)

/-! ### The whole machine -/

/-- The reset event, even during a run, puts every register at its reset value and leaves the capacities (10_state.md R66;
70_reset_and_hazards.md R450, R451). That the memories, unspecified after it, list no byte (log entry 7), and that the
events still to come stay (log entry 20), are the model's own. -/
def Obligations.ResetEventRestoresTheResetValues : Prop :=
  ∀ (s : State) (rest : List Event), s.pending = .reset :: rest →
    ∃ t : State, step s = .next t ∧ t.cfg = s.cfg ∧ t.pending = rest ∧
      t.ctrl = { cmd := 0, mode := false, irqEn := false } ∧
      t.status = { done := false, err := false, trunc := false, runMode := false, errcode := 0 } ∧
      t.phase = .idle ∧ t.busy = false ∧ t.irq = false ∧ t.inLen = 0 ∧
      t.res = { outLen := 0, statOrig := 0, statHdrBits := 0, statHdrBytes := 0, statCodedBits := 0, statCodedBytes := 0
                statComp := 0, totalLo := 0, totalHi := 0, decoded := 0, nsym := 0 } ∧
      t.errInfo = 0 ∧ t.codeSel = 0 ∧ t.codeWsel = 0 ∧ t.code = [] ∧ t.inMem = [] ∧ t.outMem = [] ∧
      t.reads 0x044 0 ∧ t.reads 0x04C 0 ∧ t.reads 0x050 (BitVec.ofNat 32 s.cfg.inCap) ∧
      t.reads 0x054 (BitVec.ofNat 32 s.cfg.outCap)

/-- The reset state meets the invariant. R66 of 10_state.md gives the reset values of the registers and the code table; that
the tables and the tree are empty there and no node is current, where R66 leaves them unspecified, is the model's choice
(log entry 10; Empty for no tree is log entry 14), and so is that the memories list no byte (log entry 7). -/
def Obligations.ResetStateMeetsTheInvariant : Prop :=
  Inv State.reset

/-- Every step, of the host, of the engine or of reset, keeps the invariant (10_state.md R67). Its tree clauses follow
42_tree.md R260 and 10_state.md R63 in the model's reading: a discarded tree, and the walk's node with it, is Empty after
the phase that last reads it and after a raise (log entry 14). At a reset event the tables, the tree and the node take the
values the model chose (log entry 10), and at START the marker buffers and the loop positions do (log entry 27). -/
def Obligations.EveryStepKeepsTheInvariant : Prop :=
  ∀ s t : State, Inv s → step s = .next t → Inv t

/-- No step stops: every access has a response and every run goes on to its end (45_orchestration.md R384;
60_exceptions.md R410). -/
def Obligations.NoStepFaultsOrIsRefused : Prop :=
  ∀ s : State, Inv s → ∃ t : State, step s = .next t

/-- Only the host writes IN_MEM, and only while the block is idle; only the engine writes OUT_MEM (20_memory.md R103, R108,
R110); the reset event leaves both unspecified. -/
def Obligations.EachBufferHasOneWriter : Prop :=
  ∀ s t : State, step s = .next t →
    (t.inMem ≠ s.inMem → (∃ rest, s.pending = .reset :: rest) ∨
      (s.busy = false ∧ ∃ n addr v rest, s.pending = .host (.write n addr v) :: rest ∧ 0x40000000 ≤ addr.toNat)) ∧
    (t.outMem ≠ s.outMem → (∃ rest, s.pending = .reset :: rest) ∨
      (s.busy = true ∧ (s.pending = [] ∨ ∃ rest, s.pending = .engine :: rest ∨ s.pending = .fine :: rest)))

/-- After a run, PHASE, the results, the code table and the output stay until the next START or reset; only W1C changes
STATUS, and it only clears DONE and ERR (10_state.md R49; 45_orchestration.md R369). -/
def Obligations.ResultsStayUntilTheNextStart : Prop :=
  ∀ s t : State, s.busy = false → step s = .next t → (∀ rest, s.pending ≠ .reset :: rest) →
    (∀ v rest, v.getLsbD 0 = true → s.pending ≠ .host (.write .b4 0x000 v) :: rest) →
    t.phase = s.phase ∧ t.res = s.res ∧ t.errInfo = s.errInfo ∧ t.code = s.code ∧ t.outMem = s.outMem ∧
      t.status = { s.status with done := t.status.done, err := t.status.err } ∧
      (t.status.done = true → s.status.done = true) ∧ (t.status.err = true → s.status.err = true) ∧
      ((∀ v rest, s.pending ≠ .host (.write .b4 0x004 v) :: rest) → t.status = s.status)

/-- The interrupt line (60_exceptions.md R420): IRQ_EN ∧ (DONE ∨ ERR); it is low after a W1C of both flags, after IRQ_EN is
written 0 and after a START that begins a run. -/
def Obligations.InterruptFollowsTheFlags : Prop :=
  ∀ s : State,
    (s.irq = true ↔ s.ctrl.irqEn = true ∧ (s.status.done = true ∨ s.status.err = true)) ∧
    (∃ t : State, exec (.statusW1c true true) s = .next t ∧ t.irq = false) ∧
    (∀ cmd mode, ∃ t : State, exec (.cfg cmd mode false) s = .next t ∧ t.irq = false) ∧
    (s.busy = false → s.inLen.toNat ≤ s.cfg.inCap → ∀ mode irqEn,
      (∃ t : State, exec (.compress mode irqEn) s = .next t ∧ t.irq = false) ∧
      ∃ t : State, exec (.decompress mode irqEn) s = .next t ∧ t.irq = false)
end

