-- ==== Sys2Proof/Laws/Bits.lean ====
section
/-!
SUPPORT. Bit strings: the value of the bits of a number, and back (30_encoding.md R154).
-/

namespace Sys2Proof

@[simp] theorem bitsOf_length (k v : Nat) : (bitsOf k v).length = k := by
  induction k with
  | zero => rfl
  | succ k ih => simp [bitsOf, ih]

theorem bitsOf_zero (k : Nat) : bitsOf k 0 = List.replicate k false := by
  induction k with
  | zero => rfl
  | succ k ih => simp [bitsOf, ih, List.replicate_succ]

@[simp] theorem bitsVal_nil : bitsVal [] = 0 := rfl

theorem bitsVal_lt (bs : Bits) : bitsVal bs < 2 ^ bs.length := by
  induction bs with
  | nil => simp [bitsVal]
  | cons b bs ih =>
    simp only [bitsVal, List.length_cons, pow_succ]
    cases b <;> simp <;> omega

/-- The value of the low k bits of v. -/
@[simp] theorem bitsVal_bitsOf (k v : Nat) : bitsVal (bitsOf k v) = v % 2 ^ k := by
  induction k with
  | zero => simp [bitsOf, Nat.mod_one]
  | succ k ih =>
    simp only [bitsOf, bitsVal, bitsOf_length, ih, Nat.mod_pow_succ, Nat.testBit, Nat.shiftRight_eq_div_pow,
      Nat.one_and_eq_mod_two, Nat.mod_two_bne_zero]
    rcases Nat.mod_two_eq_zero_or_one (v / 2 ^ k) with h | h <;> simp [h]
    omega

/-- The bits of the value of a bit string. -/
theorem bitsOf_bitsVal (bs : Bits) : bitsOf bs.length (bitsVal bs) = bs := by
  have key : ∀ (bs : Bits) (hi : Nat), bitsOf bs.length (hi * 2 ^ bs.length + bitsVal bs) = bs := by
    intro bs
    induction bs with
    | nil => intro hi; rfl
    | cons b bs ih =>
      intro hi
      have hb := bitsVal_lt bs
      have hsplit : hi * 2 ^ (bs.length + 1) + bitsVal (b :: bs)
          = (2 * hi + b.toNat) * 2 ^ bs.length + bitsVal bs := by
        simp only [bitsVal, pow_succ]; ring
      have hdiv : (hi * 2 ^ (bs.length + 1) + bitsVal (b :: bs)) / 2 ^ bs.length = 2 * hi + b.toNat := by
        rw [hsplit, Nat.add_comm, Nat.add_mul_div_right _ _ (by positivity), Nat.div_eq_of_lt hb, Nat.zero_add]
      simp only [List.length_cons, bitsOf]
      refine congrArg₂ List.cons ?_ ?_
      · simp only [Nat.testBit, Nat.shiftRight_eq_div_pow, hdiv, Nat.one_and_eq_mod_two]
        cases b <;> simp
      · rw [hsplit]; exact ih _
  simpa using key bs 0

theorem bitsVal_append (as bs : Bits) : bitsVal (as ++ bs) = bitsVal as * 2 ^ bs.length + bitsVal bs := by
  induction as with
  | nil => simp
  | cons a as ih =>
    simp only [List.cons_append, bitsVal, ih, List.length_append, pow_add]
    ring

end Sys2Proof
end

