-- ==== Sys2Proof/Laws/Host.lean ====
section
/-!
SUPPORT. Where a host access goes, and what it then does (20_memory.md R100, R106, R107, R112).
-/

namespace Sys2Proof.Machine

theorem busTarget_reg (c : Config) {addr : Addr} (h : addr.toNat < 0x1000) : busTarget c addr = .reg addr.toNat := by
  unfold busTarget
  simp only [if_pos h]

theorem busTarget_inp (c : Config) {addr : Addr} {i : Nat} (h : addr.toNat = inBase + i) (hi : i < c.inCap) :
    busTarget c addr = .inp i := by
  have e : addr.toNat - inBase = i := by omega
  have h1 : ¬ addr.toNat < 0x1000 := by simp only [inBase] at h; omega
  have h2 : inBase ≤ addr.toNat ∧ addr.toNat - inBase < c.inCap := by omega
  unfold busTarget
  simp only [if_neg h1, Bool.and_eq_true, decide_eq_true_eq, if_pos h2]
  rw [e]

theorem busTarget_out {c : Config} (hv : c.valid = true) {addr : Addr} {i : Nat} (h : addr.toNat = outBase + i)
    (hi : i < c.outCap) : busTarget c addr = .out i := by
  simp only [Config.valid, Bool.and_eq_true, decide_eq_true_eq] at hv
  have e : addr.toNat - outBase = i := by omega
  have h1 : ¬ addr.toNat < 0x1000 := by simp only [outBase] at h; omega
  have h2 : ¬ (inBase ≤ addr.toNat ∧ addr.toNat - inBase < c.inCap) := by
    simp only [outBase] at h
    simp only [inBase]
    omega
  have h3 : outBase ≤ addr.toNat ∧ addr.toNat - outBase < c.outCap := by omega
  unfold busTarget
  simp only [if_neg h1, Bool.and_eq_true, decide_eq_true_eq, if_neg h2, if_pos h3]
  rw [e]

/-- A 4-byte register read at a 4-aligned offset returns the register (20_memory.md R112). -/
theorem reads_register {s : State} {addr : Addr} {v : Word} (h : addr.toNat < 0x1000) (h4 : addr.toNat % 4 = 0)
    (hv : s.readReg addr.toNat = v) : s.reads addr v := by
  have hb := busTarget_reg s.cfg h
  simp only [State.reads, exec, execRd32, State.readStep, State.memRead, hb, regAccessOk, h4]
  simp [State.respond, State.answered, hv]

/-- A 4-byte register write at a 4-aligned offset has the register's effect (20_memory.md R112). -/
theorem writes_register {s : State} {addr : Addr} (v : Word) (h : addr.toNat < 0x1000) (h4 : addr.toNat % 4 = 0) :
    s.writeStep .b4 addr v = (s.writeReg addr.toNat v).respond .okWrite := by
  have hb := busTarget_reg s.cfg h
  simp only [State.writeStep, hb, regAccessOk, h4]
  simp

/-- While idle a result register reads its value. -/
theorem State.unlessBusy_idle {s : State} (h : s.busy = false) (off : Nat) (fields v : Word) :
    s.unlessBusy off fields v = v := by
  simp [State.unlessBusy, h]

/-- While busy a result register reads 0 in its reserved bits (10_state.md R39). -/
theorem State.unlessBusy_reserved {s : State} (h : s.busy = true) (off j : Nat) {fields : Word} (v : Word)
    (hj : fields.getLsbD j = false) : (s.unlessBusy off fields v).getLsbD j = false := by
  simp [State.unlessBusy, h, hj]

end Sys2Proof.Machine
end

