-- ==== Sys2Proof/Laws/PerInstr.lean ====
section
/-!
SUPPORT. One lemma per instruction: no field of the stream is longer than 32 bits (30_encoding.md R145 to R153; a size bit
and its value make at most 17).
-/

namespace Sys2Proof.Laws.FieldLength

/-- A well-formed instruction has at most 32 stream bits; a host command has none. -/
def Statement (i : Instr) : Prop :=
  i.wellFormed = true → (fieldBits i).length ≤ 32

theorem cfg (cmd : BitVec 2) (mode irqEn : Bool) : Statement (.cfg cmd mode irqEn) := fun _ => Nat.zero_le _

theorem compress (mode irqEn : Bool) : Statement (.compress mode irqEn) := fun _ => Nat.zero_le _

theorem decompress (mode irqEn : Bool) : Statement (.decompress mode irqEn) := fun _ => Nat.zero_le _

theorem badCmd00 (mode irqEn : Bool) : Statement (.badCmd00 mode irqEn) := fun _ => Nat.zero_le _

theorem badCmd11 (mode irqEn : Bool) : Statement (.badCmd11 mode irqEn) := fun _ => Nat.zero_le _

theorem statusW1c (doneClr errClr : Bool) : Statement (.statusW1c doneClr errClr) := fun _ => Nat.zero_le _

theorem wr32 (addr : Addr) (data : Word) : Statement (.wr32 addr data) := fun _ => Nat.zero_le _

theorem wr8 (addr : Addr) (data : Byte) : Statement (.wr8 addr data) := fun _ => Nat.zero_le _

theorem rd32 (addr : Addr) : Statement (.rd32 addr) := fun _ => Nat.zero_le _

theorem rd8 (addr : Addr) : Statement (.rd8 addr) := fun _ => Nat.zero_le _

theorem modeByte : Statement .modeByte := fun _ => by decide

theorem modePair : Statement .modePair := fun _ => by decide

theorem classAbsent : Statement .classAbsent := fun _ => by decide

theorem classF8 (value : Option (BitVec 8)) : Statement (.classF8 value) := fun _ => by
  cases value <;> simp [fieldBits, encode]

theorem classF16 (value : Option (BitVec 16)) : Statement (.classF16 value) := fun _ => by
  cases value <;> simp [fieldBits, encode]

theorem classF32 (value : Option (BitVec 32)) : Statement (.classF32 value) := fun _ => by
  cases value <;> simp [fieldBits, encode]

theorem pairAbsent : Statement .pairAbsent := fun _ => by decide

theorem pairPresent : Statement .pairPresent := fun _ => by decide

theorem pairSize8 (value : BitVec 8) : Statement (.pairSize8 value) := fun _ => by simp [fieldBits, encode]

theorem pairSize16 (value : BitVec 16) : Statement (.pairSize16 value) := fun _ => by simp [fieldBits, encode]

theorem codeLeft : Statement .codeLeft := fun _ => by decide

theorem codeRight : Statement .codeRight := fun _ => by decide

theorem pad (n : Nat) : Statement (.pad n) := fun h => by
  simp only [Instr.wellFormed, decide_eq_true_eq] at h
  simp only [fieldBits, encode, List.length_replicate]
  omega

end Sys2Proof.Laws.FieldLength
end

