-- ==== Sys2Proof/Laws/State.lean ====
section
/-!
SUPPORT. What each operation on the state leaves in each field: one lemma per field and operation, true by rfl.
-/

namespace Sys2Proof.Machine

variable (s : State)

/-! ### Discarding the tree (42_tree.md R260) -/

@[simp] theorem State.discardTree_cfg : s.discardTree.cfg = s.cfg := rfl
@[simp] theorem State.discardTree_ctrl : s.discardTree.ctrl = s.ctrl := rfl
@[simp] theorem State.discardTree_status : s.discardTree.status = s.status := rfl
@[simp] theorem State.discardTree_phase : s.discardTree.phase = s.phase := rfl
@[simp] theorem State.discardTree_inLen : s.discardTree.inLen = s.inLen := rfl
@[simp] theorem State.discardTree_res : s.discardTree.res = s.res := rfl
@[simp] theorem State.discardTree_errInfo : s.discardTree.errInfo = s.errInfo := rfl
@[simp] theorem State.discardTree_codeSel : s.discardTree.codeSel = s.codeSel := rfl
@[simp] theorem State.discardTree_codeWsel : s.discardTree.codeWsel = s.codeWsel := rfl
@[simp] theorem State.discardTree_rd : s.discardTree.rd = s.rd := rfl
@[simp] theorem State.discardTree_wr : s.discardTree.wr = s.wr := rfl
@[simp] theorem State.discardTree_dp : s.discardTree.dp = s.dp := rfl
@[simp] theorem State.discardTree_loop : s.discardTree.loop = { s.loop with cur := .empty } := rfl
@[simp] theorem State.discardTree_inMem : s.discardTree.inMem = s.inMem := rfl
@[simp] theorem State.discardTree_outMem : s.discardTree.outMem = s.outMem := rfl
@[simp] theorem State.discardTree_freq : s.discardTree.freq = s.freq := rfl
@[simp] theorem State.discardTree_tree : s.discardTree.tree = .empty := rfl
@[simp] theorem State.discardTree_code : s.discardTree.code = s.code := rfl
@[simp] theorem State.discardTree_cls : s.discardTree.cls = s.cls := rfl
@[simp] theorem State.discardTree_ex : s.discardTree.ex = s.ex := rfl
@[simp] theorem State.discardTree_pending : s.discardTree.pending = s.pending := rfl
@[simp] theorem State.discardTree_resp : s.discardTree.resp = s.resp := rfl
@[simp] theorem State.discardTree_freeCtr : s.discardTree.freeCtr = s.freeCtr := rfl
@[simp] theorem State.discardTree_memSeed : s.discardTree.memSeed = s.memSeed := rfl

/-! ### Raising an error (60_exceptions.md R410) -/

@[simp] theorem State.raise_cfg (e : RunError) (i : Word) : (s.raise e i).cfg = s.cfg := rfl
@[simp] theorem State.raise_ctrl (e : RunError) (i : Word) : (s.raise e i).ctrl = s.ctrl := rfl
@[simp] theorem State.raise_status (e : RunError) (i : Word) : (s.raise e i).status = { s.status with trunc := false, errcode := e.code, err := true } := rfl
@[simp] theorem State.raise_phase (e : RunError) (i : Word) : (s.raise e i).phase = .error := rfl
@[simp] theorem State.raise_inLen (e : RunError) (i : Word) : (s.raise e i).inLen = s.inLen := rfl
@[simp] theorem State.raise_res (e : RunError) (i : Word) : (s.raise e i).res = { s.res with outLen := s.wr.idx } := rfl
@[simp] theorem State.raise_errInfo (e : RunError) (i : Word) : (s.raise e i).errInfo = i := rfl
@[simp] theorem State.raise_codeSel (e : RunError) (i : Word) : (s.raise e i).codeSel = s.codeSel := rfl
@[simp] theorem State.raise_codeWsel (e : RunError) (i : Word) : (s.raise e i).codeWsel = s.codeWsel := rfl
@[simp] theorem State.raise_rd (e : RunError) (i : Word) : (s.raise e i).rd = s.rd := rfl
@[simp] theorem State.raise_wr (e : RunError) (i : Word) : (s.raise e i).wr = { pend := 0, cnt := 0, idx := s.wr.idx, bits := s.wr.idx <<< 3 } := rfl
@[simp] theorem State.raise_dp (e : RunError) (i : Word) : (s.raise e i).dp = s.dp := rfl
@[simp] theorem State.raise_loop (e : RunError) (i : Word) : (s.raise e i).loop = { s.loop with cur := .empty } := rfl
@[simp] theorem State.raise_inMem (e : RunError) (i : Word) : (s.raise e i).inMem = s.inMem := rfl
@[simp] theorem State.raise_outMem (e : RunError) (i : Word) : (s.raise e i).outMem = s.outMem := rfl
@[simp] theorem State.raise_freq (e : RunError) (i : Word) : (s.raise e i).freq = s.freq := rfl
@[simp] theorem State.raise_tree (e : RunError) (i : Word) : (s.raise e i).tree = .empty := rfl
@[simp] theorem State.raise_code (e : RunError) (i : Word) : (s.raise e i).code = [] := rfl
@[simp] theorem State.raise_cls (e : RunError) (i : Word) : (s.raise e i).cls = s.cls := rfl
@[simp] theorem State.raise_ex (e : RunError) (i : Word) : (s.raise e i).ex = s.ex := rfl
@[simp] theorem State.raise_pending (e : RunError) (i : Word) : (s.raise e i).pending = s.pending := rfl
@[simp] theorem State.raise_resp (e : RunError) (i : Word) : (s.raise e i).resp = s.resp := rfl
@[simp] theorem State.raise_freeCtr (e : RunError) (i : Word) : (s.raise e i).freeCtr = s.freeCtr := rfl
@[simp] theorem State.raise_memSeed (e : RunError) (i : Word) : (s.raise e i).memSeed = s.memSeed := rfl

/-! ### Completion (45_orchestration.md R368) -/

@[simp] theorem State.complete_cfg (c : Bool) : (s.complete c).cfg = s.cfg := rfl
@[simp] theorem State.complete_ctrl (c : Bool) : (s.complete c).ctrl = s.ctrl := rfl
@[simp] theorem State.complete_status (c : Bool) : (s.complete c).status = { s.status with trunc := s.dp.trunc, errcode := 0, done := true } := rfl
@[simp] theorem State.complete_phase (c : Bool) : (s.complete c).phase = .done := rfl
@[simp] theorem State.complete_inLen (c : Bool) : (s.complete c).inLen = s.inLen := rfl
@[simp] theorem State.complete_res (c : Bool) : (s.complete c).res = s.results c := rfl
@[simp] theorem State.complete_errInfo (c : Bool) : (s.complete c).errInfo = 0 := rfl
@[simp] theorem State.complete_codeSel (c : Bool) : (s.complete c).codeSel = s.codeSel := rfl
@[simp] theorem State.complete_codeWsel (c : Bool) : (s.complete c).codeWsel = s.codeWsel := rfl
@[simp] theorem State.complete_rd (c : Bool) : (s.complete c).rd = s.rd := rfl
@[simp] theorem State.complete_wr (c : Bool) : (s.complete c).wr = s.wr := rfl
@[simp] theorem State.complete_dp (c : Bool) : (s.complete c).dp = s.dp := rfl
@[simp] theorem State.complete_loop (c : Bool) : (s.complete c).loop = s.loop := rfl
@[simp] theorem State.complete_inMem (c : Bool) : (s.complete c).inMem = s.inMem := rfl
@[simp] theorem State.complete_outMem (c : Bool) : (s.complete c).outMem = s.outMem := rfl
@[simp] theorem State.complete_freq (c : Bool) : (s.complete c).freq = s.freq := rfl
@[simp] theorem State.complete_tree (c : Bool) : (s.complete c).tree = s.tree := rfl
@[simp] theorem State.complete_code (c : Bool) : (s.complete c).code = s.code := rfl
@[simp] theorem State.complete_cls (c : Bool) : (s.complete c).cls = s.cls := rfl
@[simp] theorem State.complete_ex (c : Bool) : (s.complete c).ex = s.ex := rfl
@[simp] theorem State.complete_pending (c : Bool) : (s.complete c).pending = s.pending := rfl
@[simp] theorem State.complete_resp (c : Bool) : (s.complete c).resp = s.resp := rfl
@[simp] theorem State.complete_freeCtr (c : Bool) : (s.complete c).freeCtr = s.freeCtr := rfl
@[simp] theorem State.complete_memSeed (c : Bool) : (s.complete c).memSeed = s.memSeed := rfl

/-! ### Entering a phase -/

@[simp] theorem State.enter_cfg (p : Phase) : (s.enter p).cfg = s.cfg := rfl
@[simp] theorem State.enter_ctrl (p : Phase) : (s.enter p).ctrl = s.ctrl := rfl
@[simp] theorem State.enter_status (p : Phase) : (s.enter p).status = s.status := rfl
@[simp] theorem State.enter_phase (p : Phase) : (s.enter p).phase = p := rfl
@[simp] theorem State.enter_inLen (p : Phase) : (s.enter p).inLen = s.inLen := rfl
@[simp] theorem State.enter_res (p : Phase) : (s.enter p).res = s.res := rfl
@[simp] theorem State.enter_errInfo (p : Phase) : (s.enter p).errInfo = s.errInfo := rfl
@[simp] theorem State.enter_codeSel (p : Phase) : (s.enter p).codeSel = s.codeSel := rfl
@[simp] theorem State.enter_codeWsel (p : Phase) : (s.enter p).codeWsel = s.codeWsel := rfl
@[simp] theorem State.enter_rd (p : Phase) : (s.enter p).rd = s.rd := rfl
@[simp] theorem State.enter_wr (p : Phase) : (s.enter p).wr = s.wr := rfl
@[simp] theorem State.enter_dp (p : Phase) : (s.enter p).dp = s.dp := rfl
@[simp] theorem State.enter_loop (p : Phase) : (s.enter p).loop = Loop.start := rfl
@[simp] theorem State.enter_inMem (p : Phase) : (s.enter p).inMem = s.inMem := rfl
@[simp] theorem State.enter_outMem (p : Phase) : (s.enter p).outMem = s.outMem := rfl
@[simp] theorem State.enter_freq (p : Phase) : (s.enter p).freq = s.freq := rfl
@[simp] theorem State.enter_tree (p : Phase) : (s.enter p).tree = s.tree := rfl
@[simp] theorem State.enter_code (p : Phase) : (s.enter p).code = s.code := rfl
@[simp] theorem State.enter_cls (p : Phase) : (s.enter p).cls = s.cls := rfl
@[simp] theorem State.enter_ex (p : Phase) : (s.enter p).ex = s.ex := rfl
@[simp] theorem State.enter_pending (p : Phase) : (s.enter p).pending = s.pending := rfl
@[simp] theorem State.enter_resp (p : Phase) : (s.enter p).resp = s.resp := rfl
@[simp] theorem State.enter_freeCtr (p : Phase) : (s.enter p).freeCtr = s.freeCtr := rfl
@[simp] theorem State.enter_memSeed (p : Phase) : (s.enter p).memSeed = s.memSeed := rfl

/-! ### The start values of a run (45_orchestration.md R341) -/

@[simp] theorem State.initRun_cfg : (s.initRun).cfg = s.cfg := rfl
@[simp] theorem State.initRun_ctrl : (s.initRun).ctrl = s.ctrl := rfl
@[simp] theorem State.initRun_status : (s.initRun).status = { done := false, err := false, trunc := false, runMode := if s.ctrl.cmd = 0b01 then s.ctrl.mode else false, errcode := 0 } := rfl
@[simp] theorem State.initRun_phase : (s.initRun).phase = s.phase := rfl
@[simp] theorem State.initRun_inLen : (s.initRun).inLen = s.inLen := rfl
@[simp] theorem State.initRun_res : (s.initRun).res = Results.zero := rfl
@[simp] theorem State.initRun_errInfo : (s.initRun).errInfo = 0 := rfl
@[simp] theorem State.initRun_codeSel : (s.initRun).codeSel = s.codeSel := rfl
@[simp] theorem State.initRun_codeWsel : (s.initRun).codeWsel = s.codeWsel := rfl
@[simp] theorem State.initRun_rd : (s.initRun).rd = { byte := 0, bit := 0, len := s.inLen } := rfl
@[simp] theorem State.initRun_wr : (s.initRun).wr = { pend := 0, cnt := 0, idx := 0, bits := 0 } := rfl
@[simp] theorem State.initRun_dp : (s.initRun).dp = { mode := if s.ctrl.cmd = 0b01 then s.ctrl.mode else false, total := 0, doneSyms := 0, nsym := 0, hdrBits := 0, codedBits := 0, trunc := false } := rfl
@[simp] theorem State.initRun_loop : (s.initRun).loop = Loop.start := rfl
@[simp] theorem State.initRun_inMem : (s.initRun).inMem = s.inMem := rfl
@[simp] theorem State.initRun_outMem : (s.initRun).outMem = s.outMem := rfl
@[simp] theorem State.initRun_freq : (s.initRun).freq = [] := rfl
@[simp] theorem State.initRun_tree : (s.initRun).tree = .empty := rfl
@[simp] theorem State.initRun_code : (s.initRun).code = [] := rfl
@[simp] theorem State.initRun_cls : (s.initRun).cls = [] := rfl
@[simp] theorem State.initRun_ex : (s.initRun).ex = [] := rfl
@[simp] theorem State.initRun_pending : (s.initRun).pending = s.pending := rfl
@[simp] theorem State.initRun_resp : (s.initRun).resp = s.resp := rfl
@[simp] theorem State.initRun_freeCtr : (s.initRun).freeCtr = s.freeCtr := rfl
@[simp] theorem State.initRun_memSeed : (s.initRun).memSeed = s.memSeed := rfl

/-! ### The response of a host access -/

@[simp] theorem State.respond_cfg (r : Response) : (s.respond r).cfg = s.cfg := rfl
@[simp] theorem State.respond_ctrl (r : Response) : (s.respond r).ctrl = s.ctrl := rfl
@[simp] theorem State.respond_status (r : Response) : (s.respond r).status = s.status := rfl
@[simp] theorem State.respond_phase (r : Response) : (s.respond r).phase = s.phase := rfl
@[simp] theorem State.respond_inLen (r : Response) : (s.respond r).inLen = s.inLen := rfl
@[simp] theorem State.respond_res (r : Response) : (s.respond r).res = s.res := rfl
@[simp] theorem State.respond_errInfo (r : Response) : (s.respond r).errInfo = s.errInfo := rfl
@[simp] theorem State.respond_codeSel (r : Response) : (s.respond r).codeSel = s.codeSel := rfl
@[simp] theorem State.respond_codeWsel (r : Response) : (s.respond r).codeWsel = s.codeWsel := rfl
@[simp] theorem State.respond_rd (r : Response) : (s.respond r).rd = s.rd := rfl
@[simp] theorem State.respond_wr (r : Response) : (s.respond r).wr = s.wr := rfl
@[simp] theorem State.respond_dp (r : Response) : (s.respond r).dp = s.dp := rfl
@[simp] theorem State.respond_loop (r : Response) : (s.respond r).loop = s.loop := rfl
@[simp] theorem State.respond_inMem (r : Response) : (s.respond r).inMem = s.inMem := rfl
@[simp] theorem State.respond_outMem (r : Response) : (s.respond r).outMem = s.outMem := rfl
@[simp] theorem State.respond_freq (r : Response) : (s.respond r).freq = s.freq := rfl
@[simp] theorem State.respond_tree (r : Response) : (s.respond r).tree = s.tree := rfl
@[simp] theorem State.respond_code (r : Response) : (s.respond r).code = s.code := rfl
@[simp] theorem State.respond_cls (r : Response) : (s.respond r).cls = s.cls := rfl
@[simp] theorem State.respond_ex (r : Response) : (s.respond r).ex = s.ex := rfl
@[simp] theorem State.respond_pending (r : Response) : (s.respond r).pending = s.pending := rfl
@[simp] theorem State.respond_resp (r : Response) : (s.respond r).resp = some r := rfl
@[simp] theorem State.respond_freeCtr (r : Response) : (s.respond r).freeCtr = s.freeCtr := rfl
@[simp] theorem State.respond_memSeed (r : Response) : (s.respond r).memSeed = s.memSeed := rfl

/-! ### W1C (10_state.md R46) -/

@[simp] theorem State.clearFlags_cfg (d e : Bool) : (s.clearFlags d e).cfg = s.cfg := rfl
@[simp] theorem State.clearFlags_ctrl (d e : Bool) : (s.clearFlags d e).ctrl = s.ctrl := rfl
@[simp] theorem State.clearFlags_status (d e : Bool) : (s.clearFlags d e).status = { s.status with done := s.status.done && !d, err := s.status.err && !e } := rfl
@[simp] theorem State.clearFlags_phase (d e : Bool) : (s.clearFlags d e).phase = s.phase := rfl
@[simp] theorem State.clearFlags_inLen (d e : Bool) : (s.clearFlags d e).inLen = s.inLen := rfl
@[simp] theorem State.clearFlags_res (d e : Bool) : (s.clearFlags d e).res = s.res := rfl
@[simp] theorem State.clearFlags_errInfo (d e : Bool) : (s.clearFlags d e).errInfo = s.errInfo := rfl
@[simp] theorem State.clearFlags_codeSel (d e : Bool) : (s.clearFlags d e).codeSel = s.codeSel := rfl
@[simp] theorem State.clearFlags_codeWsel (d e : Bool) : (s.clearFlags d e).codeWsel = s.codeWsel := rfl
@[simp] theorem State.clearFlags_rd (d e : Bool) : (s.clearFlags d e).rd = s.rd := rfl
@[simp] theorem State.clearFlags_wr (d e : Bool) : (s.clearFlags d e).wr = s.wr := rfl
@[simp] theorem State.clearFlags_dp (d e : Bool) : (s.clearFlags d e).dp = s.dp := rfl
@[simp] theorem State.clearFlags_loop (d e : Bool) : (s.clearFlags d e).loop = s.loop := rfl
@[simp] theorem State.clearFlags_inMem (d e : Bool) : (s.clearFlags d e).inMem = s.inMem := rfl
@[simp] theorem State.clearFlags_outMem (d e : Bool) : (s.clearFlags d e).outMem = s.outMem := rfl
@[simp] theorem State.clearFlags_freq (d e : Bool) : (s.clearFlags d e).freq = s.freq := rfl
@[simp] theorem State.clearFlags_tree (d e : Bool) : (s.clearFlags d e).tree = s.tree := rfl
@[simp] theorem State.clearFlags_code (d e : Bool) : (s.clearFlags d e).code = s.code := rfl
@[simp] theorem State.clearFlags_cls (d e : Bool) : (s.clearFlags d e).cls = s.cls := rfl
@[simp] theorem State.clearFlags_ex (d e : Bool) : (s.clearFlags d e).ex = s.ex := rfl
@[simp] theorem State.clearFlags_pending (d e : Bool) : (s.clearFlags d e).pending = s.pending := rfl
@[simp] theorem State.clearFlags_resp (d e : Bool) : (s.clearFlags d e).resp = s.resp := rfl
@[simp] theorem State.clearFlags_freeCtr (d e : Bool) : (s.clearFlags d e).freeCtr = s.freeCtr := rfl
@[simp] theorem State.clearFlags_memSeed (d e : Bool) : (s.clearFlags d e).memSeed = s.memSeed := rfl

/-! ### Reading moves only the reader -/

@[simp] theorem State.skipN_cfg (k : Nat) : (s.skipN k).cfg = s.cfg := rfl
@[simp] theorem State.skipN_ctrl (k : Nat) : (s.skipN k).ctrl = s.ctrl := rfl
@[simp] theorem State.skipN_status (k : Nat) : (s.skipN k).status = s.status := rfl
@[simp] theorem State.skipN_phase (k : Nat) : (s.skipN k).phase = s.phase := rfl
@[simp] theorem State.skipN_inLen (k : Nat) : (s.skipN k).inLen = s.inLen := rfl
@[simp] theorem State.skipN_res (k : Nat) : (s.skipN k).res = s.res := rfl
@[simp] theorem State.skipN_errInfo (k : Nat) : (s.skipN k).errInfo = s.errInfo := rfl
@[simp] theorem State.skipN_codeSel (k : Nat) : (s.skipN k).codeSel = s.codeSel := rfl
@[simp] theorem State.skipN_codeWsel (k : Nat) : (s.skipN k).codeWsel = s.codeWsel := rfl
@[simp] theorem State.skipN_rd (k : Nat) : (s.skipN k).rd = (s.rd.readN s.inByte k).2 := rfl
@[simp] theorem State.skipN_wr (k : Nat) : (s.skipN k).wr = s.wr := rfl
@[simp] theorem State.skipN_dp (k : Nat) : (s.skipN k).dp = s.dp := rfl
@[simp] theorem State.skipN_loop (k : Nat) : (s.skipN k).loop = s.loop := rfl
@[simp] theorem State.skipN_inMem (k : Nat) : (s.skipN k).inMem = s.inMem := rfl
@[simp] theorem State.skipN_outMem (k : Nat) : (s.skipN k).outMem = s.outMem := rfl
@[simp] theorem State.skipN_freq (k : Nat) : (s.skipN k).freq = s.freq := rfl
@[simp] theorem State.skipN_tree (k : Nat) : (s.skipN k).tree = s.tree := rfl
@[simp] theorem State.skipN_code (k : Nat) : (s.skipN k).code = s.code := rfl
@[simp] theorem State.skipN_cls (k : Nat) : (s.skipN k).cls = s.cls := rfl
@[simp] theorem State.skipN_ex (k : Nat) : (s.skipN k).ex = s.ex := rfl
@[simp] theorem State.skipN_pending (k : Nat) : (s.skipN k).pending = s.pending := rfl
@[simp] theorem State.skipN_resp (k : Nat) : (s.skipN k).resp = s.resp := rfl
@[simp] theorem State.skipN_freeCtr (k : Nat) : (s.skipN k).freeCtr = s.freeCtr := rfl
@[simp] theorem State.skipN_memSeed (k : Nat) : (s.skipN k).memSeed = s.memSeed := rfl

/-! ### The loop's next symbol -/

@[simp] theorem State.nextSym_cfg : (s.nextSym).cfg = s.cfg := rfl
@[simp] theorem State.nextSym_ctrl : (s.nextSym).ctrl = s.ctrl := rfl
@[simp] theorem State.nextSym_status : (s.nextSym).status = s.status := rfl
@[simp] theorem State.nextSym_phase : (s.nextSym).phase = s.phase := rfl
@[simp] theorem State.nextSym_inLen : (s.nextSym).inLen = s.inLen := rfl
@[simp] theorem State.nextSym_res : (s.nextSym).res = s.res := rfl
@[simp] theorem State.nextSym_errInfo : (s.nextSym).errInfo = s.errInfo := rfl
@[simp] theorem State.nextSym_codeSel : (s.nextSym).codeSel = s.codeSel := rfl
@[simp] theorem State.nextSym_codeWsel : (s.nextSym).codeWsel = s.codeWsel := rfl
@[simp] theorem State.nextSym_rd : (s.nextSym).rd = s.rd := rfl
@[simp] theorem State.nextSym_wr : (s.nextSym).wr = s.wr := rfl
@[simp] theorem State.nextSym_dp : (s.nextSym).dp = s.dp := rfl
@[simp] theorem State.nextSym_loop : (s.nextSym).loop = { s.loop with s := s.loop.s + 1 } := rfl
@[simp] theorem State.nextSym_inMem : (s.nextSym).inMem = s.inMem := rfl
@[simp] theorem State.nextSym_outMem : (s.nextSym).outMem = s.outMem := rfl
@[simp] theorem State.nextSym_freq : (s.nextSym).freq = s.freq := rfl
@[simp] theorem State.nextSym_tree : (s.nextSym).tree = s.tree := rfl
@[simp] theorem State.nextSym_code : (s.nextSym).code = s.code := rfl
@[simp] theorem State.nextSym_cls : (s.nextSym).cls = s.cls := rfl
@[simp] theorem State.nextSym_ex : (s.nextSym).ex = s.ex := rfl
@[simp] theorem State.nextSym_pending : (s.nextSym).pending = s.pending := rfl
@[simp] theorem State.nextSym_resp : (s.nextSym).resp = s.resp := rfl
@[simp] theorem State.nextSym_freeCtr : (s.nextSym).freeCtr = s.freeCtr := rfl
@[simp] theorem State.nextSym_memSeed : (s.nextSym).memSeed = s.memSeed := rfl

/-! ### The start of a loop -/

@[simp] theorem State.toStage_cfg (g : Stage) : (s.toStage g).cfg = s.cfg := rfl
@[simp] theorem State.toStage_ctrl (g : Stage) : (s.toStage g).ctrl = s.ctrl := rfl
@[simp] theorem State.toStage_status (g : Stage) : (s.toStage g).status = s.status := rfl
@[simp] theorem State.toStage_phase (g : Stage) : (s.toStage g).phase = s.phase := rfl
@[simp] theorem State.toStage_inLen (g : Stage) : (s.toStage g).inLen = s.inLen := rfl
@[simp] theorem State.toStage_res (g : Stage) : (s.toStage g).res = s.res := rfl
@[simp] theorem State.toStage_errInfo (g : Stage) : (s.toStage g).errInfo = s.errInfo := rfl
@[simp] theorem State.toStage_codeSel (g : Stage) : (s.toStage g).codeSel = s.codeSel := rfl
@[simp] theorem State.toStage_codeWsel (g : Stage) : (s.toStage g).codeWsel = s.codeWsel := rfl
@[simp] theorem State.toStage_rd (g : Stage) : (s.toStage g).rd = s.rd := rfl
@[simp] theorem State.toStage_wr (g : Stage) : (s.toStage g).wr = s.wr := rfl
@[simp] theorem State.toStage_dp (g : Stage) : (s.toStage g).dp = s.dp := rfl
@[simp] theorem State.toStage_loop (g : Stage) : (s.toStage g).loop = { s.loop with stage := g, s := 0 } := rfl
@[simp] theorem State.toStage_inMem (g : Stage) : (s.toStage g).inMem = s.inMem := rfl
@[simp] theorem State.toStage_outMem (g : Stage) : (s.toStage g).outMem = s.outMem := rfl
@[simp] theorem State.toStage_freq (g : Stage) : (s.toStage g).freq = s.freq := rfl
@[simp] theorem State.toStage_tree (g : Stage) : (s.toStage g).tree = s.tree := rfl
@[simp] theorem State.toStage_code (g : Stage) : (s.toStage g).code = s.code := rfl
@[simp] theorem State.toStage_cls (g : Stage) : (s.toStage g).cls = s.cls := rfl
@[simp] theorem State.toStage_ex (g : Stage) : (s.toStage g).ex = s.ex := rfl
@[simp] theorem State.toStage_pending (g : Stage) : (s.toStage g).pending = s.pending := rfl
@[simp] theorem State.toStage_resp (g : Stage) : (s.toStage g).resp = s.resp := rfl
@[simp] theorem State.toStage_freeCtr (g : Stage) : (s.toStage g).freeCtr = s.freeCtr := rfl
@[simp] theorem State.toStage_memSeed (g : Stage) : (s.toStage g).memSeed = s.memSeed := rfl

/-! ### New free values -/

@[simp] theorem State.newFree_cfg : (s.newFree).cfg = s.cfg := rfl
@[simp] theorem State.newFree_ctrl : (s.newFree).ctrl = s.ctrl := rfl
@[simp] theorem State.newFree_status : (s.newFree).status = s.status := rfl
@[simp] theorem State.newFree_phase : (s.newFree).phase = s.phase := rfl
@[simp] theorem State.newFree_inLen : (s.newFree).inLen = s.inLen := rfl
@[simp] theorem State.newFree_res : (s.newFree).res = s.res := rfl
@[simp] theorem State.newFree_errInfo : (s.newFree).errInfo = s.errInfo := rfl
@[simp] theorem State.newFree_codeSel : (s.newFree).codeSel = s.codeSel := rfl
@[simp] theorem State.newFree_codeWsel : (s.newFree).codeWsel = s.codeWsel := rfl
@[simp] theorem State.newFree_rd : (s.newFree).rd = s.rd := rfl
@[simp] theorem State.newFree_wr : (s.newFree).wr = s.wr := rfl
@[simp] theorem State.newFree_dp : (s.newFree).dp = s.dp := rfl
@[simp] theorem State.newFree_loop : (s.newFree).loop = s.loop := rfl
@[simp] theorem State.newFree_inMem : (s.newFree).inMem = s.inMem := rfl
@[simp] theorem State.newFree_outMem : (s.newFree).outMem = s.outMem := rfl
@[simp] theorem State.newFree_freq : (s.newFree).freq = s.freq := rfl
@[simp] theorem State.newFree_tree : (s.newFree).tree = s.tree := rfl
@[simp] theorem State.newFree_code : (s.newFree).code = s.code := rfl
@[simp] theorem State.newFree_cls : (s.newFree).cls = s.cls := rfl
@[simp] theorem State.newFree_ex : (s.newFree).ex = s.ex := rfl
@[simp] theorem State.newFree_pending : (s.newFree).pending = s.pending := rfl
@[simp] theorem State.newFree_resp : (s.newFree).resp = s.resp := rfl
@[simp] theorem State.newFree_freeCtr : (s.newFree).freeCtr = s.freeCtr + 1 := rfl
@[simp] theorem State.newFree_memSeed : (s.newFree).memSeed = s.memSeed := rfl

/-! ### The reset event (70_reset_and_hazards.md R450) -/

@[simp] theorem State.resetEvent_cfg : s.resetEvent.cfg = s.cfg := rfl
@[simp] theorem State.resetEvent_ctrl : s.resetEvent.ctrl = State.reset.ctrl := rfl
@[simp] theorem State.resetEvent_status : s.resetEvent.status = State.reset.status := rfl
@[simp] theorem State.resetEvent_phase : s.resetEvent.phase = State.reset.phase := rfl
@[simp] theorem State.resetEvent_inLen : s.resetEvent.inLen = State.reset.inLen := rfl
@[simp] theorem State.resetEvent_res : s.resetEvent.res = State.reset.res := rfl
@[simp] theorem State.resetEvent_errInfo : s.resetEvent.errInfo = State.reset.errInfo := rfl
@[simp] theorem State.resetEvent_codeSel : s.resetEvent.codeSel = State.reset.codeSel := rfl
@[simp] theorem State.resetEvent_codeWsel : s.resetEvent.codeWsel = State.reset.codeWsel := rfl
@[simp] theorem State.resetEvent_rd : s.resetEvent.rd = State.reset.rd := rfl
@[simp] theorem State.resetEvent_wr : s.resetEvent.wr = State.reset.wr := rfl
@[simp] theorem State.resetEvent_dp : s.resetEvent.dp = State.reset.dp := rfl
@[simp] theorem State.resetEvent_loop : s.resetEvent.loop = State.reset.loop := rfl
@[simp] theorem State.resetEvent_inMem : s.resetEvent.inMem = State.reset.inMem := rfl
@[simp] theorem State.resetEvent_outMem : s.resetEvent.outMem = State.reset.outMem := rfl
@[simp] theorem State.resetEvent_freq : s.resetEvent.freq = State.reset.freq := rfl
@[simp] theorem State.resetEvent_tree : s.resetEvent.tree = State.reset.tree := rfl
@[simp] theorem State.resetEvent_code : s.resetEvent.code = State.reset.code := rfl
@[simp] theorem State.resetEvent_cls : s.resetEvent.cls = State.reset.cls := rfl
@[simp] theorem State.resetEvent_ex : s.resetEvent.ex = State.reset.ex := rfl
@[simp] theorem State.resetEvent_pending : s.resetEvent.pending = s.pending := rfl
@[simp] theorem State.resetEvent_resp : s.resetEvent.resp = State.reset.resp := rfl
@[simp] theorem State.resetEvent_freeCtr : s.resetEvent.freeCtr = s.freeCtr := rfl
@[simp] theorem State.resetEvent_memSeed : s.resetEvent.memSeed = s.memSeed + 1 := rfl

/-! ### Flow -/

@[simp] theorem Flow.andThen_run (k : State → Flow) : (Flow.run s).andThen k = k s := rfl
@[simp] theorem Flow.andThen_ended (k : State → Flow) : (Flow.ended s).andThen k = .ended s := rfl
@[simp] theorem Flow.state_run : (Flow.run s).state = s := rfl
@[simp] theorem Flow.state_ended : (Flow.ended s).state = s := rfl

theorem Flow.outcome_eq (f : Flow) : f.outcome = .next f.state := rfl

/-- Going on after two lines is going on after each. -/
theorem Flow.andThen_eq_run {f : Flow} {k : State → Flow} {t : State} (h : f.andThen k = .run t) :
    ∃ u, f = .run u ∧ k u = .run t := by
  cases f with
  | run u => exact ⟨u, rfl, h⟩
  | ended u => cases h

/-- A run ended after two lines has ended in the first or in the second. -/
theorem Flow.andThen_eq_ended {f : Flow} {k : State → Flow} {t : State} (h : f.andThen k = .ended t) :
    f = .ended t ∨ ∃ u, f = .run u ∧ k u = .ended t := by
  cases f with
  | run u => exact .inr ⟨u, rfl, h⟩
  | ended u => cases h; exact .inl rfl

theorem Flow.andThen_assoc (f : Flow) (k l : State → Flow) :
    (f.andThen k).andThen l = f.andThen fun t => (k t).andThen l := by
  cases f <;> rfl

end Sys2Proof.Machine
end

