-- ==== Sys2Proof/Laws/Reader.lean ====
section
/-!
SUPPORT. The reader: what read_bit and read_n_bits return and where they leave the position (40_bitstream.md R201 to R206).
-/

namespace Sys2Proof.Machine

@[simp] theorem streamBits_length (byteAt : Nat → Byte) (p k : Nat) : (streamBits byteAt p k).length = k := by
  induction k generalizing p with
  | zero => rfl
  | succ k ih => simp [streamBits, ih]

theorem Reader.bit_lt (r : Reader) : r.bit.toNat < 8 := r.bit.isLt

/-- The bits left, for a reader inside its input. -/
theorem Reader.pos_le {r : Reader} (h : r.ok) : r.pos ≤ 8 * r.len.toNat := by
  have hb := r.bit_lt
  obtain ⟨h1, h2⟩ := h
  unfold Reader.pos
  rcases Nat.lt_or_eq_of_le h1 with h3 | h3
  · omega
  · have := h2 h3
    rw [this]
    simp
    omega

/-- read_bit at the end of the input (40_bitstream.md R201, R202). -/
theorem Reader.readBit_eos {r : Reader} (byteAt : Nat → Byte) (h : r.len.toNat ≤ r.byte.toNat) :
    r.readBit byteAt = (none, r) := by
  simp [Reader.readBit, h]

/-- read_bit inside the input: the stream's bit at the position, and the position one further (40_bitstream.md R201). -/
theorem Reader.readBit_next {r : Reader} (byteAt : Nat → Byte) (h : r.ok) (hl : r.bitsLeft ≠ 0) :
    ∃ r', r.readBit byteAt = (some (streamBit byteAt r.pos), r') ∧ r'.len = r.len ∧ r'.pos = r.pos + 1 ∧ r'.ok := by
  have hb := r.bit_lt
  have hlen := r.len.isLt
  have hlt : r.byte.toNat < r.len.toNat := by
    rcases Nat.lt_or_eq_of_le h.1 with h3 | h3
    · exact h3
    · exfalso
      apply hl
      have hz := h.2 h3
      simp [Reader.bitsLeft, Reader.pos, hz, h3]
  have hdiv : r.pos / 8 = r.byte.toNat := by unfold Reader.pos; omega
  have hmod : r.pos % 8 = r.bit.toNat := by unfold Reader.pos; omega
  have hval : streamBit byteAt r.pos = (byteAt r.byte.toNat).getLsbD (7 - r.bit.toNat) := by
    simp [streamBit, hdiv, hmod]
  have hadd : (r.byte + 1).toNat = r.byte.toNat + 1 := by
    rw [BitVec.toNat_add]
    simp
    omega
  simp only [Reader.readBit, if_neg (Nat.not_le.mpr hlt), ← hval]
  by_cases h7 : r.bit = 7
  · have h7n : r.bit.toNat = 7 := by rw [h7]; rfl
    refine ⟨{ r with bit := 0, byte := r.byte + 1 }, by simp [h7], rfl, ?_, ?_⟩
    · simp only [Reader.pos, hadd]; simp [h7n]; omega
    · refine ⟨?_, fun _ => rfl⟩
      simp only [hadd]; omega
  · have h7n : r.bit.toNat < 7 := by
      have : r.bit.toNat ≠ 7 := fun hh => h7 (BitVec.eq_of_toNat_eq (by simpa using hh))
      omega
    have hadd3 : (r.bit + 1).toNat = r.bit.toNat + 1 := by
      rw [BitVec.toNat_add]
      simp
      omega
    refine ⟨{ r with bit := r.bit + 1 }, by rw [if_neg h7], rfl, ?_, ?_⟩
    · simp only [Reader.pos, hadd3]; omega
    · refine ⟨h.1, fun hh => ?_⟩
      simp only at hh
      omega

/-- The loop of read_n_bits: the value of the next k bits when they are there (40_bitstream.md R203), and else the end of
the input (R204). -/
theorem Reader.readNLoop_spec (byteAt : Nat → Byte) (k v : Nat) {r : Reader} (h : r.ok) :
    ∃ r', r'.len = r.len ∧ r'.ok ∧
      ((k ≤ r.bitsLeft ∧ r'.pos = r.pos + k ∧
          Reader.readNLoop byteAt k v r = (some (v * 2 ^ k + bitsVal (streamBits byteAt r.pos k)), r')) ∨
        (r.bitsLeft < k ∧ r'.pos = 8 * r.len.toNat ∧ Reader.readNLoop byteAt k v r = (none, r'))) := by
  induction k generalizing v r with
  | zero => exact ⟨r, rfl, h, .inl ⟨Nat.zero_le _, rfl, by simp [Reader.readNLoop, streamBits]⟩⟩
  | succ k ih =>
    have hpos := Reader.pos_le h
    by_cases hl : r.bitsLeft = 0
    · have hge : r.len.toNat ≤ r.byte.toNat := by
        by_contra hlt
        have := r.bit_lt
        simp only [Reader.bitsLeft, Reader.pos] at hl
        omega
      refine ⟨r, rfl, h, .inr ⟨by omega, ?_, by simp [Reader.readNLoop, Reader.readBit_eos byteAt hge]⟩⟩
      simp only [Reader.bitsLeft] at hl
      omega
    · obtain ⟨r1, e1, l1, p1, ok1⟩ := Reader.readBit_next byteAt h hl
      obtain ⟨r2, l2, ok2, h2⟩ := ih (2 * v + (streamBit byteAt r.pos).toNat) ok1
      have hbl : r1.bitsLeft = r.bitsLeft - 1 := by simp only [Reader.bitsLeft, l1, p1]; omega
      refine ⟨r2, l2.trans l1, ok2, ?_⟩
      rcases h2 with ⟨a, b, c⟩ | ⟨a, b, c⟩
      · refine .inl ⟨by omega, by omega, ?_⟩
        simp only [Reader.readNLoop, e1, c]
        simp only [streamBits, bitsVal, streamBits_length, p1, pow_succ]
        congr 2
        ring
      · refine .inr ⟨by omega, by rw [b, l1], ?_⟩
        simp only [Reader.readNLoop, e1, c]

/-- read_n_bits(k) when k bits are left (40_bitstream.md R203, R206). -/
theorem Reader.readN_some (byteAt : Nat → Byte) {k : Nat} {r : Reader} (h : r.ok) (hk : k ≤ r.bitsLeft) :
    ∃ r', r.readN byteAt k = (some (bitsVal (streamBits byteAt r.pos k)), r') ∧ r'.len = r.len ∧ r'.pos = r.pos + k ∧
      r'.ok := by
  obtain ⟨r', l, ok, h' | h'⟩ := Reader.readNLoop_spec byteAt k 0 h
  · exact ⟨r', by simpa [Reader.readN] using h'.2.2, l, h'.2.1, ok⟩
  · omega

/-- read_n_bits(k) when fewer than k bits are left (40_bitstream.md R203, R204, R206). -/
theorem Reader.readN_none (byteAt : Nat → Byte) {k : Nat} {r : Reader} (h : r.ok) (hk : r.bitsLeft < k) :
    ∃ r', r.readN byteAt k = (none, r') ∧ r'.len = r.len ∧ r'.pos = 8 * r.len.toNat ∧ r'.ok := by
  obtain ⟨r', l, ok, h' | h'⟩ := Reader.readNLoop_spec byteAt k 0 h
  · omega
  · exact ⟨r', by simpa [Reader.readN] using h'.2.2, l, h'.2.1, ok⟩

/-- Reading keeps the reader inside its input and its length as latched. -/
theorem Reader.readN_keeps (byteAt : Nat → Byte) (k : Nat) {r : Reader} (h : r.ok) :
    (r.readN byteAt k).2.ok ∧ (r.readN byteAt k).2.len = r.len ∧ r.pos ≤ (r.readN byteAt k).2.pos := by
  have hp := Reader.pos_le h
  by_cases hk : k ≤ r.bitsLeft
  · obtain ⟨r', e, l, p, ok⟩ := Reader.readN_some byteAt h hk
    rw [e]; exact ⟨ok, l, by simp only; omega⟩
  · obtain ⟨r', e, l, p, ok⟩ := Reader.readN_none byteAt h (Nat.lt_of_not_le hk)
    rw [e]; exact ⟨ok, l, by simp only; omega⟩

/-- The value read is below 2^k (40_bitstream.md R203). -/
theorem Reader.readN_lt (byteAt : Nat → Byte) {k v : Nat} {r : Reader} (h : r.ok)
    (hv : (r.readN byteAt k).1 = some v) : v < 2 ^ k := by
  by_cases hk : k ≤ r.bitsLeft
  · obtain ⟨r', e, -⟩ := Reader.readN_some byteAt h hk
    rw [e] at hv
    obtain rfl := Option.some.inj hv
    simpa using bitsVal_lt (streamBits byteAt r.pos k)
  · obtain ⟨r', e, -⟩ := Reader.readN_none byteAt h (Nat.lt_of_not_le hk)
    rw [e] at hv
    cases hv

end Sys2Proof.Machine
end

