-- ==== Sys2Proof/Laws/Table.lean ====
section
/-!
SUPPORT. Sparse tables: reading after writing, and the canonical form kept by every operation.
-/

namespace Sys2Proof.Machine

variable {α : Type}

@[simp] theorem Table.look_nil (k : Nat) : Table.look k ([] : Table α) = none := rfl

theorem Table.look_cons (k j : Nat) (v : α) (t : Table α) :
    Table.look k ((j, v) :: t) = if j = k then some v else Table.look k t := rfl

theorem Table.risingFrom_mono {lo hi : Nat} (h : lo ≤ hi) :
    ∀ {t : Table α}, Table.risingFrom hi t = true → Table.risingFrom lo t = true
  | [], _ => rfl
  | (j, v) :: t, ht => by
    simp only [Table.risingFrom, Bool.and_eq_true, decide_eq_true_eq] at ht ⊢
    exact ⟨le_trans h ht.1, ht.2⟩

theorem Table.look_lt {k : Nat} : ∀ {lo : Nat} {t : Table α}, Table.risingFrom lo t = true → k < lo → Table.look k t = none
  | _, [], _, _ => rfl
  | lo, (j, v) :: t, ht, hk => by
    simp only [Table.risingFrom, Bool.and_eq_true, decide_eq_true_eq] at ht
    have hj : j ≠ k := by omega
    rw [Table.look_cons, if_neg hj]
    exact Table.look_lt ht.2 (by omega)

@[simp] theorem Table.look_put_same (k : Nat) (v : α) (t : Table α) : Table.look k (Table.put k v t) = some v := by
  induction t with
  | nil => simp [Table.put, Table.look]
  | cons e t ih =>
    obtain ⟨j, w⟩ := e
    simp only [Table.put]
    split_ifs with h1 h2
    · simp [Table.look]
    · simp [Table.look]
    · simp [Table.look, h2, ih]

theorem Table.look_put_other {k j : Nat} (h : j ≠ k) (v : α) (t : Table α) :
    Table.look j (Table.put k v t) = Table.look j t := by
  induction t with
  | nil => simp [Table.put, Table.look, Ne.symm h]
  | cons e t ih =>
    obtain ⟨i, w⟩ := e
    simp only [Table.put]
    split_ifs with h1 h2
    · simp [Table.look, Ne.symm h]
    · subst h2
      simp [Table.look, Ne.symm h]
    · simp only [Table.look, ih]

theorem Table.look_put (k j : Nat) (v : α) (t : Table α) :
    Table.look j (Table.put k v t) = if j = k then some v else Table.look j t := by
  split_ifs with h
  · subst h; exact Table.look_put_same j v t
  · exact Table.look_put_other h v t

theorem Table.risingFrom_put {lo k : Nat} (v : α) (hk : lo ≤ k) :
    ∀ {t : Table α}, Table.risingFrom lo t = true → Table.risingFrom lo (Table.put k v t) = true
  | [], _ => by simp [Table.put, Table.risingFrom, hk]
  | (j, w) :: t, ht => by
    simp only [Table.risingFrom, Bool.and_eq_true, decide_eq_true_eq] at ht
    simp only [Table.put]
    split_ifs with h1 h2
    · simp only [Table.risingFrom, Bool.and_eq_true, decide_eq_true_eq]
      exact ⟨hk, by omega, ht.2⟩
    · subst h2
      simp only [Table.risingFrom, Bool.and_eq_true, decide_eq_true_eq]
      exact ⟨hk, ht.2⟩
    · simp only [Table.risingFrom, Bool.and_eq_true, decide_eq_true_eq]
      exact ⟨ht.1, Table.risingFrom_put v (by omega) ht.2⟩

theorem Table.mem_put {k : Nat} {v : α} {e : Nat × α} :
    ∀ {t : Table α}, e ∈ Table.put k v t → e = (k, v) ∨ e ∈ t
  | [], h => by simpa [Table.put] using h
  | (j, w) :: t, h => by
    simp only [Table.put] at h
    split_ifs at h with h1 h2
    · simpa using h
    · simp only [List.mem_cons] at h ⊢
      tauto
    · simp only [List.mem_cons] at h ⊢
      rcases h with h | h
      · tauto
      · have := Table.mem_put h
        tauto

theorem Table.mem_of_mem_del {k : Nat} {e : Nat × α} : ∀ {t : Table α}, e ∈ Table.del k t → e ∈ t
  | [], h => h
  | (j, w) :: t, h => by
    simp only [Table.del] at h
    split_ifs at h with h1
    · exact List.mem_cons_of_mem _ h
    · simp only [List.mem_cons] at h ⊢
      exact h.imp id Table.mem_of_mem_del

theorem Table.risingFrom_del {k : Nat} :
    ∀ {lo : Nat} {t : Table α}, Table.risingFrom lo t = true → Table.risingFrom lo (Table.del k t) = true
  | _, [], _ => rfl
  | lo, (j, w) :: t, ht => by
    simp only [Table.risingFrom, Bool.and_eq_true, decide_eq_true_eq] at ht
    simp only [Table.del]
    split_ifs with h1
    · exact Table.risingFrom_mono (by omega) ht.2
    · simp only [Table.risingFrom, Bool.and_eq_true, decide_eq_true_eq]
      exact ⟨ht.1, Table.risingFrom_del ht.2⟩

theorem Table.look_del_same {k : Nat} :
    ∀ {lo : Nat} {t : Table α}, Table.risingFrom lo t = true → Table.look k (Table.del k t) = none
  | _, [], _ => rfl
  | lo, (j, w) :: t, ht => by
    simp only [Table.risingFrom, Bool.and_eq_true, decide_eq_true_eq] at ht
    simp only [Table.del]
    split_ifs with h1
    · subst h1; exact Table.look_lt ht.2 (by omega)
    · rw [Table.look_cons, if_neg h1]
      exact Table.look_del_same ht.2

theorem Table.look_del_other {k j : Nat} (h : j ≠ k) (t : Table α) :
    Table.look j (Table.del k t) = Table.look j t := by
  induction t with
  | nil => rfl
  | cons e t ih =>
    obtain ⟨i, w⟩ := e
    simp only [Table.del]
    split_ifs with h1
    · subst h1; simp [Table.look, Ne.symm h]
    · simp only [Table.look, ih]

/-- The canonical form as two facts. -/
theorem Table.wf_iff {bound : Nat} {t : Table α} :
    Table.wf bound t = true ↔ Table.risingFrom 0 t = true ∧ ∀ e ∈ t, e.1 < bound := by
  simp [Table.wf]

@[simp] theorem Table.wf_nil (bound : Nat) : Table.wf bound ([] : Table α) = true := rfl

/-- Writing keeps the canonical form. -/
theorem Table.wf_put {bound k : Nat} {t : Table α} (v : α) (hk : k < bound) (h : Table.wf bound t = true) :
    Table.wf bound (Table.put k v t) = true := by
  rw [Table.wf_iff] at h ⊢
  refine ⟨Table.risingFrom_put v (Nat.zero_le k) h.1, fun e he => ?_⟩
  rcases Table.mem_put he with rfl | he
  · exact hk
  · exact h.2 e he

/-- Removing keeps the canonical form. -/
theorem Table.wf_del {bound : Nat} (k : Nat) {t : Table α} (h : Table.wf bound t = true) :
    Table.wf bound (Table.del k t) = true := by
  rw [Table.wf_iff] at h ⊢
  exact ⟨Table.risingFrom_del h.1, fun e he => h.2 e (Table.mem_of_mem_del he)⟩

/-- Setting an entry keeps the canonical form. -/
theorem Table.wf_putD [DecidableEq α] {bound k : Nat} {t : Table α} (d v : α) (hk : k < bound)
    (h : Table.wf bound t = true) : Table.wf bound (Table.putD d k v t) = true := by
  simp only [Table.putD]
  split_ifs
  · exact Table.wf_del k h
  · exact Table.wf_put v hk h

/-- Setting an entry lists no default value. -/
theorem Table.putD_ne [DecidableEq α] {k : Nat} {t : Table α} {d v : α} (h : ∀ e ∈ t, e.2 ≠ d) :
    ∀ e ∈ Table.putD d k v t, e.2 ≠ d := by
  intro e he
  simp only [Table.putD] at he
  split_ifs at he with hv
  · exact h e (Table.mem_of_mem_del he)
  · rcases Table.mem_put he with rfl | he
    · exact hv
    · exact h e he

/-- Reading after setting. -/
theorem Table.lookD_putD [DecidableEq α] {lo : Nat} (d v : α) (k j : Nat) {t : Table α}
    (h : Table.risingFrom lo t = true) :
    Table.lookD d j (Table.putD d k v t) = if j = k then v else Table.lookD d j t := by
  simp only [Table.lookD, Table.putD]
  split_ifs with hv hj hj
  · subst hj; rw [Table.look_del_same h, hv]; rfl
  · rw [Table.look_del_other hj]
  · subst hj; rw [Table.look_put_same]; rfl
  · rw [Table.look_put_other hj]

/-! ### Memories -/

/-- A byte read after a write: the byte written, or the byte before. -/
@[simp] theorem Memory.read?_write (m : Memory) (i j : Nat) (b : Byte) :
    (m.write i b).read? j = if j = i then some b else m.read? j :=
  Table.look_put i j b m

/-- Writing a byte keeps the canonical form. -/
theorem Memory.wf_write {cap i : Nat} {m : Memory} (b : Byte) (hi : i < cap) (h : m.wf cap = true) :
    (m.write i b).wf cap = true :=
  Table.wf_put b hi h

end Sys2Proof.Machine
end

