-- ==== Sys2Proof/Laws/Writer.lean ====
section
/-!
SUPPORT. The writer: what write_bit, write_n_bits and finish change, when they raise OUT_OVERFLOW, and which bits the
output then holds (40_bitstream.md R210 to R216).
-/

namespace Sys2Proof.Machine

/-- The writer has room for what it counts: what every busy state of a run has (10_state.md R35, R67). -/
structure CanWrite (s : State) : Prop where
  ok : s.wr.ok
  idx : s.wr.idx.toNat ≤ s.cfg.outCap
  cap : s.cfg.outCap ≤ 2 ^ 29 - 1
  wf : s.outMem.wf s.cfg.outCap = true

/-- A writer operation changes only the writer and OUT_MEM. -/
def Wrote (s t : State) : Prop :=
  t = { s with outMem := t.outMem, wr := t.wr }

theorem Wrote.refl (s : State) : Wrote s s := rfl

theorem Wrote.trans {s t u : State} (h : Wrote s t) (k : Wrote t u) : Wrote s u := by
  unfold Wrote at *
  rw [h] at k
  exact k

/-- Every byte outside those flushed between `s` and `t` is kept. -/
def Kept (s t : State) : Prop :=
  s.wr.idx.toNat ≤ t.wr.idx.toNat ∧
    ∀ a, a < s.wr.idx.toNat ∨ t.wr.idx.toNat ≤ a → t.outByte a = s.outByte a

theorem Kept.refl (s : State) : Kept s s := ⟨le_refl _, fun _ _ => rfl⟩

theorem Kept.trans {s t u : State} (h : Kept s t) (k : Kept t u) : Kept s u := by
  obtain ⟨h1, h2⟩ := h
  obtain ⟨k1, k2⟩ := k
  exact ⟨by omega, fun a ha => by rw [k2 a (by omega), h2 a (by omega)]⟩

/-- OUT_OVERFLOW raised while `bs` was written: the bytes before OUT_CAP are stored (60_exceptions.md R404, R410, R411). -/
def Overflowed (s : State) (bs : Bits) (t : State) : Prop :=
  ∃ u, Wrote s u ∧ Kept s u ∧ u.wr.idx.toNat = s.cfg.outCap ∧ u.outMem.wf s.cfg.outCap = true ∧
    streamBits u.outByte 0 (8 * s.cfg.outCap) = (s.written ++ bs).take (8 * s.cfg.outCap) ∧
    t = u.raise .outOverflow (s.phase.code.setWidth 32)

theorem Overflowed.of_wrote {s t u : State} {as bs : Bits} (h : Wrote s t) (hk : Kept s t)
    (hw : t.written = s.written ++ as) (k : Overflowed t bs u) : Overflowed s (as ++ bs) u := by
  obtain ⟨v, h1, hv, h2, h3, h4, h5⟩ := k
  have hc : t.cfg = s.cfg := by rw [h]
  have hp : t.phase = s.phase := by rw [h]
  rw [hw, hc, List.append_assoc] at h4
  exact ⟨v, h.trans h1, hk.trans hv, by rw [h2, hc], by rw [← hc]; exact h3, h4, by rw [h5, hp]⟩

/-! ### Streams of bits -/

theorem streamBits_append (byteAt : Nat → Byte) (p j k : Nat) :
    streamBits byteAt p (j + k) = streamBits byteAt p j ++ streamBits byteAt (p + j) k := by
  induction j generalizing p with
  | zero => simp [streamBits]
  | succ j ih =>
    rw [Nat.succ_add]
    simp only [streamBits, List.cons_append, ih]
    congr 3
    omega

theorem streamBits_congr {f g : Nat → Byte} {p k : Nat} (h : ∀ i, p / 8 ≤ i → i ≤ (p + k) / 8 → 8 * i < p + k → f i = g i) :
    streamBits f p k = streamBits g p k := by
  induction k generalizing p with
  | zero => rfl
  | succ k ih =>
    simp only [streamBits]
    congr 1
    · simp only [streamBit]
      rw [h (p / 8) (le_refl _) (Nat.div_le_div_right (by omega)) (by omega)]
    · apply ih
      intro i h1 h2 h3
      exact h i (by omega) (by omega) (by omega)

/-- A whole byte as stream bits. -/
theorem streamBits_byte (byteAt : Nat → Byte) (i : Nat) : streamBits byteAt (8 * i) 8 = bitsOf 8 (byteAt i).toNat := by
  have hd : ∀ j, j < 8 → (8 * i + j) / 8 = i := fun j hj => by omega
  have hm : ∀ j, j < 8 → (8 * i + j) % 8 = j := fun j hj => by omega
  have h0 : 8 * i / 8 = i := by omega
  have h0m : 8 * i % 8 = 0 := by omega
  simp [streamBits, bitsOf, streamBit, hd, hm, h0, h0m, Nat.add_assoc, BitVec.getLsbD]

/-! ### flush and write_bit -/

theorem flush_full (x : Byte) {s : State} (h : s.cfg.outCap ≤ s.wr.idx.toNat) :
    flush x s = .ended (s.raise .outOverflow (s.phase.code.setWidth 32)) := by
  simp [flush, h]

theorem flush_room (x : Byte) {s : State} (h : s.wr.idx.toNat < s.cfg.outCap) :
    flush x s = .run { s with
      outMem := s.outMem.write s.wr.idx.toNat x
      wr := { s.wr with idx := s.wr.idx + 1 } } := by
  simp [flush, h]

theorem bitsOf_snoc (k v : Nat) (b : Bool) : bitsOf (k + 1) (2 * v + b.toNat) = bitsOf k v ++ [b] := by
  induction k with
  | zero => cases b <;> simp [bitsOf]
  | succ k ih =>
    rw [bitsOf, ih]
    simp only [bitsOf, List.cons_append]
    congr 1
    rw [Nat.testBit_succ]
    congr 1
    cases b <;> (simp; try omega)

/-- The pending byte after one more bit (40_bitstream.md R210). -/
theorem pend_step {w : Writer} (h : w.ok) (b : Bool) :
    ((w.pend <<< 1) ||| (BitVec.ofBool b).setWidth 8).toNat = 2 * w.pend.toNat + b.toNat := by
  have hc : w.cnt.toNat < 8 := w.cnt.isLt
  have hp : w.pend.toNat < 2 ^ 7 := lt_of_lt_of_le h.2 (Nat.pow_le_pow_right (by omega) (by omega))
  generalize w.pend = p at *
  have : ∀ p : BitVec 8, p.toNat < 2 ^ 7 → ∀ b : Bool,
      ((p <<< 1) ||| (BitVec.ofBool b).setWidth 8).toNat = 2 * p.toNat + b.toNat := by decide
  exact this p hp b

/-- write_bit(b) (40_bitstream.md R210): either one more bit of output, or OUT_OVERFLOW on the eighth bit of a byte that
does not fit (R212). -/
theorem writeBit_spec (b : Bool) {s : State} (h : CanWrite s) :
    (s.room 1 ∧ ∃ t, writeBit b s = .run t ∧ Wrote s t ∧ Kept s t ∧ CanWrite t ∧
        t.wr.bits.toNat = s.wr.bits.toNat + 1 ∧ t.wr.cnt = s.wr.cnt + 1 ∧ t.written = s.written ++ [b]) ∨
      (¬ s.room 1 ∧ ∃ t, writeBit b s = .ended t ∧ Overflowed s [b] t) := by
  have hpend := pend_step h.ok b
  have hbits : (s.wr.bits + 1).toNat = (s.wr.bits.toNat + 1) % 2 ^ 32 := by rw [BitVec.toNat_add]; rfl
  have hc8 : s.wr.cnt.toNat < 8 := s.wr.cnt.isLt
  have hidx := h.idx
  have hcap := h.cap
  have hok1 := h.ok.1
  have hok2 := h.ok.2
  unfold writeBit
  by_cases h7 : s.wr.cnt = 7
  · have h7n : s.wr.cnt.toNat = 7 := by rw [h7]; rfl
    simp only [if_pos h7]
    by_cases hroom : s.wr.idx.toNat < s.cfg.outCap
    · left
      rw [flush_room _ (by exact hroom)]
      have hidx1 : (s.wr.idx + 1).toNat = s.wr.idx.toNat + 1 := by
        rw [BitVec.toNat_add]; simp; omega
      refine ⟨by simp only [State.room]; omega, _, rfl, rfl, ⟨?_, fun a ha => ?_⟩, ⟨⟨?_, ?_⟩, ?_, hcap, ?_⟩, ?_, ?_, ?_⟩
      · simp only [hidx1]; omega
      · simp only [hidx1] at ha
        have hne : a ≠ s.wr.idx.toNat := by omega
        simp only [State.outByte, Memory.read?_write, if_neg hne]
      · simp only [hbits, hidx1]; simp; omega
      · simp
      · simp only [hidx1]; omega
      · exact Memory.wf_write _ hroom h.wf
      · simp only [hbits]; omega
      · simp [h7]
      · simp only [State.written, hidx1]
        have e : 8 * (s.wr.idx.toNat + 1) = 8 * s.wr.idx.toNat + 8 := by ring
        rw [e, streamBits_append, Nat.zero_add, streamBits_byte]
        simp only [State.outByte, Memory.read?_write, if_true, Option.getD_some, hpend, h7n, bitsOf_snoc]
        have z : bitsOf (0 : BitVec 3).toNat (0 : BitVec 8).toNat = [] := rfl
        simp only [z, List.append_nil, ← List.append_assoc]
        congr 2
        apply streamBits_congr
        intro i _ _ hi
        have hne : i ≠ s.wr.idx.toNat := by omega
        simp only [State.outByte, Memory.read?_write, if_neg hne]
    · right
      have hfull : s.cfg.outCap ≤ s.wr.idx.toNat := by omega
      refine ⟨by simp only [State.room]; omega, _, by rw [flush_full _ (by exact hfull)]; rfl,
        ⟨_, ?_, ?_, ?_, ?_, ?_, rfl⟩⟩
      · rfl
      · exact Kept.refl s
      · omega
      · exact h.wf
      · have e : 8 * s.cfg.outCap = 8 * s.wr.idx.toNat := by omega
        simp only [State.written, e, List.append_assoc]
        rw [List.take_left' (streamBits_length _ _ _)]
  · left
    have h7n : s.wr.cnt.toNat < 7 := by
      have : s.wr.cnt.toNat ≠ 7 := fun hh => h7 (BitVec.eq_of_toNat_eq (by simpa using hh))
      omega
    have hcnt : (s.wr.cnt + 1).toNat = s.wr.cnt.toNat + 1 := by
      rw [BitVec.toNat_add]; simp; omega
    simp only [if_neg h7]
    refine ⟨by simp only [State.room]; omega, _, rfl, rfl, Kept.refl _, ⟨⟨?_, ?_⟩, hidx, hcap, h.wf⟩, ?_, rfl, ?_⟩
    · simp only [hbits, hcnt]; omega
    · simp only [hpend, hcnt, pow_succ]
      cases b <;> simp <;> omega
    · simp only [hbits]; omega
    · simp only [State.written, hcnt, hpend, bitsOf_snoc, List.append_assoc]
      rfl

theorem room_mono {s : State} {j k : Nat} (h : j ≤ k) (hr : s.room k) : s.room j := by
  simp only [State.room] at *
  exact le_trans (Nat.div_le_div_right (by omega)) hr

/-- Writing a bit string, first bit first (40_bitstream.md R211): all of it when there is room, else OUT_OVERFLOW. -/
theorem writeBits_spec (bs : Bits) {s : State} (h : CanWrite s) :
    (s.room bs.length ∧ ∃ t, writeBits bs s = .run t ∧ Wrote s t ∧ Kept s t ∧ CanWrite t ∧
        t.wr.bits.toNat = s.wr.bits.toNat + bs.length ∧ t.wr.cnt = s.wr.cnt + BitVec.ofNat 3 bs.length ∧
        t.written = s.written ++ bs) ∨
      (¬ s.room bs.length ∧ ∃ t, writeBits bs s = .ended t ∧ Overflowed s bs t) := by
  induction bs generalizing s with
  | nil =>
    refine .inl ⟨?_, s, rfl, rfl, Kept.refl s, h, by simp, by simp, by simp⟩
    have := h.ok.1
    have := h.idx
    have := s.wr.cnt.isLt
    simp only [State.room, List.length_nil]
    omega
  | cons b bs ih =>
    rcases writeBit_spec b h with ⟨r, t, e, w, f, c, n, k, o⟩ | ⟨r, t, e, o⟩
    · have hc : t.cfg = s.cfg := by rw [w]
      have hroom : t.room bs.length ↔ s.room (b :: bs).length := by
        simp only [State.room, n, hc, List.length_cons, Nat.add_assoc, Nat.add_comm 1]
      rcases ih c with ⟨r', u, e', w', f', c', n', k', o'⟩ | ⟨r', u, e', o'⟩
      · refine .inl ⟨hroom.1 r', u, by simp [writeBits, e, e'], w.trans w', f.trans f', c',
          by rw [n', n, List.length_cons]; omega, ?_, ?_⟩
        · rw [k', k, List.length_cons, BitVec.ofNat_add, BitVec.add_assoc]
          congr 1
          exact BitVec.add_comm _ _
        · rw [o', o, List.append_assoc]; rfl
      · exact .inr ⟨fun hr => r' (hroom.2 hr), u, by simp [writeBits, e, e'], Overflowed.of_wrote w f o o'⟩
    · refine .inr ⟨fun hr => r (room_mono (by simp) hr), t, by simp [writeBits, e], ?_⟩
      obtain ⟨u, h1, h2, h3, h4, h5, h6⟩ := o
      refine ⟨u, h1, h2, h3, h4, ?_, h6⟩
      have hl : 8 * s.cfg.outCap ≤ (s.written ++ [b]).length := by
        have := congrArg List.length h5
        simp only [streamBits_length, List.length_take] at this
        omega
      rw [h5, show s.written ++ b :: bs = (s.written ++ [b]) ++ bs by simp, List.take_append_of_le_length hl]

/-- Writing a bit string that fits. -/
theorem writeBits_room {bs : Bits} {s : State} (h : CanWrite s) (hr : s.room bs.length) :
    ∃ t, writeBits bs s = .run t ∧ s.wrote bs t ∧ CanWrite t ∧ t.wr.cnt = s.wr.cnt + BitVec.ofNat 3 bs.length := by
  rcases writeBits_spec bs h with ⟨-, t, e, w, f, c, n, k, o⟩ | ⟨r, -⟩
  · exact ⟨t, e, ⟨w, o, c.ok, n, f.2⟩, c, k⟩
  · exact absurd hr r

/-- write_n_bits(n, v) writes the low n bits of v, most significant first (40_bitstream.md R211). -/
theorem writeN_eq (n v : Nat) (s : State) : writeN n v s = writeBits (bitsOf n v) s := by
  induction n generalizing s with
  | zero => rfl
  | succ n ih =>
    simp only [writeN, bitsOf, writeBits]
    congr 1
    funext t
    exact ih t

/-- The last byte of an output: the pending bits, then zeros (40_bitstream.md R215). -/
theorem bitsOf_shift {p : BitVec 8} {c : Nat} (hc : c < 8) (hp : p.toNat < 2 ^ c) :
    bitsOf 8 (p <<< (8 - c)).toNat = bitsOf c p.toNat ++ List.replicate (8 - c) false := by
  have key : ∀ c : Fin 8, ∀ p : BitVec 8, p.toNat < 2 ^ c.val →
      bitsOf 8 (p <<< (8 - c.val)).toNat = bitsOf c.val p.toNat ++ List.replicate (8 - c.val) false := by
    decide +kernel
  exact key ⟨c, hc⟩ p hp

/-- finish() (40_bitstream.md R215): the pending bits and zeros fill the last byte, or OUT_OVERFLOW. -/
theorem finish_spec {s : State} (h : CanWrite s) :
    (∃ t, finish s = .run t ∧ Wrote s t ∧ Kept s t ∧ t.outMem.wf s.cfg.outCap = true ∧ t.wr.bits = s.wr.bits ∧
        t.wr.cnt = 0 ∧ t.wr.idx.toNat ≤ s.cfg.outCap ∧ t.wr.idx.toNat = (s.wr.bits.toNat + 7) / 8 ∧
        streamBits t.outByte 0 (8 * t.wr.idx.toNat) = s.written ++ List.replicate (padLength s.wr.bits.toNat) false ∧
        (s.wr.cnt = 0 → t = s) ∧ (s.wr.cnt ≠ 0 → t.wr.pend = 0)) ∨
      (finish s = .ended (s.raise .outOverflow (s.phase.code.setWidth 32)) ∧ s.wr.cnt ≠ 0 ∧
        s.wr.idx.toNat = s.cfg.outCap) := by
  have hok1 := h.ok.1
  have hidx := h.idx
  have hcap := h.cap
  unfold finish
  by_cases h0 : s.wr.cnt = 0
  · left
    simp only [if_pos h0]
    have h0n : s.wr.cnt.toNat = 0 := by rw [h0]; rfl
    have hp : padLength s.wr.bits.toNat = 0 := by simp only [padLength]; omega
    refine ⟨s, rfl, rfl, Kept.refl s, h.wf, rfl, h0, h.idx, by omega, ?_, fun _ => rfl, fun hh => absurd h0 hh⟩
    simp [State.written, hp, h0n, bitsOf]
  · have h0n : 0 < s.wr.cnt.toNat := by
      rcases Nat.eq_zero_or_pos s.wr.cnt.toNat with hh | hh
      · exact absurd (BitVec.eq_of_toNat_eq (by simpa using hh)) h0
      · exact hh
    have hc8 : s.wr.cnt.toNat < 8 := s.wr.cnt.isLt
    simp only [if_neg h0]
    by_cases hroom : s.wr.idx.toNat < s.cfg.outCap
    · left
      have hidx1 : (s.wr.idx + 1).toNat = s.wr.idx.toNat + 1 := by
        rw [BitVec.toNat_add]; simp; omega
      rw [flush_room _ hroom]
      refine ⟨_, rfl, rfl, ⟨?_, fun a ha => ?_⟩, Memory.wf_write _ hroom h.wf, rfl, rfl, ?_, ?_, ?_,
        fun hh => absurd hh h0, fun _ => rfl⟩
      · simp only [hidx1]; omega
      · simp only [hidx1] at ha
        have hne : a ≠ s.wr.idx.toNat := by omega
        simp only [State.outByte, Memory.read?_write, if_neg hne]
      · simp only [hidx1]; omega
      · simp only [hidx1]; omega
      · have e : 8 * (s.wr.idx.toNat + 1) = 8 * s.wr.idx.toNat + 8 := by ring
        simp only [hidx1, e]
        rw [streamBits_append, Nat.zero_add, streamBits_byte]
        simp only [State.written, List.append_assoc]
        congr 1
        · apply streamBits_congr
          intro i _ _ hi
          have hne : i ≠ s.wr.idx.toNat := by omega
          simp only [State.outByte, Memory.read?_write, if_neg hne]
        · simp only [State.outByte, Memory.read?_write, if_true, Option.getD_some]
          have hpad : padLength s.wr.bits.toNat = 8 - s.wr.cnt.toNat := by simp only [padLength]; omega
          rw [hpad]
          exact bitsOf_shift hc8 h.ok.2
    · right
      exact ⟨by rw [flush_full _ (by omega)]; rfl, h0, by omega⟩

end Sys2Proof.Machine
end

