-- ==== Sys2Proof/Laws/Run.lean ====
section
/-!
SUPPORT. What the invariant gives during a run, a raise in a run, and the reader's fields as stream bits (40_bitstream.md
R203, R204, R207).
-/

namespace Sys2Proof.Machine

/-! ### During a run -/

theorem Inv.canWrite {s : State} (h : Inv s) (hb : s.busy = true) : CanWrite s := by
  have hv := h.cfgValid
  simp only [Config.valid, Bool.and_eq_true, decide_eq_true_eq] at hv
  exact ⟨(h.writer hb).1, (h.writer hb).2, by have := hv.2; omega, h.outMemWf⟩

theorem busy_ne_done {s : State} (hb : s.busy = true) : s.phase ≠ .done := fun h => by
  simp [State.busy, h, Phase.busy] at hb

theorem busy_ne_error {s : State} (hb : s.busy = true) : s.phase ≠ .error := fun h => by
  simp [State.busy, h, Phase.busy] at hb

/-- While busy every flag but RUN_MODE is clear (10_state.md R48). -/
theorem Inv.busyStatus {s : State} (h : Inv s) (hb : s.busy = true) :
    s.status = { done := false, err := false, trunc := false, runMode := s.status.runMode, errcode := 0 } := by
  have h1 := busy_ne_done hb
  have h2 := busy_ne_error hb
  have hd : s.status.done = false := Bool.eq_false_iff.2 fun hh => h1 (h.doneFlag hh)
  have he : s.status.err = false := Bool.eq_false_iff.2 fun hh => h2 (h.errFlag hh)
  have hc : s.status.errcode = 0 := by
    by_contra hh
    exact h2 (h.errcode.1 hh)
  have ht := h.truncFlag h1
  rcases hs : s.status with ⟨d, e, t, m, c⟩
  simp only [hs] at *
  simp [hd, he, hc, ht]

/-- A raise during a run writes what 60_exceptions.md R410 lists. -/
theorem raise_eq_failed {s u : State} (h : Inv s) (hb : s.busy = true) (hs : u.status = s.status) (hr : u.res = s.res)
    (e : RunError) (i : Word) : u.raise e i = u.failed e i := by
  have h1 := h.busyStatus hb
  have h2 := h.results (busy_ne_done hb) (busy_ne_error hb)
  have h3 : u.wr.idx <<< 3 = BitVec.ofNat 32 (8 * u.wr.idx.toNat) :=
    BitVec.eq_of_toNat_eq (by simp [Nat.shiftLeft_eq, Nat.mul_comm])
  simp only [State.raise, State.discardTree, State.failed, hs, hr, h2, h3]
  rw [h1]

/-! ### The reader's fields -/

theorem Reader.moveTo_pos (r : Reader) : r.moveTo r.pos = r := by
  have hb := r.bit_lt
  have hl := r.byte.isLt
  have h1 : r.pos / 8 = r.byte.toNat := by simp only [Reader.pos]; omega
  have h2 : r.pos % 8 = r.bit.toNat := by simp only [Reader.pos]; omega
  simp [Reader.moveTo, h1, h2]

theorem Reader.eq_moveTo {r r' : Reader} (h : r'.len = r.len) : r' = r.moveTo r'.pos := by
  conv_lhs => rw [← r'.moveTo_pos]
  simp [Reader.moveTo, h]

/-- The next k bits when the input has them. -/
theorem State.peekN_some {s : State} {k : Nat} (h : s.rd.ok) (hk : s.rd.pos + k ≤ 8 * s.rd.len.toNat) :
    s.peekN k = some (bitsVal (streamBits s.inByte s.rd.pos k)) := by
  obtain ⟨r', e, -⟩ := Reader.readN_some s.inByte h (k := k) (by simp only [Reader.bitsLeft]; omega)
  simp [State.peekN, e]

/-- EOS when the input has fewer than k bits left. -/
theorem State.peekN_none {s : State} {k : Nat} (h : s.rd.ok) (hk : 8 * s.rd.len.toNat < s.rd.pos + k) :
    s.peekN k = none := by
  have := Reader.pos_le h
  obtain ⟨r', e, -⟩ := Reader.readN_none s.inByte h (k := k) (by simp only [Reader.bitsLeft]; omega)
  simp [State.peekN, e]

/-- After a read the reader stands past the field, or at the end of the input. -/
theorem State.skipN_eq_past {s : State} (k : Nat) (h : s.rd.ok) : s.skipN k = s.past k := by
  have hp := Reader.pos_le h
  simp only [State.skipN, State.past]
  by_cases hk : k ≤ s.rd.bitsLeft
  · obtain ⟨r', e, l, p, -⟩ := Reader.readN_some s.inByte h hk
    have : s.rd.pos + k ≤ 8 * s.rd.len.toNat := by simp only [Reader.bitsLeft] at hk; omega
    rw [e, Nat.min_eq_left this, ← p, ← Reader.eq_moveTo l]
  · obtain ⟨r', e, l, p, -⟩ := Reader.readN_none s.inByte h (k := k) (by omega)
    have : 8 * s.rd.len.toNat ≤ s.rd.pos + k := by simp only [Reader.bitsLeft] at hk; omega
    rw [e, Nat.min_eq_right this, ← p, ← Reader.eq_moveTo l]

/-- read_or_zero's field (40_bitstream.md R207). -/
theorem State.peekField_eq {s : State} (k : Nat) (h : s.rd.ok) : s.peekField k = s.nextBits k := by
  simp only [State.peekField, State.nextBits]
  split_ifs with hk
  · rw [State.peekN_some h hk, Option.getD_some]
    conv_lhs => rw [← streamBits_length s.inByte s.rd.pos k]
    rw [streamBits_length]
    have := bitsOf_bitsVal (streamBits s.inByte s.rd.pos k)
    rwa [streamBits_length] at this
  · rw [State.peekN_none h (by omega), Option.getD_none]
    exact bitsOf_zero k

/-- Past a field the reader is still inside the input. -/
theorem State.past_ok {s : State} (k : Nat) (h : s.rd.ok) :
    (s.past k).rd.ok ∧ (s.past k).rd.len = s.rd.len ∧
      (s.past k).rd.pos = min (s.rd.pos + k) (8 * s.rd.len.toNat) := by
  have hp := Reader.pos_le h
  rw [← State.skipN_eq_past k h]
  simp only [State.skipN]
  by_cases hk : k ≤ s.rd.bitsLeft
  · obtain ⟨r', e, l, p, o⟩ := Reader.readN_some s.inByte h hk
    have : s.rd.pos + k ≤ 8 * s.rd.len.toNat := by simp only [Reader.bitsLeft] at hk; omega
    rw [e]
    exact ⟨o, l, by rw [Nat.min_eq_left this]; exact p⟩
  · obtain ⟨r', e, l, p, o⟩ := Reader.readN_none s.inByte h (k := k) (by omega)
    have : 8 * s.rd.len.toNat ≤ s.rd.pos + k := by simp only [Reader.bitsLeft] at hk; omega
    rw [e]
    exact ⟨o, l, by rw [Nat.min_eq_right this]; exact p⟩

end Sys2Proof.Machine
end

