-- ==== Sys2Proof/Laws/Step.lean ====
section
/-!
SUPPORT. The step taken apart: what each event runs, what a finer step runs, and one more finer step of a phase.
-/

namespace Sys2Proof.Machine

theorem step_event {s : State} {e : Event} {rest : List Event} (h : s.pending = e :: rest) :
    step s = eventStep e { s with pending := rest } := by
  simp [step, h]

theorem step_quiet {s : State} (h : s.pending = []) : step s = quietStep s := by
  simp [step, h]

theorem fineStep_idle {s : State} (h : s.busy = false) : fineStep s = .next s := by
  simp [fineStep, h]

/-- At a stream field the finer step runs the field. -/
theorem fineStep_field {s : State} {i : Instr} (h : s.busy = true) (hi : s.nextField = some i) : fineStep s = exec i s := by
  simp [fineStep, h, hi]

/-- Between fields the finer step is a loop iteration or a phase end. -/
theorem fineStep_internal {s : State} (h : s.busy = true) (hi : s.nextField = none) : fineStep s = internalStep s := by
  simp [fineStep, h, hi]

/-- At its own field a field's meaning is not refused for its place. -/
theorem atField_here {i : Instr} {s : State} (h : s.nextField = some i) (k : Host.Outcome State Fault Refusal) :
    atField i s k = k := by
  simp [atField, h]

/-- The phase goes on. -/
theorem runPhase_on {n : Nat} {s t : State} (h : fineStep s = .next t) (hp : t.phase = s.phase) :
    runPhase (n + 1) s = runPhase n t := by
  simp [runPhase, h, hp]

/-- The phase ends. -/
theorem runPhase_end {n : Nat} {s t : State} (h : fineStep s = .next t) (hp : t.phase ≠ s.phase) :
    runPhase (n + 1) s = .next t := by
  simp [runPhase, h, hp]

theorem mapNext_next (f : State → State) (s : State) : mapNext f (.next s) = .next (f s) := rfl

/-- A mapped outcome is a next state exactly when the outcome is. -/
theorem mapNext_eq_next {f : State → State} {o : Host.Outcome State Fault Refusal} {t : State} :
    mapNext f o = .next t ↔ ∃ s, o = .next s ∧ t = f s := by
  cases o <;> simp [mapNext, eq_comm]

end Sys2Proof.Machine
end

