-- ==== Sys2Proof/Laws/Tree.lean ====
section
/-!
SUPPORT. The tree builder: extract_min takes one node out of the queue (42_tree.md R250), and every tree that is built has
two children at every node (42_tree.md R258).
-/

namespace Sys2Proof.Machine

/-- extract_min splits the queue into its answer and the rest. -/
theorem extractMin_perm (t : Tree) (q : List Tree) : ((extractMin t q).1 :: (extractMin t q).2).Perm (t :: q) := by
  induction q generalizing t with
  | nil => exact List.Perm.refl _
  | cons u q ih =>
    simp only [extractMin]
    split_ifs
    · exact (List.Perm.swap _ _ _).trans ((ih u).cons t)
    · exact (List.Perm.swap _ _ _).trans (((ih t).cons u).trans (List.Perm.swap _ _ _))

theorem extractMin_length (t : Tree) (q : List Tree) : (extractMin t q).2.length = q.length := by
  have := (extractMin_perm t q).length_eq
  simpa using this

theorem extractMin_mem {t u : Tree} {q : List Tree} (h : u = (extractMin t q).1 ∨ u ∈ (extractMin t q).2) :
    u ∈ t :: q :=
  (extractMin_perm t q).subset (List.mem_cons.2 h)

/-- A property of the leaves that merging keeps holds of the tree that is built. -/
theorem mergeLoop_holds {P : Tree → Prop} (merge : ∀ a b, P a → P b → P (a.merge b)) (n : Nat) {q : List Tree}
    (hq : q ≠ []) (h : ∀ t ∈ q, P t) : P (mergeLoop n q) := by
  induction n generalizing q with
  | zero =>
    match q, hq with
    | [t], _ => exact h t (by simp)
    | t :: _ :: _, _ => exact h t (by simp)
  | succ n ih =>
    match q, hq with
    | [t], _ => exact h t (by simp)
    | t :: u :: q, _ =>
      simp only [mergeLoop]
      have h1 : P (extractMin t (u :: q)).1 := h _ (extractMin_mem (.inl rfl))
      have h2 : ∀ w ∈ (extractMin t (u :: q)).2, P w := fun w hw => h _ (extractMin_mem (.inr hw))
      split
      · exact h1
      · rename_i v q' e
        rw [e] at h2
        have h3 : ∀ w ∈ v :: q', P w := h2
        refine ih (by simp) fun w hw => ?_
        rcases List.mem_cons.1 hw with rfl | hw
        · exact merge _ _ h1 (h3 _ (extractMin_mem (.inl rfl)))
        · exact h3 _ (extractMin_mem (.inr hw))

/-- The tree of a table with an entry that is not 0 has two children at every node (42_tree.md R258). -/
theorem buildTree_full (pair : Bool) {freq : Table (BitVec 32)} (h : leaves pair freq ≠ []) :
    (buildTree pair freq).full = true := by
  refine mergeLoop_holds (P := fun t => t.full = true) (fun a b ha hb => ?_) _ h fun t ht => ?_
  · simp [Tree.merge, Tree.full, ha, hb]
  · simp only [leaves, List.mem_map] at ht
    obtain ⟨e, -, rfl⟩ := ht
    rfl

end Sys2Proof.Machine
end

