-- ==== Sys2Proof/Tests/Slice0.lean ====
section
/-!
SUPPORT. The model's own tests: words written out from the spec's encodings, the ill-formed terms, the spec's worked
examples as single steps or single operations, and for each statement with hypotheses a concrete case that meets them.
-/

namespace Sys2Proof.Tests

open Sys2Proof.Machine

/-! ### Ill-formed terms -/

theorem test_wr32_to_ctrl_is_ill_formed : (Instr.wr32 0x000 0x5).wellFormed = false := by decide
theorem test_wr32_to_status_is_ill_formed : (Instr.wr32 0x004 0x6).wellFormed = false := by decide
theorem test_pad_of_eight_is_ill_formed : (Instr.pad 8).wellFormed = false := by decide
theorem test_wr32_to_in_len_is_well_formed : (Instr.wr32 0x008 0x5).wellFormed = true := by decide

/-! ### Decoding: words written out from 30_encoding.md R140 to R153 and R170 -/

theorem test_decode_cfg : decode (.txn (.write .b4 0x000 0x0000001C)) = .ok (.cfg 0b10 true true) := by decide
theorem test_decode_compress : decode (.txn (.write .b4 0x000 0x0000000B)) = .ok (.compress true false) := by decide
theorem test_decode_compress_reserved_bits :
    decode (.txn (.write .b4 0x000 0xFFFFFFE3)) = .ok (.compress false false) := by decide
theorem test_decode_decompress : decode (.txn (.write .b4 0x000 0x00000015)) = .ok (.decompress false true) := by decide
theorem test_decode_badCmd00 : decode (.txn (.write .b4 0x000 0x00000001)) = .ok (.badCmd00 false false) := by decide
theorem test_decode_badCmd11 : decode (.txn (.write .b4 0x000 0x00000007)) = .ok (.badCmd11 false false) := by decide
theorem test_decode_statusW1c : decode (.txn (.write .b4 0x004 0xFFFFFFFA)) = .ok (.statusW1c true false) := by decide
theorem test_decode_wr32 : decode (.txn (.write .b4 0x008 0x0000000A)) = .ok (.wr32 0x008 0x0000000A) := by decide
theorem test_decode_wr8 : decode (.txn (.write .b1 0x40000001 0x000001FF)) = .ok (.wr8 0x40000001 0xFF) := by decide
theorem test_decode_wr8_to_ctrl : decode (.txn (.write .b1 0x000 0x00000003)) = .ok (.wr8 0x000 0x03) := by decide
theorem test_decode_rd32 : decode (.txn (.read .b4 0x00000004)) = .ok (.rd32 0x00000004) := by decide
theorem test_decode_rd8 : decode (.txn (.read .b1 0x80000002)) = .ok (.rd8 0x80000002) := by decide
theorem test_decode_modeByte : decode (.field .modeFlag [false]) = .ok .modeByte := by decide
theorem test_decode_modePair : decode (.field .modeFlag [true]) = .ok .modePair := by decide
theorem test_decode_classAbsent : decode (.field .sizeClass [false, false]) = .ok .classAbsent := by decide
theorem test_decode_classF8 : decode (.field .sizeClass [false, true]) = .ok (.classF8 none) := by decide
theorem test_decode_classF16 : decode (.field .sizeClass [true, false]) = .ok (.classF16 none) := by decide
theorem test_decode_classF32 : decode (.field .sizeClass [true, true]) = .ok (.classF32 none) := by decide
theorem test_decode_value8 :
    decode (.field .value8 [true, false, false, false, false, false, true, true]) = .ok (.classF8 (some 0x83)) := by decide
theorem test_decode_value16 :
    decode (.field .value16 (List.replicate 6 false ++ [true] ++ List.replicate 9 false)) =
      .ok (.classF16 (some 0x0200)) := by decide
theorem test_decode_value32 :
    decode (.field .value32 (List.replicate 15 false ++ [true] ++ List.replicate 15 false ++ [true])) =
      .ok (.classF32 (some 0x00010001)) := by decide
theorem test_decode_pairAbsent : decode (.field .existence [false]) = .ok .pairAbsent := by decide
theorem test_decode_pairPresent : decode (.field .existence [true]) = .ok .pairPresent := by decide
theorem test_decode_pairSize8 :
    decode (.field .pairSize ([false] ++ [false, false, false, false, false, false, true, false])) =
      .ok (.pairSize8 0x02) := by decide
theorem test_decode_pairSize16 :
    decode (.field .pairSize ([true] ++ List.replicate 7 false ++ [true] ++ List.replicate 8 false)) =
      .ok (.pairSize16 0x0100) := by decide
theorem test_decode_codeLeft : decode (.field .codeBit [false]) = .ok .codeLeft := by decide
theorem test_decode_codeRight : decode (.field .codeBit [true]) = .ok .codeRight := by decide
theorem test_decode_pad : decode (.field .padding [false, false, false, false, false]) = .ok (.pad 5) := by decide
theorem test_decode_pad_rejects_a_one : decode (.field .padding [false, true]) = .error .paddingNotZero := by decide
theorem test_decode_rejects_long_field :
    decode (.field .sizeClass [false, true, true]) = .error (.wrongLength .sizeClass 3) := by decide

theorem test_table_word_compress : decodeTableWord 32 0x0000000B = some (.compress true false) := by decide
theorem test_table_word_class : decodeTableWord 8 0b10 = some (.classF16 none) := by decide

/-! ### States -/

/-- The reset state of a block with 64-byte buffers. -/
def base : State :=
  { State.reset with cfg := { inCap := 64, outCap := 64 } }

/-- The phase after a step; IDLE after a stop. -/
def phaseAfter (o : Host.Outcome State Fault Refusal) : Phase :=
  match o with
  | .next s => s.phase
  | .fault _ => .idle
  | .refused _ => .idle

/-- A number read from the next state; 0 after a stop. -/
def after (f : State → Nat) (o : Host.Outcome State Fault Refusal) : Nat :=
  match o with
  | .next s => f s
  | .fault _ => 0
  | .refused _ => 0

/-- A check of the next state; false after a stop. -/
def holds (p : State → Bool) (o : Host.Outcome State Fault Refusal) : Bool :=
  match o with
  | .next s => p s
  | .fault _ => false
  | .refused _ => false

/-- The response's data. -/
def answer (s : State) : Nat :=
  match s.resp with
  | some r => r.data.toNat
  | none => 0

/-! ### The spec's examples, one step or one operation each -/

/-- 60_exceptions.md R401: CTRL = 1 gives STATUS 0x0000E104. -/
theorem test_badCmd00_status : after (fun s => s.statusWord.toNat) (exec (.badCmd00 false false) base) = 0xE104 := by decide

/-- 60_exceptions.md R401: CTRL = 7 gives ERR_INFO 3. -/
theorem test_badCmd11_info : after (fun s => s.errInfo.toNat) (exec (.badCmd11 false false) base) = 3 := by decide

/-- 60_exceptions.md R402: IN_CAP = 4096, IN_LEN = 4097. -/
theorem test_compress_in_len_range :
    after (fun s => s.statusWord.toNat * 2 ^ 32 + s.errInfo.toNat)
      (exec (.compress false false) { base with cfg := { inCap := 4096, outCap := 64 }, inLen := 4097 }) =
    0xE204 * 2 ^ 32 + 0x1001 := by decide

/-- 45_orchestration.md R340: CTRL = 3 with IN_LEN = 10 leaves PHASE = C_SCAN and BUSY = 1. -/
theorem test_compress_starts :
    after (fun s => s.statusWord.toNat) (exec (.compress false false) { base with inLen := 10 }) = 0x1001 := by decide

/-- 45_orchestration.md R340: DECOMPRESS goes to D_MODE. -/
theorem test_decompress_starts :
    after (fun s => s.statusWord.toNat) (exec (.decompress true false) { base with inLen := 64 }) = 0x8001 := by decide

/-- 10_state.md R41, R43: CTRL reads back its fields, START as 0. -/
theorem test_cfg_reads_back : after (fun s => s.ctrlWord.toNat) (exec (.cfg 0b10 true true) base) = 0x1C := by decide

/-- 10_state.md R46: bit 1 clears DONE alone. -/
theorem test_w1c_clears_done :
    after (fun s => s.statusWord.toNat) (exec (.statusW1c true false)
      { base with phase := .done, status := { base.status with done := true, trunc := true } }) = 0xD008 := by decide

/-- 20_memory.md R107: a word is stored least significant byte first. -/
theorem test_wr32_is_little_endian :
    after (fun s => (s.inByte 4).toNat * 256 + (s.inByte 7).toNat) (exec (.wr32 0x40000004 0x11223344) base) = 0x4411 := by
  decide

/-- 20_memory.md R110: OUT is read-only to the host. -/
theorem test_wr32_to_out_is_busErr :
    holds (fun s => s.resp == some { ok := false, data := 0 } && s.outMem == []) (exec (.wr32 0x80000000 0x1) base) = true := by
  decide

/-- 20_memory.md R107: one byte at the last index. -/
theorem test_wr8_last_index : after (fun s => (s.inByte 63).toNat) (exec (.wr8 0x4000003F 0xAB) base) = 0xAB := by decide

/-- 10_state.md R59: the capacity register. -/
theorem test_rd32_capacity : after answer (exec (.rd32 0x050) base) = 64 := by decide

/-- 44_codegen.md R327: the dump of code `11`. -/
theorem test_rd32_code_word :
    after answer (exec (.rd32 0x04C) { base with codeSel := 0x42, code := [(0x42, [true, true])] }) = 0xC0000000 := by decide

/-- 20_memory.md R109: an input byte. -/
theorem test_rd8_input : after answer (exec (.rd8 0x40000002) { base with inMem := [(2, 0x7F)] }) = 0x7F := by decide

/-- 40_bitstream.md R201: the bits of 0xA0, then EOS. -/
theorem test_read_bits :
    (Reader.readN (fun _ => 0xA0) 8 { byte := 0, bit := 0, len := 1 }).1 = some 0xA0 ∧
      (Reader.readN (fun _ => 0xA0) 9 { byte := 0, bit := 0, len := 1 }) = (none, { byte := 1, bit := 0, len := 1 }) := by
  decide

/-- 40_bitstream.md R203: 3 bits of 0xB4 0xFF are 5, the next 8 are 0xA7. -/
theorem test_read_n_bits :
    let r := Reader.readN (fun i => if i = 0 then 0xB4 else 0xFF) 3 { byte := 0, bit := 0, len := 2 }
    r.1 = some 5 ∧ (Reader.readN (fun i => if i = 0 then 0xB4 else 0xFF) 8 r.2).1 = some 0xA7 := by decide

/-- 40_bitstream.md R210: 1 0 1 1 0 0 0 1 flushes 0xB1. -/
theorem test_write_bits_flush :
    ((writeBits [true, false, true, true, false, false, false, true] base).state.outByte 0).toNat = 0xB1 := by decide

/-- 40_bitstream.md R215: 1 0 1 and finish store 0xA0. -/
theorem test_finish_pads :
    (((writeBits [true, false, true] base).andThen finish).state.outByte 0).toNat = 0xA0 := by decide

/-- 42_tree.md R250: A = 5, B = 3, C = 2 give Node(A, Node(C, B)), and 44_codegen.md R320 its codes. -/
theorem test_codes_of_the_example :
    genCodes (buildTree false [(0x41, 5), (0x42, 3), (0x43, 2)]) [] [] =
      [(0x41, [false]), (0x42, [true, true]), (0x43, [true, false])] := by decide

/-- 43_header.md R281: the boundaries of the size classes. -/
theorem test_size_classes :
    [0, 1, 255, 256, 65535, 65536].map sizeClass = [0b00, 0b01, 0b01, 0b10, 0b10, 0b11] := by decide

/-- 43_header.md R288: a value 0 leaves the symbol absent. -/
theorem test_value_zero_is_absent :
    after (fun s => s.freq.length) (exec (.classF8 (some 0)) { base with
      phase := .dHdr, rd := { byte := 0, bit := 0, len := 1 }, inMem := [(0, 0)], cls := [(3, 1)], freq := [(3, 7)],
      loop := { stage := .pass2, s := 3, cur := .empty, emit := none } }) = 0 := by decide

/-- 45_orchestration.md R362: bit 1 descends to the right. -/
theorem test_codeRight_descends :
    holds (fun s => s.loop.cur == .leaf ⟨false, 2⟩ 1 && s.dp.codedBits == 1 && s.rd.bit == 1) (exec .codeRight { base with
        phase := .dWalk, rd := { byte := 0, bit := 0, len := 1 }, inMem := [(0, 0x80)]
        dp := { base.dp with total := 1 }
        loop := { stage := .entry, s := 0, cur := .node (.leaf ⟨false, 1⟩ 1) (.leaf ⟨false, 2⟩ 1) 2 ⟨false, 1⟩, emit := none } }) = true := by
  decide

/-- 45_orchestration.md R357: one pending bit 1 is padded to 0x80 and the run completes. -/
theorem test_pad_completes :
    holds (fun s => s.phase == .done && s.res.outLen == 1 && s.outMem == [(0, 0x80)])
      (exec (.pad 7) { base with phase := .cFlush, wr := { pend := 1, cnt := 1, idx := 0, bits := 1 } }) = true := by decide

/-! ### The placed word runs next -/

theorem test_withFetchWord_compress : phaseAfter (step (State.reset.withFetchWord 32 0x00000003)) = .cScan := by decide
theorem test_withFetchWord_modePair : phaseAfter (step (State.reset.withFetchWord 8 1)) = .dHdr := by decide
theorem test_withFetchWord_class :
    after (fun s => (s.clsAt 0).toNat) (step (State.reset.withFetchWord 8 3)) = 3 := by decide
theorem test_withFetchWord_pad : phaseAfter (step (State.reset.withFetchWord 0 0)) = .done := by decide

/-! ### The invariant of concrete states -/

/-- The invariant as a computation. -/
def invCheck (s : State) : Bool :=
  s.cfg.valid && s.inMem.wf s.cfg.inCap && s.outMem.wf s.cfg.outCap && Table.wf 65536 s.freq &&
  s.freq.all (fun e => e.2 != 0) && Table.wf 65536 s.code && Table.wf 256 s.cls && s.cls.all (fun e => e.2 != 0) &&
  Table.wf 65536 s.ex && s.ex.all (fun e => e.2 != false) && (!s.status.done || s.phase == .done) &&
  (!s.status.err || s.phase == .error) && ((s.status.errcode != 0) == (s.phase == .error)) &&
  (s.phase == .error || s.errInfo == 0) && (s.phase == .done || !s.status.trunc) &&
  (s.phase == .done || s.phase == .error || s.res == Results.zero) &&
  (s.phase != .error || s.res == { Results.zero with outLen := s.res.outLen }) &&
  (!s.phase.noCodes || s.code == []) &&
  (!s.busy || (decide (s.rd.byte.toNat ≤ s.rd.len.toNat) && (s.rd.byte.toNat != s.rd.len.toNat || s.rd.bit == 0) &&
    decide (s.rd.len.toNat ≤ s.cfg.inCap))) &&
  (!s.busy || (s.wr.bits.toNat == 8 * s.wr.idx.toNat + s.wr.cnt.toNat && decide (s.wr.pend.toNat < 2 ^ s.wr.cnt.toNat) &&
    decide (s.wr.idx.toNat ≤ s.cfg.outCap))) &&
  (!s.busy || decide (s.dp.hdrBits.toNat ≤ if s.phase.decompress then 8 * s.rd.len.toNat else s.wr.bits.toNat)) &&
  (!(s.phase == .cScan || s.phase == .cCheck) || (s.wr.bits == 0 && s.dp.hdrBits == 0 && s.dp.codedBits == 0)) &&
  (s.phase != .cFlush || s.wr.bits.toNat == s.dp.hdrBits.toNat + s.dp.codedBits.toNat) &&
  (!s.phase.decompress || s.wr.cnt == 0) && (s.phase != .dBuild || s.freq != []) &&
  (s.phase != .dWalk || (s.tree.full && s.loop.cur.full)) &&
  (!(s.phase == .cCodegen || s.phase == .dWalk) || s.tree == buildTree s.dp.mode s.freq) &&
  (s.phase == .cCodegen || s.phase == .dWalk || s.tree == .empty) && (s.phase == .dWalk || s.loop.cur == .empty) &&
  (!s.busy || s.dp.mode || s.freq.all (fun e => decide (e.1 < 256))) &&
  (!s.busy || s.phase == .cScan || s.phase == .cCheck || !s.dp.mode || s.freq.all (fun e => decide (e.2.toNat ≤ 65535))) &&
  (s.phase != .dMode || s.freq == [])

theorem inv_of_check {s : State} (h : invCheck s = true) : Inv s := by
  simp only [invCheck, Bool.and_eq_true, Bool.or_eq_true, Bool.not_eq_true', bne_iff_ne, beq_iff_eq, decide_eq_true_eq,
    List.all_eq_true, ne_eq] at h
  obtain ⟨⟨⟨⟨⟨⟨⟨⟨⟨⟨⟨⟨⟨⟨⟨⟨⟨⟨⟨⟨⟨⟨⟨⟨⟨⟨⟨⟨⟨⟨⟨h1, h2⟩, h3⟩, h4⟩, h5⟩, h6⟩, h7⟩, h8⟩, h9⟩, h10⟩, h11⟩, h12⟩, h13⟩, h14⟩, h15⟩, h16⟩,
    h17⟩, h18⟩, h19⟩, h20⟩, h21⟩, h22⟩, h23⟩, h24⟩, h25⟩, h26⟩, h27⟩, h28⟩, h29⟩, h30⟩, h31⟩, h32⟩ := h
  refine ⟨h1, h2, h3, h4, h5, h6, h7, h8, h9, h10, ?_, ?_, ?_, ?_, ?_, ?_, ?_, ?_, ?_, ?_, ?_, ?_, ?_, ?_, ?_, ?_, ?_, ?_, ?_, ?_,
    ?_, ?_⟩
  · intro h; simpa [h] using h11
  · intro h; simpa [h] using h12
  · constructor
    · intro h
      have : (s.status.errcode != 0) = true := bne_iff_ne.2 h
      rw [this] at h13
      simpa using h13.symm
    · intro h
      rw [h] at h13
      simpa using h13
  · intro h; simpa [h] using h14
  · intro h; simpa [h] using h15
  · intro h h'; simpa [h, h'] using h16
  · intro h; simpa [h] using h17
  · intro h; simpa [h] using h18
  · intro h
    rcases h19 with h' | ⟨⟨a, b⟩, c⟩
    · rw [h] at h'; cases h'
    · exact ⟨⟨a, fun e => b.resolve_left (fun n => n e)⟩, c⟩
  · intro h
    rcases h20 with h' | ⟨⟨a, b⟩, c⟩
    · rw [h] at h'; cases h'
    · exact ⟨⟨a, b⟩, c⟩
  · intro h; exact h21.resolve_left (by rw [h]; decide)
  · intro h
    rcases h22 with h' | ⟨⟨a, b⟩, c⟩
    · rcases h with h | h <;> simp [h] at h'
    · exact ⟨a, b, c⟩
  · intro h; exact h23.resolve_left (fun n => n h)
  · intro h; exact h24.resolve_left (by rw [h]; decide)
  · intro h; exact h25.resolve_left (fun n => n h)
  · intro h; exact h26.resolve_left (fun n => n h)
  · intro h
    rcases h27 with h' | h'
    · rcases h with h | h <;> simp [h] at h'
    · exact h'
  · intro h h'; simpa [h, h'] using h28
  · intro h; simpa [h] using h29
  · intro h h'; simpa [h, h'] using h30
  · intro h h1 h2 h3; simpa [h, h1, h2, h3] using h31
  · intro h; exact h32.resolve_left (fun n => n h)

/-- A COMPRESS run in C_HDR: symbol 3 is next and occurs `f` times. -/
def heading (pair : Bool) (g : Stage) (f : BitVec 32) : State :=
  { base with
    phase := .cHdr
    dp := { base.dp with mode := pair }
    loop := { stage := g, s := 3, cur := .empty, emit := none }
    freq := if f = 0 then [] else [(3, f)] }

/-- A COMPRESS run in C_EMIT with code bits to write. -/
def emitting (bits : Bits) : State :=
  { base with phase := .cEmit, loop := { stage := .pass1, s := 0, cur := .empty, emit := some bits } }

/-- A DECOMPRESS run in D_HDR at symbol 3, at the first bit of the given input. -/
def parsing (pair : Bool) (g : Stage) (input : Memory) (cls : Table (BitVec 2)) (ex : Table Bool) : State :=
  { base with
    phase := .dHdr
    dp := { base.dp with mode := pair }
    rd := { byte := 0, bit := 0, len := BitVec.ofNat 32 input.length }
    loop := { stage := g, s := 3, cur := .empty, emit := none }
    inMem := input
    cls := cls
    ex := ex }

/-- The tree of symbols 1 and 2, one occurrence each. -/
def twoLeaves (pair : Bool) : Tree :=
  .node (.leaf ⟨pair, 1⟩ 1) (.leaf ⟨pair, 2⟩ 1) 2 ⟨pair, 1⟩

/-- A DECOMPRESS run in D_WALK standing at `cur` with the given bytes of input left to read. -/
def walking (pair : Bool) (cur : Tree) (total : BitVec 40) (input : Memory) : State :=
  { base with
    phase := .dWalk
    dp := { base.dp with mode := pair, total := total }
    rd := { byte := 0, bit := 0, len := BitVec.ofNat 32 input.length }
    loop := { stage := .entry, s := 0, cur := cur, emit := none }
    freq := [(1, 1), (2, 1)]
    tree := twoLeaves pair
    inMem := input }

/-- A DECOMPRESS run in D_FLUSH. -/
def draining : State :=
  { walking false .empty 1 [(0, 0xFF)] with phase := .dFlush, tree := .empty }

/-- A writer that has flushed every byte of OUT_MEM's 64 and holds `cnt` pending zeros. -/
def full (cnt : BitVec 3) : Writer :=
  { pend := 0, cnt := cnt, idx := 64, bits := 512 + cnt.setWidth 32 }

theorem inv_base : Inv base := inv_of_check (by decide)

/-! ### Each statement's hypotheses are met -/

theorem witness_DecodeOfEncodeIsIdentity :
    (Instr.pad 7).wellFormed = true ∧ (Instr.wr32 0x008 0xFFFFFFFF).wellFormed = true := by decide

theorem witness_ExampleCommandWordsDecode : (0xFFFFFFFE : Word).getLsbD 0 = false := by decide

theorem witness_StreamFieldsAreNeverIllegal :
    (FieldKind.value8, (List.replicate 8 true).length) ∈
      [(FieldKind.modeFlag, 1), (.sizeClass, 2), (.value8, 8), (.value16, 16), (.value32, 32), (.existence, 1), (.codeBit, 1)] ∧
    (List.replicate 16 false).length = (if true then 16 else 8) ∧
    (List.replicate 8 true).length = (if false then 16 else 8) := by decide

theorem witness_CtrlWriteWhileIdle :
    base.busy = false ∧ ({ base with inLen := 64 }).inLen.toNat ≤ base.cfg.inCap := by decide

theorem witness_StartErrorsEndTheRunAtOnce :
    base.busy = false ∧ base.cfg.inCap < ({ base with inLen := 65 }).inLen.toNat := by decide

theorem witness_CtrlWriteWhileBusyStoresOnlyIrqEn :
    (emitting []).busy = true ∧
    ∀ i ∈ [Instr.cfg 0 true true, .badCmd11 true true],
      i ∈ [Instr.cfg 0 true true, .compress true true, .decompress true true, .badCmd00 true true, .badCmd11 true true] := by
  decide

theorem witness_StatusWriteClearsOnlyDoneAndErr :
    decode (.txn (.write .b4 0x004 0x00000006)) = .ok (.statusW1c true true) := by decide

theorem witness_RegisterWritesStoreOrAreIgnored :
    base.busy = false ∧ (emitting []).busy = true ∧
    ∀ k ∈ [0x00C, 0x03C, 0x044, 0xFFC], let addr := BitVec.ofNat 32 k; addr.toNat < 0x1000 ∧ addr.toNat % 4 = 0 ∧
      addr.toNat ∉ [0x000, 0x004, 0x008, 0x040, 0x048] := by decide

/-- A boundary address of each clause. -/
theorem witness_BadAccessGetsBusErr :
    base.cfg.valid = true ∧
    (∀ k ∈ [0x00001000, 0x3FFFFFFF, 0x40000040, 0x7FFFFFFF, 0x80000040, 0xFFFFFFFF], let addr := BitVec.ofNat 32 k;
      0x1000 ≤ addr.toNat ∧ ¬ (0x40000000 ≤ addr.toNat ∧ addr.toNat < 0x40000000 + base.cfg.inCap) ∧
        ¬ (0x80000000 ≤ addr.toNat ∧ addr.toNat < 0x80000000 + base.cfg.outCap)) ∧
    (0xFFC : Addr).toNat < 0x1000 ∧ ((0xFFF : Addr).toNat < 0x1000 ∧ (0xFFF : Addr).toNat % 4 ≠ 0) ∧
    (∀ k ∈ [0x40000001, 0x4000003F], let addr := BitVec.ofNat 32 k;
      0x40000000 ≤ addr.toNat ∧ addr.toNat < 0x40000000 + base.cfg.inCap ∧
      (addr.toNat % 4 ≠ 0 ∨ 0x40000000 + base.cfg.inCap ≤ addr.toNat + 3)) ∧
    (∀ k ∈ [0x80000002, 0x8000003F], let addr := BitVec.ofNat 32 k;
      0x80000000 ≤ addr.toNat ∧ addr.toNat < 0x80000000 + base.cfg.outCap ∧
      (addr.toNat % 4 ≠ 0 ∨ 0x80000000 + base.cfg.outCap ≤ addr.toNat + 3)) := by decide

theorem witness_RegisterReadsReturnTheirFields :
    base.busy = false ∧ (emitting []).busy = true ∧
    ∀ k ∈ [0x03C, 0x058, 0xFFC], let addr := BitVec.ofNat 32 k;
      addr.toNat % 4 = 0 ∧ (addr.toNat = 0x03C ∨ (0x058 ≤ addr.toNat ∧ addr.toNat < 0x1000)) := by decide

theorem witness_CodeDumpShowsTheSelectedCode :
    let s := { base with codeSel := 0xFFFF, code := [(0xFFFF, [true])] };
    s.busy = false ∧ Table.look s.codeSel.toNat s.code = some [true] ∧ [true].length ≤ 65535 ∧
    Table.look base.codeSel.toNat base.code = none ∧ (emitting []).busy = true := by decide

theorem witness_StatusReadsExactlyWhileBusy : Inv (emitting []) ∧ (emitting []).busy = true :=
  ⟨inv_of_check (by decide), by decide⟩

theorem witness_WindowReadsReturnStoredBytes :
    base.cfg.valid = true ∧ (0x4000003C : Addr).toNat = 0x40000000 + 60 ∧ 60 < base.cfg.inCap ∧ 60 % 4 = 0 ∧
    60 + 3 < base.cfg.inCap ∧ (0x8000003C : Addr).toNat = 0x80000000 + 60 ∧ 60 < base.cfg.outCap ∧
    60 + 3 < base.cfg.outCap ∧ base.busy = false ∧ (emitting []).busy = true := by decide

theorem witness_WindowWritesStoreWhileIdle :
    base.cfg.valid = true ∧ (0x4000003C : Addr).toNat = 0x40000000 + 60 ∧ 60 < base.cfg.inCap ∧ 60 % 4 = 0 ∧
    60 + 3 < base.cfg.inCap ∧ base.busy = false ∧ (emitting []).busy = true := by decide

theorem witness_StepRunsTheHostTransaction :
    let t := Txn.read .b4 0x004
    ({ base with pending := [.host t] }).pending = .host t :: [] ∧ decode (.txn t) = .ok (.rd32 0x004) ∧
    decode (.txn (.write .b1 0x40000000 0x41)) = .ok (.wr8 0x40000000 0x41) := by decide

theorem witness_StepRunsTheStreamField :
    (let s := { emitting [true] with pending := [.fine] };
      s.pending = .fine :: [] ∧ s.busy = true ∧ s.nextField = some .codeRight) ∧
    (let s := { parsing false .entry [(0, 0x80)] [] [] with phase := .dMode };
      s.rd.ok ∧ s.phase = .dMode ∧ decode (.field .modeFlag (s.nextBits 1)) = .ok .modePair) ∧
    (let s := parsing false .pass1 [(0, 0x80)] [] [];
      s.rd.ok ∧ s.loop.s.toNat < nsyms s.dp.mode ∧ decode (.field .sizeClass (s.nextBits 2)) = .ok (.classF16 none)) ∧
    (let s := parsing true .pass1 [(0, 0x80)] [] [];
      s.rd.ok ∧ s.loop.s.toNat < nsyms s.dp.mode ∧ decode (.field .existence (s.nextBits 1)) = .ok .pairPresent) :=
  ⟨by decide, ⟨⟨by decide, by decide⟩, by decide, by decide⟩, ⟨⟨by decide, by decide⟩, by decide, by decide⟩,
    ⟨by decide, by decide⟩, by decide, by decide⟩

theorem witness_StepRunsTheStreamField_values :
    (let s := parsing false .pass2 [(0, 0x05)] [(3, 1)] [];
      s.rd.ok ∧ s.clsAt s.loop.s.toNat = 1 ∧ decode (.field .value8 (s.nextBits 8)) = .ok (.classF8 (some 5))) ∧
    (let s := parsing false .pass2 [(0, 0x05)] [(3, 2)] [];
      s.rd.ok ∧ s.clsAt s.loop.s.toNat = 2 ∧ decode (.field .value16 (s.nextBits 16)) = .ok (.classF16 (some 0))) ∧
    (let s := parsing false .pass2 [(0, 0), (1, 1), (2, 0), (3, 0)] [(3, 3)] [];
      s.rd.ok ∧ s.clsAt s.loop.s.toNat = 3 ∧
        decode (.field .value32 (s.nextBits 32)) = .ok (.classF32 (some 0x10000))) ∧
    (let s := parsing true .pass2 [(0, 0x01), (1, 0x00)] [] [(3, true)];
      s.rd.ok ∧ s.exAt s.loop.s.toNat = true ∧ s.nextBits 1 = [false] ∧
        decode (.field .pairSize (false :: (s.past 1).nextBits 8)) = .ok (.pairSize8 2)) ∧
    (let s := walking false (twoLeaves false) 1 [(0, 0x80)];
      s.rd.ok ∧ s.dp.doneSyms ≠ s.dp.total ∧ s.rd.pos < 8 * s.rd.len.toNat ∧
        decode (.field .codeBit (s.nextBits 1)) = .ok .codeRight) :=
  ⟨⟨⟨by decide, by decide⟩, by decide, by decide⟩, ⟨⟨by decide, by decide⟩, by decide, by decide⟩,
    ⟨⟨by decide, by decide⟩, by decide, by decide⟩, ⟨⟨by decide, by decide⟩, by decide, by decide, by decide⟩,
    ⟨by decide, by decide⟩, by decide, by decide, by decide⟩

theorem witness_OneBitFieldsAreWritten :
    (Inv (heading false .entry 0) ∧ (heading false .entry 0).room 1 ∧ (heading false .entry 0).dp.mode = false) ∧
    (Inv (heading true .entry 0) ∧ (heading true .entry 0).room 1 ∧ (heading true .entry 0).dp.mode = true) ∧
    (Inv (emitting [false]) ∧ (emitting [false]).room 1 ∧ (emitting [false]).loop.emit = some (false :: [])) ∧
    (Inv (emitting [true]) ∧ (emitting [true]).room 1 ∧ (emitting [true]).loop.emit = some (true :: [])) :=
  ⟨⟨inv_of_check (by decide), Nat.le_of_ble_eq_true rfl, rfl⟩, ⟨inv_of_check (by decide), Nat.le_of_ble_eq_true rfl, rfl⟩,
    ⟨inv_of_check (by decide), Nat.le_of_ble_eq_true rfl, rfl⟩, inv_of_check (by decide), Nat.le_of_ble_eq_true rfl, rfl⟩

/-- The four classes at their boundaries, and a value of each width. -/
theorem witness_ByteHeaderFieldsAreWritten :
    (∀ k ∈ [0, 1, 255, 256, 65535, 65536], let f := BitVec.ofNat 32 k; invCheck (heading false .pass1 f) = true ∧
      (heading false .pass1 f).freqAt 3 = f ∧ (heading false .pass1 f).loop.s.toNat = 3) ∧
    (heading false .pass1 65536).room 2 ∧ (heading false .pass2 255).room 8 ∧ (heading false .pass2 256).room 16 ∧
    (heading false .pass2 65536).room 32 ∧
    (∀ k ∈ [255, 256, 65536], let f := BitVec.ofNat 32 k; invCheck (heading false .pass2 f) = true ∧
      (heading false .pass2 f).freqAt 3 = f) ∧
    (255 : BitVec 32).toNat = (255 : BitVec 8).toNat ∧ (256 : BitVec 32).toNat = (256 : BitVec 16).toNat :=
  ⟨by decide, Nat.le_of_ble_eq_true rfl, Nat.le_of_ble_eq_true rfl, Nat.le_of_ble_eq_true rfl,
    Nat.le_of_ble_eq_true rfl, by decide, by decide, by decide⟩

theorem witness_PairHeaderFieldsAreWritten :
    (∀ k ∈ [0, 1], let f := BitVec.ofNat 32 k;
      invCheck (heading true .pass1 f) = true ∧ (heading true .pass1 f).freqAt 3 = f) ∧
    (heading true .pass1 1).room 1 ∧ (heading true .pass2 255).room 9 ∧ (heading true .pass2 256).room 17 ∧
    (∀ k ∈ [1, 255, 256, 65535], let f := BitVec.ofNat 32 k; invCheck (heading true .pass2 f) = true ∧
      (heading true .pass2 f).freqAt 3 = f) :=
  ⟨by decide, Nat.le_of_ble_eq_true rfl, Nat.le_of_ble_eq_true rfl, Nat.le_of_ble_eq_true rfl, by decide⟩

theorem witness_OutputOverflowEndsTheRun :
    (let s := { emitting [true] with wr := full 7 };
      Inv s ∧ s.nextField = some .codeRight ∧ ¬ s.room (fieldBits .codeRight).length) ∧
    (let s := { heading true .pass2 256 with wr := full 0 };
      Inv s ∧ s.nextField = some (.pairSize16 256) ∧ ¬ s.room (fieldBits (.pairSize16 256)).length) ∧
    (let s := { base with phase := .cFlush, wr := full 1, dp := { base.dp with hdrBits := 513 } };
      Inv s ∧ s.wr.cnt ≠ 0 ∧ s.wr.idx.toNat = s.cfg.outCap) :=
  ⟨⟨inv_of_check (by decide), by decide, by unfold State.room; decide⟩,
    ⟨inv_of_check (by decide), by decide, by unfold State.room; decide⟩, inv_of_check (by decide), by decide, by decide⟩

theorem witness_PaddingCompletesCompress :
    (let s := { base with phase := .cFlush, wr := full 0, dp := { base.dp with hdrBits := 512 } };
      Inv s ∧ s.wr.cnt = 0) ∧
    (let s := { base with phase := .cFlush, wr := { pend := 1, cnt := 1, idx := 0, bits := 1 }
                          dp := { base.dp with hdrBits := 1 } };
      Inv s ∧ s.wr.idx.toNat < s.cfg.outCap) :=
  ⟨⟨inv_of_check (by decide), by decide⟩, inv_of_check (by decide), by decide⟩

theorem witness_ModeFlagIsRead :
    (let s := { parsing false .entry [(0, 0x80)] [] [] with phase := .dMode };
      Inv s ∧ s.phase = .dMode ∧ s.nextBits 1 = [true]) ∧
    (let s := { parsing false .entry [] [] [] with phase := .dMode };
      Inv s ∧ s.phase = .dMode ∧ s.nextBits 1 = [false]) :=
  ⟨⟨inv_of_check (by decide), by decide, by decide⟩, inv_of_check (by decide), by decide, by decide⟩

theorem witness_ByteHeaderFieldsAreRead :
    (∀ b ∈ [((0x00 : Byte), [false, false]), (0x40, [false, true]), (0x80, [true, false]), (0xC0, [true, true])],
      invCheck (parsing false .pass1 [(0, b.1)] [] []) = true ∧ (parsing false .pass1 [(0, b.1)] [] []).nextBits 2 = b.2) ∧
    (let s := parsing false .pass2 [(0, 0xFF)] [(3, 1)] [];
      Inv s ∧ s.clsAt 3 = 1 ∧ s.nextBits 8 = bitsOf 8 (0xFF : BitVec 8).toNat) ∧
    (let s := parsing false .pass2 [(0, 0xFF)] [(3, 2)] [];
      Inv s ∧ s.clsAt 3 = 2 ∧ s.nextBits 16 = bitsOf 16 (0 : BitVec 16).toNat) ∧
    (let s := parsing false .pass2 [(0, 0), (1, 0), (2, 0), (3, 5)] [(3, 3)] [];
      Inv s ∧ s.clsAt 3 = 3 ∧ s.nextBits 32 = bitsOf 32 (5 : BitVec 32).toNat) :=
  ⟨by decide, ⟨inv_of_check (by decide), by decide, by decide⟩, ⟨inv_of_check (by decide), by decide, by decide⟩,
    inv_of_check (by decide), by decide, by decide⟩

/-- The end of a loop of D_HDR in each mode, the input used up, after a table with a symbol of count 5. -/
def loopEnd (pair : Bool) (g : Stage) : State :=
  { parsing pair g [] [] [] with
    freq := [(3, 5)]
    loop := { stage := g, s := if pair then 65536 else 256, cur := .empty, emit := none } }

theorem witness_HeaderLoopsEnd :
    (∀ g ∈ [Stage.pass1, .pass2], invCheck (loopEnd false g) = true ∧ 256 ≤ (loopEnd false g).loop.s.toNat ∧
      invCheck (loopEnd true g) = true ∧ 65536 ≤ (loopEnd true g).loop.s.toNat) ∧
    (parsing false .pass2 [] [] []).clsAt 3 = 0 ∧ invCheck (parsing false .pass2 [] [] []) = true ∧
    (parsing true .pass2 [] [] []).exAt 3 = false ∧ invCheck (parsing true .pass2 [] [] []) = true := by decide

theorem witness_PairHeaderFieldsAreRead :
    (∀ b ∈ [((0x00 : Byte), [false]), (0x80, [true])],
      invCheck (parsing true .pass1 [(0, b.1)] [] []) = true ∧ (parsing true .pass1 [(0, b.1)] [] []).nextBits 1 = b.2) ∧
    (let s := parsing true .pass2 [(0, 0x7F), (1, 0x80)] [] [(3, true)];
      Inv s ∧ s.exAt 3 = true ∧ s.nextBits 1 = [false] ∧ (s.past 1).nextBits 8 = bitsOf 8 (0xFF : BitVec 8).toNat) ∧
    (let s := parsing true .pass2 [(0, 0x80), (1, 0x80), (2, 0x00)] [] [(3, true)];
      Inv s ∧ s.exAt 3 = true ∧ s.nextBits 1 = [true] ∧ (s.past 1).nextBits 16 = bitsOf 16 (0x0100 : BitVec 16).toNat) :=
  ⟨by decide, ⟨inv_of_check (by decide), by decide, by decide, by decide⟩, inv_of_check (by decide), by decide, by decide,
    by decide⟩

theorem witness_CodeBitDescends :
    (let s := walking false (twoLeaves false) 1 [(0, 0x80)];
      Inv s ∧ s.loop.cur = .node (.leaf ⟨false, 1⟩ 1) (.leaf ⟨false, 2⟩ 1) 2 ⟨false, 1⟩ ∧ s.dp.doneSyms ≠ s.dp.total ∧
        s.rd.pos < 8 * s.rd.len.toNat ∧ s.nextBits 1 = [true]) ∧
    (let s := walking false (twoLeaves false) 1 [(0, 0x00)];
      Inv s ∧ s.dp.doneSyms ≠ s.dp.total ∧ s.rd.pos < 8 * s.rd.len.toNat ∧ s.nextBits 1 = [false]) :=
  ⟨⟨inv_of_check (by decide), by decide, by decide, by decide, by decide⟩, inv_of_check (by decide), by decide, by decide,
    by decide⟩

theorem witness_WalkStopsOnTheCount :
    let s := walking false (twoLeaves false) 0 [(0, 0xFF)];
    s.phase = .dWalk ∧ s.dp.doneSyms = s.dp.total := by decide

theorem witness_WalkStopsAtTheEndOfTheInput :
    let s := walking false (twoLeaves false) 1 [];
    Inv s ∧ s.loop.cur = .node (.leaf ⟨false, 1⟩ 1) (.leaf ⟨false, 2⟩ 1) 2 ⟨false, 1⟩ ∧ s.dp.doneSyms ≠ s.dp.total ∧
      s.rd.pos = 8 * s.rd.len.toNat :=
  ⟨inv_of_check (by decide), by decide, by decide, by decide⟩

theorem witness_WalkEmitsTheSymbolOfALeaf :
    (let s := walking false (.leaf ⟨false, 0xFF⟩ 1) 1 [];
      Inv s ∧ s.dp.doneSyms ≠ s.dp.total ∧ s.room (bitsOf 8 0xFF).length) ∧
    (let s := walking true (.leaf ⟨true, 0xFFFF⟩ 1) 1 [];
      Inv s ∧ s.dp.doneSyms ≠ s.dp.total ∧ s.room (bitsOf 16 0xFFFF).length) ∧
    (let s := { walking false (.leaf ⟨false, 0xFF⟩ 1) 1 [] with wr := full 0 };
      Inv s ∧ s.dp.doneSyms ≠ s.dp.total ∧ ¬ s.room (bitsOf 8 0xFF).length) ∧
    (let s := { walking true (.leaf ⟨true, 0xFFFE⟩ 1) 1 [] with wr := { pend := 0, cnt := 0, idx := 63, bits := 504 } };
      Inv s ∧ s.dp.doneSyms ≠ s.dp.total ∧ ¬ s.room (bitsOf 16 0xFFFE).length) :=
  ⟨⟨inv_of_check (by decide), by decide, Nat.le_of_ble_eq_true rfl⟩,
    ⟨inv_of_check (by decide), by decide, Nat.le_of_ble_eq_true rfl⟩,
    ⟨inv_of_check (by decide), by decide, by unfold State.room; decide⟩, inv_of_check (by decide), by decide,
    by unfold State.room; decide⟩

/-- 60_exceptions.md R411: with one byte of room a pair's high byte is stored, and the run ends. -/
theorem test_walk_overflow_stores_the_high_byte :
    holds (fun s => s.phase == .error && s.outMem == [(63, 0xAB)] && s.res.outLen == 64 && s.wr.bits == 512)
      (fineStep { walking true (.leaf ⟨true, 0xABCD⟩ 1) 1 [] with wr := { pend := 0, cnt := 0, idx := 63, bits := 504 } })
      = true := by decide

theorem witness_DecompressFlushCompletes :
    let s := draining;
    Inv s ∧ s.phase = .dFlush :=
  ⟨inv_of_check (by decide), by decide⟩

theorem witness_FieldElsewhereIsRefused :
    encode (.pad 0) = .field .padding [] ∧ base.nextField ≠ some (.pad 0) := by decide

/-- A COMPRESS run at the start of C_SCAN over 0x41 0x41 0x42. -/
def scanning (pair : Bool) (g : Stage) : State :=
  { base with
    phase := .cScan
    dp := { base.dp with mode := pair }
    rd := { byte := 0, bit := 0, len := 3 }
    loop := { stage := g, s := 0, cur := .empty, emit := none }
    inMem := [(0, 0x41), (1, 0x41), (2, 0x42)] }

theorem witness_ScanCountsTheInput :
    ∀ pair ∈ [false, true], invCheck (scanning pair .entry) = true ∧ (scanning pair .entry).freq = [] ∧
      (scanning pair .entry).loop.stage = .entry := by decide

theorem witness_FullCountRaisesFreqOverflow :
    let s := { scanning false .pass1 with freq := [(0x41, 0xFFFFFFFF)] };
    Inv s ∧ s.rd.pos + symWidth s.dp.mode ≤ 8 * s.rd.len.toNat ∧ 0x41 = bitsVal (s.nextBits (symWidth s.dp.mode)) ∧
      (s.freqAt 0x41).toNat = 2 ^ 32 - 1 :=
  ⟨inv_of_check (by decide), by decide, by decide, by decide⟩

theorem witness_CheckRejectsPairCountsAbove65535 :
    (let s := { scanning true .entry with phase := .cCheck, freq := [(1, 65535), (2, 65536)] };
      Inv s ∧ s.dp.mode = true ∧ 65535 < (s.freqAt 2).toNat ∧ ∀ j, j < 2 → (s.freqAt j).toNat ≤ 65535) ∧
    (let s := { scanning false .entry with phase := .cCheck, freq := [(1, 65536)] };
      Inv s ∧ s.dp.mode = false) ∧
    (let s := { scanning true .entry with phase := .cCheck };
      Inv s ∧ ∀ k, (s.freqAt k).toNat ≤ 65535) :=
  ⟨⟨inv_of_check (by decide), by decide, by decide, by decide⟩, ⟨inv_of_check (by decide), by decide⟩,
    inv_of_check (by decide), fun _ => Nat.le_of_ble_eq_true rfl⟩

theorem witness_HeaderPhaseWritesTheHeader :
    let s := { heading false .entry 65536 with cfg := { inCap := 64, outCap := 69 } };
    Inv s ∧ s.wr.bits = 0 ∧ s.dp.mode = false ∧ s.room (headerLength s.dp.mode s.freqAt) :=
  ⟨inv_of_check (by decide), by decide, by decide, by unfold State.room; decide +kernel⟩

theorem witness_EmitPhaseWritesTheCodes :
    let s := { scanning false .entry with phase := .cEmit, code := [(0x41, [false]), (0x42, [true])] };
    Inv s ∧ s.loop.emit = none ∧ s.dp.doneSyms = 0 ∧ s.wr.bits = s.dp.hdrBits ∧
      s.room ((inputSymbols s.dp.mode s.inByte s.rd.len.toNat).flatMap fun r => (Table.look r s.code).getD []).length :=
  ⟨inv_of_check (by decide), by decide, by decide, by decide, by unfold State.room; decide⟩

theorem witness_ReaderReadsBackWhatTheWriterWrote :
    ∃ t u, base.cfg.valid = true ∧ base.wr = { pend := 0, cnt := 0, idx := 0, bits := 0 } ∧
      writeBits [true, false, true] base = .run t ∧ finish t = .run u ∧ [true, false, true] = [true] ++ bitsOf 2 1 ++ [] ∧
      1 < 2 ^ 2 :=
  ⟨_, _, by decide, by decide, rfl, rfl, by decide, by decide⟩

theorem witness_TreeHasOneLeafPerPresentSymbol :
    let freq : Table (BitVec 32) := [(0, 1), (65535, 0xFFFFFFFF)]
    Table.wf 65536 freq = true ∧ 1 ≤ freqPresent freq ∧ freqTotal freq < 2 ^ 40 := by decide

theorem witness_TreeIsIndependentOfTheQueueOrder :
    let a := Tree.leaf ⟨false, 1⟩ 5
    let b := Tree.leaf ⟨false, 2⟩ 5
    [a, b].Perm [b, a] ∧ ([a, b].map Tree.key).Nodup :=
  ⟨List.Perm.swap _ _ _, by decide⟩

theorem witness_SingleSymbolHasTheEmptyCode : 65535 < 65536 ∧ (0xFFFFFFFF : BitVec 32) ≠ 0 := by decide

theorem witness_CodesAreValidForThePresentSymbols :
    let s := { scanning false .entry with phase := .cCodegen, freq := [(0x41, 2), (0x42, 1)]
                                          tree := buildTree false [(0x41, 2), (0x42, 1)] };
    Inv s ∧ s.phase = .cCodegen ∧ Inv { s with phase := .cBuild, tree := .empty } ∧
      Inv { s with phase := .dBuild, tree := .empty } :=
  ⟨inv_of_check (by decide), by decide, inv_of_check (by decide), inv_of_check (by decide)⟩

/-- 45_orchestration.md R355 and 42_tree.md R260: the codes are there and the tree is gone. -/
theorem test_codegen_discards_the_tree :
    holds (fun s => s.code == [(0x41, [true]), (0x42, [false])] && s.tree == .empty)
      (fineStep { scanning false .entry with
        phase := .cCodegen, freq := [(0x41, 2), (0x42, 1)], tree := buildTree false [(0x41, 2), (0x42, 1)] }) = true := by
  decide

theorem witness_CodesArePrefixFree :
    let freq : Table (BitVec 32) := [(0, 1), (65535, 1)]
    Table.wf 65536 freq = true ∧ 2 ≤ freqPresent freq ∧
    Table.look 0 (genCodes (buildTree true freq) [] []) = some [false] ∧
    Table.look 65535 (genCodes (buildTree true freq) [] []) = some [true] := by decide

theorem witness_CodeLengthsSumToOne :
    let freq : Table (BitVec 32) := [(0, 1), (65535, 1)]
    Table.wf 65536 freq = true ∧ 2 ≤ freqPresent freq := by decide

/-- The 66-byte stream of one 0x00 (95_test_vectors.md, as 45_orchestration.md R351 counts its 521 bits), at bit 1. -/
def headerAhead : State :=
  { base with
    cfg := { inCap := 66, outCap := 64 }
    phase := .dHdr
    rd := { byte := 0, bit := 1, len := 66 }
    inMem := (0, 0x20) :: (List.range 64).map (fun i => (i + 1, 0x00)) ++ [(65, 0x80)] }

theorem witness_HeaderRoundTrips :
    let f : Nat → BitVec 32 := fun k => if k = 0 then 1 else 0
    Inv headerAhead ∧ headerAhead.loop = { stage := .entry, s := 0, cur := headerAhead.loop.cur, emit := none } ∧
      headerAhead.rd.pos = 1 ∧ 1 + (headerBits headerAhead.dp.mode f).length ≤ 8 * headerAhead.rd.len.toNat ∧
      streamBits headerAhead.inByte 1 (headerBits headerAhead.dp.mode f).length = headerBits headerAhead.dp.mode f :=
  ⟨inv_of_check (by decide +kernel), rfl, by decide, by decide +kernel, by decide +kernel⟩

/-- The run of an empty input, to its end: 7 phases. -/
theorem witness_DecompressInvertsCompress :
    ∃ s0 s1 : State, Inv base ∧ base.busy = false ∧ base.pending = [] ∧ base.inLen.toNat ≤ base.cfg.inCap ∧
      exec (.compress false false) base = .next s0 ∧ stepN 7 s0 = .next s1 ∧ s1.status.done = true ∧
      base.inLen = s1.res.outLen ∧ base.inLen.toNat ≤ base.cfg.outCap ∧
      ∀ a, a < base.inLen.toNat → base.inByte a = s1.outByte a := by
  refine ⟨_, _, inv_base, rfl, rfl, by decide, rfl, rfl, by decide, by decide, by decide, fun a h => absurd h (Nat.not_lt_zero a)⟩

theorem witness_RunsAreDeterminedByTheirInput :
    ∃ s0 t0 s1 t1 : State, Inv base ∧ base.busy = false ∧ base.pending = [] ∧
      exec (.decompress false false) base = .next s0 ∧ exec (.decompress true true) base = .next t0 ∧
      stepN 1 s0 = .next s1 ∧ stepN 1 t0 = .next t1 :=
  ⟨_, _, _, _, inv_base, rfl, rfl, rfl, rfl, rfl, rfl⟩

theorem witness_EngineStepsFollowThePhaseOrder :
    Inv (scanning false .entry) ∧ (scanning false .entry).busy = true :=
  ⟨inv_of_check (by decide), by decide⟩

theorem witness_EveryRunEnds :
    Inv (scanning false .entry) ∧ (scanning false .entry).busy = true ∧ (scanning false .entry).pending = [] :=
  ⟨inv_of_check (by decide), by decide, by decide⟩

theorem witness_FinerStepsReachTheSamePhaseEnd :
    ∃ t, Inv (scanning false .entry) ∧ (scanning false .entry).busy = true ∧ fineStep (scanning false .entry) = .next t ∧
      t.phase = (scanning false .entry).phase :=
  ⟨_, inv_of_check (by decide), by decide, rfl, rfl⟩

theorem witness_HostCannotDisturbARun :
    ∃ u v, Inv (scanning false .entry) ∧ (scanning false .entry).busy = true ∧
      hostStep (.write .b4 0x000 0x1F) (scanning false .entry) = .next u ∧ engineStep (scanning false .entry) = .next v :=
  ⟨_, _, inv_of_check (by decide), by decide, rfl, rfl⟩

theorem witness_HeaderAndCodedBytesAddUp :
    (∃ t, let s := { base with phase := .cFlush, wr := { pend := 1, cnt := 1, idx := 0, bits := 1 }
                               dp := { base.dp with hdrBits := 1 } };
      Inv s ∧ s.busy = true ∧ engineStep s = .next t ∧ t.phase = .done) ∧
    ∃ t, let s := draining;
      Inv s ∧ s.busy = true ∧ engineStep s = .next t ∧ t.phase = .done :=
  ⟨⟨_, inv_of_check (by decide), by decide, rfl, rfl⟩, _, inv_of_check (by decide), by decide, rfl, rfl⟩

theorem witness_ResetEventRestoresTheResetValues :
    ({ scanning false .entry with pending := [.reset] }).pending = .reset :: [] := by decide

theorem witness_EveryStepKeepsTheInvariant :
    ∃ t, Inv { emitting [true] with pending := [.fine] } ∧ step { emitting [true] with pending := [.fine] } = .next t :=
  ⟨_, inv_of_check (by decide), rfl⟩

theorem witness_NoStepFaultsOrIsRefused : Inv (walking true (twoLeaves true) 1 []) := inv_of_check (by decide)

theorem witness_EachBufferHasOneWriter :
    (∃ t, step { base with pending := [.host (.write .b1 0x40000000 0x41)] } = .next t ∧ t.inMem ≠ base.inMem) ∧
    ∃ t, step { emitting [true] with wr := { pend := 0, cnt := 7, idx := 0, bits := 7 }, pending := [.fine] } = .next t ∧
      t.outMem ≠ (emitting [true]).outMem :=
  ⟨⟨_, rfl, by decide⟩, _, rfl, by decide⟩

theorem witness_ResultsStayUntilTheNextStart :
    ∃ t, let s := { base with phase := .done, status := { base.status with done := true }
                              pending := [.host (.write .b4 0x004 0x6)] };
      s.busy = false ∧ step s = .next t ∧ (∀ rest, s.pending ≠ .reset :: rest) ∧
        ∀ v rest, v.getLsbD 0 = true → s.pending ≠ .host (.write .b4 0x000 v) :: rest :=
  ⟨_, rfl, rfl, fun _ h => by simp at h, fun _ _ _ h => by simp at h⟩

theorem witness_InterruptFollowsTheFlags : base.busy = false ∧ base.inLen.toNat ≤ base.cfg.inCap := by decide

end Sys2Proof.Tests
end

section
/-!
SUPPORT. A host access as one function of its transaction: the instruction that a transaction decodes to has the effect of
MemRead or MemWrite (20_memory.md R104, R105), and a write step then does one of three things.
-/

namespace Sys2Proof.Machine

/-! ### One function for every write -/

/-- A word written to CTRL has the effect of the instruction it decodes to (10_state.md R41, R42). -/
theorem exec_decodeCtrl (v : Word) (s : State) :
    exec (decodeCtrl v) s =
      .next ((s.writeCtrl (v.getLsbD 0) (v.extractLsb' 1 2) (v.getLsbD 3) (v.getLsbD 4)).respond .okWrite) := by
  unfold decodeCtrl
  cases v.getLsbD 0 with
  | false => rfl
  | true =>
    generalize v.extractLsb' 1 2 = cmd
    simp only [if_true]
    split_ifs with h1 h2 h0
    · rw [h1]; rfl
    · rw [h2]; rfl
    · rw [h0]; rfl
    · have h3 : cmd = 0b11 := by revert h1 h2 h0; revert cmd; decide
      rw [h3]; rfl

/-- A transaction that writes is MemWrite of its data (20_memory.md R105). -/
theorem exec_decodeTxn_write (n : Size) (addr : Addr) (v : Word) (s : State) :
    exec (decodeTxn (.write n addr v)) s = .next (s.writeStep n addr v) := by
  cases n with
  | b1 =>
    have hlow : ((v.setWidth 8).setWidth 32).setWidth 8 = v.setWidth 8 := by
      ext j hj; simp
    simp [decodeTxn, exec, execWr8, State.writeStep, regAccessOk, windowWrite, hlow]
  | b4 =>
    simp only [decodeTxn]
    split_ifs with hc hs
    · rw [exec_decodeCtrl, writes_register v (by rw [hc]; decide) (by rw [hc]; decide), hc]; rfl
    · rw [writes_register v (by rw [hs]; decide) (by rw [hs]; decide), hs]; rfl
    · rfl

theorem hostStep_write (n : Size) (addr : Addr) (v : Word) (s : State) :
    hostStep (.write n addr v) s = .next (s.writeStep n addr v).newFree := by
  simp only [hostStep, exec_decodeTxn_write, mapNext_next]

theorem hostStep_read (n : Size) (addr : Addr) (s : State) :
    hostStep (.read n addr) s = .next (s.readStep n addr) := by
  cases n <;> rfl

/-! ### What a write step can do -/

theorem busTarget_eq_reg {c : Config} {addr : Addr} {off : Nat} (h : busTarget c addr = .reg off) : off = addr.toNat := by
  simp only [busTarget] at h
  split_ifs at h
  exact (Target.reg.inj h).symm

theorem busTarget_eq_inp {c : Config} {addr : Addr} {i : Nat} (h : busTarget c addr = .inp i) : i < c.inCap := by
  simp only [busTarget, Bool.and_eq_true, decide_eq_true_eq] at h
  split_ifs at h with _ hin
  exact Target.inp.inj h ▸ hin.2

/-- A write step writes a register, or bytes of IN while idle, or nothing (20_memory.md R105 to R112). -/
theorem writeStep_cases (n : Size) (addr : Addr) (v : Word) (s : State) :
    (n = .b4 ∧ s.writeStep n addr v = (s.writeReg addr.toNat v).respond .okWrite) ∨
      (s.busy = false ∧ ∃ i, i < s.cfg.inCap ∧ windowAccessOk n i s.cfg.inCap = true ∧
        s.writeStep n addr v = { s with inMem := windowWrite n i v s.inMem }.respond .okWrite) ∨
      ∃ r, s.writeStep n addr v = s.respond r := by
  unfold State.writeStep
  split
  case h_1 off htgt =>
    split_ifs with hok
    · simp only [regAccessOk, Bool.and_eq_true, beq_iff_eq] at hok
      exact .inl ⟨hok.1, by rw [busTarget_eq_reg htgt]⟩
    · exact .inr (.inr ⟨_, rfl⟩)
  case h_2 i htgt =>
    split_ifs with hok hb
    · exact .inr (.inr ⟨_, rfl⟩)
    · exact .inr (.inl ⟨Bool.eq_false_iff.2 hb, i, busTarget_eq_inp htgt, hok, rfl⟩)
    · exact .inr (.inr ⟨_, rfl⟩)
  case h_3 => exact .inr (.inr ⟨_, rfl⟩)
  case h_4 => exact .inr (.inr ⟨_, rfl⟩)

/-- A register write is a CTRL write, a STATUS write, or changes at most IN_LEN, CODE_SEL and CODE_WSEL, IN_LEN only while
idle (10_state.md R39). -/
theorem writeReg_cases (off : Nat) (v : Word) (s : State) :
    (off = 0x000 ∧
        s.writeReg off v = s.writeCtrl (v.getLsbD 0) (v.extractLsb' 1 2) (v.getLsbD 3) (v.getLsbD 4)) ∨
      (off = 0x004 ∧ s.writeReg off v = s.clearFlags (v.getLsbD 1) (v.getLsbD 2)) ∨
      ∃ l c w, s.writeReg off v = { s with inLen := l, codeSel := c, codeWsel := w } ∧
        (s.busy = true → l = s.inLen) := by
  unfold State.writeReg
  split
  case h_1 => exact .inl ⟨rfl, rfl⟩
  case h_2 => exact .inr (.inl ⟨rfl, rfl⟩)
  case h_3 =>
    split_ifs with hb
    · exact .inr (.inr ⟨s.inLen, s.codeSel, s.codeWsel, rfl, fun _ => rfl⟩)
    · exact .inr (.inr ⟨v, s.codeSel, s.codeWsel, rfl, fun h => absurd h hb⟩)
  case h_4 => exact .inr (.inr ⟨s.inLen, _, s.codeWsel, rfl, fun _ => rfl⟩)
  case h_5 => exact .inr (.inr ⟨s.inLen, s.codeSel, _, rfl, fun _ => rfl⟩)
  case h_6 => exact .inr (.inr ⟨s.inLen, s.codeSel, s.codeWsel, rfl, fun _ => rfl⟩)

end Sys2Proof.Machine
end

section
/-!
SUPPORT. Which instructions are stream fields, by the kind of field (30_encoding.md R144), and which of them the engine can
stand at.
-/

namespace Sys2Proof.Machine

/-- The kind of field that an instruction is (30_encoding.md R145 to R153); a host command is none. -/
def fieldKind : Instr → Option FieldKind
  | .modeByte | .modePair => some .modeFlag
  | .classAbsent | .classF8 none | .classF16 none | .classF32 none => some .sizeClass
  | .classF8 (some _) => some .value8
  | .classF16 (some _) => some .value16
  | .classF32 (some _) => some .value32
  | .pairAbsent | .pairPresent => some .existence
  | .pairSize8 _ | .pairSize16 _ => some .pairSize
  | .codeLeft | .codeRight => some .codeBit
  | .pad _ => some .padding
  | _ => none

/-- A field of a kind decodes to an instruction of that kind. -/
theorem fieldKind_decodeField {k : FieldKind} {bits : Bits} {i : Instr} (h : decodeField k bits = .ok i) :
    fieldKind i = some k := by
  unfold decodeField at h
  split at h
  case h_2 hi lo => cases hi <;> cases lo <;> cases h <;> rfl
  all_goals
    try split_ifs at h
    all_goals cases h
  all_goals rfl

/-- A decoded field, where the decoder is asked for an `Option`. -/
theorem fieldKind_toOption {k : FieldKind} {bits : Bits} {i : Instr} (h : (decodeField k bits).toOption = some i) :
    fieldKind i = some k := by
  cases hd : decodeField k bits with
  | error e => rw [hd] at h; cases h
  | ok j => rw [hd] at h; cases h; exact fieldKind_decodeField hd

theorem fieldKind_classMarker (c : BitVec 2) : fieldKind (classMarker c) = some .sizeClass := by
  unfold classMarker
  split_ifs <;> rfl

/-- The kind of the value field of class c (30_encoding.md R148). -/
theorem fieldKind_classValue (c : BitVec 2) (f : BitVec 32) : fieldKind (classValue c f) = some (valueKind c) := by
  unfold valueKind classValue
  split_ifs <;> rfl

theorem fieldKind_pairValue (f : BitVec 32) : fieldKind (pairValue f) = some .pairSize := by
  unfold pairValue
  split_ifs <;> rfl

/-- The mode whose header has fields of a kind: false is single-byte, true is pair (30_encoding.md R147 to R150). -/
def kindMode : FieldKind → Option Bool
  | .sizeClass | .value8 | .value16 | .value32 => some false
  | .existence | .pairSize => some true
  | .modeFlag | .codeBit | .padding => none

/-- In D_HDR the engine stands at a marker or a value of the run's mode, for a symbol of that mode (43_header.md R286,
R287). -/
theorem nextField_dHdr {s : State} {i : Instr} (hp : s.phase = .dHdr) (hi : s.nextField = some i) :
    s.loop.s.toNat < nsyms s.dp.mode ∧ (fieldKind i).bind kindMode = some s.dp.mode := by
  unfold State.nextField at hi
  simp only [hp] at hi
  split at hi
  · cases hi
  · unfold State.markerField at hi
    split_ifs at hi with hlt hm
    · exact ⟨hlt, by rw [fieldKind_toOption hi, hm]; rfl⟩
    · exact ⟨hlt, by rw [fieldKind_toOption hi, Bool.eq_false_iff.2 hm]; rfl⟩
  · unfold State.valueField at hi
    dsimp only at hi
    split_ifs at hi with hlt hm he hc
    · exact ⟨hlt, by rw [fieldKind_toOption hi, hm]; rfl⟩
    · refine ⟨hlt, ?_⟩
      rw [fieldKind_toOption hi, Bool.eq_false_iff.2 hm]
      unfold valueKind
      split_ifs <;> rfl

/-- The engine stands at stream fields only, never at a host command. -/
theorem nextField_kind {s : State} {i : Instr} (hi : s.nextField = some i) : ∃ k, fieldKind i = some k := by
  by_cases hd : s.phase = .dHdr
  · obtain ⟨k, hk, -⟩ := Option.bind_eq_some_iff.1 (nextField_dHdr hd hi).2
    exact ⟨k, hk⟩
  unfold State.nextField at hi
  split at hi
  case h_1 =>
    split at hi
    · cases hi
      split <;> exact ⟨.modeFlag, rfl⟩
    · split_ifs at hi <;> cases hi
      · exact ⟨.existence, rfl⟩
      · exact ⟨.existence, rfl⟩
      · exact ⟨.sizeClass, fieldKind_classMarker _⟩
    · split_ifs at hi <;> cases hi
      · exact ⟨.pairSize, fieldKind_pairValue _⟩
      · exact ⟨_, fieldKind_classValue _ _⟩
  case h_2 =>
    split at hi <;> cases hi
    exact ⟨.codeBit, by unfold codeBit; split <;> rfl⟩
  case h_3 => cases hi; exact ⟨.padding, rfl⟩
  case h_4 => exact ⟨.modeFlag, fieldKind_toOption hi⟩
  case h_5 h => exact absurd h hd
  case h_6 =>
    unfold State.walkField at hi
    split at hi
    · cases hi; exact ⟨.padding, rfl⟩
    · split at hi
      · split at hi
        · exact ⟨.codeBit, fieldKind_toOption hi⟩
        · cases hi
      · cases hi
      · cases hi
  all_goals cases hi

end Sys2Proof.Machine
end

section
/-!
SUPPORT. The invariant taken apart: what it says of the memories and tables in any state, of a block that is not busy, and of
a run in each phase. The end of a run, reset and the host's accesses are then shown once to keep it (10_state.md R67).
-/

namespace Sys2Proof.Machine

/-! ### The parts of the invariant -/

/-- The clauses of `Inv` that hold in every phase alike: the parameters' ranges and the canonical memories and tables. -/
structure Canonical (s : State) : Prop where
  cfgValid : s.cfg.valid = true
  inMemWf : s.inMem.wf s.cfg.inCap = true
  outMemWf : s.outMem.wf s.cfg.outCap = true
  freqWf : Table.wf 65536 s.freq = true
  freqPresent : ∀ e ∈ s.freq, e.2 ≠ 0
  codeWf : Table.wf 65536 s.code = true
  clsWf : Table.wf 256 s.cls = true
  clsPresent : ∀ e ∈ s.cls, e.2 ≠ 0
  exWf : Table.wf 65536 s.ex = true
  exPresent : ∀ e ∈ s.ex, e.2 ≠ false

/-- What `Inv` says in every busy phase alike. -/
structure Running (s : State) : Prop extends Canonical s where
  status : s.status = { done := false, err := false, trunc := false, runMode := s.status.runMode, errcode := 0 }
  errInfo : s.errInfo = 0
  results : s.res = Results.zero
  reader : s.rd.ok ∧ s.rd.len.toNat ≤ s.cfg.inCap
  writer : s.wr.ok ∧ s.wr.idx.toNat ≤ s.cfg.outCap
  freqByte : s.dp.mode = false → ∀ e ∈ s.freq, e.1 < 256

/-- What `Inv` says of a run that stands in the busy phase `p`. A clause that says nothing of a given `p` is closed by
itself. -/
structure RunAt (p : Phase) (s : State) : Prop extends Running s where
  codes : p.noCodes = true → s.code = [] := by simp [Phase.noCodes]
  headerCount : s.dp.hdrBits.toNat ≤ if p.decompress then 8 * s.rd.len.toNat else s.wr.bits.toNat
  unwritten : p = .cScan ∨ p = .cCheck → s.wr.bits = 0 ∧ s.dp.hdrBits = 0 ∧ s.dp.codedBits = 0 := by simp
  codedCount : p = .cFlush → s.wr.bits.toNat = s.dp.hdrBits.toNat + s.dp.codedBits.toNat := by simp
  aligned : p.decompress = true → s.wr.cnt = 0 := by simp [Phase.decompress]
  buildable : p = .dBuild → s.freq ≠ [] := by simp
  walkable : p = .dWalk → s.tree.full = true ∧ s.loop.cur.full = true := by simp
  built : p = .cCodegen ∨ p = .dWalk → s.tree = buildTree s.dp.mode s.freq := by simp
  discarded : p ≠ .cCodegen → p ≠ .dWalk → s.tree = .empty := by simp
  noNode : p ≠ .dWalk → s.loop.cur = .empty := by simp
  freqPair : p ≠ .cScan → p ≠ .cCheck → s.dp.mode = true → ∀ e ∈ s.freq, e.2.toNat ≤ 65535 := by simp
  freqUnread : p = .dMode → s.freq = [] := by simp

/-- What `Inv` says of a block that is not busy: no tree is kept, and the flags agree with PHASE. -/
structure AtRest (s : State) : Prop extends Canonical s where
  noTree : s.tree = .empty
  noNode : s.loop.cur = .empty
  doneFlag : s.status.done = true → s.phase = .done
  errFlag : s.status.err = true → s.phase = .error
  errcode : s.status.errcode ≠ 0 ↔ s.phase = .error
  errInfo : s.phase ≠ .error → s.errInfo = 0
  truncFlag : s.phase ≠ .done → s.status.trunc = false
  results : s.phase ≠ .done → s.phase ≠ .error → s.res = Results.zero
  errResults : s.phase = .error → s.res = { Results.zero with outLen := s.res.outLen }
  codes : s.phase.noCodes = true → s.code = []

theorem Phase.busy_of_decompress {p : Phase} (h : p.decompress = true) : p.busy = true := by
  revert h
  cases p <;> decide

/-- A block that is not busy meets the invariant when it meets these clauses: the others speak of busy phases. -/
theorem AtRest.inv {s : State} (h : AtRest s) (hb : s.busy = false) : Inv s := by
  have hidle : ¬ s.busy = true := by simp [hb]
  have hne {p : Phase} (hp : p.busy = true) : s.phase ≠ p := fun he => hidle (by rw [State.busy, he, hp])
  exact
    { h with
      reader := fun h' => absurd h' hidle
      writer := fun h' => absurd h' hidle
      headerCount := fun h' => absurd h' hidle
      unwritten := fun h' => (h'.elim (hne rfl) (hne rfl)).elim
      codedCount := fun h' => absurd h' (hne rfl)
      aligned := fun h' => absurd (Phase.busy_of_decompress h') hidle
      buildable := fun h' => absurd h' (hne rfl)
      walkable := fun h' => absurd h' (hne rfl)
      built := fun h' => (h'.elim (hne rfl) (hne rfl)).elim
      discarded := fun _ _ => h.noTree
      noNode := fun _ => h.noNode
      freqByte := fun h' => absurd h' hidle
      freqPair := fun h' => absurd h' hidle
      freqUnread := fun h' => absurd h' (hne rfl) }

/-- The invariant of a busy state, by its phase. -/
theorem Inv.runAt {s : State} {p : Phase} (h : Inv s) (hp : s.phase = p) (hb : p.busy = true) : RunAt p s := by
  subst hp
  exact
    { h with
      status := h.busyStatus hb
      errInfo := h.errInfo (busy_ne_error hb)
      results := h.results (busy_ne_done hb) (busy_ne_error hb)
      reader := h.reader hb
      writer := h.writer hb
      freqByte := h.freqByte hb
      headerCount := h.headerCount hb
      freqPair := h.freqPair hb }

/-- A busy state meets the invariant when it meets the clauses of its phase. -/
theorem RunAt.inv {s : State} {p : Phase} (h : RunAt p s) (hp : s.phase = p) (hb : p.busy = true) : Inv s := by
  subst hp
  exact
    { h with
      doneFlag := fun hd => by rw [h.status] at hd; cases hd
      errFlag := fun he => by rw [h.status] at he; cases he
      errcode := by
        rw [h.status]
        exact ⟨fun hc => absurd rfl hc, fun he => absurd he (busy_ne_error hb)⟩
      errInfo := fun _ => h.errInfo
      truncFlag := fun _ => by rw [h.status]
      results := fun _ _ => h.results
      errResults := fun he => absurd he (busy_ne_error hb)
      reader := fun _ => h.reader
      writer := fun _ => h.writer
      headerCount := fun _ => h.headerCount
      freqByte := fun _ => h.freqByte
      freqPair := fun _ => h.freqPair }

/-! ### The end of a run -/

theorem RunError.code_ne_zero (e : RunError) : e.code ≠ 0 := by cases e <;> decide

/-- A raise from the start values or from a run meets the invariant (60_exceptions.md R410, R413). -/
theorem Canonical.inv_raise {s : State} (h : Canonical s) (hd : s.status.done = false) (hr : s.res = Results.zero)
    (e : RunError) (i : Word) : Inv (s.raise e i) :=
  AtRest.inv
    { h with
      codeWf := rfl
      noTree := rfl
      noNode := rfl
      doneFlag := by simp [hd]
      errFlag := fun _ => rfl
      errcode := ⟨fun _ => rfl, fun _ => e.code_ne_zero⟩
      errInfo := by simp
      truncFlag := fun _ => rfl
      results := by simp
      errResults := by simp [hr]
      codes := fun _ => rfl } rfl

/-- A completion meets the invariant (45_orchestration.md R368). -/
theorem Canonical.inv_complete {s : State} (h : Canonical s) (he : s.status.err = false) (ht : s.tree = .empty)
    (hn : s.loop.cur = .empty) (c : Bool) : Inv (s.complete c) :=
  AtRest.inv
    { h with
      noTree := ht
      noNode := hn
      doneFlag := fun _ => rfl
      errFlag := by simp [he]
      errcode := by simp
      errInfo := fun _ => rfl
      truncFlag := by simp
      results := by simp
      errResults := by simp
      codes := by simp [Phase.noCodes] } rfl

/-! ### Reset -/

/-- A block at its reset values meets the invariant, whatever its capacities and the model's own fields are. -/
theorem inv_of_reset {s : State} (hv : s.cfg.valid = true)
    (h : s = { State.reset with cfg := s.cfg, pending := s.pending, freeCtr := s.freeCtr, memSeed := s.memSeed }) :
    Inv s := by
  rw [h]
  exact AtRest.inv
    { cfgValid := hv
      inMemWf := rfl
      outMemWf := rfl
      freqWf := rfl
      freqPresent := by simp [State.reset]
      codeWf := rfl
      clsWf := rfl
      clsPresent := by simp [State.reset]
      exWf := rfl
      exPresent := by simp [State.reset]
      noTree := rfl
      noNode := rfl
      doneFlag := by simp [State.reset]
      errFlag := by simp [State.reset]
      errcode := by simp [State.reset]
      errInfo := fun _ => rfl
      truncFlag := fun _ => rfl
      results := fun _ _ => rfl
      errResults := fun _ => rfl
      codes := fun _ => rfl } rfl

theorem Config.platform_valid : Config.platform.valid = true := by
  simp [Config.valid, Config.platform]

/-- Settles O55: the reset values are those of `inv_of_reset`, with capacities in range. -/
theorem resetStateMeetsTheInvariant : Obligations.ResetStateMeetsTheInvariant :=
  inv_of_reset Config.platform_valid rfl

theorem Inv.resetEvent {s : State} (h : Inv s) : Inv s.resetEvent :=
  inv_of_reset h.cfgValid rfl

/-! ### The host -/

theorem Inv.newFree {s : State} (h : Inv s) : Inv s.newFree := { h with }

theorem Inv.respond {s : State} (h : Inv s) (r : Response) : Inv (s.respond r) := { h with }

theorem Inv.setPending {s : State} (h : Inv s) (p : List Event) : Inv { s with pending := p } := { h with }

theorem Inv.setCtrl {s : State} (h : Inv s) (c : Ctrl) : Inv { s with ctrl := c } := { h with }

theorem Inv.clearFlags {s : State} (h : Inv s) (d e : Bool) : Inv (s.clearFlags d e) :=
  { h with
    doneFlag := fun hd => h.doneFlag (by simpa using (Bool.and_eq_true_iff.1 hd).1)
    errFlag := fun he => h.errFlag (by simpa using (Bool.and_eq_true_iff.1 he).1) }

/-- The start values of a run are canonical (45_orchestration.md R341). -/
theorem Inv.canonical_initRun {s : State} (h : Inv s) : Canonical s.initRun :=
  { h with
    freqWf := rfl
    freqPresent := by simp
    codeWf := rfl
    clsWf := rfl
    clsPresent := by simp
    exWf := rfl
    exPresent := by simp }

/-- The start values of a run with a legal IN_LEN meet the clauses of the first phase of either command. -/
theorem Inv.runAt_initRun {s : State} (h : Inv s) (hl : s.inLen.toNat ≤ s.cfg.inCap) (p : Phase)
    (hp : p = .cScan ∨ p = .dMode) : RunAt p (s.initRun.enter p) :=
  { h.canonical_initRun with
    status := rfl
    errInfo := rfl
    results := rfl
    reader := ⟨⟨Nat.zero_le _, fun _ => rfl⟩, hl⟩
    writer := ⟨⟨rfl, by simp⟩, Nat.zero_le _⟩
    freqByte := by simp
    codes := fun _ => rfl
    headerCount := Nat.zero_le _
    unwritten := fun _ => ⟨rfl, rfl, rfl⟩
    codedCount := fun _ => rfl
    aligned := fun _ => rfl
    buildable := by rcases hp with rfl | rfl <;> simp
    walkable := by rcases hp with rfl | rfl <;> simp
    built := by rcases hp with rfl | rfl <;> simp
    discarded := fun _ _ => rfl
    noNode := fun _ => rfl
    freqPair := by simp
    freqUnread := fun _ => rfl }

/-- START keeps the invariant, whether the run begins or fails its checks (45_orchestration.md R340). -/
theorem Inv.start {s : State} (h : Inv s) : Inv s.start := by
  unfold State.start State.launch
  split_ifs with hcmd hlen h01
  · exact h.canonical_initRun.inv_raise rfl rfl _ _
  · exact (h.runAt_initRun hlen .cScan (.inl rfl)).inv rfl rfl
  · exact (h.runAt_initRun hlen .dMode (.inr rfl)).inv rfl rfl
  · exact h.canonical_initRun.inv_raise rfl rfl _ _

theorem Inv.writeCtrl {s : State} (h : Inv s) (go : Bool) (cmd : BitVec 2) (mode irqEn : Bool) :
    Inv (s.writeCtrl go cmd mode irqEn) := by
  unfold State.writeCtrl
  split_ifs
  · exact h.setCtrl _
  · exact (h.setCtrl _).start
  · exact h.setCtrl _

/-- A register write keeps the invariant (10_state.md R39). -/
theorem Inv.writeReg {s : State} (h : Inv s) (off : Nat) (v : Word) : Inv (s.writeReg off v) := by
  rcases writeReg_cases off v s with ⟨-, e⟩ | ⟨-, e⟩ | ⟨l, c, w, e, -⟩ <;> rw [e]
  · exact h.writeCtrl _ _ _ _
  · exact h.clearFlags _ _
  · exact { h with }

/-- A window write inside its capacity keeps the buffer canonical (20_memory.md R107). -/
theorem windowWrite_wf {n : Size} {i cap : Nat} {m : Memory} (v : Word) (hi : i < cap)
    (hn : windowAccessOk n i cap = true) (h : m.wf cap = true) : (windowWrite n i v m).wf cap = true := by
  cases n with
  | b1 => exact Memory.wf_write _ hi h
  | b4 =>
    simp only [windowAccessOk, Bool.and_eq_true, decide_eq_true_eq] at hn
    have h3 := hn.2
    exact Memory.wf_write _ h3 (Memory.wf_write _ (by omega) (Memory.wf_write _ (by omega) (Memory.wf_write _ hi h)))

/-- A host write keeps the invariant (20_memory.md R105). -/
theorem Inv.writeStep {s : State} (h : Inv s) (n : Size) (addr : Addr) (v : Word) : Inv (s.writeStep n addr v) := by
  rcases writeStep_cases n addr v s with ⟨-, e⟩ | ⟨-, i, hi, hok, e⟩ | ⟨r, e⟩ <;> rw [e]
  · exact (h.writeReg _ _).respond _
  · have hm : Inv { s with inMem := windowWrite n i v s.inMem } :=
      { h with inMemWf := windowWrite_wf v hi hok h.inMemWf }
    exact hm.respond _
  · exact h.respond _

/-- A host access keeps the invariant. -/
theorem Inv.hostStep {s t : State} (h : Inv s) {x : Txn} (ht : hostStep x s = .next t) : Inv t := by
  cases x with
  | read n addr =>
    rw [hostStep_read] at ht
    cases ht
    exact h.respond _
  | write n addr v =>
    rw [hostStep_write] at ht
    cases ht
    exact (h.writeStep n addr v).newFree

end Sys2Proof.Machine
end

section
/-!
SUPPORT. Every step keeps the invariant: the rules of the reader, the loop position, the tables and the writer during a run,
then each phase's finer step, then each instruction, then the step (10_state.md R67).
-/

namespace Sys2Proof.Machine

/-! ### Rules during a run -/

theorem RunAt.skipN {s : State} {p : Phase} (h : RunAt p s) (k : Nat) : RunAt p (s.skipN k) := by
  obtain ⟨hok, hlen, -⟩ := Reader.readN_keeps s.inByte k h.reader.1
  exact
    { h with
      reader := by rw [State.skipN_rd, hlen]; exact ⟨hok, h.reader.2⟩
      headerCount := by rw [State.skipN_rd, hlen]; exact h.headerCount }

theorem RunAt.rdReset {s : State} {p : Phase} (h : RunAt p s) : RunAt p { s with rd := s.rd.reset } :=
  { h with reader := ⟨⟨Nat.zero_le _, fun _ => rfl⟩, h.reader.2⟩ }

/-- The loop position may move as long as the walk's node stays. -/
theorem RunAt.setLoop {s : State} {p : Phase} (h : RunAt p s) {l : Loop} (hl : l.cur = s.loop.cur) :
    RunAt p { s with loop := l } :=
  { h with
    walkable := by rw [hl]; exact h.walkable
    noNode := by rw [hl]; exact h.noNode }

theorem RunAt.setEmit {s : State} {p : Phase} (h : RunAt p s) (e : Option Bits) :
    RunAt p { s with loop := { s.loop with emit := e } } := h.setLoop rfl

theorem RunAt.toStage {s : State} {p : Phase} (h : RunAt p s) (g : Stage) : RunAt p (s.toStage g) := h.setLoop rfl

theorem RunAt.nextSym {s : State} {p : Phase} (h : RunAt p s) : RunAt p s.nextSym := h.setLoop rfl

/-- A symbol of the run's mode is a key of the tables. -/
theorem lt_of_lt_nsyms {pair : Bool} {k : Nat} (h : k < nsyms pair) : k < 65536 := by
  have hle : nsyms pair ≤ 65536 := by cases pair <;> decide
  exact h.trans_le hle

theorem Table.mem_putD {α : Type} [DecidableEq α] {d v : α} {k : Nat} {t : Table α} {e : Nat × α}
    (h : e ∈ Table.putD d k v t) : e = (k, v) ∨ e ∈ t := by
  unfold Table.putD at h
  split_ifs at h
  · exact .inr (Table.mem_of_mem_del h)
  · exact Table.mem_put h

/-- A run that fills its frequency table sets the entry of a symbol of its mode; after C_SCAN a pair count is at most 65535
(41_frequency.md R230, 43_header.md R286, R287). -/
theorem RunAt.setFreq {s : State} {p : Phase} (h : RunAt p s) (hp : p = .cScan ∨ p = .dHdr) {k : Nat}
    (hk : k < nsyms s.dp.mode) {f : BitVec 32} (hf : p = .dHdr → s.dp.mode = true → f.toNat ≤ 65535) :
    RunAt p { s with freq := Table.putD 0 k f s.freq } :=
  { h with
    freqWf := Table.wf_putD 0 f (lt_of_lt_nsyms hk) h.freqWf
    freqPresent := Table.putD_ne h.freqPresent
    freqByte := fun hm e he => by
      rcases Table.mem_putD he with rfl | he
      · have hm' : s.dp.mode = false := hm
        rw [hm'] at hk
        exact hk
      · exact h.freqByte hm e he
    freqPair := fun h1 h2 hm e he => by
      rcases Table.mem_putD he with rfl | he
      · exact hf (hp.resolve_left h1) hm
      · exact h.freqPair h1 h2 hm e he
    buildable := by rcases hp with rfl | rfl <;> simp
    built := by rcases hp with rfl | rfl <;> simp
    freqUnread := by rcases hp with rfl | rfl <;> simp }

/-! ### Writing -/

/-- Where a line of phase `p` leaves the run: in `p` with its clauses kept, or ended in a state that meets the invariant. -/
def Flow.Keeps (p : Phase) : Flow → Prop
  | .run t => t.phase = p ∧ RunAt p t
  | .ended t => Inv t

/-- The next line of a phase, where the first kept the phase's clauses. -/
theorem Flow.Keeps.andThen {p : Phase} {f : Flow} {k : State → Flow} (h : f.Keeps p)
    (hk : ∀ t, t.phase = p → RunAt p t → Inv (k t).state) : Inv (f.andThen k).state := by
  cases f with
  | run t => exact hk t h.1 h.2
  | ended t => exact h

theorem busy_of_phase {s : State} {p : Phase} (hp : s.phase = p) (hb : p.busy = true) : s.busy = true := by
  simpa [State.busy, hp] using hb

theorem RunAt.canWrite {s : State} {p : Phase} (h : RunAt p s) (hp : s.phase = p) (hb : p.busy = true) : CanWrite s :=
  (h.inv hp hb).canWrite (busy_of_phase hp hb)

/-- A raise after any writing of a run meets the invariant. -/
theorem RunAt.inv_raise {s u : State} {p : Phase} (h : RunAt p s) (hu : Wrote s u)
    (hm : u.outMem.wf s.cfg.outCap = true) (e : RunError) (i : Word) : Inv (u.raise e i) := by
  have hc : Canonical { s with outMem := u.outMem, wr := u.wr } := { h with outMemWf := hm }
  have hd : s.status.done = false := by rw [h.status]
  rw [show u = _ from hu]
  exact hc.inv_raise hd h.results e i

/-- The phases that write fields or decoded symbols. -/
def Phase.writes (p : Phase) : Prop := p = .cHdr ∨ p = .cEmit ∨ p = .dWalk

theorem Phase.writes.busy {p : Phase} (h : p.writes) : p.busy = true := by
  rcases h with rfl | rfl | rfl <;> rfl

theorem Phase.writes.eq_dWalk {p : Phase} (h : p.writes) (hd : p.decompress = true) : p = .dWalk := by
  rcases h with rfl | rfl | rfl
  · cases hd
  · cases hd
  · rfl

/-- Writing bits keeps the clauses of a phase that writes, or ends the run; D_WALK writes whole bytes
(45_orchestration.md R365). -/
theorem RunAt.writeBits {s : State} {p : Phase} (h : RunAt p s) (hp : s.phase = p) (hw : p.writes) (bs : Bits)
    (hl : p = .dWalk → bs.length % 8 = 0) : (writeBits bs s).Keeps p := by
  rcases writeBits_spec bs (h.canWrite hp hw.busy) with
    ⟨-, t, e, wrote, -, can, bits, cnt, -⟩ | ⟨-, t, e, u, wrote, -, -, hm, -, rfl⟩
  · rw [e]
    have hrun : RunAt p { s with outMem := t.outMem, wr := t.wr } :=
      { h with
        outMemWf := by have := can.wf; rwa [wrote] at this
        writer := ⟨can.ok, by have := can.idx; rwa [wrote] at this⟩
        headerCount := h.headerCount.trans (by dsimp only; split_ifs <;> omega)
        unwritten := by rcases hw with rfl | rfl | rfl <;> simp
        codedCount := by rcases hw with rfl | rfl | rfl <;> simp
        aligned := fun hd => by
          have h8 : BitVec.ofNat 3 bs.length = 0 := BitVec.eq_of_toNat_eq (by simpa using hl (hw.eq_dWalk hd))
          show t.wr.cnt = 0
          rw [cnt, h.aligned hd, h8]
          rfl }
    rw [show t = _ from wrote]
    exact ⟨hp, hrun⟩
  · rw [e]
    exact h.inv_raise wrote hm _ _

/-! ### The finer steps of COMPRESS -/

/-- A symbol read from the input is one of the run's mode (41_frequency.md R231). -/
theorem RunAt.peekN_lt {s : State} {p : Phase} (h : RunAt p s) {r : Nat} (hr : s.peekN (symWidth s.dp.mode) = some r) :
    r < nsyms s.dp.mode := by
  have hlt := Reader.readN_lt s.inByte h.reader.1 hr
  cases hm : s.dp.mode <;> rw [hm] at hlt <;> exact hlt

/-- A symbol counted, or FREQ_OVERFLOW (41_frequency.md R230, R233). -/
theorem RunAt.inv_count {s : State} (h : RunAt .cScan s) (hp : s.phase = .cScan) {r : Nat} (hr : r < nsyms s.dp.mode) :
    Inv (s.count r).state := by
  unfold State.count
  dsimp only
  by_cases hfull : (s.freqAt r).toNat = 2 ^ 32 - 1
  · rw [if_pos hfull]
    exact h.inv_raise (Wrote.refl s) h.outMemWf _ _
  · rw [if_neg hfull]
    have hne : s.freqAt r + 1 ≠ 0 := fun h0 => hfull (by bv_omega)
    have hput : Table.put r (s.freqAt r + 1) s.freq = Table.putD 0 r (s.freqAt r + 1) s.freq := (if_neg hne).symm
    have hset := h.setFreq (.inl rfl) hr (f := s.freqAt r + 1) (by simp)
    rw [hput]
    exact RunAt.inv (p := .cScan) { hset with } hp rfl

/-- C_SCAN (45_orchestration.md R350). -/
theorem scanStep_inv {s : State} (hs : Inv s) (hp : s.phase = .cScan) : Inv (scanStep s).state := by
  have h := hs.runAt hp rfl
  have hk := h.skipN (symWidth s.dp.mode)
  have hend : Inv ((s.skipN (symWidth s.dp.mode)).enter .cCheck) := by
    exact RunAt.inv (p := .cCheck)
      { hk.toRunning with
        codes := fun _ => hk.codes rfl
        headerCount := hk.headerCount
        unwritten := fun _ => hk.unwritten (.inl rfl)
        discarded := fun _ _ => hk.discarded (by simp) (by simp)
        noNode := fun _ => rfl } rfl rfl
  unfold scanStep
  split
  case h_1 =>
    have hz : RunAt .cScan { s with rd := s.rd.reset, dp := { s.dp with total := 0, nsym := 0 } } := { h.rdReset with }
    exact (hz.toStage .pass1).inv hp rfl
  all_goals
    split
    · exact hend
    · exact hk.inv_count hp (h.peekN_lt ‹_›)

/-- Where the range check finds no symbol, no count is above 65535 (41_frequency.md R236). -/
theorem overRange_none {freq : Table (BitVec 32)} (h : overRange freq = none) : ∀ e ∈ freq, e.2.toNat ≤ 65535 := by
  simpa [overRange] using h

/-- C_CHECK (45_orchestration.md R352, R353). -/
theorem checkStep_inv {s : State} (hs : Inv s) (hp : s.phase = .cCheck) : Inv (checkStep s).state := by
  have h := hs.runAt hp rfl
  obtain ⟨hb, hh, hc⟩ := h.unwritten (.inr rfl)
  have hgo (hf : s.dp.mode = true → ∀ e ∈ s.freq, e.2.toNat ≤ 65535) :
      Inv (s.enter (if s.dp.total = 0 then .cFlush else .cHdr)) := by
    split_ifs
    · exact RunAt.inv (p := .cFlush)
        { h.toRunning with
          headerCount := h.headerCount
          codedCount := fun _ => by simp [hb, hh, hc]
          discarded := fun _ _ => h.discarded (by simp) (by simp)
          noNode := fun _ => rfl
          freqPair := fun _ _ => hf } rfl rfl
    · exact RunAt.inv (p := .cHdr)
        { h.toRunning with
          codes := fun _ => h.codes rfl
          headerCount := h.headerCount
          discarded := fun _ _ => h.discarded (by simp) (by simp)
          noNode := fun _ => rfl
          freqPair := fun _ _ => hf } rfl rfl
  unfold checkStep State.pairRangeCheck
  split_ifs with hm
  · cases ho : overRange s.freq with
    | none => exact hgo fun _ => overRange_none ho
    | some k => exact h.inv_raise (Wrote.refl s) h.outMemWf _ _
  · exact hgo fun h' => absurd h' hm

/-- C_HDR between fields (45_orchestration.md R351). -/
theorem headerOutStep_inv {s : State} (hs : Inv s) (hp : s.phase = .cHdr) : Inv (headerOutStep s).state := by
  have h := hs.runAt hp rfl
  unfold headerOutStep
  cases s.loop.stage with
  | entry => exact (h.toStage .pass1).inv hp rfl
  | pass1 => exact (h.toStage .pass2).inv hp rfl
  | pass2 =>
    dsimp only
    split_ifs
    · exact h.nextSym.inv hp rfl
    · exact RunAt.inv (p := .cBuild)
        { h.toRunning with
          codes := fun _ => h.codes rfl
          headerCount := le_refl _
          discarded := fun _ _ => h.discarded (by simp) (by simp)
          noNode := fun _ => rfl
          freqPair := fun _ _ => h.freqPair (by simp) (by simp) } rfl rfl

/-- C_BUILD (45_orchestration.md R354). -/
theorem buildOutStep_inv {s : State} (hs : Inv s) (hp : s.phase = .cBuild) : Inv (buildOutStep s).state := by
  have h := hs.runAt hp rfl
  exact RunAt.inv (p := .cCodegen)
    { h.toRunning with
      codes := fun _ => h.codes rfl
      headerCount := h.headerCount
      built := fun _ => rfl
      noNode := fun _ => rfl
      freqPair := fun _ _ => h.freqPair (by simp) (by simp) } rfl rfl

/-- Code generation keeps the code table canonical: a symbol's value is below 65536 (44_codegen.md R320). -/
theorem genCodes_wf (t : Tree) (p : Bits) {code : Table Bits} (h : Table.wf 65536 code = true) :
    Table.wf 65536 (genCodes t p code) = true := by
  induction t generalizing p code with
  | empty => exact h
  | leaf s f => exact Table.wf_put p s.val.isLt h
  | node l r f k ihl ihr => exact ihr _ (ihl _ h)

/-- C_CODEGEN (45_orchestration.md R355). -/
theorem codegenStep_inv {s : State} (hs : Inv s) (hp : s.phase = .cCodegen) : Inv (codegenStep s).state := by
  have h := hs.runAt hp rfl
  exact RunAt.inv (p := .cEmit)
    { h.toRunning with
      codeWf := genCodes_wf _ _ h.codeWf
      headerCount := h.headerCount
      discarded := fun _ _ => rfl
      noNode := fun _ => rfl
      freqPair := fun _ _ => h.freqPair (by simp) (by simp) } rfl rfl

/-- C_EMIT between code bits (45_orchestration.md R356). -/
theorem emitStep_inv {s : State} (hs : Inv s) (hp : s.phase = .cEmit) : Inv (emitStep s).state := by
  have h := hs.runAt hp rfl
  have hk := h.skipN (symWidth s.dp.mode)
  have hend : Inv ({ s.skipN (symWidth s.dp.mode) with
      dp := { s.dp with codedBits := s.wr.bits - s.dp.hdrBits } }.enter .cFlush) := by
    have hle : s.dp.hdrBits.toNat ≤ s.wr.bits.toNat := h.headerCount
    exact RunAt.inv (p := .cFlush)
      { hk.toRunning with
        headerCount := hk.headerCount
        codedCount := fun _ => by
          show s.wr.bits.toNat = s.dp.hdrBits.toNat + (s.wr.bits - s.dp.hdrBits).toNat
          rw [BitVec.toNat_sub_of_le hle]
          omega
        discarded := fun _ _ => hk.discarded (by simp) (by simp)
        noNode := fun _ => rfl
        freqPair := fun _ _ => hk.freqPair (by simp) (by simp) } rfl rfl
  unfold emitStep
  split
  case h_1 => exact (h.rdReset.toStage .pass1).inv hp rfl
  all_goals
    split
    · exact RunAt.inv (p := .cEmit) { h.setEmit none with } hp rfl
    · split
      · exact hend
      · dsimp only
        split
        · exact (hk.setEmit _).inv hp rfl
        · exact hk.inv hp rfl

/-- finish() and the completion, or OUT_OVERFLOW (45_orchestration.md R357, R366, R368). -/
theorem flushAndComplete_inv {s : State} {p : Phase} (hs : Inv s) (hp : s.phase = p) (hf : p = .cFlush ∨ p = .dFlush)
    (c : Bool) : Inv (flushAndComplete c s).state := by
  have hb : p.busy = true := by rcases hf with rfl | rfl <;> rfl
  have h := hs.runAt hp hb
  have ht : s.tree = .empty := h.discarded (by rcases hf with rfl | rfl <;> simp) (by rcases hf with rfl | rfl <;> simp)
  have hn : s.loop.cur = .empty := h.noNode (by rcases hf with rfl | rfl <;> simp)
  unfold flushAndComplete
  rcases finish_spec (h.canWrite hp hb) with ⟨t, e, wrote, -, hm, -⟩ | ⟨e, -⟩
  · have hc : Canonical { s with outMem := t.outMem, wr := t.wr } := { h with outMemWf := hm }
    rw [e, Flow.andThen_run, Flow.state_run, show t = _ from wrote]
    exact hc.inv_complete (by rw [h.status]) ht hn c
  · rw [e]
    exact h.inv_raise (Wrote.refl s) h.outMemWf _ _

/-! ### The finer steps of DECOMPRESS -/

/-- D_HDR between fields and at its end (45_orchestration.md R359, R360). -/
theorem headerInStep_inv {s : State} (hs : Inv s) (hp : s.phase = .dHdr) : Inv (headerInStep s).state := by
  have h := hs.runAt hp rfl
  have hcount : (BitVec.ofNat 32 s.rd.pos).toNat ≤ 8 * s.rd.len.toNat := by
    rw [BitVec.toNat_ofNat]
    exact (Nat.mod_le _ _).trans (Reader.pos_le h.reader.1)
  unfold headerInStep
  split
  · exact (h.toStage .pass1).inv hp rfl
  · exact (h.toStage .pass2).inv hp rfl
  · split_ifs with hlt
    · exact (h.setFreq (.inr rfl) hlt (by simp)).nextSym.inv hp rfl
    · dsimp only [Flow.state_run]
      split_ifs with h0
      · exact RunAt.inv (p := .dFlush)
          { h.toRunning with
            codes := fun _ => h.codes rfl
            headerCount := hcount
            aligned := fun _ => h.aligned rfl
            discarded := fun _ _ => h.discarded (by simp) (by simp)
            noNode := fun _ => rfl
            freqPair := fun _ _ => h.freqPair (by simp) (by simp) } rfl rfl
      · exact RunAt.inv (p := .dBuild)
          { h.toRunning with
            codes := fun _ => h.codes rfl
            headerCount := hcount
            aligned := fun _ => h.aligned rfl
            buildable := fun _ hnil => h0 (by rw [show s.freq = [] from hnil]; rfl)
            discarded := fun _ _ => h.discarded (by simp) (by simp)
            noNode := fun _ => rfl
            freqPair := fun _ _ => h.freqPair (by simp) (by simp) } rfl rfl

/-- A table that lists present symbols has a leaf (42_tree.md R250). -/
theorem leaves_ne_nil (pair : Bool) {freq : Table (BitVec 32)} (hn : freq ≠ []) (hp : ∀ e ∈ freq, e.2 ≠ 0) :
    leaves pair freq ≠ [] := by
  obtain ⟨e, he⟩ := List.exists_mem_of_ne_nil freq hn
  exact List.ne_nil_of_mem (List.mem_map_of_mem (List.mem_filter.2 ⟨he, bne_iff_ne.2 (hp e he)⟩))

/-- D_BUILD (45_orchestration.md R367). -/
theorem buildInStep_inv {s : State} (hs : Inv s) (hp : s.phase = .dBuild) : Inv (buildInStep s).state := by
  have h := hs.runAt hp rfl
  have hfull : (buildTree s.dp.mode s.freq).full = true :=
    buildTree_full _ (leaves_ne_nil _ (h.buildable rfl) h.freqPresent)
  unfold buildInStep
  exact RunAt.inv (p := .dWalk)
    { h.toRunning with
      codes := fun _ => h.codes rfl
      headerCount := h.headerCount
      aligned := fun _ => h.aligned rfl
      walkable := fun _ => ⟨hfull, hfull⟩
      built := fun _ => rfl
      freqPair := fun _ _ => h.freqPair (by simp) (by simp) } rfl rfl

/-- D_WALK leaves to D_FLUSH with the tree discarded (45_orchestration.md R361, R364). -/
theorem RunAt.inv_leaveWalk {s : State} (h : RunAt .dWalk s) : Inv (s.discardTree.enter .dFlush) := by
  exact RunAt.inv (p := .dFlush)
    { h.toRunning with
      codes := fun _ => h.codes rfl
      headerCount := h.headerCount
      aligned := fun _ => h.aligned rfl
      discarded := fun _ _ => rfl
      noNode := fun _ => rfl
      freqPair := fun _ _ => h.freqPair (by simp) (by simp) } rfl rfl

/-- D_WALK at a leaf or at the end of the stream (45_orchestration.md R363 to R365). -/
theorem walkStep_inv {s t : State} (hs : Inv s) (hp : s.phase = .dWalk) (ht : walkStep s = .next t) : Inv t := by
  have h := hs.runAt hp rfl
  unfold walkStep at ht
  split at ht
  · cases ht
    rw [writeN_eq]
    refine (h.writeBits hp (.inr (.inr rfl)) _ ?_).andThen fun u hu hr => ?_
    · intro _
      rw [bitsOf_length]
      cases s.dp.mode <;> rfl
    · have hw := hr.walkable rfl
      have hr' : RunAt .dWalk { u with
          dp := { u.dp with doneSyms := u.dp.doneSyms + 1 }
          loop := { u.loop with cur := u.tree } } :=
        { hr with walkable := fun _ => ⟨hw.1, hw.1⟩, noNode := by simp }
      exact hr'.inv hu rfl
  · cases ht
    exact RunAt.inv_leaveWalk { h with }
  · cases ht

/-- The engine's steps between fields keep the invariant. -/
theorem Inv.internalStep {s t : State} (h : Inv s) (ht : internalStep s = .next t) : Inv t := by
  unfold Machine.internalStep at ht
  split at ht <;> rename_i hp
  · cases ht; exact scanStep_inv h hp
  · cases ht; exact checkStep_inv h hp
  · cases ht; exact headerOutStep_inv h hp
  · cases ht; exact buildOutStep_inv h hp
  · cases ht; exact codegenStep_inv h hp
  · cases ht; exact emitStep_inv h hp
  · cases ht; exact headerInStep_inv h hp
  · cases ht; exact buildInStep_inv h hp
  · exact walkStep_inv h hp ht
  · cases ht; exact flushAndComplete_inv h hp (.inr rfl) _
  all_goals cases ht; exact h

/-! ### The stream fields -/

/-- The mode flag, written in C_HDR or read in D_MODE (45_orchestration.md R351, R358). -/
theorem modeField_inv {s t : State} (hs : Inv s) {pair : Bool} {i : Instr} (ht : modeField pair i s = .next t) : Inv t := by
  unfold modeField at ht
  split at ht <;> rename_i hp
  · have h := hs.runAt hp rfl
    cases ht
    exact (h.writeBits hp (.inl rfl) _ (by simp)).andThen fun u hu hr => (hr.toStage .pass1).inv hu rfl
  · have h := hs.runAt hp rfl
    have hk := h.skipN 1
    have hf : s.freq = [] := h.freqUnread rfl
    cases ht
    exact RunAt.inv (p := .dHdr)
      { hk.toRunning with
        status := by
          rw [State.enter_status]
          dsimp only
          rw [h.status]
        freqByte := by simp [hf]
        codes := fun _ => hk.codes rfl
        headerCount := hk.headerCount
        aligned := fun _ => hk.aligned rfl
        discarded := fun _ _ => hk.discarded (by simp) (by simp)
        noNode := fun _ => rfl
        freqPair := by simp [hf] } rfl rfl
  · cases ht

/-- A field that has a meaning stands where the engine does. -/
theorem atField_eq_next {i : Instr} {s t : State} {k : Host.Outcome State Fault Refusal} (h : atField i s k = .next t) :
    s.nextField = some i ∧ k = .next t := by
  unfold atField at h
  split_ifs at h with hi
  exact ⟨hi, h⟩

/-- A header field, written in C_HDR or read in D_HDR; `hd` says that reading it keeps the clauses of D_HDR. -/
theorem headerField_inv {s t : State} (hs : Inv s) {i : Instr} {d : State → State}
    (ht : atField i s (headerField i d s) = .next t) (hph : (d s).phase = s.phase)
    (hd : RunAt .dHdr s → (fieldKind i).bind kindMode = some s.dp.mode → s.loop.s.toNat < nsyms s.dp.mode →
      RunAt .dHdr (d s)) :
    Inv t := by
  obtain ⟨hi, ht⟩ := atField_eq_next ht
  unfold headerField at ht
  split at ht <;> rename_i hp
  · cases ht
    exact ((hs.runAt hp rfl).writeBits hp (.inl rfl) _ (by simp)).andThen fun u hu hr => hr.nextSym.inv hu rfl
  · obtain ⟨hlt, hm⟩ := nextField_dHdr hp hi
    cases ht
    exact (hd (hs.runAt hp rfl) hm hlt).nextSym.inv (hph.trans hp) rfl
  · cases ht

/-- Reading a size class of a byte-mode header (43_header.md R286). -/
theorem RunAt.decodeClass {s : State} (h : RunAt .dHdr s) (hm : some false = some s.dp.mode)
    (hlt : s.loop.s.toNat < nsyms s.dp.mode) (c : BitVec 2) : RunAt .dHdr (s.decodeClass c) :=
  { h.skipN 2 with
    clsWf := Table.wf_putD 0 c (by rw [← Option.some.inj hm] at hlt; exact hlt) h.clsWf
    clsPresent := Table.putD_ne h.clsPresent }

/-- Reading an existence bit (43_header.md R287). -/
theorem RunAt.decodeExistence {s : State} (h : RunAt .dHdr s) (hlt : s.loop.s.toNat < nsyms s.dp.mode) (e : Bool) :
    RunAt .dHdr (s.decodeExistence e) :=
  { h.skipN 1 with
    exWf := Table.wf_putD false e (lt_of_lt_nsyms hlt) h.exWf
    exPresent := Table.putD_ne h.exPresent }

/-- Reading a value (43_header.md R286, R287). -/
theorem RunAt.decodeFreq {s : State} (h : RunAt .dHdr s) (hlt : s.loop.s.toNat < nsyms s.dp.mode) (width : Nat)
    {f : BitVec 32} (hf : s.dp.mode = true → f.toNat ≤ 65535) : RunAt .dHdr (s.decodeFreq width f) :=
  (h.skipN width).setFreq (.inr rfl) hlt fun _ => hf

theorem Tree.full_child {t : Tree} (h : t.full = true) (b : Bool) : (t.child b).full = true := by
  cases t with
  | empty => exact h
  | leaf s f => exact h
  | node l r f k =>
    simp only [Tree.full, Bool.and_eq_true] at h
    cases b
    · exact h.1
    · exact h.2

/-- A code bit, written in C_EMIT or walked in D_WALK (45_orchestration.md R356, R362). -/
theorem codeField_inv {s t : State} (hs : Inv s) {b : Bool} {i : Instr} (ht : codeField b i s = .next t) : Inv t := by
  unfold codeField at ht
  split at ht <;> rename_i hp
  · cases ht
    exact ((hs.runAt hp rfl).writeBits hp (.inr (.inl rfl)) _ (by simp)).andThen fun u hu hr => (hr.setEmit _).inv hu rfl
  · have hk := (hs.runAt hp rfl).skipN 1
    have hw := hk.walkable rfl
    cases ht
    exact RunAt.inv (p := .dWalk)
      { hk with
        unwritten := by simp
        codedCount := by simp
        walkable := fun _ => ⟨hw.1, Tree.full_child hw.2 b⟩
        noNode := by simp } hp rfl
  · cases ht

/-- The padding (45_orchestration.md R357, R361). -/
theorem padField_inv {s t : State} (hs : Inv s) (ht : padField s = .next t) : Inv t := by
  unfold padField at ht
  split at ht <;> rename_i hp
  · cases ht; exact flushAndComplete_inv hs hp (.inl rfl) _
  · cases ht; exact (hs.runAt hp rfl).inv_leaveWalk
  · cases ht

/-- Every instruction keeps the invariant wherever it has a meaning. -/
theorem Inv.exec {s t : State} (h : Inv s) {i : Instr} (ht : exec i s = .next t) : Inv t := by
  cases i with
  | cfg cmd mode irqEn => cases ht; exact (h.writeCtrl ..).respond _
  | compress mode irqEn => cases ht; exact (h.writeCtrl ..).respond _
  | decompress mode irqEn => cases ht; exact (h.writeCtrl ..).respond _
  | badCmd00 mode irqEn => cases ht; exact (h.writeCtrl ..).respond _
  | badCmd11 mode irqEn => cases ht; exact (h.writeCtrl ..).respond _
  | statusW1c doneClr errClr => cases ht; exact (h.clearFlags ..).respond _
  | wr32 addr data => cases ht; exact h.writeStep ..
  | wr8 addr data => cases ht; exact h.writeStep ..
  | rd32 addr => cases ht; exact h.respond _
  | rd8 addr => cases ht; exact h.respond _
  | modeByte => exact modeField_inv h (atField_eq_next ht).2
  | modePair => exact modeField_inv h (atField_eq_next ht).2
  | classAbsent => exact headerField_inv h ht rfl fun hr hm hlt => hr.decodeClass hm hlt _
  | classF8 value =>
    cases value with
    | none => exact headerField_inv h ht rfl fun hr hm hlt => hr.decodeClass hm hlt _
    | some v =>
      refine headerField_inv h ht rfl fun hr hm hlt => hr.decodeFreq hlt _ ?_
      simp [← Option.some.inj hm]
  | classF16 value =>
    cases value with
    | none => exact headerField_inv h ht rfl fun hr hm hlt => hr.decodeClass hm hlt _
    | some v =>
      refine headerField_inv h ht rfl fun hr hm hlt => hr.decodeFreq hlt _ ?_
      simp [← Option.some.inj hm]
  | classF32 value =>
    cases value with
    | none => exact headerField_inv h ht rfl fun hr hm hlt => hr.decodeClass hm hlt _
    | some v =>
      refine headerField_inv h ht rfl fun hr hm hlt => hr.decodeFreq hlt _ ?_
      simp [← Option.some.inj hm]
  | pairAbsent => exact headerField_inv h ht rfl fun hr _ hlt => hr.decodeExistence hlt _
  | pairPresent => exact headerField_inv h ht rfl fun hr _ hlt => hr.decodeExistence hlt _
  | pairSize8 value =>
    refine headerField_inv h ht rfl fun hr _ hlt => (hr.skipN 1).decodeFreq hlt _ fun _ => ?_
    have := value.isLt
    simp; omega
  | pairSize16 value =>
    refine headerField_inv h ht rfl fun hr _ hlt => (hr.skipN 1).decodeFreq hlt _ fun _ => ?_
    have := value.isLt
    simp; omega
  | codeLeft => exact codeField_inv h (atField_eq_next ht).2
  | codeRight => exact codeField_inv h (atField_eq_next ht).2
  | pad n => exact padField_inv h (atField_eq_next ht).2

/-! ### The step -/

/-- A finer step keeps the invariant. -/
theorem Inv.fineStep {s t : State} (h : Inv s) (ht : fineStep s = .next t) : Inv t := by
  cases hb : s.busy with
  | false => rw [fineStep_idle hb] at ht; cases ht; exact h
  | true =>
    cases hi : s.nextField with
    | some i => exact h.exec ((fineStep_field hb hi).symm.trans ht)
    | none => exact h.internalStep ((fineStep_internal hb hi).symm.trans ht)

/-- Finer steps until PHASE changes keep the invariant. -/
theorem Inv.runPhase {s t : State} (h : Inv s) {n : Nat} (ht : runPhase n s = .next t) : Inv t := by
  induction n generalizing s with
  | zero => cases ht; exact h
  | succ n ih =>
    simp only [Machine.runPhase] at ht
    split at ht
    case h_1 u hu =>
      split_ifs at ht
      · exact ih (h.fineStep hu) ht
      · cases ht; exact h.fineStep hu
    all_goals cases ht

/-- An engine step, or the wait of an idle block, keeps the invariant. -/
theorem Inv.engineOrWait {s t : State} (h : Inv s) (ht : (if s.busy then engineStep s else .next s) = .next t) : Inv t := by
  split_ifs at ht
  · exact h.runPhase ht
  · cases ht; exact h

/-- An event keeps the invariant. -/
theorem Inv.eventStep {s t : State} (h : Inv s) {e : Event} (ht : eventStep e s = .next t) : Inv t := by
  cases e with
  | host x => exact h.hostStep ht
  | engine =>
    obtain ⟨u, hu, rfl⟩ := mapNext_eq_next.1 ht
    exact (h.engineOrWait hu).newFree
  | fine =>
    obtain ⟨u, hu, rfl⟩ := mapNext_eq_next.1 ht
    exact (h.fineStep hu).newFree
  | reset => cases ht; exact h.resetEvent.newFree

/-- The quiet step keeps the invariant. -/
theorem Inv.quietStep {s t : State} (h : Inv s) (ht : quietStep s = .next t) : Inv t := by
  unfold Machine.quietStep at ht
  split_ifs at ht
  · obtain ⟨u, hu, rfl⟩ := mapNext_eq_next.1 ht
    exact Inv.newFree (h.runPhase hu)
  · cases ht; exact h

/-- Settles O56: an event and the quiet step each keep the invariant. -/
theorem everyStepKeepsTheInvariant : Obligations.EveryStepKeepsTheInvariant := by
  intro s t h ht
  cases hp : s.pending with
  | nil => exact h.quietStep ((step_quiet hp).symm.trans ht)
  | cons e rest => exact (h.setPending rest).eventStep ((step_event hp).symm.trans ht)

end Sys2Proof.Machine
end

section
/-!
SUPPORT. The engine does not see what the host may write while busy: every finer step commutes with a change of IRQ_EN,
CODE_SEL, CODE_WSEL and the port (10_state.md R42, R44; 60_exceptions.md R442).
-/

namespace Sys2Proof.Machine

/-- `s` with the fields that a host access may change during a run taken from `u`. -/
def State.withHost (u s : State) : State :=
  { s with ctrl := u.ctrl, codeSel := u.codeSel, codeWsel := u.codeWsel, resp := u.resp, freeCtr := u.freeCtr }

/-- A flow with its state changed. -/
def Flow.map (g : State → State) : Flow → Flow
  | .run s => .run (g s)
  | .ended s => .ended (g s)

/-- A line of pseudocode that does what it does whatever the host's fields hold, and keeps them. -/
def HostBlind (k : State → Flow) : Prop :=
  ∀ u s : State, k (u.withHost s) = (k s).map u.withHost

/-- A choice on what is no field of the host: both sides make the same one. -/
theorem ite_eq_map {α : Type} {c : Prop} {i j : Decidable c} {g : α → α} {x y x' y' : α} (hx : x' = g x)
    (hy : y' = g y) : @ite _ c i x' y' = g (@ite _ c j x y) := by
  by_cases hc : c
  · rw [if_pos hc, if_pos hc, hx]
  · rw [if_neg hc, if_neg hc, hy]

/-- Two lines in order. -/
theorem Flow.map_andThen {f f' : Flow} {k k' : State → Flow} {g : State → State} (hf : f' = f.map g)
    (hk : ∀ t, k' (g t) = (k t).map g) : f'.andThen k' = (f.andThen k).map g := by
  rw [hf]
  cases f with
  | run t => exact hk t
  | ended t => rfl

theorem HostBlind.andThen {f k : State → Flow} (hf : HostBlind f) (hk : HostBlind k) :
    HostBlind fun s => (f s).andThen k := by
  exact fun u s => Flow.map_andThen (hf u s) (hk u)

/-! ### What the engine reads is no field of the host -/

section
variable (u s : State)

@[simp] theorem State.withHost_phase : (u.withHost s).phase = s.phase := rfl
@[simp] theorem State.withHost_dp : (u.withHost s).dp = s.dp := rfl
@[simp] theorem State.withHost_loop : (u.withHost s).loop = s.loop := rfl
@[simp] theorem State.withHost_freq : (u.withHost s).freq = s.freq := rfl
@[simp] theorem State.withHost_code : (u.withHost s).code = s.code := rfl
@[simp] theorem State.withHost_peekN (k : Nat) : (u.withHost s).peekN k = s.peekN k := rfl

end

/-! ### The writer -/

theorem flush_blind (x : Byte) : HostBlind (flush x) := fun _ _ =>
  ite_eq_map rfl rfl

theorem writeBit_blind (b : Bool) : HostBlind (writeBit b) := fun u s =>
  ite_eq_map (Flow.map_andThen (flush_blind _ u s) fun _ => rfl) rfl

theorem writeBits_blind (bs : Bits) : HostBlind (writeBits bs) := by
  induction bs with
  | nil => exact fun _ _ => rfl
  | cons b bs ih => exact (writeBit_blind b).andThen ih

theorem writeN_blind (n v : Nat) : HostBlind (writeN n v) := fun u s => by
  rw [writeN_eq, writeN_eq]
  exact writeBits_blind _ u s

theorem finish_blind : HostBlind finish := fun u s =>
  ite_eq_map rfl (Flow.map_andThen (flush_blind _ u s) fun _ => rfl)

theorem flushAndComplete_blind (c : Bool) : HostBlind (flushAndComplete c) :=
  finish_blind.andThen fun _ _ => rfl

/-! ### The engine between fields -/

theorem count_blind (r : Nat) : HostBlind (State.count r) := fun _ _ =>
  ite_eq_map rfl rfl

theorem scanStep_blind : HostBlind scanStep := fun u s => by
  simp only [scanStep, State.withHost_loop, State.withHost_dp, State.withHost_peekN]
  cases s.loop.stage
  · rfl
  all_goals
    cases s.peekN (symWidth s.dp.mode)
    · rfl
    · exact count_blind _ u (s.skipN _)

theorem checkStep_blind : HostBlind checkStep := by
  have hr : HostBlind State.pairRangeCheck := fun u s => by
    refine ite_eq_map ?_ rfl
    rw [State.withHost_freq]
    cases overRange s.freq <;> rfl
  exact hr.andThen fun _ _ => rfl

theorem headerOutStep_blind : HostBlind headerOutStep := fun u s => by
  simp only [headerOutStep, State.withHost_loop, State.withHost_dp]
  cases s.loop.stage
  · rfl
  · rfl
  · exact ite_eq_map rfl rfl

theorem emitStep_blind : HostBlind emitStep := fun u s => by
  simp only [emitStep, State.withHost_loop, State.withHost_dp, State.withHost_peekN, State.withHost_code]
  cases s.loop.stage
  · rfl
  all_goals
    cases s.loop.emit
    · cases s.peekN (symWidth s.dp.mode) with
      | none => rfl
      | some r => cases h : Table.look r s.code <;> simp only [h] <;> rfl
    · rfl

theorem headerInStep_blind : HostBlind headerInStep := fun u s => by
  simp only [headerInStep, State.withHost_loop, State.withHost_dp]
  cases s.loop.stage
  · rfl
  · rfl
  · exact ite_eq_map rfl rfl

/-! ### The finer step -/

/-- Changing the host's fields after a flow's step. -/
theorem HostBlind.outcome {k : State → Flow} (h : HostBlind k) (u s : State) :
    (k (u.withHost s)).outcome = mapNext u.withHost (k s).outcome := by
  rw [h u s]
  cases k s <;> rfl

theorem walkStep_blind (u s : State) : walkStep (u.withHost s) = mapNext u.withHost (walkStep s) := by
  simp only [walkStep, State.withHost_loop, State.withHost_dp]
  cases s.loop.cur with
  | empty => rfl
  | node l r f k => rfl
  | leaf sym f => exact ((writeN_blind _ _).andThen fun _ _ => rfl).outcome u s

theorem internalStep_blind (u s : State) : internalStep (u.withHost s) = mapNext u.withHost (internalStep s) := by
  simp only [internalStep, State.withHost_phase]
  cases s.phase
  case cScan => exact scanStep_blind.outcome u s
  case cCheck => exact checkStep_blind.outcome u s
  case cHdr => exact headerOutStep_blind.outcome u s
  case cEmit => exact emitStep_blind.outcome u s
  case dHdr => exact headerInStep_blind.outcome u s
  case dWalk => exact walkStep_blind u s
  case dFlush => exact (flushAndComplete_blind false).outcome u s
  all_goals rfl

theorem atField_blind (i : Instr) (u s : State) {o o' : Host.Outcome State Fault Refusal}
    (h : o' = mapNext u.withHost o) : atField i (u.withHost s) o' = mapNext u.withHost (atField i s o) :=
  ite_eq_map h rfl

theorem modeField_blind (pair : Bool) (i : Instr) (u s : State) :
    modeField pair i (u.withHost s) = mapNext u.withHost (modeField pair i s) := by
  simp only [modeField, State.withHost_phase]
  cases s.phase
  case cHdr => exact ((writeBits_blind _).andThen fun _ _ => rfl).outcome u s
  all_goals rfl

theorem headerField_blind (i : Instr) {d : State → State} (hd : ∀ u s : State, d (u.withHost s) = u.withHost (d s))
    (u s : State) : headerField i d (u.withHost s) = mapNext u.withHost (headerField i d s) := by
  simp only [headerField, State.withHost_phase, hd]
  cases s.phase
  case cHdr => exact ((writeBits_blind _).andThen fun _ _ => rfl).outcome u s
  all_goals rfl

theorem codeField_blind (b : Bool) (i : Instr) (u s : State) :
    codeField b i (u.withHost s) = mapNext u.withHost (codeField b i s) := by
  simp only [codeField, State.withHost_phase]
  cases s.phase
  case cEmit => exact ((writeBits_blind _).andThen fun _ _ => rfl).outcome u s
  all_goals rfl

theorem padField_blind (u s : State) : padField (u.withHost s) = mapNext u.withHost (padField s) := by
  simp only [padField, State.withHost_phase]
  cases s.phase
  case cFlush => exact (flushAndComplete_blind true).outcome u s
  all_goals rfl

/-- A stream field does what it does whatever the host's fields hold. -/
theorem exec_blind {i : Instr} {k : FieldKind} (hi : fieldKind i = some k) (u s : State) :
    exec i (u.withHost s) = mapNext u.withHost (exec i s) := by
  cases i with
  | modeByte => exact atField_blind _ u s (modeField_blind _ _ u s)
  | modePair => exact atField_blind _ u s (modeField_blind _ _ u s)
  | classAbsent => exact atField_blind _ u s (headerField_blind _ (fun _ _ => rfl) u s)
  | classF8 value => cases value <;> exact atField_blind _ u s (headerField_blind _ (fun _ _ => rfl) u s)
  | classF16 value => cases value <;> exact atField_blind _ u s (headerField_blind _ (fun _ _ => rfl) u s)
  | classF32 value => cases value <;> exact atField_blind _ u s (headerField_blind _ (fun _ _ => rfl) u s)
  | pairAbsent => exact atField_blind _ u s (headerField_blind _ (fun _ _ => rfl) u s)
  | pairPresent => exact atField_blind _ u s (headerField_blind _ (fun _ _ => rfl) u s)
  | pairSize8 value => exact atField_blind _ u s (headerField_blind _ (fun _ _ => rfl) u s)
  | pairSize16 value => exact atField_blind _ u s (headerField_blind _ (fun _ _ => rfl) u s)
  | codeLeft => exact atField_blind _ u s (codeField_blind _ _ u s)
  | codeRight => exact atField_blind _ u s (codeField_blind _ _ u s)
  | pad n => exact atField_blind _ u s (padField_blind u s)
  | _ => cases hi

theorem fineStep_blind (u s : State) : fineStep (u.withHost s) = mapNext u.withHost (fineStep s) := by
  cases hb : s.busy with
  | false => rw [fineStep_idle hb, fineStep_idle (by exact hb)]; rfl
  | true =>
    cases hi : s.nextField with
    | some i =>
      obtain ⟨k, hk⟩ := nextField_kind hi
      rw [fineStep_field hb hi, fineStep_field (by exact hb) (by exact hi), exec_blind hk]
    | none => rw [fineStep_internal hb hi, fineStep_internal (by exact hb) (by exact hi), internalStep_blind]

theorem runPhase_blind (n : Nat) (u s : State) : runPhase n (u.withHost s) = mapNext u.withHost (runPhase n s) := by
  induction n generalizing s with
  | zero => rfl
  | succ n ih =>
    simp only [runPhase, fineStep_blind, State.withHost_phase]
    cases fineStep s with
    | next t => exact ite_eq_map (ih t) rfl
    | fault f => rfl
    | refused r => rfl

/-- The engine step does what it does whatever the host's fields hold. -/
theorem engineStep_blind (u s : State) : engineStep (u.withHost s) = mapNext u.withHost (engineStep s) :=
  runPhase_blind _ u s

/-! ### What the host may do while busy -/

/-- A host access while busy changes IRQ_EN, CODE_SEL, CODE_WSEL and the port only (10_state.md R42, R44; 20_memory.md
R108). -/
def Undisturbed (s u : State) : Prop :=
  u = { u.withHost s with ctrl := { s.ctrl with irqEn := u.ctrl.irqEn } }

theorem Undisturbed.refl (s : State) : Undisturbed s s := rfl

theorem Undisturbed.respond_newFree {s u : State} (h : Undisturbed s u) (r : Response) :
    Undisturbed s (u.respond r).newFree := by
  have hr := congrArg (fun t : State => (t.respond r).newFree) h
  exact hr

theorem Undisturbed.eq_withHost {s u : State} (h : Undisturbed s u) : u = u.withHost s := by
  have hc : u.ctrl = { s.ctrl with irqEn := u.ctrl.irqEn } := congrArg State.ctrl h
  unfold State.withHost
  rw [hc]
  exact h

/-- While busy STATUS has no flag to clear (10_state.md R48). -/
theorem Inv.clearFlags_busy {s : State} (h : Inv s) (hb : s.busy = true) (d e : Bool) : s.clearFlags d e = s := by
  have hst : { s.status with done := s.status.done && !d, err := s.status.err && !e } = s.status := by
    rw [h.busyStatus hb]
    rfl
  unfold State.clearFlags
  rw [hst]

/-- A register write while busy stores IRQ_EN, CODE_SEL or CODE_WSEL or nothing (10_state.md R42, R46, R51, R55, R57). -/
theorem Inv.writeReg_undisturbed {s : State} (h : Inv s) (hb : s.busy = true) (off : Nat) (v : Word) :
    Undisturbed s (s.writeReg off v) := by
  rcases writeReg_cases off v s with ⟨-, e⟩ | ⟨-, e⟩ | ⟨l, c, w, e, hl⟩ <;> rw [e]
  · rw [State.writeCtrl, if_pos hb]; rfl
  · rw [h.clearFlags_busy hb]; exact Undisturbed.refl s
  · rw [hl hb]; rfl

theorem Inv.hostStep_undisturbed {s u : State} (h : Inv s) (hb : s.busy = true) {x : Txn}
    (hu : Machine.hostStep x s = .next u) : Undisturbed s u := by
  cases x with
  | read n addr => rw [hostStep_read] at hu; cases hu; rfl
  | write n addr v =>
    rw [hostStep_write] at hu
    cases hu
    rcases writeStep_cases n addr v s with ⟨-, e⟩ | ⟨hi, -⟩ | ⟨r, e⟩
    · rw [e]; exact (h.writeReg_undisturbed hb _ v).respond_newFree _
    · rw [hb] at hi; cases hi
    · rw [e]; exact (Undisturbed.refl s).respond_newFree r

/-- Settles O52: a host access while busy changes the host's fields only, and the engine step commutes with that. -/
theorem hostCannotDisturbARun : Obligations.HostCannotDisturbARun := by
  intro s u v x h hb hu hv
  have hun : Undisturbed s u := h.hostStep_undisturbed hb hu
  refine ⟨hun, ?_⟩
  rw [hun.eq_withHost, engineStep_blind, hv]
  rfl

end Sys2Proof.Machine
end

section
/-!
SUPPORT. The register map: what each register's write leaves and what its read returns (10_state.md R39 to R59).
-/

namespace Sys2Proof.Machine

/-! ### Writes -/

/-- A register write by its row (20_memory.md R112). -/
theorem exec_wr32_reg {addr : Addr} (v : Word) (s : State) (h : addr.toNat < 0x1000) (h4 : addr.toNat % 4 = 0) :
    exec (.wr32 addr v) s = .next ((s.writeReg addr.toNat v).answered true 0) :=
  congrArg Host.Outcome.next (writes_register v h h4)

theorem State.writeCtrl_busy {s : State} (hb : s.busy = true) (go : Bool) (cmd : BitVec 2) (mode irqEn : Bool) :
    s.writeCtrl go cmd mode irqEn = { s with ctrl := { s.ctrl with irqEn := irqEn } } := by
  simp [State.writeCtrl, hb]

theorem State.writeCtrl_cfg {s : State} (hb : s.busy = false) (cmd : BitVec 2) (mode irqEn : Bool) :
    s.writeCtrl false cmd mode irqEn = { s with ctrl := { cmd := cmd, mode := mode, irqEn := irqEn } } := by
  simp [State.writeCtrl, hb]

theorem State.writeCtrl_start {s : State} (hb : s.busy = false) (cmd : BitVec 2) (mode irqEn : Bool) :
    s.writeCtrl true cmd mode irqEn = { s with ctrl := { cmd := cmd, mode := mode, irqEn := irqEn } }.start := by
  simp [State.writeCtrl, hb]

/-- A START of COMPRESS that passes its checks (45_orchestration.md R340, R342). -/
theorem State.start_compress {s : State} (hc : s.ctrl.cmd = 0b01) (hl : s.inLen.toNat ≤ s.cfg.inCap) :
    s.start = s.initRun.enter .cScan := by
  simp [State.start, State.launch, hc, hl]

/-- A START of DECOMPRESS that passes its checks (45_orchestration.md R340, R343). -/
theorem State.start_decompress {s : State} (hc : s.ctrl.cmd = 0b10) (hl : s.inLen.toNat ≤ s.cfg.inCap) :
    s.start = s.initRun.enter .dMode := by
  simp [State.start, State.launch, hc, hl]

/-- Settles O6: while idle CTRL stores the fields, and a START with a legal IN_LEN passes its checks. -/
theorem ctrlWriteWhileIdle : Obligations.CtrlWriteWhileIdle := by
  intro s hb
  refine ⟨fun cmd mode irqEn => ?_, fun hl mode irqEn => ⟨?_, ?_⟩⟩
  · rw [exec, execCfg, State.writeCtrl_cfg hb]
    rfl
  · rw [exec, execCompress, State.writeCtrl_start hb, State.start_compress (by rfl) (by exact hl)]
    rfl
  · rw [exec, execDecompress, State.writeCtrl_start hb, State.start_decompress (by rfl) (by exact hl)]
    rfl

/-- Settles O8: every row that writes CTRL is `State.writeCtrl`, which while busy stores IRQ_EN only. -/
theorem ctrlWriteWhileBusyStoresOnlyIrqEn : Obligations.CtrlWriteWhileBusyStoresOnlyIrqEn := by
  intro s cmd mode irqEn hb i hi
  have hctrl (go : Bool) (cmd' : BitVec 2) :
      (s.writeCtrl go cmd' mode irqEn).respond .okWrite =
        { s with ctrl := { s.ctrl with irqEn := irqEn } }.answered true 0 := by
    rw [State.writeCtrl_busy hb]
    rfl
  simp only [List.mem_cons, List.not_mem_nil, or_false] at hi
  rcases hi with rfl | rfl | rfl | rfl | rfl
  all_goals exact congrArg Host.Outcome.next (hctrl _ _)

/-- Settles O9: the word decodes to its bits 1 and 2, and W1C of a flag is its conjunction with the cleared bit. -/
theorem statusWriteClearsOnlyDoneAndErr : Obligations.StatusWriteClearsOnlyDoneAndErr := by
  intro s v i hi
  have hdec : decode (.txn (.write .b4 0x004 v)) = .ok (.statusW1c (v.getLsbD 1) (v.getLsbD 2)) := rfl
  obtain rfl : .statusW1c (v.getLsbD 1) (v.getLsbD 2) = i := Except.ok.inj (hdec.symm.trans hi)
  have hclr (a b : Bool) : (a && !b) = if b then false else a := by cases a <;> cases b <;> rfl
  refine ⟨rfl, ?_⟩
  simp only [← hclr]
  rfl

/-- Settles O10: each offset's write by `State.writeReg`; an offset that names no writable register is ignored. -/
theorem registerWritesStoreOrAreIgnored : Obligations.RegisterWritesStoreOrAreIgnored := by
  intro s v
  refine ⟨fun hb => ?_, fun hb => ?_, ?_, ?_, fun addr h h4 hn => ?_⟩
  · rw [exec_wr32_reg v s (by decide) (by decide)]
    simp [State.writeReg, hb]
  · rw [exec_wr32_reg v s (by decide) (by decide)]
    simp [State.writeReg, hb]
  · exact exec_wr32_reg v s (by decide) (by decide)
  · exact exec_wr32_reg v s (by decide) (by decide)
  · rw [exec_wr32_reg v s h h4]
    simp only [List.mem_cons, List.not_mem_nil, or_false, not_or] at hn
    obtain ⟨h0, h1, h2, h3, h5⟩ := hn
    have hw : s.writeReg addr.toNat v = s := by
      unfold State.writeReg
      split
      · exact absurd ‹_› h0
      · exact absurd ‹_› h1
      · exact absurd ‹_› h2
      · exact absurd ‹_› h3
      · exact absurd ‹_› h5
      · rfl
    rw [hw]

/-! ### Reads -/

/-- A string of bits put before another, as numbers. -/
theorem toNat_append_eq {n m : Nat} (x : BitVec n) (y : BitVec m) : (x ++ y).toNat = x.toNat * 2 ^ m + y.toNat := by
  rw [BitVec.toNat_append, ← Nat.shiftLeft_add_eq_or_of_lt y.isLt, Nat.shiftLeft_eq]

/-- The CTRL word as a number (10_state.md R43). -/
theorem State.ctrlWord_eq (s : State) :
    s.ctrlWord = BitVec.ofNat 32 (16 * s.ctrl.irqEn.toNat + 8 * s.ctrl.mode.toNat + 2 * s.ctrl.cmd.toNat) := by
  apply BitVec.eq_of_toNat_eq
  simp only [State.ctrlWord, toNat_append_eq, BitVec.toNat_ofBool, BitVec.toNat_ofNat]
  have hc := s.ctrl.cmd.isLt
  have hm := s.ctrl.mode.toNat_lt
  have hi := s.ctrl.irqEn.toNat_lt
  omega

/-- The STATUS word as a number (10_state.md R45). -/
theorem State.statusWord_eq (s : State) :
    s.statusWord = BitVec.ofNat 32 (4096 * s.phase.code.toNat + 256 * s.status.errcode.toNat +
      16 * s.status.runMode.toNat + 8 * s.status.trunc.toNat + 4 * s.status.err.toNat + 2 * s.status.done.toNat +
      s.busy.toNat) := by
  apply BitVec.eq_of_toNat_eq
  simp only [State.statusWord, toNat_append_eq, BitVec.toNat_ofBool, BitVec.toNat_ofNat]
  have hp := s.phase.code.isLt
  have he := s.status.errcode.isLt
  have hr := s.status.runMode.toNat_lt
  have ht := s.status.trunc.toNat_lt
  have hx := s.status.err.toNat_lt
  have hd := s.status.done.toNat_lt
  have hb := s.busy.toNat_lt
  omega

/-- A reserved offset reads 0 (10_state.md R39, 20_memory.md R112). -/
theorem State.readReg_reserved (s : State) {off : Nat} (h : off = 0x03C ∨ 0x058 ≤ off) : s.readReg off = 0 := by
  unfold State.readReg
  split
  case h_22 => rfl
  all_goals omega

/-- While busy a result register answers no more than its fields hold. -/
theorem State.unlessBusy_le {s : State} (h : s.busy = true) (off : Nat) (fields v : Word) :
    (s.unlessBusy off fields v).toNat ≤ fields.toNat := by
  rw [State.unlessBusy, if_pos h, BitVec.toNat_and]
  exact Nat.and_le_right

/-- A field of fewer bits than a word, read back. -/
theorem setWidth_eq_ofNat {n : Nat} (x : BitVec n) : x.setWidth 32 = BitVec.ofNat 32 x.toNat :=
  (BitVec.ofNat_toNat 32 x).symm

/-- Settles O12: each read is `State.readReg` at its offset. -/
theorem registerReadsReturnTheirFields : Obligations.RegisterReadsReturnTheirFields := by
  intro s
  refine ⟨reads_register (by decide) (by decide) s.ctrlWord_eq, reads_register (by decide) (by decide) s.statusWord_eq,
    reads_register (by decide) (by decide) rfl, reads_register (by decide) (by decide) rfl,
    reads_register (by decide) (by decide) (setWidth_eq_ofNat s.codeSel),
    reads_register (by decide) (by decide) (setWidth_eq_ofNat s.codeWsel),
    reads_register (by decide) (by decide) rfl, reads_register (by decide) (by decide) rfl,
    fun addr h4 hr => reads_register (by omega) h4 (s.readReg_reserved (by omega)),
    fun hb => ?_, fun hb => ⟨?_, ?_, ?_⟩⟩
  · have idle := State.unlessBusy_idle hb
    exact ⟨reads_register (by decide) (by decide) (idle ..), reads_register (by decide) (by decide) (idle ..),
      reads_register (by decide) (by decide) (idle ..), reads_register (by decide) (by decide) (idle ..),
      reads_register (by decide) (by decide) (idle ..), reads_register (by decide) (by decide) (idle ..),
      reads_register (by decide) (by decide) (idle ..), reads_register (by decide) (by decide) (idle ..),
      reads_register (by decide) (by decide) ((idle ..).trans (setWidth_eq_ofNat _)),
      reads_register (by decide) (by decide) (idle ..),
      reads_register (by decide) (by decide) ((idle ..).trans (setWidth_eq_ofNat _))⟩
  · have haddr : ∀ addr ∈ [(0x00C : Addr), 0x010, 0x014, 0x018, 0x01C, 0x020, 0x024, 0x028, 0x030],
        addr.toNat < 0x1000 ∧ addr.toNat % 4 = 0 := by simp
    exact fun addr ha => ⟨s.readReg addr.toNat, reads_register (haddr addr ha).1 (haddr addr ha).2 rfl⟩
  · exact ⟨_, reads_register (by decide) (by decide) rfl, (State.unlessBusy_le hb _ 0x000000FF _).trans_lt (by decide)⟩
  · exact ⟨_, reads_register (by decide) (by decide) rfl, (State.unlessBusy_le hb _ 0x0001FFFF _).trans_lt (by decide)⟩

/-- Settles O14: the clear flags leave the STATUS word its PHASE, RUN_MODE and BUSY. -/
theorem statusReadsExactlyWhileBusy : Obligations.StatusReadsExactlyWhileBusy := by
  intro s h hb
  refine ⟨reads_register (by decide) (by decide) (s.statusWord_eq.trans ?_),
    reads_register (by decide) (by decide) (h.errInfo (busy_ne_error hb))⟩
  rw [hb, h.busyStatus hb]
  rfl

/-! ### The code-table dump -/

/-- Bit j of a bit string's value, counted from its first bit. -/
theorem testBit_bitsVal (bs : Bits) {j : Nat} (hj : j < bs.length) :
    (bitsVal bs).testBit (bs.length - 1 - j) = bs.getD j false := by
  have key (k v j : Nat) (hj : j < k) : (bitsOf k v).getD j false = v.testBit (k - 1 - j) := by
    induction k generalizing j with
    | zero => omega
    | succ k ih =>
      cases j with
      | zero => simp [bitsOf]
      | succ j =>
        rw [bitsOf, List.getD_cons_succ, ih j (by omega)]
        congr 1
        omega
  rw [← key _ _ _ hj, bitsOf_bitsVal]

/-- A bit string filled up with zeros reads as one whose missing bits are 0. -/
theorem getD_append_zeros (bs : Bits) (n j : Nat) :
    (bs ++ List.replicate n false).getD j false = bs.getD j false := by
  rcases Nat.lt_or_ge j bs.length with h | h
  · simp [List.getElem?_append_left h]
  · rw [List.getD_eq_getElem?_getD, List.getElem?_append_right h, List.getElem?_replicate, List.getD_eq_default _ _ h]
    split_ifs <;> rfl

/-- Bit 31 − j of a code's window is code bit 32w + j, and 0 past the code's end (10_state.md R58). -/
theorem codeWindow_bit (c : Bits) (w : Nat) {j : Nat} (hj : j < 32) :
    (codeWindow c w).getLsbD (31 - j) = c.getD (32 * w + j) false := by
  let bits := (c.drop (32 * w)).take 32
  have hlen : (bits ++ List.replicate (32 - bits.length) false).length = 32 := by simp [bits]
  have hbit := testBit_bitsVal _ (hj.trans_eq hlen.symm)
  rw [hlen, getD_append_zeros] at hbit
  rw [codeWindow, BitVec.getLsbD_ofNat, decide_eq_true (by omega), Bool.true_and]
  refine hbit.trans ?_
  simp [bits, hj]

/-- CODE_INFO of a valid entry (10_state.md R56). -/
theorem State.codeInfoWord_some {s : State} {c : Bits} (hc : Table.look s.codeSel.toNat s.code = some c)
    (hl : c.length ≤ 65535) : s.codeInfoWord = BitVec.ofNat 32 (2 ^ 31 + c.length) := by
  rw [State.codeInfoWord, State.selectedCode, hc]
  apply BitVec.eq_of_toNat_eq
  simp only [toNat_append_eq, BitVec.toNat_ofNat]
  omega

/-- CODE_INFO's reserved bits 30:16 are 0 in what its fields hold (10_state.md R39, R56). -/
theorem codeInfo_reserved (n : Nat) : (n &&& 0x8000FFFF) / 2 ^ 16 % 2 ^ 15 = 0 := by
  rw [Nat.and_div_two_pow, Nat.and_mod_two_pow]
  exact Nat.and_zero _

/-- Settles O13: CODE_INFO and CODE_WORD by `State.readReg`, and a window's bits by `codeWindow_bit`. -/
theorem codeDumpShowsTheSelectedCode : Obligations.CodeDumpShowsTheSelectedCode := by
  intro s
  refine ⟨fun hb => ?_, fun hb => ?_⟩
  · have idle := State.unlessBusy_idle hb
    refine ⟨fun c hc => ⟨fun hl => ?_, ?_⟩, fun hn => ⟨?_, ?_⟩⟩
    · exact reads_register (by decide) (by decide) ((idle ..).trans (State.codeInfoWord_some hc hl))
    · refine ⟨codeWindow c s.codeWsel.toNat, reads_register (by decide) (by decide) ((idle ..).trans ?_),
        fun j hj => codeWindow_bit c _ hj⟩
      rw [State.codeWordWord, State.selectedCode, hc]
    · refine reads_register (by decide) (by decide) ((idle ..).trans ?_)
      rw [State.codeInfoWord, State.selectedCode, hn]
    · refine reads_register (by decide) (by decide) ((idle ..).trans ?_)
      rw [State.codeWordWord, State.selectedCode, hn]
  · refine ⟨_, _, reads_register (by decide) (by decide) rfl, ?_, reads_register (by decide) (by decide) rfl⟩
    have hv : s.readReg (0x044 : Addr).toNat = Config.busyWord s.freeCtr 0x044 &&& 0x8000FFFF := if_pos hb
    rw [hv, BitVec.toNat_and]
    exact codeInfo_reserved _

end Sys2Proof.Machine
end

section
/-!
SUPPORT. Steps that begin no run: the reset event, and what an idle block keeps (10_state.md R49, R66).
-/

namespace Sys2Proof.Machine

/-! ### The reset event -/

/-- With no code valid CODE_INFO and CODE_WORD read 0 while idle (10_state.md R56, R58). -/
theorem reads_code_none {s : State} (hb : s.busy = false) (hc : s.code = []) : s.reads 0x044 0 ∧ s.reads 0x04C 0 := by
  have hsel : s.selectedCode = none := by rw [State.selectedCode, hc]; rfl
  have idle := State.unlessBusy_idle hb
  constructor
  · exact reads_register (by decide) (by decide) ((idle ..).trans (by rw [State.codeInfoWord, hsel]))
  · exact reads_register (by decide) (by decide) ((idle ..).trans (by rw [State.codeWordWord, hsel]))

/-- Settles O54: the step is `State.resetEvent`, which takes every field from `State.reset`. -/
theorem resetEventRestoresTheResetValues : Obligations.ResetEventRestoresTheResetValues := by
  intro s rest hp
  let t := ({ s with pending := rest }.resetEvent).newFree
  have hcode : t.reads 0x044 0 ∧ t.reads 0x04C 0 := reads_code_none rfl rfl
  exact ⟨t, step_event hp, rfl, rfl, rfl, rfl, rfl, rfl, rfl, rfl, rfl, rfl, rfl, rfl, rfl, rfl, rfl, hcode.1, hcode.2,
    reads_register (by decide) (by decide) rfl, reads_register (by decide) (by decide) rfl⟩

/-! ### An idle block -/

/-- What the last run produced is in `t` as in `s`, but for the flags DONE and ERR, which W1C may have cleared (10_state.md
R46, R49; 45_orchestration.md R369). -/
structure KeepsResults (s t : State) : Prop where
  phase : t.phase = s.phase
  res : t.res = s.res
  errInfo : t.errInfo = s.errInfo
  code : t.code = s.code
  outMem : t.outMem = s.outMem
  status : ∃ d e, t.status = { s.status with done := s.status.done && !d, err := s.status.err && !e }

/-- A step of the rest of the state clears no flag. -/
theorem status_uncleared (s : State) :
    ∃ d e, s.status = { s.status with done := s.status.done && !d, err := s.status.err && !e } :=
  ⟨false, false, by simp⟩

/-- A host write to an idle block that is no START keeps what the last run produced; only a STATUS write changes STATUS. -/
theorem writeStep_idle {s : State} (hb : s.busy = false) {n : Size} {addr : Addr} {v : Word}
    (hstart : ¬ (n = .b4 ∧ addr = 0x000 ∧ v.getLsbD 0 = true)) :
    KeepsResults s (s.writeStep n addr v) ∧
      (¬ (n = .b4 ∧ addr = 0x004) → (s.writeStep n addr v).status = s.status) := by
  have hu := status_uncleared s
  rcases writeStep_cases n addr v s with ⟨rfl, e⟩ | ⟨-, i, -, -, e⟩ | ⟨r, e⟩ <;> rw [e]
  · rcases writeReg_cases addr.toNat v s with ⟨h0, e⟩ | ⟨h4, e⟩ | ⟨l, c, w, e, -⟩ <;> rw [e]
    · have haddr : addr = 0x000 := BitVec.eq_of_toNat_eq h0
      have hgo : v.getLsbD 0 = false := Bool.eq_false_iff.2 fun h => hstart ⟨rfl, haddr, h⟩
      rw [hgo, State.writeCtrl_cfg hb]
      exact ⟨⟨rfl, rfl, rfl, rfl, rfl, hu⟩, fun _ => rfl⟩
    · have haddr : addr = 0x004 := BitVec.eq_of_toNat_eq h4
      exact ⟨⟨rfl, rfl, rfl, rfl, rfl, _, _, rfl⟩, fun h => absurd ⟨rfl, haddr⟩ h⟩
    · exact ⟨⟨rfl, rfl, rfl, rfl, rfl, hu⟩, fun _ => rfl⟩
  · exact ⟨⟨rfl, rfl, rfl, rfl, rfl, hu⟩, fun _ => rfl⟩
  · exact ⟨⟨rfl, rfl, rfl, rfl, rfl, hu⟩, fun _ => rfl⟩

/-- An event of an idle block that is neither a reset nor a START keeps what the last run produced; only a STATUS write
changes STATUS. -/
theorem eventStep_idle {s t : State} (hb : s.busy = false) {e : Event} (ht : eventStep e s = .next t) (hreset : e ≠ .reset)
    (hstart : ∀ v, v.getLsbD 0 = true → e ≠ .host (.write .b4 0x000 v)) :
    KeepsResults s t ∧ ((∀ v, e ≠ .host (.write .b4 0x004 v)) → t.status = s.status) := by
  have hu := status_uncleared s
  cases e with
  | host x =>
    cases x with
    | read n addr =>
      cases (hostStep_read n addr s).symm.trans ht
      exact ⟨⟨rfl, rfl, rfl, rfl, rfl, hu⟩, fun _ => rfl⟩
    | write n addr v =>
      cases (hostStep_write n addr v s).symm.trans ht
      obtain ⟨hk, hs⟩ := writeStep_idle hb (n := n) (addr := addr) (v := v)
        fun ⟨hn, ha, hv⟩ => hstart v hv (by rw [hn, ha])
      exact ⟨{ hk with }, fun hne => hs fun ⟨hn, ha⟩ => hne v (by rw [hn, ha])⟩
  | engine =>
    rw [eventStep, if_neg (by simp [hb])] at ht
    cases ht
    exact ⟨⟨rfl, rfl, rfl, rfl, rfl, hu⟩, fun _ => rfl⟩
  | fine =>
    rw [eventStep, fineStep_idle hb] at ht
    cases ht
    exact ⟨⟨rfl, rfl, rfl, rfl, rfl, hu⟩, fun _ => rfl⟩
  | reset => exact absurd rfl hreset

/-- Settles O59: an idle block waits or takes an event, and W1C only clears flags. -/
theorem resultsStayUntilTheNextStart : Obligations.ResultsStayUntilTheNextStart := by
  intro s t hb ht hreset hstart
  have key : KeepsResults s t ∧
      ((∀ v rest, s.pending ≠ .host (.write .b4 0x004 v) :: rest) → t.status = s.status) := by
    cases hp : s.pending with
    | nil =>
      rw [step_quiet hp, quietStep, if_neg (by simp [hb])] at ht
      cases ht
      exact ⟨⟨rfl, rfl, rfl, rfl, rfl, status_uncleared s⟩, fun _ => rfl⟩
    | cons e rest =>
      rw [step_event hp] at ht
      obtain ⟨hk, hs⟩ := eventStep_idle (by exact hb) ht (fun he => hreset rest (by rw [hp, he]))
        fun v hv he => hstart v rest hv (by rw [hp, he])
      exact ⟨{ hk with }, fun hne => hs fun v he => hne v rest (by rw [he])⟩
  obtain ⟨⟨hphase, hres, hinfo, hcode, hout, d, e, hst⟩, hkeep⟩ := key
  refine ⟨hphase, hres, hinfo, hcode, hout, by rw [hst], fun h => ?_, fun h => ?_, hkeep⟩
  · rw [hst] at h
    exact (Bool.and_eq_true_iff.1 h).1
  · rw [hst] at h
    exact (Bool.and_eq_true_iff.1 h).1

end Sys2Proof.Machine
end

section
/-!
SUPPORT. The host's accesses of the memory map: which of them get BUSERR, and what reads and writes of the windows IN and
OUT do (20_memory.md R100 to R111).
-/

namespace Sys2Proof.Machine

/-! ### BUSERR -/

/-- An address that no window holds (20_memory.md R100, R101). -/
theorem busTarget_unmapped {c : Config} {addr : Addr} (hreg : 0x1000 ≤ addr.toNat)
    (hin : ¬ (inBase ≤ addr.toNat ∧ addr.toNat < inBase + c.inCap))
    (hout : ¬ (outBase ≤ addr.toNat ∧ addr.toNat < outBase + c.outCap)) : busTarget c addr = .unmapped := by
  have h1 : ¬ (inBase ≤ addr.toNat ∧ addr.toNat - inBase < c.inCap) := by omega
  have h2 : ¬ (outBase ≤ addr.toNat ∧ addr.toNat - outBase < c.outCap) := by omega
  simp only [busTarget, Bool.and_eq_true, decide_eq_true_eq, if_neg (Nat.not_lt.2 hreg), if_neg h1, if_neg h2]

/-- No access of a size passes the checks of a target (20_memory.md R101, R106, R107). -/
def Target.rejects (c : Config) (n : Size) : Target → Bool
  | .reg off => !regAccessOk n off
  | .inp i => !windowAccessOk n i c.inCap
  | .out i => !windowAccessOk n i c.outCap
  | .unmapped => true

theorem readStep_rejected {s : State} {n : Size} {addr : Addr} (h : (busTarget s.cfg addr).rejects s.cfg n = true) :
    s.readStep n addr = s.respond .busErr := by
  unfold State.readStep State.memRead
  revert h
  cases busTarget s.cfg addr <;> simp +contextual [Target.rejects]

theorem writeStep_rejected {s : State} {n : Size} {addr : Addr} (v : Word)
    (h : (busTarget s.cfg addr).rejects s.cfg n = true) : s.writeStep n addr v = s.respond .busErr := by
  unfold State.writeStep
  revert h
  cases busTarget s.cfg addr <;> simp +contextual [Target.rejects]

/-- A write to the output window gets BUSERR, whatever its size (20_memory.md R110). -/
theorem writeStep_out {s : State} {addr : Addr} {i : Nat} (n : Size) (v : Word) (h : busTarget s.cfg addr = .out i) :
    s.writeStep n addr v = s.respond .busErr := by
  rw [State.writeStep, h]

/-- Both 4-byte instructions of a rejected 4-byte access. -/
theorem exec_word_rejected {s : State} {addr : Addr} {v : Word} {i : Instr} (hi : i ∈ [.rd32 addr, .wr32 addr v])
    (h : (busTarget s.cfg addr).rejects s.cfg .b4 = true) : exec i s = .next (s.answered false 0) := by
  simp only [List.mem_cons, List.not_mem_nil, or_false] at hi
  rcases hi with rfl | rfl
  · exact congrArg Host.Outcome.next (readStep_rejected h)
  · exact congrArg Host.Outcome.next (writeStep_rejected v h)

/-- Both 1-byte instructions of a rejected 1-byte access. -/
theorem exec_byte_rejected {s : State} {addr : Addr} {b : Byte} {i : Instr} (hi : i ∈ [.rd8 addr, .wr8 addr b])
    (h : (busTarget s.cfg addr).rejects s.cfg .b1 = true) : exec i s = .next (s.answered false 0) := by
  simp only [List.mem_cons, List.not_mem_nil, or_false] at hi
  rcases hi with rfl | rfl
  · exact congrArg Host.Outcome.next (readStep_rejected h)
  · exact congrArg Host.Outcome.next (writeStep_rejected _ h)

/-- A misaligned or overlong 4-byte access of a window (20_memory.md R107). -/
theorem windowAccessOk_word_false {i cap : Nat} (h : i % 4 ≠ 0 ∨ cap ≤ i + 3) : windowAccessOk .b4 i cap = false := by
  simp only [windowAccessOk, Bool.and_eq_false_iff, beq_eq_false_iff_ne, decide_eq_false_iff_not]
  omega

/-- Settles O11: each kind of bad access has a target that rejects it, and OUT answers every write with BUSERR. -/
theorem badAccessGetsBusErr : Obligations.BadAccessGetsBusErr := by
  intro s addr hv a rds inWindow outWindow v b i h
  have hin (hw : inWindow) : busTarget s.cfg addr = .inp (a - 0x40000000) :=
    busTarget_inp s.cfg (by simp only [inBase]; omega) (by omega)
  have hout (hw : outWindow) : busTarget s.cfg addr = .out (a - 0x80000000) :=
    busTarget_out hv (by simp only [outBase]; omega) (by omega)
  rcases h with ⟨⟨h1, h2, h3⟩, hi⟩ | ⟨h1, hi⟩ | ⟨⟨h1, h4⟩, hi⟩ | ⟨⟨hw, h4⟩, hi⟩ | ⟨⟨hw, h4⟩, rfl⟩ | ⟨hw, hi⟩
  · have hrej (n : Size) : (busTarget s.cfg addr).rejects s.cfg n = true := by
      rw [busTarget_unmapped h1 h2 h3]; rfl
    have hsize : i ∈ [.rd32 addr, .wr32 addr v] ∨ i ∈ [.rd8 addr, .wr8 addr b] := by
      simp only [rds, List.cons_append, List.nil_append, List.mem_cons, List.not_mem_nil, or_false] at hi ⊢
      tauto
    exact hsize.elim (exec_word_rejected · (hrej _)) (exec_byte_rejected · (hrej _))
  · exact exec_byte_rejected hi (by rw [busTarget_reg _ h1]; rfl)
  · exact exec_word_rejected hi (by rw [busTarget_reg _ h1]; simpa [Target.rejects, regAccessOk] using h4)
  · refine exec_word_rejected hi ?_
    rw [hin hw, Target.rejects, windowAccessOk_word_false (by omega)]
    rfl
  · refine exec_word_rejected (v := v) List.mem_cons_self ?_
    rw [hout hw, Target.rejects, windowAccessOk_word_false (by omega)]
    rfl
  · simp only [List.mem_cons, List.not_mem_nil, or_false] at hi
    rcases hi with rfl | rfl
    · exact congrArg Host.Outcome.next (writeStep_out .b4 v (hout hw))
    · exact congrArg Host.Outcome.next (writeStep_out .b1 _ (hout hw))

/-! ### Reads -/

/-- What a read answers does not depend on the last response. -/
theorem State.memRead_setResp (s : State) (r : Option Response) (n : Size) (addr : Addr) :
    { s with resp := r }.memRead n addr = s.memRead n addr := rfl

/-- Settles O17: a read step is `State.readStep`, which stores the answer of `State.memRead` as the response. -/
theorem hostReadsHaveNoSideEffect : Obligations.HostReadsHaveNoSideEffect := by
  intro s n addr
  refine ⟨s.memRead n addr, hostStep_read n addr s, ?_⟩
  rw [hostStep_read, State.readStep, State.memRead_setResp]
  rfl

/-- A 4-byte access of a window at a 4-aligned index inside its capacity (20_memory.md R107). -/
theorem windowAccessOk_word {i cap : Nat} (h4 : i % 4 = 0) (h : i + 3 < cap) : windowAccessOk .b4 i cap = true := by
  simp [windowAccessOk, h4, h]

/-- A read of IN (20_memory.md R107, R109). -/
theorem readStep_inp {s : State} {n : Size} {addr : Addr} {i : Nat} (h : addr.toNat = inBase + i) (hi : i < s.cfg.inCap)
    (hok : windowAccessOk n i s.cfg.inCap = true) : s.readStep n addr = s.answered true (windowRead n s.inByte i) := by
  simp only [State.readStep, State.memRead, busTarget_inp s.cfg h hi, if_pos hok]
  rfl

/-- A read of OUT (20_memory.md R107, R109). -/
theorem readStep_out {s : State} {n : Size} {addr : Addr} {i : Nat} (hv : s.cfg.valid = true)
    (h : addr.toNat = outBase + i) (hi : i < s.cfg.outCap) (hok : windowAccessOk n i s.cfg.outCap = true) :
    s.readStep n addr = s.answered true (windowRead n s.hostOutByte i) := by
  simp only [State.readStep, State.memRead, busTarget_out hv h hi, if_pos hok]
  rfl

/-- While idle the host sees the stored bytes of OUT (20_memory.md R109). -/
theorem State.hostOutByte_idle {s : State} (hb : s.busy = false) : s.hostOutByte = s.outByte := by
  funext i
  simp [State.hostOutByte, hb]

/-- The little-endian word of four bytes as a number (20_memory.md R107). -/
theorem wordOfBytes_eq (b0 b1 b2 b3 : Byte) :
    wordOfBytes b0 b1 b2 b3 =
      BitVec.ofNat 32 (b0.toNat + 2 ^ 8 * b1.toNat + 2 ^ 16 * b2.toNat + 2 ^ 24 * b3.toNat) := by
  apply BitVec.eq_of_toNat_eq
  simp only [wordOfBytes, toNat_append_eq, BitVec.toNat_ofNat]
  omega

/-- Settles O15: a window read answers the bytes of its window, and four of them as `wordOfBytes`. -/
theorem windowReadsReturnStoredBytes : Obligations.WindowReadsReturnStoredBytes := by
  intro s addr i hv word
  have hword (byteAt : Nat → Byte) : windowRead .b4 byteAt i = word byteAt := wordOfBytes_eq ..
  have hbyte (byteAt : Nat → Byte) : windowRead .b1 byteAt i = BitVec.ofNat 32 (byteAt i).toNat := setWidth_eq_ofNat _
  refine ⟨fun h hi => ⟨?_, fun h4 h3 => ?_⟩, fun h hi => ?_⟩
  · rw [← hbyte]
    exact congrArg Host.Outcome.next (readStep_inp h hi rfl)
  · rw [← hword]
    exact congrArg Host.Outcome.next (readStep_inp h hi (windowAccessOk_word h4 h3))
  · have hrd8 : exec (.rd8 addr) s = .next (s.answered true (windowRead .b1 s.hostOutByte i)) :=
      congrArg Host.Outcome.next (readStep_out hv h hi rfl)
    have hrd32 (h4 : i % 4 = 0) (h3 : i + 3 < s.cfg.outCap) : s.reads addr (windowRead .b4 s.hostOutByte i) :=
      congrArg Host.Outcome.next (readStep_out hv h hi (windowAccessOk_word h4 h3))
    refine ⟨fun hb => ?_, fun _ => ⟨⟨s.hostOutByte i, by rw [← hbyte]; exact hrd8⟩, fun h4 h3 => ⟨_, hrd32 h4 h3⟩⟩⟩
    rw [← hbyte, ← hword, ← State.hostOutByte_idle hb]
    exact ⟨hrd8, hrd32⟩

/-! ### Writes -/

/-- A write to IN while idle (20_memory.md R107, R108). -/
theorem writeStep_inp_idle {s : State} {n : Size} {addr : Addr} {i : Nat} (hb : s.busy = false)
    (h : addr.toNat = inBase + i) (hi : i < s.cfg.inCap) (hok : windowAccessOk n i s.cfg.inCap = true) (v : Word) :
    s.writeStep n addr v = { s with inMem := windowWrite n i v s.inMem }.answered true 0 := by
  simp only [State.writeStep, busTarget_inp s.cfg h hi, if_pos hok, hb]
  rfl

/-- A write to IN while busy is discarded with OK (20_memory.md R108). -/
theorem writeStep_inp_busy {s : State} {n : Size} {addr : Addr} {i : Nat} (hb : s.busy = true)
    (h : addr.toNat = inBase + i) (hi : i < s.cfg.inCap) (hok : windowAccessOk n i s.cfg.inCap = true) (v : Word) :
    s.writeStep n addr v = s.answered true 0 := by
  simp only [State.writeStep, busTarget_inp s.cfg h hi, if_pos hok, if_pos hb]
  rfl

/-- IN after a byte is written. -/
theorem State.inByte_write (s : State) (i a : Nat) (b : Byte) :
    { s with inMem := s.inMem.write i b }.inByte a = if a = i then b else s.inByte a := by
  simp only [State.inByte, Memory.read?_write]
  split_ifs <;> rfl

/-- IN after a word is written: its four bytes, the least significant first (20_memory.md R107). -/
theorem State.inByte_windowWrite_word (s : State) (i a : Nat) (v : Word) :
    { s with inMem := windowWrite .b4 i v s.inMem }.inByte a =
      if i ≤ a ∧ a < i + 4 then BitVec.ofNat 8 (v.toNat / 2 ^ (8 * (a - i))) else s.inByte a := by
  have hbyte (k : Nat) : v.extractLsb' k 8 = BitVec.ofNat 8 (v.toNat / 2 ^ k) := by
    rw [BitVec.extractLsb', Nat.shiftRight_eq_div_pow]
  by_cases hw : i ≤ a ∧ a < i + 4
  · obtain ⟨k, rfl⟩ := Nat.exists_eq_add_of_le hw.1
    have hk : k < 4 := by omega
    rw [if_pos hw, Nat.add_sub_cancel_left, ← hbyte]
    simp only [State.inByte, windowWrite, Memory.read?_write]
    interval_cases k <;> simp
  · rw [if_neg hw]
    simp only [State.inByte, windowWrite, Memory.read?_write]
    rw [if_neg (by omega), if_neg (by omega), if_neg (by omega), if_neg (by omega)]

/-- Settles O16: while idle the window write stores its bytes in IN_MEM, while busy it is discarded. -/
theorem windowWritesStoreWhileIdle : Obligations.WindowWritesStoreWhileIdle := by
  intro s addr i v b _ h hi
  have hlow : (b.setWidth 32).setWidth 8 = b := by ext j hj; simp
  refine ⟨fun hb => ⟨?_, fun h4 h3 => ?_⟩, fun hb => ⟨?_, fun h4 h3 => ?_⟩⟩
  · refine ⟨_, congrArg Host.Outcome.next (writeStep_inp_idle hb h hi rfl _), rfl, fun a => ?_⟩
    rw [windowWrite, hlow, State.inByte_write]
  · exact ⟨_, congrArg Host.Outcome.next (writeStep_inp_idle hb h hi (windowAccessOk_word h4 h3) v), rfl,
      fun a => s.inByte_windowWrite_word i a v⟩
  · exact congrArg Host.Outcome.next (writeStep_inp_busy hb h hi rfl _)
  · exact congrArg Host.Outcome.next (writeStep_inp_busy hb h hi (windowAccessOk_word h4 h3) v)

end Sys2Proof.Machine
end

section
/-!
SUPPORT. Who writes each buffer: the engine keeps what belongs to the host, and a host access keeps OUT_MEM (20_memory.md
R103, R108, R110).
-/

namespace Sys2Proof.Machine

/-! ### What the engine keeps -/

/-- The capacities, the host's registers, the port, IN_MEM and the schedule are in `t` as in `s` (20_memory.md R103). -/
def HostKept (s t : State) : Prop :=
  t = { t with
    cfg := s.cfg, ctrl := s.ctrl, inLen := s.inLen, codeSel := s.codeSel, codeWsel := s.codeWsel, inMem := s.inMem
    pending := s.pending, resp := s.resp, freeCtr := s.freeCtr, memSeed := s.memSeed }

theorem HostKept.refl (s : State) : HostKept s s := rfl

theorem HostKept.trans {s t u : State} (h : HostKept s t) (k : HostKept t u) : HostKept s u := by
  unfold HostKept at *
  rw [h] at k
  exact k

theorem HostKept.inMem {s t : State} (h : HostKept s t) : t.inMem = s.inMem := by
  unfold HostKept at h
  rw [h]

/-- Two lines of pseudocode in order. -/
theorem HostKept.andThen {s : State} {f : Flow} {k : State → Flow} (h : HostKept s f.state)
    (hk : ∀ t, HostKept t (k t).state) : HostKept s (f.andThen k).state := by
  cases f with
  | run t => exact h.trans (hk t)
  | ended t => exact h

theorem flush_hostKept (x : Byte) (s : State) : HostKept s (flush x s).state := by
  unfold flush
  split_ifs <;> rfl

theorem writeBit_hostKept (b : Bool) (s : State) : HostKept s (writeBit b s).state := by
  unfold writeBit
  dsimp only
  split_ifs
  · exact (flush_hostKept _ s).andThen fun _ => rfl
  · rfl

theorem writeBits_hostKept (bs : Bits) (s : State) : HostKept s (writeBits bs s).state := by
  induction bs generalizing s with
  | nil => rfl
  | cons b bs ih => exact (writeBit_hostKept b s).andThen ih

theorem flushAndComplete_hostKept (c : Bool) (s : State) : HostKept s (flushAndComplete c s).state := by
  have hfinish : HostKept s (finish s).state := by
    unfold finish
    split_ifs
    · rfl
    · exact (flush_hostKept _ s).andThen fun _ => rfl
  exact hfinish.andThen fun _ => rfl

theorem scanStep_hostKept (s : State) : HostKept s (scanStep s).state := by
  have hcount (r : Nat) (t : State) : HostKept t (t.count r).state := by
    unfold State.count
    dsimp only
    split_ifs <;> rfl
  unfold scanStep
  cases s.loop.stage
  · rfl
  all_goals
    cases s.peekN (symWidth s.dp.mode) with
    | none => rfl
    | some r => exact hcount r (s.skipN _)

theorem checkStep_hostKept (s : State) : HostKept s (checkStep s).state := by
  have hrange : HostKept s s.pairRangeCheck.state := by
    unfold State.pairRangeCheck
    split_ifs
    · cases overRange s.freq <;> rfl
    · rfl
  exact hrange.andThen fun _ => rfl

theorem headerOutStep_hostKept (s : State) : HostKept s (headerOutStep s).state := by
  unfold headerOutStep
  cases s.loop.stage
  · rfl
  · rfl
  · dsimp only
    split_ifs <;> rfl

theorem emitStep_hostKept (s : State) : HostKept s (emitStep s).state := by
  unfold emitStep
  cases s.loop.stage
  · rfl
  all_goals
    cases s.loop.emit with
    | some c => rfl
    | none =>
      cases s.peekN (symWidth s.dp.mode) with
      | none => rfl
      | some r => cases h : Table.look r s.code <;> simp only [h] <;> rfl

theorem headerInStep_hostKept (s : State) : HostKept s (headerInStep s).state := by
  unfold headerInStep
  cases s.loop.stage
  · rfl
  · rfl
  · dsimp only
    split_ifs <;> rfl

theorem walkStep_hostKept {s t : State} (ht : walkStep s = .next t) : HostKept s t := by
  unfold walkStep at ht
  split at ht
  · cases ht
    rw [writeN_eq]
    exact (writeBits_hostKept _ s).andThen fun _ => rfl
  · cases ht; rfl
  · cases ht

/-- The engine's steps between fields. -/
theorem internalStep_hostKept {s t : State} (ht : internalStep s = .next t) : HostKept s t := by
  unfold internalStep at ht
  split at ht
  · cases ht; exact scanStep_hostKept s
  · cases ht; exact checkStep_hostKept s
  · cases ht; exact headerOutStep_hostKept s
  · cases ht; rfl
  · cases ht; rfl
  · cases ht; exact emitStep_hostKept s
  · cases ht; exact headerInStep_hostKept s
  · cases ht; rfl
  · exact walkStep_hostKept ht
  · cases ht; exact flushAndComplete_hostKept _ s
  all_goals cases ht; rfl

theorem modeField_hostKept {s t : State} {pair : Bool} {i : Instr} (ht : modeField pair i s = .next t) : HostKept s t := by
  unfold modeField at ht
  split at ht <;> cases ht
  · exact (writeBits_hostKept _ s).andThen fun _ => rfl
  · rfl

/-- A header field; `hd` says so of its reading. -/
theorem headerField_hostKept {s t : State} {i : Instr} {d : State → State} (ht : headerField i d s = .next t)
    (hd : ∀ s, HostKept s (d s)) : HostKept s t := by
  unfold headerField at ht
  split at ht <;> cases ht
  · exact (writeBits_hostKept _ s).andThen fun _ => rfl
  · exact (hd s).trans rfl

theorem codeField_hostKept {s t : State} {b : Bool} {i : Instr} (ht : codeField b i s = .next t) : HostKept s t := by
  unfold codeField at ht
  split at ht <;> cases ht
  · exact (writeBits_hostKept _ s).andThen fun _ => rfl
  · rfl

theorem padField_hostKept {s t : State} (ht : padField s = .next t) : HostKept s t := by
  unfold padField at ht
  split at ht <;> cases ht
  · exact flushAndComplete_hostKept _ s
  · rfl

/-- A stream field keeps what belongs to the host. -/
theorem exec_hostKept {s t : State} {i : Instr} {k : FieldKind} (hi : fieldKind i = some k) (ht : exec i s = .next t) :
    HostKept s t := by
  cases i with
  | modeByte => exact modeField_hostKept (atField_eq_next ht).2
  | modePair => exact modeField_hostKept (atField_eq_next ht).2
  | classAbsent => exact headerField_hostKept (atField_eq_next ht).2 fun _ => rfl
  | classF8 value => cases value <;> exact headerField_hostKept (atField_eq_next ht).2 fun _ => rfl
  | classF16 value => cases value <;> exact headerField_hostKept (atField_eq_next ht).2 fun _ => rfl
  | classF32 value => cases value <;> exact headerField_hostKept (atField_eq_next ht).2 fun _ => rfl
  | pairAbsent => exact headerField_hostKept (atField_eq_next ht).2 fun _ => rfl
  | pairPresent => exact headerField_hostKept (atField_eq_next ht).2 fun _ => rfl
  | pairSize8 value => exact headerField_hostKept (atField_eq_next ht).2 fun _ => rfl
  | pairSize16 value => exact headerField_hostKept (atField_eq_next ht).2 fun _ => rfl
  | codeLeft => exact codeField_hostKept (atField_eq_next ht).2
  | codeRight => exact codeField_hostKept (atField_eq_next ht).2
  | pad n => exact padField_hostKept (atField_eq_next ht).2
  | _ => cases hi

theorem fineStep_hostKept {s t : State} (ht : fineStep s = .next t) : HostKept s t := by
  cases hb : s.busy with
  | false => rw [fineStep_idle hb] at ht; cases ht; rfl
  | true =>
    cases hi : s.nextField with
    | some i =>
      obtain ⟨k, hk⟩ := nextField_kind hi
      exact exec_hostKept hk ((fineStep_field hb hi).symm.trans ht)
    | none => exact internalStep_hostKept ((fineStep_internal hb hi).symm.trans ht)

theorem runPhase_hostKept {s t : State} {n : Nat} (ht : runPhase n s = .next t) : HostKept s t := by
  induction n generalizing s with
  | zero => cases ht; rfl
  | succ n ih =>
    rw [runPhase] at ht
    split at ht
    case h_1 u hu =>
      split_ifs at ht
      · exact (fineStep_hostKept hu).trans (ih ht)
      · cases ht; exact fineStep_hostKept hu
    all_goals cases ht

/-- The engine step keeps what belongs to the host. -/
theorem engineStep_hostKept {s t : State} (ht : engineStep s = .next t) : HostKept s t :=
  runPhase_hostKept ht

/-! ### What a host write keeps -/

/-- A register write stores no byte of a buffer, not even where it starts a run (20_memory.md R103). -/
theorem writeReg_mems (off : Nat) (v : Word) (s : State) :
    (s.writeReg off v).inMem = s.inMem ∧ (s.writeReg off v).outMem = s.outMem := by
  have hstart (t : State) : t.start.inMem = t.inMem ∧ t.start.outMem = t.outMem := by
    unfold State.start State.launch
    split_ifs <;> exact ⟨rfl, rfl⟩
  rcases writeReg_cases off v s with ⟨-, e⟩ | ⟨-, e⟩ | ⟨l, c, w, e, -⟩ <;> rw [e]
  · unfold State.writeCtrl
    dsimp only
    split_ifs
    · exact ⟨rfl, rfl⟩
    · exact hstart _
    · exact ⟨rfl, rfl⟩
  · exact ⟨rfl, rfl⟩
  · exact ⟨rfl, rfl⟩

/-- A host write stores no byte of OUT_MEM (20_memory.md R110). -/
theorem writeStep_outMem (n : Size) (addr : Addr) (v : Word) (s : State) : (s.writeStep n addr v).outMem = s.outMem := by
  rcases writeStep_cases n addr v s with ⟨-, e⟩ | ⟨-, i, -, -, e⟩ | ⟨r, e⟩ <;> rw [e]
  · exact (writeReg_mems addr.toNat v s).2
  · rfl
  · rfl

/-- An address of IN (20_memory.md R100). -/
theorem inBase_le_of_busTarget {c : Config} {addr : Addr} {i : Nat} (h : busTarget c addr = .inp i) :
    inBase ≤ addr.toNat := by
  simp only [busTarget, Bool.and_eq_true, decide_eq_true_eq] at h
  split_ifs at h with _ hin
  exact hin.1

/-- A host write that changes IN_MEM finds the block idle and goes to no address below the input window (20_memory.md
R108). -/
theorem writeStep_inMem_changed {n : Size} {addr : Addr} {v : Word} {s : State}
    (hne : (s.writeStep n addr v).inMem ≠ s.inMem) : s.busy = false ∧ inBase ≤ addr.toNat := by
  unfold State.writeStep at hne
  split at hne
  case h_1 off _ =>
    split_ifs at hne
    · exact absurd (writeReg_mems off v s).1 hne
    · exact absurd rfl hne
  case h_2 i htgt =>
    split_ifs at hne with _ hb
    · exact absurd rfl hne
    · exact ⟨Bool.eq_false_iff.2 hb, inBase_le_of_busTarget htgt⟩
    · exact absurd rfl hne
  case h_3 => exact absurd rfl hne
  case h_4 => exact absurd rfl hne

/-! ### The step -/

/-- Only a reset, or a host write while idle, changes IN_MEM. -/
theorem eventStep_inMem {e : Event} {s t : State} (ht : eventStep e s = .next t) (hne : t.inMem ≠ s.inMem) :
    e = .reset ∨ (s.busy = false ∧ ∃ n addr v, e = .host (.write n addr v) ∧ inBase ≤ addr.toNat) := by
  cases e with
  | host x =>
    cases x with
    | read n addr =>
      cases (hostStep_read n addr s).symm.trans ht
      exact absurd rfl hne
    | write n addr v =>
      cases (hostStep_write n addr v s).symm.trans ht
      obtain ⟨hb, ha⟩ := writeStep_inMem_changed hne
      exact .inr ⟨hb, n, addr, v, rfl, ha⟩
  | engine =>
    obtain ⟨u, hu, rfl⟩ := mapNext_eq_next.1 ht
    split_ifs at hu
    · exact absurd (engineStep_hostKept hu).inMem hne
    · cases hu; exact absurd rfl hne
  | fine =>
    obtain ⟨u, hu, rfl⟩ := mapNext_eq_next.1 ht
    exact absurd (fineStep_hostKept hu).inMem hne
  | reset => exact .inl rfl

/-- Only a reset, or the engine of a busy block, changes OUT_MEM. -/
theorem eventStep_outMem {e : Event} {s t : State} (ht : eventStep e s = .next t) (hne : t.outMem ≠ s.outMem) :
    e = .reset ∨ (s.busy = true ∧ (e = .engine ∨ e = .fine)) := by
  cases e with
  | host x =>
    cases x with
    | read n addr =>
      cases (hostStep_read n addr s).symm.trans ht
      exact absurd rfl hne
    | write n addr v =>
      cases (hostStep_write n addr v s).symm.trans ht
      exact absurd (writeStep_outMem n addr v s) hne
  | engine =>
    cases hb : s.busy with
    | true => exact .inr ⟨rfl, .inl rfl⟩
    | false =>
      rw [eventStep, if_neg (by simp [hb])] at ht
      cases ht
      exact absurd rfl hne
  | fine =>
    cases hb : s.busy with
    | true => exact .inr ⟨rfl, .inr rfl⟩
    | false =>
      rw [eventStep, fineStep_idle hb] at ht
      cases ht
      exact absurd rfl hne
  | reset => exact .inl rfl

/-- Settles O58: an event by its kind, and the quiet step as an engine step. -/
theorem eachBufferHasOneWriter : Obligations.EachBufferHasOneWriter := by
  intro s t ht
  cases hp : s.pending with
  | nil =>
    rw [step_quiet hp, quietStep] at ht
    split_ifs at ht with hb
    · obtain ⟨u, hu, rfl⟩ := mapNext_eq_next.1 ht
      exact ⟨fun hne => absurd (engineStep_hostKept hu).inMem hne, fun _ => .inr ⟨hb, .inl rfl⟩⟩
    · cases ht
      exact ⟨absurd rfl, absurd rfl⟩
  | cons e rest =>
    rw [step_event hp] at ht
    refine ⟨fun hne => ?_, fun hne => ?_⟩
    · rcases eventStep_inMem ht hne with rfl | ⟨hb, n, addr, v, rfl, ha⟩
      · exact .inl ⟨rest, rfl⟩
      · exact .inr ⟨hb, n, addr, v, rest, rfl, ha⟩
    · rcases eventStep_outMem ht hne with rfl | ⟨hb, rfl | rfl⟩
      · exact .inl ⟨rest, rfl⟩
      · exact .inr ⟨hb, .inr ⟨rest, .inl rfl⟩⟩
      · exact .inr ⟨hb, .inr ⟨rest, .inr rfl⟩⟩

end Sys2Proof.Machine
end

section
/-!
SUPPORT. The decoder against the encoder: the fields of a CTRL and a STATUS word (30_encoding.md R140, R155; 10_state.md
R46), host transactions (R170, R171), and that encoding and decoding a stream field are inverse to each other (R144 to R157).
-/

namespace Sys2Proof

/-! ### The CTRL word -/

section
variable (start : Bool) (cmd : BitVec 2) (mode irqEn : Bool)

theorem encodeCtrl_start : (encodeCtrl start cmd mode irqEn).getLsbD 0 = start := by
  simp only [encodeCtrl, BitVec.getLsbD_append]
  simp

theorem encodeCtrl_cmd : (encodeCtrl start cmd mode irqEn).extractLsb' 1 2 = cmd := by
  ext j hj
  simp only [BitVec.getElem_extractLsb', encodeCtrl, BitVec.getLsbD_append]
  simp [hj, BitVec.getLsbD_eq_getElem]

theorem encodeCtrl_mode : (encodeCtrl start cmd mode irqEn).getLsbD 3 = mode := by
  simp only [encodeCtrl, BitVec.getLsbD_append]
  simp

theorem encodeCtrl_irqEn : (encodeCtrl start cmd mode irqEn).getLsbD 4 = irqEn := by
  simp only [encodeCtrl, BitVec.getLsbD_append]
  simp

/-- The instruction that starts CMD (30_encoding.md R141). -/
def startCommand : Instr :=
  if cmd = 0b01 then .compress mode irqEn
  else if cmd = 0b10 then .decompress mode irqEn
  else if cmd = 0b00 then .badCmd00 mode irqEn
  else .badCmd11 mode irqEn

end

/-- With START clear a CTRL word is CFG (30_encoding.md R140). -/
theorem decodeCtrl_of_clear {v : Word} (h : v.getLsbD 0 = false) :
    decodeCtrl v = .cfg (v.extractLsb' 1 2) (v.getLsbD 3) (v.getLsbD 4) := by
  rw [decodeCtrl, h]
  rfl

/-- With START set a CTRL word is the command of its CMD (30_encoding.md R141). -/
theorem decodeCtrl_of_set {v : Word} (h : v.getLsbD 0 = true) :
    decodeCtrl v = startCommand (v.extractLsb' 1 2) (v.getLsbD 3) (v.getLsbD 4) := by
  rw [decodeCtrl, h]
  rfl

theorem decodeCtrl_encodeCtrl_clear (cmd : BitVec 2) (mode irqEn : Bool) :
    decodeCtrl (encodeCtrl false cmd mode irqEn) = .cfg cmd mode irqEn := by
  rw [decodeCtrl_of_clear (encodeCtrl_start ..), encodeCtrl_cmd, encodeCtrl_mode, encodeCtrl_irqEn]

theorem decodeCtrl_encodeCtrl_set (cmd : BitVec 2) (mode irqEn : Bool) :
    decodeCtrl (encodeCtrl true cmd mode irqEn) = startCommand cmd mode irqEn := by
  rw [decodeCtrl_of_set (encodeCtrl_start ..), encodeCtrl_cmd, encodeCtrl_mode, encodeCtrl_irqEn]

/-- Settles O4: the fields as arithmetic on the word's value, then the cases of START and CMD. -/
theorem ctrlWordFieldsAreItsLowBits : Obligations.CtrlWordFieldsAreItsLowBits := by
  intro v
  have hbit (k : Nat) : v.getLsbD k = decide (v.toNat / 2 ^ k % 2 = 1) := Nat.testBit_eq_decide_div_mod_eq
  have hstart : v.getLsbD 0 = decide (v.toNat % 2 = 1) := by rw [hbit, pow_zero, Nat.div_one]
  have hmode : v.getLsbD 3 = decide (v.toNat / 8 % 2 = 1) := hbit 3
  have hirq : v.getLsbD 4 = decide (v.toNat / 16 % 2 = 1) := hbit 4
  have hcmd : v.extractLsb' 1 2 = BitVec.ofNat 2 (v.toNat / 2 % 4) :=
    BitVec.eq_of_toNat_eq (by simp [Nat.shiftRight_eq_div_pow])
  have hlt : v.toNat / 2 % 4 < 4 := Nat.mod_lt _ (by decide)
  refine congrArg Except.ok (show decodeCtrl v = _ from ?_)
  rw [← hmode, ← hirq]
  by_cases h0 : v.toNat % 2 = 0
  · rw [if_pos h0, decodeCtrl_of_clear (by simp only [hstart, h0]; rfl), hcmd]
  · rw [if_neg h0, decodeCtrl_of_set (by rw [hstart, decide_eq_true_eq]; omega), hcmd]
    generalize v.toNat / 2 % 4 = cmd at hlt
    interval_cases cmd <;> rfl

/-- Settles O2: seven words evaluated; a word with START clear is CFG. -/
theorem exampleCommandWordsDecode : Obligations.ExampleCommandWordsDecode := by
  refine ⟨rfl, rfl, rfl, rfl, rfl, rfl, rfl, fun v h => ?_⟩
  exact ⟨_, _, _, congrArg Except.ok (decodeCtrl_of_clear h)⟩

/-! ### Host transactions -/

theorem decodeStatus_encodeStatus (doneClr errClr : Bool) :
    decodeStatus (encodeStatus doneClr errClr) = .statusW1c doneClr errClr := by
  simp only [decodeStatus, encodeStatus, BitVec.getLsbD_append]
  simp

/-! ### Stream fields -/

/-- A value of `w` bits is the value of its bit string (20_memory.md R114, 30_encoding.md R154). -/
theorem ofNat_bitsVal_bitsOf {w : Nat} (v : BitVec w) : BitVec.ofNat w (bitsVal (bitsOf w v.toNat)) = v := by
  simp

/-- A bit string of length `w` is the bit string of its value as a `w`-bit word. -/
theorem bitsOf_ofNat_bitsVal {w : Nat} {bs : Bits} (h : bs.length = w) :
    bitsOf w (BitVec.ofNat w (bitsVal bs)).toNat = bs := by
  subst h
  rw [BitVec.toNat_ofNat, Nat.mod_eq_of_lt (bitsVal_lt bs), bitsOf_bitsVal]

/-- What the decoder reads as a field is well formed, and its encoding is the very bits that were read. -/
theorem encode_of_decodeField {k : FieldKind} {bits : Bits} {i : Instr} (h : decodeField k bits = .ok i) :
    i.wellFormed = true ∧ encode i = .field k bits := by
  unfold decodeField at h
  split at h
  case h_1 b => cases b <;> cases h <;> exact ⟨rfl, rfl⟩
  case h_2 hi lo => cases hi <;> cases lo <;> cases h <;> exact ⟨rfl, rfl⟩
  case h_6 b => cases b <;> cases h <;> exact ⟨rfl, rfl⟩
  case h_9 b => cases b <;> cases h <;> exact ⟨rfl, rfl⟩
  case h_10 =>
    split_ifs at h with hlen hone
    cases h
    have hzero : bits = List.replicate bits.length false :=
      List.eq_replicate_iff.2 ⟨rfl, fun b hb => Bool.eq_false_iff.2 fun ht => hone (List.any_eq_true.2 ⟨b, hb, ht⟩)⟩
    exact ⟨decide_eq_true (Nat.lt_of_not_le hlen), by rw [encode, ← hzero]⟩
  case h_11 => cases h
  all_goals
    split_ifs at h with hlen
    cases h
    exact ⟨rfl, by rw [encode, bitsOf_ofNat_bitsVal hlen]⟩

/-- A field decoded has the stream bits that were read. -/
theorem fieldBits_of_decodeField {k : FieldKind} {bits : Bits} {i : Instr} (h : decodeField k bits = .ok i) :
    fieldBits i = bits := by
  rw [fieldBits, (encode_of_decodeField h).2]

/-- Settles O5: a string of a field's width decodes, and what it decodes to is well formed and has these bits. -/
theorem streamFieldsAreNeverIllegal : Obligations.StreamFieldsAreNeverIllegal := by
  have hfield {k : FieldKind} {bits : Bits} (h : ∃ i, decodeField k bits = .ok i) :
      ∃ i, decode (.field k bits) = .ok i ∧ i.wellFormed = true ∧ fieldBits i = bits := by
    obtain ⟨i, hi⟩ := h
    exact ⟨i, hi, (encode_of_decodeField hi).1, fieldBits_of_decodeField hi⟩
  refine ⟨fun k bits hk => hfield ?_, fun z bits hz => hfield ?_⟩
  · simp only [List.mem_cons, Prod.mk.injEq, List.not_mem_nil, or_false] at hk
    rcases hk with ⟨rfl, h⟩ | ⟨rfl, h⟩ | ⟨rfl, h⟩ | ⟨rfl, h⟩ | ⟨rfl, h⟩ | ⟨rfl, h⟩ | ⟨rfl, h⟩
    · obtain ⟨b, rfl⟩ := List.length_eq_one_iff.1 h
      exact ⟨_, rfl⟩
    · obtain ⟨hi, lo, rfl⟩ := List.length_eq_two.1 h
      exact ⟨_, rfl⟩
    · exact ⟨_, if_pos h⟩
    · exact ⟨_, if_pos h⟩
    · exact ⟨_, if_pos h⟩
    · obtain ⟨b, rfl⟩ := List.length_eq_one_iff.1 h
      exact ⟨_, rfl⟩
    · obtain ⟨b, rfl⟩ := List.length_eq_one_iff.1 h
      exact ⟨_, rfl⟩
  · cases z with
    | false => exact ⟨_, if_pos hz⟩
    | true => exact ⟨_, if_pos hz⟩

/-- Settles O3: nineteen codes evaluated. -/
theorem exampleFieldCodesDecode : Obligations.ExampleFieldCodesDecode := by
  unfold Obligations.ExampleFieldCodesDecode
  decide

/-- Settles O1: by the instruction. A command's word has the fields that were encoded, a host write to another register is
its own transaction, and a value is the value of its bits, whose number evaluates to the width the decoder asks for. -/
theorem decodeOfEncodeIsIdentity : Obligations.DecodeOfEncodeIsIdentity := by
  intro i hwf
  cases i with
  | cfg cmd mode irqEn => exact congrArg Except.ok (decodeCtrl_encodeCtrl_clear cmd mode irqEn)
  | compress mode irqEn => exact congrArg Except.ok (decodeCtrl_encodeCtrl_set 0b01 mode irqEn)
  | decompress mode irqEn => exact congrArg Except.ok (decodeCtrl_encodeCtrl_set 0b10 mode irqEn)
  | badCmd00 mode irqEn => exact congrArg Except.ok (decodeCtrl_encodeCtrl_set 0b00 mode irqEn)
  | badCmd11 mode irqEn => exact congrArg Except.ok (decodeCtrl_encodeCtrl_set 0b11 mode irqEn)
  | statusW1c doneClr errClr => exact congrArg Except.ok (decodeStatus_encodeStatus doneClr errClr)
  | wr32 addr data =>
    simp only [Instr.wellFormed, Bool.and_eq_true, bne_iff_ne] at hwf
    obtain ⟨hctrl, hstatus⟩ := hwf
    exact congrArg Except.ok ((if_neg hctrl).trans (if_neg hstatus))
  | wr8 addr data =>
    have hlow : (data.setWidth 32).setWidth 8 = data := by ext j hj; simp
    simp [encode, decode, decodeTxn, hlow]
  | classF8 value =>
    cases value with
    | none => rfl
    | some v => exact congrArg (fun u => Except.ok (Instr.classF8 (some u))) (ofNat_bitsVal_bitsOf v)
  | classF16 value =>
    cases value with
    | none => rfl
    | some v => exact congrArg (fun u => Except.ok (Instr.classF16 (some u))) (ofNat_bitsVal_bitsOf v)
  | classF32 value =>
    cases value with
    | none => rfl
    | some v => exact congrArg (fun u => Except.ok (Instr.classF32 (some u))) (ofNat_bitsVal_bitsOf v)
  | pairSize8 v => exact congrArg (fun u => Except.ok (Instr.pairSize8 u)) (ofNat_bitsVal_bitsOf v)
  | pairSize16 v => exact congrArg (fun u => Except.ok (Instr.pairSize16 u)) (ofNat_bitsVal_bitsOf v)
  | pad n =>
    simp only [Instr.wellFormed, decide_eq_true_eq] at hwf
    simp [encode, decode, decodeField, hwf]
  | _ => rfl

end Sys2Proof
end

section
/-!
SUPPORT. A field that COMPRESS writes: where the engine stands at it, and what writing it appends to the output
(30_encoding.md R145, R152; 45_orchestration.md R351, R356).
-/

namespace Sys2Proof.Machine

/-- At the start of C_HDR the engine stands at the mode flag of its mode (45_orchestration.md R351). -/
theorem nextField_modeFlag {s : State} (hp : s.phase = .cHdr) (hl : s.loop.stage = .entry) :
    s.nextField = some (if s.dp.mode then .modePair else .modeByte) := by
  simp [State.nextField, hp, hl]

/-- In C_EMIT the engine stands at the next bit of the symbol's code (45_orchestration.md R356). -/
theorem nextField_codeBit {s : State} {b : Bool} {rest : Bits} (hp : s.phase = .cEmit)
    (he : s.loop.emit = some (b :: rest)) : s.nextField = some (codeBit b) := by
  simp [State.nextField, hp, he]

/-- A field whose meaning is to write its bits and to move the loop position appends its bits, where they fit. -/
theorem appends_of_writeBits {s : State} {i : Instr} (h : Inv s) (hb : s.busy = true) (g : Loop → Loop)
    (hr : s.room (fieldBits i).length)
    (hi : exec i s = ((writeBits (fieldBits i) s).andThen fun t => .run { t with loop := g t.loop }).outcome) :
    s.appends i (fieldBits i) (g s.loop) := by
  obtain ⟨t, ht, hwrote, -⟩ := writeBits_room (h.canWrite hb) hr
  have hloop : t.loop = s.loop := by rw [hwrote.1]
  exact ⟨t, by rw [hi, ht, ← hloop]; rfl, hwrote⟩

/-- The mode flag in C_HDR is written, and the marker loop is next (45_orchestration.md R351). -/
theorem modeField_cHdr {s : State} (hp : s.phase = .cHdr) (pair : Bool) (i : Instr) :
    modeField pair i s = ((writeBits (fieldBits i) s).andThen fun t => .run (t.toStage .pass1)).outcome := by
  simp [modeField, hp]

/-- A code bit in C_EMIT is written, and the rest of the code is next (45_orchestration.md R356). -/
theorem codeField_cEmit {s : State} (hp : s.phase = .cEmit) (b : Bool) (i : Instr) :
    codeField b i s = ((writeBits (fieldBits i) s).andThen fun t =>
      .run { t with loop := { t.loop with emit := t.loop.emit.map List.tail } }).outcome := by
  simp [codeField, hp]

theorem exec_modeFlag (pair : Bool) (s : State) :
    exec (if pair then .modePair else .modeByte) s =
      atField (if pair then .modePair else .modeByte) s (modeField pair (if pair then .modePair else .modeByte) s) := by
  cases pair <;> rfl

theorem fieldBits_modeFlag (pair : Bool) : fieldBits (if pair then .modePair else .modeByte) = [pair] := by
  cases pair <;> rfl

theorem exec_codeBit (b : Bool) (s : State) : exec (codeBit b) s = atField (codeBit b) s (codeField b (codeBit b) s) := by
  cases b <;> rfl

theorem fieldBits_codeBit (b : Bool) : fieldBits (codeBit b) = [b] := by
  cases b <;> rfl

/-- At the start of C_HDR the mode flag appends the bit of the mode and leads to the marker loop. -/
theorem modeFlag_appends {s : State} (h : Inv s) (hr : s.room 1) (hp : s.phase = .cHdr) (hl : s.loop.stage = .entry) :
    s.appends (if s.dp.mode then .modePair else .modeByte) [s.dp.mode] { s.loop with stage := .pass1, s := 0 } := by
  have hexec := (exec_modeFlag s.dp.mode s).trans (atField_here (nextField_modeFlag hp hl) _)
  rw [modeField_cHdr hp] at hexec
  have happ := appends_of_writeBits h (busy_of_phase hp rfl) (fun l => { l with stage := .pass1, s := 0 })
    (by rw [fieldBits_modeFlag]; exact hr) hexec
  rwa [fieldBits_modeFlag] at happ

/-- In C_EMIT the code bit appends itself and leads to the rest of the code. -/
theorem codeBit_appends {s : State} {b : Bool} {rest : Bits} (h : Inv s) (hr : s.room 1) (hp : s.phase = .cEmit)
    (he : s.loop.emit = some (b :: rest)) : s.appends (codeBit b) [b] { s.loop with emit := some rest } := by
  have hexec := (exec_codeBit b s).trans (atField_here (nextField_codeBit hp he) _)
  rw [codeField_cEmit hp] at hexec
  have happ := appends_of_writeBits h (busy_of_phase hp rfl) (fun l => { l with emit := l.emit.map List.tail })
    (by rw [fieldBits_codeBit]; exact hr) hexec
  rwa [fieldBits_codeBit, he] at happ

/-- Settles O20: the mode flag by the mode, the code bit by the bit the engine stands at. -/
theorem oneBitFieldsAreWritten : Obligations.OneBitFieldsAreWritten := by
  intro s h hr
  refine ⟨fun hp hl => ?_, fun hp rest => ⟨codeBit_appends h hr hp, codeBit_appends h hr hp⟩⟩
  have happ := modeFlag_appends h hr hp hl
  exact ⟨fun hm => by rwa [hm] at happ, fun hm => by rwa [hm] at happ⟩

end Sys2Proof.Machine
end

section
/-!
SUPPORT. Reading back a finished output (40_bitstream.md R216, R217). The rules of the writer ask for an OUT_MEM in canonical
form; since the writer never reads OUT_MEM, a run of it from any memory is followed by one from an empty memory.
-/

namespace Sys2Proof.Machine

/-! ### The writer does not read OUT_MEM -/

/-- `s'` is `s` but for OUT_MEM, and the bytes flushed so far agree. -/
def SameOutput (s s' : State) : Prop :=
  s' = { s with outMem := s'.outMem } ∧ ∀ i, i < s.wr.idx.toNat → s'.outByte i = s.outByte i

/-- A line of pseudocode that, where it goes on from a state, goes on from every state of the same output as well, and
leaves the same output in both. -/
def OutputBlind (k : State → Flow) : Prop :=
  ∀ ⦃s s' t : State⦄, SameOutput s s' → k s = .run t → ∃ t', k s' = .run t' ∧ SameOutput t t'

theorem OutputBlind.andThen {f k : State → Flow} (hf : OutputBlind f) (hk : OutputBlind k) :
    OutputBlind fun s => (f s).andThen k := by
  intro s s' t h ht
  obtain ⟨u, hu, hut⟩ := Flow.andThen_eq_run ht
  obtain ⟨u', hu', hsame⟩ := hf h hu
  obtain ⟨t', ht', hsame'⟩ := hk hsame hut
  exact ⟨t', by simp only [hu', Flow.andThen_run, ht'], hsame'⟩

/-- A change of the writer that keeps its index. -/
theorem SameOutput.setWriter {s s' : State} (h : SameOutput s s') {w : Writer} (hw : w.idx = s.wr.idx) :
    SameOutput { s with wr := w } { s' with wr := w } := by
  obtain ⟨heq, hbytes⟩ := h
  rw [heq] at hbytes ⊢
  exact ⟨rfl, fun i hi => hbytes i (by rwa [← hw])⟩

theorem SameOutput.wr {s s' : State} (h : SameOutput s s') : s'.wr = s.wr := by rw [h.1]

theorem flush_outputBlind (x : Byte) : OutputBlind (flush x) := by
  intro s s' t h ht
  obtain ⟨heq, hbytes⟩ := h
  have hroom : s.wr.idx.toNat < s.cfg.outCap := by
    by_contra hfull
    rw [flush_full x (Nat.le_of_not_lt hfull)] at ht
    cases ht
  rw [flush_room x hroom] at ht
  cases ht
  rw [heq] at hbytes ⊢
  refine ⟨_, flush_room x hroom, rfl, fun i hi => ?_⟩
  have hle : (s.wr.idx + 1).toNat ≤ s.wr.idx.toNat + 1 := by rw [BitVec.toNat_add]; exact Nat.mod_le _ _
  by_cases hi' : i = s.wr.idx.toNat
  · simp [State.outByte, hi']
  · have := hbytes i (by simp only at hi; omega)
    simpa [State.outByte, hi'] using this

theorem writeBit_outputBlind (b : Bool) : OutputBlind (writeBit b) := by
  intro s s' t h ht
  unfold writeBit at ht ⊢
  rw [h.wr]
  split at ht
  case isTrue h7 =>
    rw [if_pos h7]
    refine (flush_outputBlind _).andThen (fun u u' v hu hv => ?_) h ht
    cases hv
    rw [hu.wr]
    exact ⟨_, rfl, hu.setWriter rfl⟩
  case isFalse h7 =>
    rw [if_neg h7]
    cases ht
    exact ⟨_, rfl, h.setWriter rfl⟩

theorem writeBits_outputBlind (bs : Bits) : OutputBlind (writeBits bs) := by
  induction bs with
  | nil =>
    intro s s' t h ht
    cases ht
    exact ⟨s', rfl, h⟩
  | cons b bs ih => exact (writeBit_outputBlind b).andThen ih

theorem finish_outputBlind : OutputBlind finish := by
  intro s s' t h ht
  unfold finish at ht ⊢
  rw [h.wr]
  split at ht
  case isTrue h0 =>
    rw [if_pos h0]
    cases ht
    exact ⟨s', rfl, h⟩
  case isFalse h0 =>
    rw [if_neg h0]
    refine (flush_outputBlind _).andThen (fun u u' v hu hv => ?_) h ht
    cases hv
    rw [hu.wr]
    exact ⟨_, rfl, hu.setWriter rfl⟩

/-- The flushed bytes are the same stream. -/
theorem SameOutput.streamBits_eq {s s' : State} (h : SameOutput s s') :
    streamBits s'.outByte 0 (8 * s.wr.idx.toNat) = streamBits s.outByte 0 (8 * s.wr.idx.toNat) :=
  streamBits_congr fun i _ _ hi => h.2 i (by omega)

/-! ### A finished output -/

/-- What is written from an empty writer and finished, in a memory in canonical form (40_bitstream.md R215, R216). -/
theorem CanWrite.finish_writeBits {s t u : State} {bs : Bits} (h : CanWrite s) (hbits : s.wr.bits = 0)
    (hwritten : s.written = []) (ht : writeBits bs s = .run t) (hu : finish t = .run u) :
    u.wr.idx.toNat = (bs.length + 7) / 8 ∧
      streamBits u.outByte 0 (8 * u.wr.idx.toNat) = bs ++ List.replicate (padLength bs.length) false := by
  obtain ⟨-, t₁, et, -, -, ct, hcount, -, ho⟩ | ⟨-, t₁, et, -⟩ := writeBits_spec bs h
  · obtain rfl : t₁ = t := Flow.run.inj (et.symm.trans ht)
    have hlen : t₁.wr.bits.toNat = bs.length := by rw [hcount, hbits]; exact Nat.zero_add _
    obtain ⟨u₁, eu, -, -, -, -, -, -, hidx, hstream, -⟩ | ⟨eu, -⟩ := finish_spec ct
    · obtain rfl : u₁ = u := Flow.run.inj (eu.symm.trans hu)
      rw [hlen] at hidx hstream
      rw [ho, hwritten, List.nil_append] at hstream
      exact ⟨hidx, hstream⟩
    · cases hu.symm.trans eu
  · cases ht.symm.trans et

/-- What is written from an empty writer and finished, whatever OUT_MEM held (40_bitstream.md R215, R216). -/
theorem finish_writeBits {s t u : State} {bs : Bits} (hv : s.cfg.valid = true)
    (hw : s.wr = { pend := 0, cnt := 0, idx := 0, bits := 0 }) (ht : writeBits bs s = .run t) (hu : finish t = .run u) :
    u.wr.idx.toNat = (bs.length + 7) / 8 ∧
      streamBits u.outByte 0 (8 * u.wr.idx.toNat) = bs ++ List.replicate (padLength bs.length) false := by
  have hsame : SameOutput s { s with outMem := [] } := ⟨rfl, fun i hi => absurd hi (by rw [hw]; exact Nat.not_lt_zero i)⟩
  have hcan : CanWrite { s with outMem := [] } := by
    simp only [Config.valid, Bool.and_eq_true, decide_eq_true_eq] at hv
    exact ⟨by simp [hw, Writer.ok], by simp [hw], hv.2, rfl⟩
  obtain ⟨t', ht', hsame⟩ := writeBits_outputBlind bs hsame ht
  obtain ⟨u', hu', hsame⟩ := finish_outputBlind hsame hu
  have hout := hcan.finish_writeBits (by simp [hw]) (by simp [State.written, hw, streamBits, bitsOf]) ht' hu'
  rwa [hsame.wr, hsame.streamBits_eq] at hout

/-- A part of a stream, read from its place. -/
theorem streamBits_middle {byteAt : Nat → Byte} {n : Nat} {pre mid post : Bits}
    (h : streamBits byteAt 0 n = pre ++ mid ++ post) : streamBits byteAt pre.length mid.length = mid := by
  have hn : n = pre.length + mid.length + post.length := by
    rw [← streamBits_length byteAt 0 n, h, List.length_append, List.length_append]
  rw [hn, streamBits_append, streamBits_append, Nat.zero_add] at h
  have hleft := (List.append_inj h (by simp)).1
  exact (List.append_inj hleft (by simp)).2

/-! ### A reader moved to a place -/

theorem Reader.moveTo_pos_ok {r : Reader} {p : Nat} (h : p ≤ 8 * r.len.toNat) :
    (r.moveTo p).pos = p ∧ (r.moveTo p).ok := by
  have hlen := r.len.isLt
  have hbyte : (r.moveTo p).byte.toNat = p / 8 := by
    simp only [Reader.moveTo, BitVec.toNat_ofNat]
    omega
  have hbit : (r.moveTo p).bit.toNat = p % 8 := by
    simp [Reader.moveTo]
  have hlen' : (r.moveTo p).len = r.len := rfl
  refine ⟨?_, ?_, fun heq => BitVec.eq_of_toNat_eq ?_⟩
  · rw [Reader.pos, hbyte, hbit]; omega
  · rw [hbyte, hlen']; omega
  · rw [hbyte, hlen'] at heq
    rw [hbit]
    exact (by omega : p % 8 = 0)

/-- read_bit at a place inside the input (40_bitstream.md R201). -/
theorem Reader.readBit_moveTo (byteAt : Nat → Byte) {r : Reader} {p : Nat} (h : p < 8 * r.len.toNat) :
    (r.moveTo p).readBit byteAt = (some (streamBit byteAt p), r.moveTo (p + 1)) := by
  obtain ⟨hpos, hok⟩ := Reader.moveTo_pos_ok (Nat.le_of_lt h)
  have hleft : (r.moveTo p).bitsLeft ≠ 0 := by
    rw [Reader.bitsLeft, hpos]
    exact Nat.sub_ne_zero_of_lt h
  obtain ⟨r', hread, hlen, hpos', -⟩ := Reader.readBit_next byteAt hok hleft
  rw [hread, Reader.eq_moveTo hlen, hpos', hpos]
  rfl

/-- read_bit at the end of the input (40_bitstream.md R201, R202). -/
theorem Reader.readBit_moveTo_end (byteAt : Nat → Byte) (r : Reader) :
    (r.moveTo (8 * r.len.toNat)).readBit byteAt = (none, r.moveTo (8 * r.len.toNat)) :=
  Reader.readBit_eos byteAt (by simp [Reader.moveTo])

/-- read_n_bits at the place of a field (40_bitstream.md R203). -/
theorem Reader.readN_moveTo (byteAt : Nat → Byte) {r : Reader} {p k : Nat} (h : p + k ≤ 8 * r.len.toNat) :
    ((r.moveTo p).readN byteAt k).1 = some (bitsVal (streamBits byteAt p k)) := by
  obtain ⟨hpos, hok⟩ := Reader.moveTo_pos_ok (Nat.le_of_add_right_le h)
  have hleft : k ≤ (r.moveTo p).bitsLeft := by
    rw [Reader.bitsLeft, hpos]
    exact Nat.le_sub_of_add_le' h
  obtain ⟨r', hread, -⟩ := Reader.readN_some byteAt hok hleft
  rw [hread, hpos]

/-- Settles O39: the stream of the finished output is the bits and the padding, and the reader follows the stream. -/
theorem readerReadsBackWhatTheWriterWrote : Obligations.ReaderReadsBackWhatTheWriterWrote := by
  intro s t u bs hv hw ht hu
  obtain ⟨hidx, hstream⟩ := finish_writeBits hv hw ht hu
  refine ⟨hidx, hstream, fun p hp => Reader.readBit_moveTo u.outByte hp, fun pre post n v hbs _ hlt => ?_,
    Reader.readBit_moveTo_end u.outByte _⟩
  have hfit : pre.length + n ≤ 8 * u.wr.idx.toNat := by
    have hlen : bs.length = pre.length + n + post.length := by simp [hbs]; omega
    omega
  have hfield : streamBits u.outByte pre.length n = bitsOf n v := by
    rw [hbs, List.append_assoc] at hstream
    simpa using streamBits_middle hstream
  rw [Reader.readN_moveTo u.outByte hfit, hfield, bitsVal_bitsOf, Nat.mod_eq_of_lt hlt]

end Sys2Proof.Machine
end

section
/-!
SUPPORT. The frequency table as a sparse table (10_state.md R62): which entries it lists, its total and its number of present
symbols as the entry of one symbol and the rest (43_header.md R289), and the range check's answer (41_frequency.md R236).
-/

namespace Sys2Proof.Machine

/-! ### The entries of a table in canonical form -/

theorem Table.mem_of_look {α : Type} {k : Nat} {v : α} : ∀ {t : Table α}, Table.look k t = some v → (k, v) ∈ t
  | [], h => nomatch h
  | (j, w) :: t, h => by
    rw [Table.look_cons] at h
    split_ifs at h with hj
    · cases hj; cases h; exact List.mem_cons_self
    · exact List.mem_cons_of_mem _ (Table.mem_of_look h)

theorem Table.le_of_mem {α : Type} {e : Nat × α} :
    ∀ {lo : Nat} {t : Table α}, Table.risingFrom lo t = true → e ∈ t → lo ≤ e.1
  | lo, (j, w) :: t, ht, he => by
    simp only [Table.risingFrom, Bool.and_eq_true, decide_eq_true_eq] at ht
    rcases List.mem_cons.1 he with rfl | he
    · exact ht.1
    · exact (Nat.le_of_succ_le (Table.le_of_mem ht.2 he)).trans' ht.1

theorem Table.look_of_mem {α : Type} {k : Nat} {v : α} :
    ∀ {lo : Nat} {t : Table α}, Table.risingFrom lo t = true → (k, v) ∈ t → Table.look k t = some v
  | lo, (j, w) :: t, ht, he => by
    simp only [Table.risingFrom, Bool.and_eq_true, decide_eq_true_eq] at ht
    rw [Table.look_cons]
    rcases List.mem_cons.1 he with he | he
    · cases he; exact if_pos rfl
    · have hlt : j < k := Table.le_of_mem ht.2 he
      rw [if_neg hlt.ne]
      exact Table.look_of_mem ht.2 he

theorem Table.lookD_cons {α : Type} (d : α) (k j : Nat) (v : α) (t : Table α) :
    Table.lookD d k ((j, v) :: t) = if j = k then v else Table.lookD d k t := by
  unfold Table.lookD
  rw [Table.look_cons]
  split_ifs <;> rfl

theorem Table.lookD_put {α : Type} (d : α) (k j : Nat) (v : α) (t : Table α) :
    Table.lookD d j (Table.put k v t) = if j = k then v else Table.lookD d j t := by
  unfold Table.lookD
  rw [Table.look_put]
  split_ifs <;> rfl

/-- A key below the table's first reads the default. -/
theorem Table.lookD_lt {α : Type} {d : α} {k lo : Nat} {t : Table α} (h : Table.risingFrom lo t = true) (hk : k < lo) :
    Table.lookD d k t = d := by
  rw [Table.lookD, Table.look_lt h hk]
  rfl

/-- A symbol that is no key of the table reads the default. -/
theorem Table.lookD_of_forall_ne {α : Type} {d : α} {k : Nat} {t : Table α} (h : ∀ e ∈ t, e.1 ≠ k) :
    Table.lookD d k t = d := by
  unfold Table.lookD
  cases hl : Table.look k t with
  | none => rfl
  | some v => exact absurd rfl (h _ (Table.mem_of_look hl))

/-- A table with rising keys below a bound has no more entries than there are such keys. -/
theorem Table.length_le {α : Type} {bound : Nat} :
    ∀ {lo : Nat} {t : Table α}, Table.risingFrom lo t = true → (∀ e ∈ t, e.1 < bound) → t.length ≤ bound - lo
  | _, [], _, _ => Nat.zero_le _
  | lo, (j, w) :: t, ht, hb => by
    simp only [Table.risingFrom, Bool.and_eq_true, decide_eq_true_eq] at ht
    have hrest := Table.length_le ht.2 fun e he => hb e (List.mem_cons_of_mem _ he)
    have hj : j < bound := hb _ List.mem_cons_self
    rw [List.length_cons]
    omega

theorem Table.del_of_look_none {α : Type} {k : Nat} : ∀ {t : Table α}, Table.look k t = none → Table.del k t = t
  | [], _ => rfl
  | (j, w) :: t, h => by
    rw [Table.look_cons] at h
    split_ifs at h with hj
    simp only [Table.del, if_neg hj, Table.del_of_look_none h]

/-- Writing a symbol's entry keeps what the table has besides it. -/
theorem Table.del_put {α : Type} {k : Nat} (v : α) :
    ∀ {lo : Nat} {t : Table α}, Table.risingFrom lo t = true → Table.del k (Table.put k v t) = Table.del k t
  | _, [], _ => by simp [Table.put, Table.del]
  | lo, (j, w) :: t, ht => by
    simp only [Table.risingFrom, Bool.and_eq_true, decide_eq_true_eq] at ht
    simp only [Table.put]
    split_ifs with hlt heq
    · have hnone : Table.del k ((j, w) :: t) = (j, w) :: t := Table.del_of_look_none (by
        rw [Table.look_cons, if_neg hlt.ne', Table.look_lt ht.2 (by omega)])
      rw [hnone]
      exact if_pos rfl
    · simp only [Table.del, heq, if_true]
    · simp only [Table.del, heq, if_false, Table.del_put v ht.2]

/-! ### The total and the number of present symbols -/

/-- What a count adds to the number of present symbols. -/
theorem freqPresent_cons (j : Nat) (w : BitVec 32) (t : Table (BitVec 32)) :
    freqPresent ((j, w) :: t) = freqPresent t + if w = 0 then 0 else 1 := by
  simp [freqPresent, List.countP_cons]

theorem freqTotal_cons (j : Nat) (w : BitVec 32) (t : Table (BitVec 32)) :
    freqTotal ((j, w) :: t) = w.toNat + freqTotal t := by
  simp [freqTotal]

/-- The total is one symbol's count and the total of the rest. -/
theorem freqTotal_eq_add_del (k : Nat) (t : Table (BitVec 32)) :
    freqTotal t = (Table.lookD 0 k t).toNat + freqTotal (Table.del k t) := by
  induction t with
  | nil => rfl
  | cons e t ih =>
    obtain ⟨j, w⟩ := e
    rw [Table.lookD_cons, Table.del]
    split_ifs
    · exact freqTotal_cons j w t
    · rw [freqTotal_cons, freqTotal_cons, ih, Nat.add_left_comm]

/-- The present symbols are one symbol, if present, and those of the rest. -/
theorem freqPresent_eq_add_del (k : Nat) (t : Table (BitVec 32)) :
    freqPresent t = (if Table.lookD 0 k t = 0 then 0 else 1) + freqPresent (Table.del k t) := by
  induction t with
  | nil => rfl
  | cons e t ih =>
    obtain ⟨j, w⟩ := e
    rw [Table.lookD_cons, Table.del]
    by_cases hj : j = k
    · rw [if_pos hj, if_pos hj, freqPresent_cons, Nat.add_comm]
    · rw [if_neg hj, if_neg hj, freqPresent_cons, freqPresent_cons, ih, Nat.add_assoc]

/-- Counting a symbol once more raises the total by one. -/
theorem freqTotal_put_succ {k : Nat} {f : BitVec 32} {t : Table (BitVec 32)} (h : Table.risingFrom 0 t = true)
    (hf : Table.lookD 0 k t = f) (hmax : f.toNat < 2 ^ 32 - 1) : freqTotal (Table.put k (f + 1) t) = freqTotal t + 1 := by
  have hlook : Table.lookD 0 k (Table.put k (f + 1) t) = f + 1 := by rw [Table.lookD_put, if_pos rfl]
  have hadd : (f + 1).toNat = f.toNat + 1 := by bv_omega
  rw [freqTotal_eq_add_del k (Table.put k (f + 1) t), freqTotal_eq_add_del k t, hlook, Table.del_put _ h, hf, hadd]
  omega

/-- Counting a symbol once more makes it present. -/
theorem freqPresent_put_succ {k : Nat} {f : BitVec 32} {t : Table (BitVec 32)} (h : Table.risingFrom 0 t = true)
    (hf : Table.lookD 0 k t = f) (hmax : f.toNat < 2 ^ 32 - 1) :
    freqPresent (Table.put k (f + 1) t) = freqPresent t + if f = 0 then 1 else 0 := by
  have hlook : Table.lookD 0 k (Table.put k (f + 1) t) = f + 1 := by rw [Table.lookD_put, if_pos rfl]
  have hne : f + 1 ≠ 0 := by bv_omega
  rw [freqPresent_eq_add_del k (Table.put k (f + 1) t), freqPresent_eq_add_del k t, hlook, Table.del_put _ h, hf, if_neg hne]
  split_ifs <;> omega

/-- Every present symbol counts in the total. -/
theorem freqPresent_le_freqTotal (t : Table (BitVec 32)) : freqPresent t ≤ freqTotal t := by
  induction t with
  | nil => exact le_refl _
  | cons e t ih =>
    obtain ⟨j, w⟩ := e
    rw [freqPresent_cons, freqTotal_cons]
    split_ifs with h
    · omega
    · have hpos : w.toNat ≠ 0 := fun h0 => h (BitVec.eq_of_toNat_eq h0)
      omega

/-- The present symbols of a table in canonical form are among its keys. -/
theorem freqPresent_le_of_wf {bound : Nat} {t : Table (BitVec 32)} (h : Table.wf bound t = true) :
    freqPresent t ≤ bound := by
  obtain ⟨hrise, hkeys⟩ := Table.wf_iff.1 h
  exact List.countP_le_length.trans (Table.length_le hrise hkeys)

/-! ### The range check's answer (41_frequency.md R236) -/

theorem overRange_cons (j : Nat) (w : BitVec 32) (t : Table (BitVec 32)) :
    overRange ((j, w) :: t) = if 65535 < w.toNat then some j else overRange t := by
  by_cases h : 65535 < w.toNat <;> simp [overRange, h]

/-- The answer is the smallest symbol whose count exceeds 65535. -/
theorem overRange_smallest {k : Nat} :
    ∀ {lo : Nat} {t : Table (BitVec 32)}, Table.risingFrom lo t = true → 65535 < (Table.lookD 0 k t).toNat →
      (∀ j, j < k → (Table.lookD 0 j t).toNat ≤ 65535) → overRange t = some k
  | lo, (j, w) :: t, ht, hk, hsmall => by
    simp only [Table.risingFrom, Bool.and_eq_true, decide_eq_true_eq] at ht
    rw [overRange_cons]
    rw [Table.lookD_cons] at hk
    by_cases hj : j = k
    · rw [if_pos hj] at hk
      rw [if_pos hk, hj]
    · rw [if_neg hj] at hk
      have hlt : j < k := by
        by_contra hge
        rw [Table.lookD_lt ht.2 (by omega)] at hk
        exact absurd hk (by decide)
      have hw : ¬ 65535 < w.toNat := by
        have := hsmall j hlt
        rw [Table.lookD_cons, if_pos rfl] at this
        exact Nat.not_lt.2 this
      rw [if_neg hw]
      refine overRange_smallest ht.2 hk fun i hi => ?_
      by_cases hij : j = i
      · rw [Table.lookD_lt ht.2 (by omega)]
        decide
      · have := hsmall i hi
        rwa [Table.lookD_cons, if_neg hij] at this

/-- Where no count exceeds 65535 the check finds no symbol. -/
theorem overRange_eq_none {t : Table (BitVec 32)} (h : Table.risingFrom 0 t = true)
    (hle : ∀ k, (Table.lookD 0 k t).toNat ≤ 65535) : overRange t = none := by
  simp only [overRange, Option.map_eq_none_iff, List.find?_eq_none, decide_eq_true_eq, Nat.not_lt]
  intro e he
  have := hle e.1
  rwa [Table.lookD, Table.look_of_mem h he] at this

end Sys2Proof.Machine
end

section
/-!
SUPPORT. C_CHECK: a pair count above 65535 ends the run, and any other table goes on to C_FLUSH or C_HDR (41_frequency.md
R236; 45_orchestration.md R352, R353).
-/

namespace Sys2Proof.Machine

/-- Where the range check finds no symbol, or none is made, the phase ends with nothing else changed. -/
theorem checkStep_goes_on {s : State} (h : s.dp.mode = true → overRange s.freq = none) :
    checkStep s = .run (s.enter (if s.dp.total = 0 then .cFlush else .cHdr)) := by
  unfold checkStep State.pairRangeCheck
  by_cases hm : s.dp.mode = true
  · rw [if_pos hm, h hm]; rfl
  · rw [if_neg hm]; rfl

/-- A symbol that the range check finds is raised. -/
theorem checkStep_raises {s : State} {k : Nat} (hm : s.dp.mode = true) (h : overRange s.freq = some k) :
    checkStep s = .ended (s.raise .pairFreqRange (BitVec.ofNat 32 k)) := by
  unfold checkStep State.pairRangeCheck
  rw [if_pos hm, h]
  rfl

theorem fineStep_cCheck {s : State} (hp : s.phase = .cCheck) : fineStep s = (checkStep s).outcome := by
  rw [fineStep_internal (busy_of_phase hp rfl) (by simp [State.nextField, hp])]
  simp [internalStep, hp]

/-- Before C_HDR no byte has been flushed (45_orchestration.md R352, R353). -/
theorem Inv.idx_zero_of_unwritten {s : State} (h : Inv s) (hp : s.phase = .cScan ∨ s.phase = .cCheck) : s.wr.idx = 0 := by
  have hb : s.busy = true := hp.elim (busy_of_phase · rfl) (busy_of_phase · rfl)
  have hcount := (h.writer hb).1.1
  rw [(h.unwritten hp).1] at hcount
  have hzero : s.wr.idx.toNat = 0 := by
    have : (0 : BitVec 32).toNat = 0 := rfl
    omega
  exact BitVec.eq_of_toNat_eq hzero

/-- Settles O36: the range check finds the smallest symbol whose count exceeds 65535, if there is one. -/
theorem checkRejectsPairCountsAbove65535 : Obligations.CheckRejectsPairCountsAbove65535 := by
  intro s h hp
  have hrise := (Table.wf_iff.1 h.freqWf).1
  rw [fineStep_cCheck hp]
  refine ⟨fun k hm hk hsmall => ⟨h.idx_zero_of_unwritten (.inr hp), ?_⟩, fun hfits => ?_⟩
  · rw [checkStep_raises hm (overRange_smallest hrise hk hsmall), raise_eq_failed h (busy_of_phase hp rfl) rfl rfl]
    rfl
  · have hnone : s.dp.mode = true → overRange s.freq = none := fun hm =>
      overRange_eq_none hrise (hfits.resolve_left (by simp [hm]))
    rw [checkStep_goes_on hnone]
    rfl

end Sys2Proof.Machine
end

section
/-!
SUPPORT. C_SCAN: the reader takes the input's symbols one after the other (41_frequency.md R231, R232), each finer step counts
one (R230), and the phase ends with the table's total and number of present symbols (R234).
-/

namespace Sys2Proof.Machine

/-! ### The symbols of the input -/

/-- A symbol of a mode is one of 2^W values (00_scope.md R17). -/
theorem two_pow_symWidth (pair : Bool) : 2 ^ symWidth pair = nsyms pair := by cases pair <;> rfl

theorem symWidth_eq (pair : Bool) : symWidth pair = 8 ∨ symWidth pair = 16 := by cases pair <;> decide

/-- The number of whole symbols in an input is at most its length in bytes. -/
theorem symbols_le (pair : Bool) (len : Nat) : 8 * len / symWidth pair ≤ len := by
  rcases symWidth_eq pair with h | h <;> rw [h] <;> omega

/-- The symbol that W bits of the stream at place n of the symbols make (41_frequency.md R231). -/
def symbolAt (pair : Bool) (byteAt : Nat → Byte) (n : Nat) : Nat :=
  bitsVal (streamBits byteAt (symWidth pair * n) (symWidth pair))

theorem symbolAt_lt (pair : Bool) (byteAt : Nat → Byte) (n : Nat) : symbolAt pair byteAt n < nsyms pair := by
  rw [← two_pow_symWidth]
  simpa [symbolAt] using bitsVal_lt (streamBits byteAt (symWidth pair * n) (symWidth pair))

theorem bitsVal_streamBits_byte (byteAt : Nat → Byte) (i : Nat) :
    bitsVal (streamBits byteAt (8 * i) 8) = (byteAt i).toNat := by
  rw [streamBits_byte, bitsVal_bitsOf]
  exact Nat.mod_eq_of_lt (byteAt i).isLt

theorem symbolAt_byte (byteAt : Nat → Byte) (n : Nat) : symbolAt false byteAt n = (byteAt n).toNat :=
  bitsVal_streamBits_byte byteAt n

theorem symbolAt_pair (byteAt : Nat → Byte) (n : Nat) :
    symbolAt true byteAt n = 256 * (byteAt (2 * n)).toNat + (byteAt (2 * n + 1)).toNat := by
  have hplace : symWidth true * n = 8 * (2 * n) := by rw [symWidth, if_pos rfl]; omega
  have hnext : 8 * (2 * n) + 8 = 8 * (2 * n + 1) := by omega
  have hsplit : streamBits byteAt (8 * (2 * n)) (symWidth true)
      = streamBits byteAt (8 * (2 * n)) 8 ++ streamBits byteAt (8 * (2 * n + 1)) 8 := by
    rw [← hnext]
    exact streamBits_append byteAt _ 8 8
  rw [symbolAt, hplace, hsplit, bitsVal_append, bitsVal_streamBits_byte, bitsVal_streamBits_byte, streamBits_length,
    Nat.mul_comm]
  rfl

/-- The input's symbols are the whole ones at their places in the stream (41_frequency.md R231, R232). -/
theorem inputSymbols_eq (pair : Bool) (byteAt : Nat → Byte) (len : Nat) :
    inputSymbols pair byteAt len = (List.range (8 * len / symWidth pair)).map (symbolAt pair byteAt) := by
  cases pair with
  | false =>
    have hlen : 8 * len / symWidth false = len := Nat.mul_div_cancel_left len (by decide)
    rw [hlen, funext (symbolAt_byte byteAt)]
    rfl
  | true =>
    have hlen : 8 * len / symWidth true = len / 2 := by rw [symWidth, if_pos rfl]; omega
    rw [hlen, funext (symbolAt_pair byteAt)]
    rfl

/-! ### Counting -/

/-- The frequency table, total and nsym are those of the symbols `l`. -/
structure FreqTally (s : State) (l : List Nat) : Prop where
  freq : ∀ k, (s.freqAt k).toNat = l.count k
  sum : freqTotal s.freq = l.length
  total : s.dp.total.toNat = l.length
  nsym : s.dp.nsym.toNat = freqPresent s.freq

theorem FreqTally.congr {s t : State} {l : List Nat} (h : FreqTally s l) (hf : t.freq = s.freq) (hd : t.dp = s.dp) :
    FreqTally t l where
  freq := by unfold State.freqAt; rw [hf]; exact h.freq
  sum := by rw [hf]; exact h.sum
  total := by rw [hd]; exact h.total
  nsym := by rw [hd, hf]; exact h.nsym

/-- Only what C_SCAN sets differs: the reader's position, freq, total, nsym, PHASE and the loop positions. -/
def ScanKept (s t : State) : Prop :=
  t = { s with
    rd := { t.rd with len := s.rd.len }
    dp := { s.dp with total := t.dp.total, nsym := t.dp.nsym }
    freq := t.freq
    phase := t.phase
    loop := t.loop }

theorem ScanKept.trans {s t u : State} (h : ScanKept s t) (k : ScanKept t u) : ScanKept s u := by
  unfold ScanKept at *
  rw [h] at k
  exact k

/-- One symbol more is counted, where fewer than 2^32 − 1 have been (41_frequency.md R230, R233). -/
theorem FreqTally.count {s : State} {l : List Nat} {r : Nat} (h : FreqTally s l) (hwf : Table.wf 65536 s.freq = true)
    (hr : r < 65536) (hl : l.length < 2 ^ 32 - 1) :
    ∃ t, s.count r = .run t ∧ FreqTally t (l ++ [r]) ∧ ScanKept s t ∧ t.rd = s.rd ∧ t.phase = s.phase ∧
      t.loop = s.loop := by
  have hrise := (Table.wf_iff.1 hwf).1
  have hlt : (s.freqAt r).toNat < 2 ^ 32 - 1 := by rw [h.freq]; exact List.count_le_length.trans_lt hl
  have hlen : (l ++ [r]).length = l.length + 1 := List.length_append
  have hadd : (s.freqAt r + 1).toNat = (s.freqAt r).toNat + 1 := by bv_omega
  have hsum : freqTotal (Table.put r (s.freqAt r + 1) s.freq) = freqTotal s.freq + 1 := freqTotal_put_succ hrise rfl hlt
  have hpresent := freqPresent_put_succ hrise (f := s.freqAt r) rfl hlt
  have hbound := freqPresent_le_of_wf (Table.wf_put (s.freqAt r + 1) hr hwf)
  have htotal : (s.dp.total + 1).toNat = s.dp.total.toNat + 1 := by have := h.total; bv_omega
  unfold State.count
  dsimp only
  rw [if_neg hlt.ne]
  refine ⟨_, rfl, { freq := fun k => ?_, sum := ?_, total := ?_, nsym := ?_ }, rfl, rfl, rfl, rfl⟩
  · show (Table.lookD 0 k (Table.put r (s.freqAt r + 1) s.freq)).toNat = _
    rw [Table.lookD_put, List.count_append]
    by_cases hk : k = r
    · rw [if_pos hk, hadd, h.freq, hk, List.count_singleton_self]
    · rw [if_neg hk, List.count_singleton, if_neg (by simpa using Ne.symm hk)]
      exact h.freq k
  · rw [hlen, ← h.sum]
    exact hsum
  · rw [hlen, ← h.total]
    exact htotal
  · have hnsym := h.nsym
    rw [hpresent] at hbound ⊢
    dsimp only
    split_ifs at hbound ⊢
    · bv_omega
    · exact hnsym

/-! ### The finer steps -/

theorem fineStep_cScan {s : State} (hp : s.phase = .cScan) : fineStep s = (scanStep s).outcome := by
  rw [fineStep_internal (busy_of_phase hp rfl) (by simp [State.nextField, hp])]
  simp [internalStep, hp]

/-- The loop's set-up (41_frequency.md R230). -/
theorem scanStep_entry {s : State} (hg : s.loop.stage = .entry) :
    scanStep s = .run ({ s with rd := s.rd.reset, dp := { s.dp with total := 0, nsym := 0 } }.toStage .pass1) := by
  simp only [scanStep, hg]

/-- A whole symbol is left: it is counted. -/
theorem scanStep_symbol {s : State} (hg : s.loop.stage = .pass1) (hok : s.rd.ok)
    (hfit : s.rd.pos + symWidth s.dp.mode ≤ 8 * s.rd.len.toNat) :
    scanStep s = (s.past (symWidth s.dp.mode)).count (bitsVal (streamBits s.inByte s.rd.pos (symWidth s.dp.mode))) := by
  simp only [scanStep, hg, State.peekN_some hok hfit, State.skipN_eq_past _ hok]

/-- Less than a symbol is left: the phase ends (41_frequency.md R232). -/
theorem scanStep_end {s : State} (hg : s.loop.stage = .pass1) (hok : s.rd.ok)
    (hshort : 8 * s.rd.len.toNat < s.rd.pos + symWidth s.dp.mode) :
    scanStep s = .run ((s.past (symWidth s.dp.mode)).enter .cCheck) := by
  simp only [scanStep, hg, State.peekN_none hok hshort, State.skipN_eq_past _ hok]

/-! ### The loop -/

/-- `u` stands in the loop of the C_SCAN that started from `s`, with the input's first n symbols counted. -/
structure Scanning (s u : State) (n : Nat) : Prop where
  inv : Inv u
  phase : u.phase = .cScan
  stage : u.loop.stage = .pass1
  kept : ScanKept s u
  pos : u.rd.pos = symWidth s.dp.mode * n
  tally : FreqTally u ((List.range n).map (symbolAt s.dp.mode s.inByte))

theorem ScanKept.mode {s t : State} (h : ScanKept s t) : t.dp.mode = s.dp.mode := by rw [h]

theorem ScanKept.len {s t : State} (h : ScanKept s t) : t.rd.len = s.rd.len := by rw [h]

theorem ScanKept.inByte {s t : State} (h : ScanKept s t) : t.inByte = s.inByte := by rw [h]; rfl

/-- The engine's first finer step of C_SCAN. -/
theorem scanning_zero {s : State} (h : Inv s) (hp : s.phase = .cScan) (hg : s.loop.stage = .entry) (hf : s.freq = []) :
    ∃ u, fineStep s = .next u ∧ Scanning s u 0 := by
  have hstep : fineStep s = _ := (fineStep_cScan hp).trans (congrArg Flow.outcome (scanStep_entry hg))
  exact ⟨_, hstep,
    { inv := h.fineStep hstep
      phase := hp
      stage := rfl
      kept := rfl
      pos := rfl
      tally :=
        { freq := fun k => by simp [State.freqAt, hf, Table.lookD]
          sum := by simp [hf, freqTotal]
          total := rfl
          nsym := by simp [hf, freqPresent] } }⟩

/-- While a whole symbol is left the engine's finer step counts it. -/
theorem Scanning.next {s u : State} {n : Nat} (h : Scanning s u n) (hn : n < 8 * s.rd.len.toNat / symWidth s.dp.mode) :
    ∃ v, fineStep u = .next v ∧ Scanning s v (n + 1) := by
  have hrun := h.inv.runAt h.phase rfl
  have hmode := h.kept.mode
  have hlen := h.kept.len
  have hfit : u.rd.pos + symWidth u.dp.mode ≤ 8 * u.rd.len.toNat := by
    rw [h.pos, hmode, hlen, ← Nat.mul_succ, Nat.mul_comm]
    exact (Nat.le_div_iff_mul_le (by rcases symWidth_eq s.dp.mode with e | e <;> omega)).1 hn
  have hcount : ((List.range n).map (symbolAt s.dp.mode s.inByte)).length < 2 ^ 32 - 1 := by
    have hle := symbols_le s.dp.mode s.rd.len.toNat
    have hcap := hrun.reader.2
    have hvalid := h.inv.cfgValid
    simp only [Config.valid, Bool.and_eq_true, decide_eq_true_eq] at hvalid
    rw [hlen] at hcap
    rw [List.length_map, List.length_range]
    omega
  obtain ⟨-, -, hpos⟩ := State.past_ok (symWidth u.dp.mode) hrun.reader.1
  have htally : FreqTally (u.past (symWidth u.dp.mode)) _ := h.tally.congr rfl rfl
  have hsym : bitsVal (streamBits u.inByte u.rd.pos (symWidth u.dp.mode)) = symbolAt s.dp.mode s.inByte n := by
    rw [h.kept.inByte, h.pos, hmode, symbolAt]
  obtain ⟨v, hv, hv_tally, hv_kept, hv_rd, hv_phase, hv_loop⟩ :=
    htally.count h.inv.freqWf (lt_of_lt_nsyms (symbolAt_lt s.dp.mode s.inByte n)) hcount
  have hstep : fineStep u = .next v := by
    rw [fineStep_cScan h.phase, scanStep_symbol h.stage hrun.reader.1 hfit, hsym, hv]
    rfl
  exact ⟨v, hstep,
    { inv := h.inv.fineStep hstep
      phase := hv_phase.trans h.phase
      stage := by rw [hv_loop]; exact h.stage
      kept := h.kept.trans (ScanKept.trans (t := u.past (symWidth u.dp.mode)) rfl hv_kept)
      pos := by rw [hv_rd, hpos, Nat.min_eq_left hfit, h.pos, hmode, Nat.mul_succ]
      tally := by rw [List.range_succ, List.map_append]; exact hv_tally }⟩

/-- `t` is where the C_SCAN that started from `s` ends. -/
structure Scanned (s t : State) : Prop where
  phase : t.phase = .cCheck
  kept : ScanKept s t
  tally : FreqTally t (inputSymbols s.dp.mode s.inByte s.rd.len.toNat)

/-- Past the last whole symbol the engine's finer step ends the phase. -/
theorem Scanning.finish {s u : State} (h : Scanning s u (8 * s.rd.len.toNat / symWidth s.dp.mode)) :
    ∃ t, fineStep u = .next t ∧ Scanned s t := by
  have hok := (h.inv.runAt h.phase rfl).reader.1
  have hshort : 8 * u.rd.len.toNat < u.rd.pos + symWidth u.dp.mode := by
    rw [h.pos, h.kept.mode, h.kept.len]
    exact Nat.lt_mul_div_succ _ (by rcases symWidth_eq s.dp.mode with e | e <;> omega)
  have hstep : fineStep u = _ := (fineStep_cScan h.phase).trans (congrArg Flow.outcome (scanStep_end h.stage hok hshort))
  exact ⟨_, hstep,
    { phase := rfl
      kept := h.kept.trans rfl
      tally := by rw [inputSymbols_eq]; exact h.tally.congr rfl rfl }⟩

/-- The loop counts every symbol that is left and the phase ends. -/
theorem Scanning.runPhase {s u : State} {n bound : Nat} (h : Scanning s u n)
    (hn : n ≤ 8 * s.rd.len.toNat / symWidth s.dp.mode) (hbound : 8 * s.rd.len.toNat / symWidth s.dp.mode - n < bound) :
    ∃ t, runPhase bound u = .next t ∧ Scanned s t := by
  induction bound generalizing u n with
  | zero => exact absurd hbound (Nat.not_lt_zero _)
  | succ bound ih =>
    rcases Nat.lt_or_eq_of_le hn with hlt | rfl
    · obtain ⟨v, hstep, hv⟩ := h.next hlt
      rw [runPhase_on hstep (hv.phase.trans h.phase.symm)]
      exact ih hv hlt (by omega)
    · obtain ⟨t, hstep, ht⟩ := h.finish
      exact ⟨t, runPhase_end hstep (by rw [ht.phase, h.phase]; decide), ht⟩

/-- The engine step of C_SCAN (45_orchestration.md R350). -/
theorem engineStep_cScan {s : State} (h : Inv s) (hp : s.phase = .cScan) (hg : s.loop.stage = .entry) (hf : s.freq = []) :
    ∃ t, engineStep s = .next t ∧ Scanned s t := by
  obtain ⟨u, hstep, hu⟩ := scanning_zero h hp hg hf
  have hle := symbols_le s.dp.mode s.rd.len.toNat
  have hbound : s.phaseBound = (16 * s.rd.len.toNat + 16 * s.cfg.outCap + 131199) + 1 := rfl
  rw [engineStep, hbound, runPhase_on hstep (hu.phase.trans hp.symm)]
  exact hu.runPhase (Nat.zero_le _) (by omega)

/-- During a run the frequency table is one of the run's symbols (10_state.md R62). -/
theorem Inv.freqWf_mode {s : State} (h : Inv s) (hb : s.busy = true) : Table.wf (nsyms s.dp.mode) s.freq = true := by
  obtain ⟨hrise, hkeys⟩ := Table.wf_iff.1 h.freqWf
  refine Table.wf_iff.2 ⟨hrise, ?_⟩
  cases hm : s.dp.mode with
  | false => exact h.freqByte hb hm
  | true => exact hkeys

/-- Settles O34: by induction on the symbols left, each finer step counts the next one. -/
theorem scanCountsTheInput : Obligations.ScanCountsTheInput := by
  intro s h hp hg hf
  obtain ⟨t, hstep, ht⟩ := engineStep_cScan h hp hg hf
  obtain ⟨hfreq, hsum, htotal, hnsym⟩ := ht.tally
  have hb : t.busy = true := busy_of_phase ht.phase rfl
  have hinv : Inv t := Inv.runPhase h hstep
  have hlen : (inputSymbols s.dp.mode s.inByte s.rd.len.toNat).length = 8 * s.rd.len.toNat / symWidth s.dp.mode := by
    rw [inputSymbols_eq, List.length_map, List.length_range]
  have hmost : freqPresent t.freq ≤ 2 ^ symWidth s.dp.mode := by
    rw [two_pow_symWidth, ← ht.kept.mode]
    exact freqPresent_le_of_wf (hinv.freqWf_mode hb)
  have hbyte (hm : s.dp.mode = false) (k : Nat) (hk : 256 ≤ k) : t.freqAt k = 0 :=
    Table.lookD_of_forall_ne fun e he => by
      have hkey := hinv.freqByte hb (ht.kept.mode.trans hm) e he
      omega
  refine ⟨t, hstep, ht.phase, hfreq, htotal.trans hsum.symm, htotal.trans hlen, hnsym, ?_, hbyte, ?_⟩
  · rw [hnsym, htotal, ← hsum]
    exact le_min (freqPresent_le_freqTotal t.freq) hmost
  · rw [ht.kept]
    exact ⟨rfl, rfl, rfl⟩

end Sys2Proof.Machine
end

section
/-!
SUPPORT. The priority structure of the tree builder: the extraction order as the order of a number per node, and a merge step
as one statement about the nodes it holds (42_tree.md R250, R251).
-/

namespace Sys2Proof.Machine

/-! ### The extraction order -/

/-- A symbol identity's place in the order of 42_tree.md R251. -/
def Sym.rank (s : Sym) : Nat :=
  (if s.pair then 0 else 65536) + s.val.toNat

/-- A node's place in the extraction order of 42_tree.md R251. -/
def Tree.rank (t : Tree) : Nat :=
  131072 * t.freq.toNat + t.key.rank

theorem Sym.rank_lt (s : Sym) : s.rank < 131072 := by
  have hval := s.val.isLt
  unfold Sym.rank
  split_ifs <;> omega

theorem Sym.before_iff (a b : Sym) : a.before b = true ↔ a.rank < b.rank := by
  have ha := a.val.isLt
  have hb := b.val.isLt
  unfold Sym.before Sym.rank
  cases a.pair <;> cases b.pair <;> simp <;> omega

theorem Sym.before_eq_false_iff (a b : Sym) : a.before b = false ↔ b.rank ≤ a.rank := by
  rw [← Bool.not_eq_true, Sym.before_iff, not_lt]

theorem Sym.eq_of_rank_eq {a b : Sym} (h : a.rank = b.rank) : a = b := by
  obtain ⟨p, v⟩ := a
  obtain ⟨q, w⟩ := b
  have hv := v.isLt
  have hw := w.isLt
  cases p <;> cases q <;> simp [Sym.rank] at h ⊢ <;> bv_omega

theorem Sym.min_eq_or (a b : Sym) : a.min b = a ∨ a.min b = b := by
  unfold Sym.min
  split_ifs
  · exact .inr rfl
  · exact .inl rfl

theorem Sym.rank_min (a b : Sym) : (a.min b).rank = Nat.min a.rank b.rank := by
  unfold Sym.min
  simp only [Sym.before_iff]
  split_ifs with h
  · exact (Nat.min_eq_right h.le).symm
  · exact (Nat.min_eq_left (not_lt.1 h)).symm

theorem Tree.before_iff (a b : Tree) : a.before b = true ↔ a.rank < b.rank := by
  have ha := a.key.rank_lt
  have hb := b.key.rank_lt
  simp only [Tree.before, Tree.rank, Bool.or_eq_true, Bool.and_eq_true, decide_eq_true_eq, beq_iff_eq, Sym.before_iff,
    ← BitVec.toNat_inj]
  omega

theorem Tree.key_eq_of_rank_eq {a b : Tree} (h : a.rank = b.rank) : a.key = b.key := by
  have ha := a.key.rank_lt
  have hb := b.key.rank_lt
  unfold Tree.rank at h
  exact Sym.eq_of_rank_eq (by omega)

/-- extract_min answers a node that no node of the queue comes before. -/
theorem extractMin_least (t : Tree) (q : List Tree) : ∀ u ∈ t :: q, (extractMin t q).1.rank ≤ u.rank := by
  induction q generalizing t with
  | nil => simp [extractMin]
  | cons v q ih =>
    simp only [extractMin, Tree.before_iff, List.forall_mem_cons]
    split_ifs with hlt
    · obtain ⟨hv, hq⟩ := List.forall_mem_cons.1 (ih v)
      exact ⟨hv.trans hlt.le, hv, hq⟩
    · obtain ⟨ht, hq⟩ := List.forall_mem_cons.1 (ih t)
      exact ⟨ht, ht.trans (not_lt.1 hlt), hq⟩

/-! ### A merge step -/

/-- The queue `q` holds `a`, `b` and `rest`; extract_min takes `a` first, then `b`. -/
structure TakesTwo (q : List Tree) (a b : Tree) (rest : List Tree) : Prop where
  perm : (a :: b :: rest).Perm q
  first : ∀ u ∈ b :: rest, a.rank ≤ u.rank
  second : ∀ u ∈ rest, b.rank ≤ u.rank

@[simp] theorem mergeLoop_nil (n : Nat) : mergeLoop n [] = .empty := by cases n <;> rfl

/-- One node: no merge takes place (42_tree.md R254). -/
@[simp] theorem mergeLoop_singleton (n : Nat) (t : Tree) : mergeLoop n [t] = t := by cases n <;> rfl

/-- A queue of two nodes or more: the loop merges the two it takes (42_tree.md R250). -/
theorem mergeLoop_succ (n : Nat) {q : List Tree} (h : 2 ≤ q.length) :
    ∃ a b rest, TakesTwo q a b rest ∧ mergeLoop (n + 1) q = mergeLoop n (a.merge b :: rest) := by
  match q, h with
  | t :: u :: q, _ =>
    have hlen := extractMin_length t (u :: q)
    have hperm := extractMin_perm t (u :: q)
    have hleast := extractMin_least t (u :: q)
    cases hrest : (extractMin t (u :: q)).2 with
    | nil => simp [hrest] at hlen
    | cons v q' =>
      rw [hrest] at hperm
      have htwo := extractMin_perm v q'
      have hsecond := extractMin_least v q'
      exact ⟨_, _, _,
        { perm := (htwo.cons _).trans hperm
          first := fun w hw => hleast w (hperm.subset (List.mem_cons_of_mem _ (htwo.subset hw)))
          second := fun w hw => hsecond w (extractMin_mem (.inr hw)) },
        by simp only [mergeLoop, hrest]⟩

/-- A merge leaves one node fewer. -/
theorem TakesTwo.length_merge {q rest : List Tree} {a b : Tree} (h : TakesTwo q a b rest) :
    (a.merge b :: rest).length + 1 = q.length := h.perm.length_eq

/-! ### The order of the queue -/

/-- Of the same nodes with distinct keys, held in two orders, the least is one node. -/
theorem least_unique {a a' : Tree} {q q' : List Tree} (hnodup : ((a :: q).map Tree.key).Nodup)
    (hperm : (a :: q).Perm (a' :: q')) (h : ∀ u ∈ q, a.rank ≤ u.rank) (h' : ∀ u ∈ q', a'.rank ≤ u.rank) :
    a = a' ∧ q.Perm q' := by
  have ha : a ∈ a' :: q' := hperm.subset List.mem_cons_self
  have ha' : a' ∈ a :: q := hperm.symm.subset List.mem_cons_self
  have hle : a.rank ≤ a'.rank := List.forall_mem_cons (p := fun u => a.rank ≤ u.rank).2 ⟨le_rfl, h⟩ a' ha'
  have hge : a'.rank ≤ a.rank := List.forall_mem_cons (p := fun u => a'.rank ≤ u.rank).2 ⟨le_rfl, h'⟩ a ha
  have hkey : a.key = a'.key := Tree.key_eq_of_rank_eq (hle.antisymm hge)
  have heq : a = a' := List.inj_on_of_nodup_map hnodup List.mem_cons_self ha' hkey
  subst heq
  exact ⟨rfl, hperm.cons_inv⟩

/-- What is taken from a queue of nodes with distinct keys does not depend on the order in which it holds them. -/
theorem TakesTwo.unique {q q' rest rest' : List Tree} {a b a' b' : Tree} (hnodup : (q.map Tree.key).Nodup)
    (hperm : q.Perm q') (h : TakesTwo q a b rest) (h' : TakesTwo q' a' b' rest') :
    a = a' ∧ b = b' ∧ rest.Perm rest' := by
  have hkeys : ((a :: b :: rest).map Tree.key).Nodup := (h.perm.map _).nodup_iff.2 hnodup
  obtain ⟨ha, hrest⟩ := least_unique hkeys (h.perm.trans (hperm.trans h'.perm.symm)) h.first h'.first
  exact ⟨ha, least_unique (List.nodup_cons.1 hkeys).2 hrest h.second h'.second⟩

/-- A merge keeps the keys distinct: the new key is one of the two that it replaces (42_tree.md R253). -/
theorem TakesTwo.keys_nodup {q rest : List Tree} {a b : Tree} (h : TakesTwo q a b rest)
    (hnodup : (q.map Tree.key).Nodup) : ((a.merge b :: rest).map Tree.key).Nodup := by
  have hkeys : ((a :: b :: rest).map Tree.key).Nodup := (h.perm.map _).nodup_iff.2 hnodup
  simp only [List.map_cons, List.nodup_cons, List.mem_cons, not_or] at hkeys ⊢
  obtain ⟨⟨-, ha⟩, hb, hrest⟩ := hkeys
  refine ⟨?_, hrest⟩
  rcases Sym.min_eq_or a.key b.key with hmin | hmin
  · exact (congrArg (· ∉ rest.map Tree.key) hmin).mpr ha
  · exact (congrArg (· ∉ rest.map Tree.key) hmin).mpr hb

/-- A queue of at most one node has one order. -/
theorem eq_of_perm_of_length_lt_two {q q' : List Tree} (hperm : q.Perm q') (hlen : q.length < 2) : q = q' := by
  match q, hlen with
  | [], _ => exact (List.nil_perm.1 hperm).symm
  | [t], _ => exact List.singleton_perm.1 hperm

/-- The merge loop builds one tree from two orders of the same nodes with distinct keys (42_tree.md R257). -/
theorem mergeLoop_congr (n : Nat) {q q' : List Tree} (hlen : q.length ≤ n + 1) (hnodup : (q.map Tree.key).Nodup)
    (hperm : q.Perm q') : mergeLoop n q = mergeLoop n q' := by
  induction n generalizing q q' with
  | zero => rw [eq_of_perm_of_length_lt_two hperm (by omega)]
  | succ n ih =>
    rcases Nat.lt_or_ge q.length 2 with hshort | hlong
    · rw [eq_of_perm_of_length_lt_two hperm hshort]
    · obtain ⟨a, b, rest, htake, heq⟩ := mergeLoop_succ n hlong
      obtain ⟨a', b', rest', htake', heq'⟩ := mergeLoop_succ n (hperm.length_eq ▸ hlong)
      obtain ⟨rfl, rfl, hrest⟩ := htake.unique hnodup hperm htake'
      have hmerge := htake.length_merge
      rw [heq, heq']
      exact ih (by omega) (htake.keys_nodup hnodup) (hrest.cons _)

/-- Settles O41: at every merge both orders take the same two nodes and leave the same rest. -/
theorem treeIsIndependentOfTheQueueOrder : Obligations.TreeIsIndependentOfTheQueueOrder := by
  intro q q' hperm hnodup
  rw [← hperm.length_eq]
  exact mergeLoop_congr q.length (Nat.le_succ _) hnodup hperm

end Sys2Proof.Machine
end

section
/-!
SUPPORT. What the tree of a table is: its leaves, counted and with their frequencies, and what every node's frequency and key
say of the leaves below it (42_tree.md R252, R253, R254, R258).
-/

namespace Sys2Proof.Machine

/-! ### The number of nodes -/

/-- Two children at every node: one internal node fewer than leaves. -/
theorem Tree.internal_succ {t : Tree} (h : t.full = true) : t.internal + 1 = t.leafList.length := by
  induction t with
  | empty => cases h
  | leaf => rfl
  | node l r f k ihl ihr =>
    simp only [Tree.full, Bool.and_eq_true] at h
    have hl := ihl h.1
    have hr := ihr h.2
    simp only [Tree.internal, Tree.leafList, List.length_append]
    omega

/-- A path passes no more edges than the tree has internal nodes. -/
theorem Tree.depth_le_internal (t : Tree) : t.depth ≤ t.internal := by
  induction t with
  | empty => exact le_rfl
  | leaf => exact le_rfl
  | node l r f k ihl ihr =>
    simp only [Tree.depth, Tree.internal]
    omega

/-! ### The leaves -/

@[simp] theorem Tree.leafList_merge (a b : Tree) : (a.merge b).leafList = a.leafList ++ b.leafList := rfl

/-- The merge loop loses no leaf and adds none. -/
theorem mergeLoop_leafList (n : Nat) {q : List Tree} (hlen : q.length ≤ n + 1) :
    (mergeLoop n q).leafList.Perm (q.flatMap Tree.leafList) := by
  rcases Nat.lt_or_ge q.length 2 with hshort | hlong
  · match q, hshort with
    | [], _ => rw [mergeLoop_nil]; exact List.Perm.refl _
    | [t], _ => rw [mergeLoop_singleton, List.flatMap_singleton]
  · match n with
    | 0 => omega
    | n + 1 =>
      obtain ⟨a, b, rest, htake, heq⟩ := mergeLoop_succ n hlong
      have hmerge := htake.length_merge
      rw [heq]
      calc
        List.Perm _ ((a.merge b :: rest).flatMap Tree.leafList) := mergeLoop_leafList n (by omega)
        _ = (a :: b :: rest).flatMap Tree.leafList := by simp
        List.Perm _ (q.flatMap Tree.leafList) := htake.perm.flatMap_right _

/-- The leaves of the present symbols, each with its count (42_tree.md R250). -/
theorem leaves_flatMap_leafList (pair : Bool) (freq : Table (BitVec 32)) :
    (leaves pair freq).flatMap Tree.leafList =
      (freq.filter (fun e => e.2 != 0)).map fun e =>
        ({ pair := pair, val := BitVec.ofNat 16 e.1 }, BitVec.ofNat 40 e.2.toNat) := by
  simp [leaves, List.flatMap_map, Tree.leafList, ← List.map_eq_flatMap]

/-- The leaves of the built tree (42_tree.md R258). -/
theorem buildTree_leafList (pair : Bool) (freq : Table (BitVec 32)) :
    (buildTree pair freq).leafList.Perm ((freq.filter (fun e => e.2 != 0)).map fun e =>
      ({ pair := pair, val := BitVec.ofNat 16 e.1 }, BitVec.ofNat 40 e.2.toNat)) := by
  rw [← leaves_flatMap_leafList]
  exact mergeLoop_leafList _ (Nat.le_succ _)

theorem buildTree_leafList_length (pair : Bool) (freq : Table (BitVec 32)) :
    (buildTree pair freq).leafList.length = freqPresent freq := by
  rw [(buildTree_leafList pair freq).length_eq, List.length_map, freqPresent, List.countP_eq_length_filter]

/-! ### Frequencies and keys -/

/-- The sum of the frequencies of a tree's leaves. -/
def Tree.leafSum (t : Tree) : Nat :=
  (t.leafList.map fun e => e.2.toNat).sum

@[simp] theorem Tree.leafSum_merge (a b : Tree) : (a.merge b).leafSum = a.leafSum + b.leafSum := by
  simp [Tree.leafSum]

/-- The leaves of the built tree sum to the table's total: the symbols that are not present add nothing. -/
theorem buildTree_leafSum (pair : Bool) (freq : Table (BitVec 32)) :
    (buildTree pair freq).leafSum = freqTotal freq := by
  rw [Tree.leafSum, ((buildTree_leafList pair freq).map _).sum_eq]
  induction freq with
  | nil => rfl
  | cons e freq ih =>
    obtain ⟨k, f⟩ := e
    have hf := f.isLt
    have hmod : f.toNat % 1099511627776 = f.toNat := by omega
    rw [freqTotal_cons, ← ih]
    by_cases h0 : f = 0#32
    · simp [h0]
    · simp [h0, hmod]

/-- What R258 says of a tree and of every node in it: the frequency is that of the leaves together, the key is the least of
their symbols. -/
structure Tree.Sound (t : Tree) : Prop where
  consistent : t.consistent
  freq : t.freq.toNat = t.leafSum
  keyMem : ∃ e ∈ t.leafList, e.1 = t.key
  keyLeast : ∀ e ∈ t.leafList, t.key.rank ≤ e.1.rank

theorem Tree.Sound.leaf (s : Sym) (f : BitVec 40) : (Tree.leaf s f).Sound where
  consistent := trivial
  freq := by simp [Tree.freq, Tree.leafSum, Tree.leafList]
  keyMem := ⟨(s, f), List.mem_singleton_self _, rfl⟩
  keyLeast := by simp [Tree.leafList, Tree.key]

/-- Merging keeps it where the sum of the frequencies fits 40 bits (42_tree.md R252, R253). -/
theorem Tree.Sound.merge {a b : Tree} (ha : a.Sound) (hb : b.Sound) (hfit : a.leafSum + b.leafSum < 2 ^ 40) :
    (a.merge b).Sound := by
  have hfreq : (a.freq + b.freq).toNat = (a.merge b).leafSum := by
    rw [BitVec.toNat_add, ha.freq, hb.freq, Tree.leafSum_merge, Nat.mod_eq_of_lt hfit]
  have hmem : ∃ e ∈ a.leafList ++ b.leafList, e.1 = a.key.min b.key := by
    obtain ⟨ea, hea, hka⟩ := ha.keyMem
    obtain ⟨eb, heb, hkb⟩ := hb.keyMem
    rcases Sym.min_eq_or a.key b.key with hmin | hmin
    · exact ⟨ea, List.mem_append_left _ hea, hka.trans hmin.symm⟩
    · exact ⟨eb, List.mem_append_right _ heb, hkb.trans hmin.symm⟩
  have hleast : ∀ e ∈ a.leafList ++ b.leafList, (a.key.min b.key).rank ≤ e.1.rank := by
    rw [Sym.rank_min]
    exact List.forall_mem_append.2
      ⟨fun e he => (Nat.min_le_left _ _).trans (ha.keyLeast e he),
        fun e he => (Nat.min_le_right _ _).trans (hb.keyLeast e he)⟩
  exact
    { consistent := ⟨ha.consistent, hb.consistent, hfreq, hmem,
        fun e he => (Sym.before_eq_false_iff _ _).2 (hleast e he)⟩
      freq := hfreq
      keyMem := hmem
      keyLeast := hleast }

/-- The built tree, where the table's total fits 40 bits. A part of a tree sums to no more than the whole, so the bound on
the whole serves at every merge. -/
theorem buildTree_sound (pair : Bool) {freq : Table (BitVec 32)} (hne : leaves pair freq ≠ [])
    (hfit : freqTotal freq < 2 ^ 40) : (buildTree pair freq).Sound := by
  rw [← buildTree_leafSum pair] at hfit
  refine mergeLoop_holds (P := fun t => t.leafSum < 2 ^ 40 → t.Sound) (fun a b ha hb hab => ?_) _ hne
    (fun t ht _ => ?_) hfit
  · rw [Tree.leafSum_merge] at hab
    exact (ha (by omega)).merge (hb (by omega)) hab
  · simp only [leaves, List.mem_map] at ht
    obtain ⟨e, -, rfl⟩ := ht
    exact Tree.Sound.leaf _ _

/-- A table with a present symbol has a leaf. -/
theorem leaves_ne_nil_of_freqPresent (pair : Bool) {freq : Table (BitVec 32)} (h : 1 ≤ freqPresent freq) :
    leaves pair freq ≠ [] := by
  intro hnil
  have hlen := congrArg List.length hnil
  rw [leaves, List.length_map, ← List.countP_eq_length_filter, ← freqPresent, List.length_nil] at hlen
  omega

/-- Settles O40: the merges keep the leaves, and keep every node's frequency and key those of the leaves below it. -/
theorem treeHasOneLeafPerPresentSymbol : Obligations.TreeHasOneLeafPerPresentSymbol := by
  intro pair freq _ hpresent hfit
  have hne := leaves_ne_nil_of_freqPresent pair hpresent
  have hfull := buildTree_full pair hne
  have hsound := buildTree_sound pair hne hfit
  have hlen := buildTree_leafList_length pair freq
  have hinternal := (Tree.internal_succ hfull).trans hlen
  have hdepth := (buildTree pair freq).depth_le_internal
  exact ⟨hfull, hsound.consistent, hsound.freq.trans (buildTree_leafSum pair freq), buildTree_leafList pair freq, hlen,
    hinternal, by omega⟩

/-! ### One present symbol -/

/-- One present symbol: its leaf is the tree (42_tree.md R254). -/
theorem buildTree_singleton (pair : Bool) (k : Nat) {f : BitVec 32} (hf : f ≠ 0#32) :
    buildTree pair [(k, f)] = .leaf { pair := pair, val := BitVec.ofNat 16 k } (f.setWidth 40) := by
  have hleaves : leaves pair [(k, f)] = [.leaf { pair := pair, val := BitVec.ofNat 16 k } (f.setWidth 40)] := by
    simp [leaves, hf]
  rw [buildTree, hleaves, mergeLoop_singleton]

/-- Settles O42: the tree is the leaf, and gen at a leaf writes the path so far, which is empty. -/
theorem singleSymbolHasTheEmptyCode : Obligations.SingleSymbolHasTheEmptyCode := by
  intro pair k f hk hf
  rw [buildTree_singleton pair k hf]
  have hval : (BitVec.ofNat 16 k).toNat = k := (BitVec.toNat_ofNat k 16).trans (Nat.mod_eq_of_lt hk)
  refine ⟨by rw [BitVec.ofNat_toNat], ?_⟩
  rw [genCodes, hval]
  rfl

end Sys2Proof.Machine
end

section
/-!
SUPPORT. The fields of a header: which field stands for a frequency in the marker loop and in the value loop, what bits it
has (43_header.md R281, R284; 30_encoding.md R147 to R150), and that C_HDR writes these bits (43_header.md R280, R283).
-/

namespace Sys2Proof.Machine

/-! ### The field of a frequency -/

/-- The marker of a symbol: its size class or its existence bit (43_header.md R280, R283). -/
def markerInstr (pair : Bool) (f : BitVec 32) : Instr :=
  if pair then if f = 0 then .pairAbsent else .pairPresent else classMarker (sizeClass f)

/-- The value field of a present symbol (43_header.md R280, R283). -/
def valueInstr (pair : Bool) (f : BitVec 32) : Instr :=
  if pair then pairValue f else classValue (sizeClass f) f

/-- A frequency is in one of the four classes of 43_header.md R281. -/
theorem sizeClass_cases (f : BitVec 32) :
    (f = 0 ∧ sizeClass f = 0) ∨ (f ≠ 0 ∧ f.toNat ≤ 255 ∧ sizeClass f = 1) ∨
      (f ≠ 0 ∧ ¬ f.toNat ≤ 255 ∧ f.toNat ≤ 65535 ∧ sizeClass f = 2) ∨
      (f ≠ 0 ∧ ¬ f.toNat ≤ 255 ∧ ¬ f.toNat ≤ 65535 ∧ sizeClass f = 3) := by
  have hzero : f = 0 ↔ f.toNat = 0 := by bv_omega
  unfold sizeClass
  split_ifs with h0 h8 h16
  · exact .inl ⟨hzero.2 h0, rfl⟩
  · exact .inr (.inl ⟨mt hzero.1 h0, h8, rfl⟩)
  · exact .inr (.inr (.inl ⟨mt hzero.1 h0, h8, h16, rfl⟩))
  · exact .inr (.inr (.inr ⟨mt hzero.1 h0, h8, h16, rfl⟩))

/-- A frequency fits into the width of its class (43_header.md R282). -/
theorem lt_two_pow_classWidth (f : BitVec 32) : f.toNat < 2 ^ classWidth (sizeClass f) := by
  have hlt := f.isLt
  rcases sizeClass_cases f with ⟨rfl, hc⟩ | ⟨-, h, hc⟩ | ⟨-, -, h, hc⟩ | ⟨-, -, -, hc⟩ <;> rw [hc]
  · decide
  · exact Nat.lt_succ_of_le h
  · exact Nat.lt_succ_of_le h
  · exact hlt

/-- The width of a byte-mode value is that of its class (43_header.md R281, R282). -/
theorem classWidth_sizeClass (f : BitVec 32) : classWidth (sizeClass f) = valueWidth false f := by
  rcases sizeClass_cases f with ⟨rfl, hc⟩ | ⟨h0, h8, hc⟩ | ⟨h0, h8, h16, hc⟩ | ⟨h0, h8, h16, hc⟩ <;> rw [hc]
  · rfl
  · rw [valueWidth, if_neg h0, if_pos h8]; rfl
  · rw [valueWidth, if_neg h0, if_neg h8, if_pos (by simp [h16])]; rfl
  · rw [valueWidth, if_neg h0, if_neg h8, if_neg (by simp [h16])]; rfl

/-- The width that a pair's size bit says (43_header.md R284). -/
def pairWidth (b : Bool) : Nat :=
  if b then 16 else 8

/-- A present pair's value has the width that its size bit says (43_header.md R284). -/
theorem valueWidth_pair {f : BitVec 32} (h : f ≠ 0) : valueWidth true f = pairWidth (pairSize f) := by
  rw [valueWidth, if_neg h]
  by_cases h8 : f.toNat ≤ 255
  · simp [pairSize, pairWidth, h8, Nat.not_lt.2 h8]
  · simp [pairSize, pairWidth, h8, Nat.lt_of_not_le h8]

/-- A pair's frequency fits into that width (43_header.md R284). -/
theorem lt_two_pow_pairWidth {f : BitVec 32} (h : f.toNat ≤ 65535) : f.toNat < 2 ^ pairWidth (pairSize f) := by
  cases hs : pairSize f with
  | false =>
    simp only [pairSize, decide_eq_false_iff_not, Nat.not_lt] at hs
    exact Nat.lt_succ_of_le hs
  | true => exact Nat.lt_succ_of_le h

/-- A present symbol's bits in the value section of a byte-mode header (30_encoding.md R148). -/
theorem valueBits_byte {f : BitVec 32} (h : f ≠ 0) : valueBits false f = bitsOf (classWidth (sizeClass f)) f.toNat := by
  rw [valueBits, if_neg h, classWidth_sizeClass]
  rfl

/-- A present symbol's bits in the value section of a pair-mode header (30_encoding.md R150). -/
theorem valueBits_pair {f : BitVec 32} (h : f ≠ 0) :
    valueBits true f = pairSize f :: bitsOf (pairWidth (pairSize f)) f.toNat := by
  rw [valueBits, if_neg h, valueWidth_pair h]
  rfl

theorem sizeClass_ne_zero {f : BitVec 32} (h : f ≠ 0) : sizeClass f ≠ 0 := by
  rcases sizeClass_cases f with ⟨h0, -⟩ | ⟨-, -, hc⟩ | ⟨-, -, -, hc⟩ | ⟨-, -, -, hc⟩
  · exact absurd h0 h
  all_goals rw [hc]; decide

/-! ### Its bits -/

/-- A marker as the bits of the header (30_encoding.md R147, R149). -/
theorem fieldBits_markerInstr (pair : Bool) (f : BitVec 32) : fieldBits (markerInstr pair f) = markerBits pair f := by
  cases pair with
  | true =>
    rw [markerInstr, markerBits, if_pos rfl, if_pos rfl]
    split_ifs with h
    · rw [h]; rfl
    · rw [bne_iff_ne.2 h]; rfl
  | false =>
    have hinstr : markerInstr false f = classMarker (sizeClass f) := if_neg (by simp)
    rw [hinstr, markerBits, if_neg (by simp)]
    rcases sizeClass_cases f with ⟨h0, hc⟩ | ⟨h0, h8, hc⟩ | ⟨h0, h8, h16, hc⟩ | ⟨h0, h8, h16, hc⟩ <;> rw [hc]
    · rw [if_pos h0]; rfl
    · rw [if_neg h0, if_pos h8]; rfl
    · rw [if_neg h0, if_neg h8, if_pos h16]; rfl
    · rw [if_neg h0, if_neg h8, if_neg h16]; rfl

/-- The classes of a present symbol (43_header.md R281). -/
theorem class_cases : ∀ c : BitVec 2, c ≠ 0 → c = 1 ∨ c = 2 ∨ c = 3 := by decide

/-- A frequency cut to a width in which it fits. -/
theorem toNat_setWidth_of_lt {w : Nat} {f : BitVec 32} (h : f.toNat < 2 ^ w) : (f.setWidth w).toNat = f.toNat := by
  rw [BitVec.toNat_setWidth, Nat.mod_eq_of_lt h]

/-- A class's value as bits, where the frequency fits into the class (30_encoding.md R148). -/
theorem fieldBits_classValue {c : BitVec 2} {f : BitVec 32} (hc : c ≠ 0) (hf : f.toNat < 2 ^ classWidth c) :
    fieldBits (classValue c f) = bitsOf (classWidth c) f.toNat := by
  rcases class_cases c hc with rfl | rfl | rfl
  · exact congrArg (bitsOf 8) (toNat_setWidth_of_lt hf)
  · exact congrArg (bitsOf 16) (toNat_setWidth_of_lt hf)
  · rfl

/-- The field of size bit `b` and value `f` (30_encoding.md R150). -/
def pairField (b : Bool) (f : BitVec 32) : Instr :=
  if b then .pairSize16 (f.setWidth 16) else .pairSize8 (f.setWidth 8)

/-- A size bit and a value as bits, where the value fits (30_encoding.md R150). -/
theorem fieldBits_pairField {b : Bool} {f : BitVec 32} (hf : f.toNat < 2 ^ pairWidth b) :
    fieldBits (pairField b f) = b :: bitsOf (pairWidth b) f.toNat := by
  rw [← toNat_setWidth_of_lt hf]
  cases b <;> rfl

/-- A present symbol's value field as the bits of the header (30_encoding.md R148, R150). -/
theorem fieldBits_valueInstr {pair : Bool} {f : BitVec 32} (h : f ≠ 0) (hp : pair = true → f.toNat ≤ 65535) :
    fieldBits (valueInstr pair f) = valueBits pair f := by
  cases pair with
  | false =>
    rw [valueBits_byte h]
    exact fieldBits_classValue (sizeClass_ne_zero h) (lt_two_pow_classWidth f)
  | true =>
    rw [valueBits_pair h]
    exact fieldBits_pairField (lt_two_pow_pairWidth (hp rfl))

/-! ### What a header field does -/

/-- What reading a header field does besides moving to the next symbol (43_header.md R286, R287). -/
def headerRead : Instr → State → State
  | .classAbsent => State.decodeClass 0
  | .classF8 none => State.decodeClass 1
  | .classF8 (some v) => State.decodeFreq 8 (v.setWidth 32)
  | .classF16 none => State.decodeClass 2
  | .classF16 (some v) => State.decodeFreq 16 (v.setWidth 32)
  | .classF32 none => State.decodeClass 3
  | .classF32 (some v) => State.decodeFreq 32 v
  | .pairAbsent => State.decodeExistence false
  | .pairPresent => State.decodeExistence true
  | .pairSize8 v => fun s => (s.skipN 1).decodeFreq 8 (v.setWidth 32)
  | .pairSize16 v => fun s => (s.skipN 1).decodeFreq 16 (v.setWidth 32)
  | _ => id

/-- A header field of either mode has the meaning of `headerField`. -/
theorem exec_headerField {i : Instr} {pair : Bool} (h : (fieldKind i).bind kindMode = some pair) (s : State) :
    exec i s = atField i s (headerField i (headerRead i) s) := by
  cases i with
  | classF8 value => cases value <;> rfl
  | classF16 value => cases value <;> rfl
  | classF32 value => cases value <;> rfl
  | classAbsent => rfl
  | pairAbsent => rfl
  | pairPresent => rfl
  | pairSize8 v => rfl
  | pairSize16 v => rfl
  | _ => cases h

theorem kindMode_markerInstr (pair : Bool) (f : BitVec 32) : (fieldKind (markerInstr pair f)).bind kindMode = some pair := by
  cases pair with
  | false => exact congrArg (Option.bind · kindMode) (fieldKind_classMarker _)
  | true => unfold markerInstr; rw [if_pos rfl]; split_ifs <;> rfl

theorem kindMode_valueInstr (pair : Bool) (f : BitVec 32) : (fieldKind (valueInstr pair f)).bind kindMode = some pair := by
  cases pair with
  | false =>
    refine (congrArg (Option.bind · kindMode) (fieldKind_classValue _ f)).trans ?_
    unfold valueKind
    split_ifs <;> rfl
  | true => exact congrArg (Option.bind · kindMode) (fieldKind_pairValue f)

/-! ### Writing it -/

/-- In C_HDR's marker loop the engine stands at the symbol's marker (43_header.md R280, R283). -/
theorem nextField_marker_cHdr {s : State} (hp : s.phase = .cHdr) (hg : s.loop.stage = .pass1)
    (hk : s.loop.s.toNat < nsyms s.dp.mode) :
    s.nextField = some (markerInstr s.dp.mode (s.freqAt s.loop.s.toNat)) := by
  cases hm : s.dp.mode <;> rw [hm] at hk <;> simp [State.nextField, hp, hg, hm, hk, markerInstr]

/-- In C_HDR's value loop the engine stands at a present symbol's value (43_header.md R280, R283). -/
theorem nextField_value_cHdr {s : State} (hp : s.phase = .cHdr) (hg : s.loop.stage = .pass2)
    (hk : s.loop.s.toNat < nsyms s.dp.mode) (hf : s.freqAt s.loop.s.toNat ≠ 0) :
    s.nextField = some (valueInstr s.dp.mode (s.freqAt s.loop.s.toNat)) := by
  have hpresent : (s.freqAt s.loop.s.toNat != 0) = true := bne_iff_ne.2 hf
  simp only [State.nextField, hp, hg, hk, hpresent, decide_true, Bool.and_self, if_true, valueInstr]
  split_ifs <;> rfl

/-- The header field at which C_HDR stands appends its bits and leads to the next symbol. -/
theorem headerField_appends {s : State} {i : Instr} {pair : Bool} (h : Inv s) (hp : s.phase = .cHdr)
    (hi : s.nextField = some i) (hk : (fieldKind i).bind kindMode = some pair) (hr : s.room (fieldBits i).length) :
    s.appends i (fieldBits i) { s.loop with s := s.loop.s + 1 } := by
  have hexec := (exec_headerField hk s).trans (atField_here hi _)
  refine appends_of_writeBits h (busy_of_phase hp rfl) (fun l => { l with s := l.s + 1 }) hr ?_
  rw [hexec, headerField, hp]
  rfl

/-- C_HDR writes the marker of a symbol. -/
theorem marker_appends {s : State} (h : Inv s) (hp : s.phase = .cHdr) (hg : s.loop.stage = .pass1)
    (hk : s.loop.s.toNat < nsyms s.dp.mode) {i : Instr} (hi : markerInstr s.dp.mode (s.freqAt s.loop.s.toNat) = i)
    (hr : s.room (fieldBits i).length) : s.appends i (fieldBits i) { s.loop with s := s.loop.s + 1 } := by
  subst hi
  exact headerField_appends h hp (nextField_marker_cHdr hp hg hk) (kindMode_markerInstr _ _) hr

/-- C_HDR writes the value of a present symbol. -/
theorem value_appends {s : State} (h : Inv s) (hp : s.phase = .cHdr) (hg : s.loop.stage = .pass2)
    (hk : s.loop.s.toNat < nsyms s.dp.mode) (hf : s.freqAt s.loop.s.toNat ≠ 0) {i : Instr}
    (hi : valueInstr s.dp.mode (s.freqAt s.loop.s.toNat) = i) (hr : s.room (fieldBits i).length) :
    s.appends i (fieldBits i) { s.loop with s := s.loop.s + 1 } := by
  subst hi
  exact headerField_appends h hp (nextField_value_cHdr hp hg hk hf) (kindMode_valueInstr _ _) hr

/-! ### The fields of each mode -/

theorem markerInstr_byte {f : BitVec 32} {c : BitVec 2} (h : sizeClass f = c) : markerInstr false f = classMarker c :=
  congrArg classMarker h

theorem valueInstr_byte {f : BitVec 32} {c : BitVec 2} (h : sizeClass f = c) : valueInstr false f = classValue c f :=
  congrArg (classValue · f) h

theorem sizeClass_eq_one {f : BitVec 32} (h : 1 ≤ f.toNat) (h8 : f.toNat ≤ 255) : sizeClass f = 1 := by
  rw [sizeClass, if_neg (by omega), if_pos h8]

theorem sizeClass_eq_two {f : BitVec 32} (h : 256 ≤ f.toNat) (h16 : f.toNat ≤ 65535) : sizeClass f = 2 := by
  rw [sizeClass, if_neg (by omega), if_neg (by omega), if_pos h16]

theorem sizeClass_eq_three {f : BitVec 32} (h : 65536 ≤ f.toNat) : sizeClass f = 3 := by
  rw [sizeClass, if_neg (by omega), if_neg (by omega), if_neg (by omega)]

/-- A frequency that a word of fewer bits holds, cut to that width. -/
theorem setWidth_eq_of_toNat_eq {w : Nat} {f : BitVec 32} {v : BitVec w} (h : f.toNat = v.toNat) : f.setWidth w = v :=
  BitVec.eq_of_toNat_eq (by rw [BitVec.toNat_setWidth, h, Nat.mod_eq_of_lt v.isLt])

theorem ne_zero_of_one_le_toNat {f : BitVec 32} (h : 1 ≤ f.toNat) : f ≠ 0 := by
  rintro rfl
  exact absurd h (by decide)

/-- Settles O21: the field of the frequency's class, which the engine stands at, appends its bits. -/
theorem byteHeaderFieldsAreWritten : Obligations.ByteHeaderFieldsAreWritten := by
  intro s h hp hm hk f l
  have hk' : s.loop.s.toNat < nsyms s.dp.mode := by rw [hm]; exact hk
  refine ⟨fun hg hr => ?_, fun hg => ?_⟩
  · have marker {i : Instr} (hi : markerInstr false f = i) (hlen : s.room (fieldBits i).length) :
        s.appends i (fieldBits i) l := marker_appends h hp hg hk' (by rw [hm]; exact hi) hlen
    exact ⟨fun h0 => marker (markerInstr_byte (if_pos h0)) hr,
      fun h1 h8 => marker (markerInstr_byte (sizeClass_eq_one h1 h8)) hr,
      fun h1 h16 => marker (markerInstr_byte (sizeClass_eq_two h1 h16)) hr,
      fun h1 => marker (markerInstr_byte (sizeClass_eq_three h1)) hr⟩
  · have value {i : Instr} {c : BitVec 2} (hf : 1 ≤ f.toNat) (hc : sizeClass f = c) (hi : classValue c f = i)
        (hlen : s.room (fieldBits i).length) : s.appends i (fieldBits i) l :=
      value_appends h hp hg hk' (ne_zero_of_one_le_toNat hf) (by rw [hm]; exact (valueInstr_byte hc).trans hi) hlen
    refine ⟨fun v hv h1 hr => ?_, fun v hv h1 hr => ?_, fun v hv h1 hr => ?_⟩ <;> have hlt := v.isLt
    · exact value (by omega) (sizeClass_eq_one (by omega) (by omega))
        (congrArg (fun w => Instr.classF8 (some w)) (setWidth_eq_of_toNat_eq hv)) hr
    · exact value (by omega) (sizeClass_eq_two (by omega) (by omega))
        (congrArg (fun w => Instr.classF16 (some w)) (setWidth_eq_of_toNat_eq hv)) hr
    · exact value (by omega) (sizeClass_eq_three (by omega))
        (congrArg (fun w => Instr.classF32 (some w)) (BitVec.eq_of_toNat_eq hv)) hr

/-- Settles O22: the existence bit, and the size bit with its value, which the engine stands at, append their bits. -/
theorem pairHeaderFieldsAreWritten : Obligations.PairHeaderFieldsAreWritten := by
  intro s h hp hm hk f l
  have hk' : s.loop.s.toNat < nsyms s.dp.mode := by rw [hm]; exact hk
  refine ⟨fun hg hr => ?_, fun hg => ?_⟩
  · have marker {i : Instr} (hi : markerInstr true f = i) (hlen : s.room (fieldBits i).length) :
        s.appends i (fieldBits i) l := marker_appends h hp hg hk' (by rw [hm]; exact hi) hlen
    exact ⟨fun h0 => marker (if_pos h0) hr, fun h0 => marker (if_neg h0) hr⟩
  · have value {i : Instr} (hf : 1 ≤ f.toNat) (hi : pairValue f = i) (hlen : s.room (fieldBits i).length) :
        s.appends i (fieldBits i) l :=
      value_appends h hp hg hk' (ne_zero_of_one_le_toNat hf) (by rw [hm]; exact hi) hlen
    refine ⟨fun v hv h1 hr => ?_, fun v hv h1 hr => ?_⟩ <;> have hlt := v.isLt
    · have hsize : ¬ pairSize f = true := by simp only [pairSize, decide_eq_true_eq]; omega
      exact value (by omega) ((if_neg hsize).trans (congrArg Instr.pairSize8 (setWidth_eq_of_toNat_eq hv))) hr
    · have hsize : pairSize f = true := by simp only [pairSize, decide_eq_true_eq]; omega
      exact value (by omega) ((if_pos hsize).trans (congrArg Instr.pairSize16 (setWidth_eq_of_toNat_eq hv))) hr

end Sys2Proof.Machine
end

section
/-!
SUPPORT. A table's total and number of present symbols as sums over the symbols of a mode (43_header.md R289), and that they
fit into their registers (10_state.md R67).
-/

namespace Sys2Proof.Machine

/-- Removing the last key of a table in canonical form lowers its bound. -/
theorem Table.wf_del_last {α : Type} {n : Nat} {t : Table α} (h : Table.wf (n + 1) t = true) :
    Table.wf n (Table.del n t) = true := by
  obtain ⟨hrise, hkeys⟩ := Table.wf_iff.1 h
  refine Table.wf_iff.2 ⟨Table.risingFrom_del hrise, fun e he => ?_⟩
  have hle := hkeys e (Table.mem_of_mem_del he)
  have hne : e.1 ≠ n := by
    rintro rfl
    have hlook : Table.look e.1 (Table.del e.1 t) = some e.2 := Table.look_of_mem (Table.risingFrom_del hrise) he
    rw [Table.look_del_same hrise] at hlook
    cases hlook
  omega

/-- A table with no key below 0 is empty. -/
theorem Table.eq_nil_of_wf_zero {α : Type} {t : Table α} (h : Table.wf 0 t = true) : t = [] :=
  List.eq_nil_iff_forall_not_mem.2 fun e he => Nat.not_lt_zero e.1 ((Table.wf_iff.1 h).2 e he)

theorem Table.lookD_del_other {α : Type} {k j : Nat} (h : j ≠ k) (d : α) (t : Table α) :
    Table.lookD d j (Table.del k t) = Table.lookD d j t :=
  congrArg (Option.getD · d) (Table.look_del_other h t)

/-- A table's total is the sum of its symbols' counts. -/
theorem freqTotal_eq_sum {n : Nat} {t : Table (BitVec 32)} (h : Table.wf n t = true) :
    freqTotal t = ((List.range n).map fun k => (Table.lookD 0 k t).toNat).sum := by
  induction n generalizing t with
  | zero => rw [Table.eq_nil_of_wf_zero h]; rfl
  | succ n ih =>
    have hrest : ∀ k ∈ List.range n, (Table.lookD 0 k (Table.del n t)).toNat = (Table.lookD 0 k t).toNat := fun k hk => by
      rw [Table.lookD_del_other (List.mem_range.1 hk).ne]
    rw [freqTotal_eq_add_del n t, ih (Table.wf_del_last h), List.map_congr_left hrest, List.range_succ, List.map_append,
      List.sum_append, List.map_singleton, List.sum_singleton, Nat.add_comm]

/-- A table's present symbols are those with a count. -/
theorem freqPresent_eq_countP {n : Nat} {t : Table (BitVec 32)} (h : Table.wf n t = true) :
    freqPresent t = (List.range n).countP fun k => Table.lookD 0 k t != 0 := by
  induction n generalizing t with
  | zero => rw [Table.eq_nil_of_wf_zero h]; rfl
  | succ n ih =>
    have hrest : ∀ k ∈ List.range n, (Table.lookD 0 k (Table.del n t) != 0) = true ↔ (Table.lookD 0 k t != 0) = true :=
      fun k hk => by rw [Table.lookD_del_other (List.mem_range.1 hk).ne]
    have hlast : [n].countP (fun k => Table.lookD 0 k t != 0) = if Table.lookD 0 n t = 0 then 0 else 1 := by
      rw [List.countP_singleton]
      by_cases h0 : Table.lookD 0 n t = 0
      · rw [if_pos h0, h0]; rfl
      · rw [if_neg h0, if_pos (bne_iff_ne.2 h0)]
    rw [freqPresent_eq_add_del n t, ih (Table.wf_del_last h), List.countP_congr hrest, List.range_succ, List.countP_append,
      hlast, Nat.add_comm]

/-- The symbols of a mode with counts of its range add up to less than 2^40 (10_state.md R67). -/
theorem sum_lt_two_pow_40 {pair : Bool} {f : Nat → BitVec 32} (h : pair = true → ∀ k, (f k).toNat ≤ 65535) :
    ((List.range (nsyms pair)).map fun k => (f k).toNat).sum < 2 ^ 40 := by
  have bound {m : Nat} (hm : ∀ k, (f k).toNat ≤ m) :
      ((List.range (nsyms pair)).map fun k => (f k).toNat).sum ≤ nsyms pair * m := by
    have hle := List.sum_le_card_nsmul ((List.range (nsyms pair)).map fun k => (f k).toNat) m fun x hx => by
      obtain ⟨k, -, rfl⟩ := List.mem_map.1 hx
      exact hm k
    rwa [List.length_map, List.length_range, smul_eq_mul] at hle
  cases pair with
  | false => exact (bound (m := 2 ^ 32 - 1) fun k => Nat.le_sub_one_of_lt (f k).isLt).trans_lt (by decide)
  | true => exact (bound (h rfl)).trans_lt (by decide)

/-- A symbol's count is 0 or an entry of the table. -/
theorem lookD_zero_or_mem (k : Nat) (t : Table (BitVec 32)) :
    Table.lookD 0 k t = 0 ∨ (k, Table.lookD 0 k t) ∈ t := by
  unfold Table.lookD
  cases hl : Table.look k t with
  | none => exact .inl rfl
  | some v => exact .inr (Table.mem_of_look hl)

/-- In D_HDR a pair count is at most 65535 (43_header.md R287). -/
theorem Inv.freqAt_le_dHdr {s : State} (h : Inv s) (hp : s.phase = .dHdr) (hm : s.dp.mode = true) (k : Nat) :
    (s.freqAt k).toNat ≤ 65535 := by
  rcases lookD_zero_or_mem k s.freq with h0 | hmem
  · rw [State.freqAt, h0]; decide
  · exact h.freqPair (busy_of_phase hp rfl) (by simp [hp]) (by simp [hp]) hm _ hmem

end Sys2Proof.Machine
end

section
/-!
SUPPORT. The fields of a header as DECOMPRESS reads them: which field the decoder finds at each symbol (30_encoding.md R147 to
R150), what reading it sets (43_header.md R286 to R288), and how the two loops of D_HDR end (R289, R292).
-/

namespace Sys2Proof.Machine

/-! ### Where the engine stands -/

/-- A stream field's code is its kind and its bits. -/
theorem encode_of_fieldKind {i : Instr} {k : FieldKind} (h : fieldKind i = some k) : encode i = .field k (fieldBits i) := by
  cases i with
  | classF8 value => cases value <;> (cases h; rfl)
  | classF16 value => cases value <;> (cases h; rfl)
  | classF32 value => cases value <;> (cases h; rfl)
  | _ => cases h <;> rfl

/-- The decoder reads a header field back from its bits. -/
theorem decodeField_fieldBits {i : Instr} {k : FieldKind} {pair : Bool} (hk : fieldKind i = some k)
    (hm : kindMode k = some pair) : (decodeField k (fieldBits i)).toOption = some i := by
  have hwf : i.wellFormed = true := by
    cases i with
    | pad n => cases hk; cases hm
    | wr32 addr data => cases hk
    | _ => rfl
  have hdec := decodeOfEncodeIsIdentity i hwf
  rw [encode_of_fieldKind hk] at hdec
  exact congrArg Except.toOption hdec

section
variable {s : State} (hp : s.phase = .dHdr) (hk : s.loop.s.toNat < nsyms s.dp.mode)
include hp hk

theorem nextField_dHdr_pass1 (hg : s.loop.stage = .pass1) : s.nextField = s.markerField := by
  simp only [State.nextField, hp, hg, if_pos hk]

theorem nextField_dHdr_pass2 (hg : s.loop.stage = .pass2) : s.nextField = s.valueField := by
  simp only [State.nextField, hp, hg, if_pos hk]

/-- In the marker loop of a byte-mode header the engine stands at the size class that the next two bits are. -/
theorem nextField_class (hok : s.rd.ok) {i : Instr} (hg : s.loop.stage = .pass1) (hm : s.dp.mode = false)
    (hi : fieldKind i = some .sizeClass) (hbits : s.nextBits 2 = fieldBits i) : s.nextField = some i := by
  rw [← decodeField_fieldBits hi rfl, ← hbits, ← State.peekField_eq 2 hok, nextField_dHdr_pass1 hp hk hg]
  exact if_neg (by simp [hm])

/-- In the marker loop of a pair-mode header the engine stands at the existence bit that the next bit is. -/
theorem nextField_existence (hok : s.rd.ok) {i : Instr} (hg : s.loop.stage = .pass1) (hm : s.dp.mode = true)
    (hi : fieldKind i = some .existence) (hbits : s.nextBits 1 = fieldBits i) : s.nextField = some i := by
  rw [← decodeField_fieldBits hi rfl, ← hbits, ← State.peekField_eq 1 hok, nextField_dHdr_pass1 hp hk hg]
  exact if_pos hm

/-- In the value loop of a byte-mode header the engine stands at the value that the next bits are, as many as the symbol's
class says. -/
theorem nextField_classValue (hok : s.rd.ok) {i : Instr} {c : BitVec 2} (hg : s.loop.stage = .pass2)
    (hm : s.dp.mode = false) (hc : s.clsAt s.loop.s.toNat = c) (hc0 : c ≠ 0) (hi : fieldKind i = some (valueKind c))
    (hbits : s.nextBits (classWidth c) = fieldBits i) : s.nextField = some i := by
  have hkind : kindMode (valueKind c) = some false := by unfold valueKind; split_ifs <;> rfl
  subst hc
  rw [← decodeField_fieldBits hi hkind, ← hbits, ← State.peekField_eq _ hok, nextField_dHdr_pass2 hp hk hg]
  exact (if_neg (by simp [hm])).trans (if_neg hc0)

/-- In the value loop of a pair-mode header the engine stands at the size bit and value that the next bits are. -/
theorem nextField_pairSize (hok : s.rd.ok) {i : Instr} (hg : s.loop.stage = .pass2) (hm : s.dp.mode = true)
    (he : s.exAt s.loop.s.toNat = true) (hi : fieldKind i = some .pairSize)
    (hbits : s.nextBits 1 ++ (s.past 1).nextBits (if s.nextBits 1 = [true] then 16 else 8) = fieldBits i) :
    s.nextField = some i := by
  have hpeek : s.peekPairSize = fieldBits i := by
    rw [← hbits, State.peekPairSize, State.peekField_eq 1 hok, State.skipN_eq_past 1 hok]
    exact congrArg _ (State.peekField_eq _ (State.past_ok 1 hok).1)
  rw [← decodeField_fieldBits hi rfl, ← hpeek, nextField_dHdr_pass2 hp hk hg]
  exact (if_pos hm).trans (if_pos he)

/-- In the value loop an absent symbol has no field (43_header.md R286, R287). -/
theorem nextField_absent (hg : s.loop.stage = .pass2)
    (ha : (s.dp.mode = false ∧ s.clsAt s.loop.s.toNat = 0) ∨ (s.dp.mode = true ∧ s.exAt s.loop.s.toNat = false)) :
    s.nextField = none := by
  rw [nextField_dHdr_pass2 hp hk hg]
  rcases ha with ⟨hm, hc⟩ | ⟨hm, he⟩
  · exact (if_neg (by simp [hm])).trans (if_pos hc)
  · exact (if_pos hm).trans (if_neg (by simp [he]))

end

/-! ### What reading a field sets -/

/-- The header field at which D_HDR stands is read, and the next symbol is next. -/
theorem exec_dHdr {s : State} {i : Instr} (hp : s.phase = .dHdr) (hi : s.nextField = some i) :
    exec i s = .next (headerRead i s).nextSym := by
  rw [exec_headerField (nextField_dHdr hp hi).2, atField_here hi, headerField, hp]

/-- Where D_HDR stands at no field (45_orchestration.md R359). -/
theorem fineStep_dHdr {s : State} (hp : s.phase = .dHdr) (hi : s.nextField = none) :
    fineStep s = (headerInStep s).outcome := by
  rw [fineStep_internal (busy_of_phase hp rfl) hi]
  simp [internalStep, hp]

/-- `o` is `r` at the next symbol with the current symbol's frequency set to `f`, every other kept. -/
def SetsFreq (s r : State) (f : BitVec 32) (o : Host.Outcome State Fault Refusal) : Prop :=
  ∃ t, o = .next t ∧ t = { r with freq := t.freq, loop := { s.loop with s := s.loop.s + 1 } } ∧
    ∀ j, t.freqAt j = if j = s.loop.s.toNat then f else s.freqAt j

theorem setsFreq_putD {s r : State} (hwf : Table.wf 65536 s.freq = true) (f : BitVec 32)
    (hr : r = { r with freq := s.freq, loop := s.loop }) :
    SetsFreq s r f (.next { r with freq := Table.putD 0 s.loop.s.toNat f s.freq }.nextSym) := by
  rw [hr]
  exact ⟨_, rfl, rfl, fun j => Table.lookD_putD 0 f _ j (Table.wf_iff.1 hwf).1⟩

/-- What the markers of a byte-mode header mean. -/
theorem headerRead_classMarker (c : BitVec 2) : headerRead (classMarker c) = State.decodeClass c := by
  by_cases hc : c = 0
  · rw [hc]; rfl
  · rcases class_cases c hc with rfl | rfl | rfl <;> rfl

/-- A frequency cut to a width in which it fits, and widened again. -/
theorem setWidth_setWidth_of_lt {w : Nat} {f : BitVec 32} (h : f.toNat < 2 ^ w) : (f.setWidth w).setWidth 32 = f := by
  apply BitVec.eq_of_toNat_eq
  rw [BitVec.toNat_setWidth, toNat_setWidth_of_lt h, Nat.mod_eq_of_lt f.isLt]

/-- What the values of a byte-mode header mean. -/
theorem headerRead_classValue {c : BitVec 2} {f : BitVec 32} (hc : c ≠ 0) (hf : f.toNat < 2 ^ classWidth c) :
    headerRead (classValue c f) = State.decodeFreq (classWidth c) f := by
  rcases class_cases c hc with rfl | rfl | rfl
  · exact congrArg (State.decodeFreq 8) (setWidth_setWidth_of_lt hf)
  · exact congrArg (State.decodeFreq 16) (setWidth_setWidth_of_lt hf)
  · rfl

theorem fieldKind_pairField (b : Bool) (f : BitVec 32) : fieldKind (pairField b f) = some .pairSize := by
  cases b <;> rfl

theorem headerRead_pairField {b : Bool} {f : BitVec 32} (hf : f.toNat < 2 ^ pairWidth b) (s : State) :
    headerRead (pairField b f) s = (s.skipN 1).decodeFreq (pairWidth b) f := by
  conv_rhs => rw [← setWidth_setWidth_of_lt hf]
  cases b <;> rfl

section
variable {s : State} (h : Inv s) (hp : s.phase = .dHdr) (hk : s.loop.s.toNat < nsyms s.dp.mode)
include h hp hk

/-- The two bits of a size class set cls of the symbol (43_header.md R286). -/
theorem class_read (hg : s.loop.stage = .pass1) (hm : s.dp.mode = false) {i : Instr} {c : BitVec 2}
    (hi : i = classMarker c) (hbits : s.nextBits 2 = fieldBits i) :
    s.nextField = some i ∧ ∃ t : State, exec i s = .next t ∧
      t = { s.past 2 with cls := t.cls, loop := { s.loop with s := s.loop.s + 1 } } ∧
      ∀ j, t.clsAt j = if j = s.loop.s.toNat then c else s.clsAt j := by
  have hok := (h.runAt hp rfl).reader.1
  have hnext := nextField_class hp hk hok hg hm (by rw [hi]; exact fieldKind_classMarker c) hbits
  refine ⟨hnext, _, exec_dHdr hp hnext, ?_⟩
  rw [hi, headerRead_classMarker, State.decodeClass, State.skipN_eq_past 2 hok]
  exact ⟨rfl, fun j => Table.lookD_putD 0 c _ j (Table.wf_iff.1 h.clsWf).1⟩

/-- An existence bit sets ex of the symbol (43_header.md R287). -/
theorem existence_read (hg : s.loop.stage = .pass1) (hm : s.dp.mode = true) {i : Instr} {e : Bool}
    (hi : i = if e then .pairPresent else .pairAbsent) (hbits : s.nextBits 1 = [e]) :
    s.nextField = some i ∧ ∃ t : State, exec i s = .next t ∧
      t = { s.past 1 with ex := t.ex, loop := { s.loop with s := s.loop.s + 1 } } ∧
      ∀ j, t.exAt j = if j = s.loop.s.toNat then e else s.exAt j := by
  have hok := (h.runAt hp rfl).reader.1
  have hnext := nextField_existence hp hk hok hg hm (i := i) (by rw [hi]; cases e <;> rfl)
    (by rw [hbits, hi]; cases e <;> rfl)
  have hread : headerRead i = State.decodeExistence e := by rw [hi]; cases e <;> rfl
  refine ⟨hnext, _, exec_dHdr hp hnext, ?_⟩
  rw [hread, State.decodeExistence, State.skipN_eq_past 1 hok]
  exact ⟨rfl, fun j => Table.lookD_putD false e _ j (Table.wf_iff.1 h.exWf).1⟩

/-- The value of a byte-mode symbol sets its frequency (43_header.md R286). -/
theorem classValue_read (hg : s.loop.stage = .pass2) (hm : s.dp.mode = false) {i : Instr} {c : BitVec 2} {f : BitVec 32}
    (hc : s.clsAt s.loop.s.toNat = c) (hc0 : c ≠ 0) (hf : f.toNat < 2 ^ classWidth c) (hi : i = classValue c f)
    (hbits : s.nextBits (classWidth c) = bitsOf (classWidth c) f.toNat) :
    s.nextField = some i ∧ SetsFreq s (s.past (classWidth c)) f (exec i s) := by
  subst hi
  have hok := (h.runAt hp rfl).reader.1
  have hnext := nextField_classValue hp hk hok hg hm hc hc0 (fieldKind_classValue c f)
    (hbits.trans (fieldBits_classValue hc0 hf).symm)
  refine ⟨hnext, ?_⟩
  rw [exec_dHdr hp hnext, headerRead_classValue hc0 hf, State.decodeFreq, State.skipN_eq_past _ hok]
  exact setsFreq_putD h.freqWf f rfl

/-- The size bit and value of a present pair set its frequency (43_header.md R287). -/
theorem pairValue_read (hg : s.loop.stage = .pass2) (hm : s.dp.mode = true) {i : Instr} {b : Bool} {f : BitVec 32}
    (he : s.exAt s.loop.s.toNat = true) (hf : f.toNat < 2 ^ pairWidth b) (hi : i = pairField b f)
    (hsize : s.nextBits 1 = [b]) (hbits : (s.past 1).nextBits (pairWidth b) = bitsOf (pairWidth b) f.toNat) :
    s.nextField = some i ∧ SetsFreq s ((s.past 1).past (pairWidth b)) f (exec i s) := by
  subst hi
  have hok := (h.runAt hp rfl).reader.1
  have hwidth : (if s.nextBits 1 = [true] then 16 else 8) = pairWidth b := by rw [hsize]; cases b <;> rfl
  have hnext := nextField_pairSize hp hk hok hg hm he (fieldKind_pairField b f)
    (by rw [hwidth, hbits, hsize, fieldBits_pairField hf]; rfl)
  refine ⟨hnext, ?_⟩
  rw [exec_dHdr hp hnext, headerRead_pairField hf, State.skipN_eq_past 1 hok, State.decodeFreq,
    State.skipN_eq_past _ (State.past_ok 1 hok).1]
  exact setsFreq_putD h.freqWf f rfl

/-- An absent symbol's frequency becomes 0 without a read (43_header.md R286, R287). -/
theorem absent_read (hg : s.loop.stage = .pass2)
    (ha : (s.dp.mode = false ∧ s.clsAt s.loop.s.toNat = 0) ∨ (s.dp.mode = true ∧ s.exAt s.loop.s.toNat = false)) :
    SetsFreq s s 0 (fineStep s) := by
  have hnext := nextField_absent hp hk hg ha
  have hstep : fineStep s = .next { s with freq := Table.putD 0 s.loop.s.toNat 0 s.freq }.nextSym := by
    rw [fineStep_dHdr hp hnext, headerInStep, hg]
    exact congrArg Flow.outcome (if_pos hk)
  rw [hstep]
  exact setsFreq_putD h.freqWf 0 rfl

end

/-! ### The ends of the loops -/

section
variable {s : State} (hp : s.phase = .dHdr) (hk : nsyms s.dp.mode ≤ s.loop.s.toNat)
include hp hk

/-- After the last marker comes the value loop (43_header.md R286, R287). -/
theorem markerLoop_ends (hg : s.loop.stage = .pass1) :
    fineStep s = .next { s with loop := { s.loop with stage := .pass2, s := 0 } } := by
  have hnext : s.nextField = none := by simp [State.nextField, hp, hg, Nat.not_lt.2 hk]
  rw [fineStep_dHdr hp hnext, headerInStep, hg]
  rfl

/-- After the last value comes the end of the phase (43_header.md R289, R292; 45_orchestration.md R359, R360). -/
theorem valueLoop_ends (h : Inv s) (hg : s.loop.stage = .pass2) : ∃ t : State, fineStep s = .next t ∧ s.headerEnds t := by
  have hrun := h.runAt hp rfl
  have hwf := h.freqWf_mode (busy_of_phase hp rfl)
  have hnext : s.nextField = none := by simp [State.nextField, hp, hg, Nat.not_lt.2 hk]
  have hpos := Reader.pos_le hrun.reader.1
  have hcap := hrun.reader.2
  have hvalid := h.cfgValid
  simp only [Config.valid, Bool.and_eq_true, decide_eq_true_eq] at hvalid
  have htotal := sum_lt_two_pow_40 (f := s.freqAt) (h.freqAt_le_dHdr hp)
  have hpresent := freqPresent_le_of_wf hrun.freqWf
  rw [fineStep_dHdr hp hnext, headerInStep, hg]
  dsimp only
  rw [if_neg (Nat.not_lt.2 hk)]
  refine ⟨_, rfl, rfl, ?_, ?_, ?_⟩
  · refine (BitVec.toNat_ofNat ..).trans ?_
    rw [freqTotal_eq_sum hwf]
    exact Nat.mod_eq_of_lt htotal
  · refine (BitVec.toNat_ofNat ..).trans ?_
    rw [Nat.mod_eq_of_lt (by omega), freqPresent_eq_countP hwf]
    rfl
  · refine (BitVec.toNat_ofNat ..).trans (Nat.mod_eq_of_lt ?_)
    omega

end

/-! ### The fields of each mode -/

/-- A value of fewer bits as a frequency. -/
theorem toNat_ofNat_32 {w : Nat} (v : BitVec w) (hw : w ≤ 32) : (BitVec.ofNat 32 v.toNat).toNat = v.toNat := by
  rw [BitVec.toNat_ofNat]
  exact Nat.mod_eq_of_lt (v.isLt.trans_le (Nat.pow_le_pow_right (by decide) hw))

/-- Settles O26: each field by its class; the table's sums are taken when the value loop ends. -/
theorem byteHeaderFieldsAreRead : Obligations.ByteHeaderFieldsAreRead := by
  intro s h hp hm k l sets holds
  have hn : nsyms s.dp.mode = 256 := by rw [hm]; rfl
  refine ⟨fun hk hg => ?_, fun hk hg => ?_, fun hk hg => markerLoop_ends hp (hn.trans_le hk) hg,
    fun hk hg => valueLoop_ends hp (hn.trans_le hk) h hg⟩
  · have marker {i : Instr} (c : BitVec 2) (hi : i = classMarker c) (hbits : s.nextBits 2 = fieldBits i) : sets i c :=
      (class_read h hp (hk.trans_eq hn.symm) hg hm hi hbits).2
    exact ⟨marker 0 rfl, marker 1 rfl, marker 2 rfl, marker 3 rfl⟩
  · have value {i : Instr} {w : Nat} (v : BitVec w) (c : BitVec 2) (hw : classWidth c = w) (hc0 : c ≠ 0)
        (hi : (BitVec.ofNat 32 v.toNat).toNat = v.toNat → i = classValue c (BitVec.ofNat 32 v.toNat))
        (hc : s.clsAt k = c) (hbits : s.nextBits w = bitsOf w v.toNat) : holds i w v.toNat := by
      subst hw
      have hv : (BitVec.ofNat 32 v.toNat).toNat = v.toNat :=
        toNat_ofNat_32 v (by unfold classWidth; split_ifs <;> decide)
      exact (classValue_read h hp (hk.trans_eq hn.symm) hg hm hc hc0 (by rw [hv]; exact v.isLt) (hi hv)
        (by rw [hv]; exact hbits)).2
    refine ⟨fun hc => absent_read h hp (hk.trans_eq hn.symm) hg (.inl ⟨hm, hc⟩), fun hc v => ?_, fun hc v => ?_,
      fun hc v => ?_⟩
    · exact value v 1 rfl (by decide) (fun hv => congrArg (Instr.classF8 ∘ some) (setWidth_eq_of_toNat_eq hv).symm) hc
    · exact value v 2 rfl (by decide) (fun hv => congrArg (Instr.classF16 ∘ some) (setWidth_eq_of_toNat_eq hv).symm) hc
    · exact value v 3 rfl (by decide) (fun hv => congrArg (Instr.classF32 ∘ some) (BitVec.eq_of_toNat_eq hv).symm) hc

/-- Settles O27: the existence bit, and the size bit with the value it says; the table's sums are taken when the value loop
ends. -/
theorem pairHeaderFieldsAreRead : Obligations.PairHeaderFieldsAreRead := by
  intro s h hp hm k l sets holds
  have hn : nsyms s.dp.mode = 65536 := by rw [hm]; rfl
  refine ⟨fun hk hg => ?_, fun hk hg he => ?_, fun hk hg he => ?_, fun hk hg => markerLoop_ends hp (hn.trans_le hk) hg,
    fun hk hg => valueLoop_ends hp (hn.trans_le hk) h hg⟩
  · exact ⟨fun hbits => (existence_read h hp (hk.trans_eq hn.symm) hg hm rfl hbits).2,
      fun hbits => (existence_read h hp (hk.trans_eq hn.symm) hg hm rfl hbits).2⟩
  · exact absent_read h hp (hk.trans_eq hn.symm) hg (.inr ⟨hm, he⟩)
  · have value {i : Instr} (b : Bool) (v : BitVec (pairWidth b))
        (hi : (BitVec.ofNat 32 v.toNat).toNat = v.toNat → i = pairField b (BitVec.ofNat 32 v.toNat))
        (hsize : s.nextBits 1 = [b]) (hbits : (s.past 1).nextBits (pairWidth b) = bitsOf (pairWidth b) v.toNat) :
        holds i (pairWidth b) v.toNat := by
      have hv : (BitVec.ofNat 32 v.toNat).toNat = v.toNat := toNat_ofNat_32 v (by cases b <;> decide)
      exact (pairValue_read h hp (hk.trans_eq hn.symm) hg hm he (by rw [hv]; exact v.isLt) (hi hv) hsize
        (by rw [hv]; exact hbits)).2
    exact ⟨fun hsize v hbits =>
        value false v (fun hv => congrArg Instr.pairSize8 (setWidth_eq_of_toNat_eq hv).symm) hsize hbits,
      fun hsize v hbits =>
        value true v (fun hv => congrArg Instr.pairSize16 (setWidth_eq_of_toNat_eq hv).symm) hsize hbits⟩

end Sys2Proof.Machine
end

section
/-!
SUPPORT. The header as a bit string that is made and read symbol by symbol: the bits before each symbol's field, the header's
length (43_header.md R280, R283, R285), and an engine step of two table passes.
-/

namespace Sys2Proof.Machine

/-! ### The bits before a field -/

/-- How many markers stand before symbol `k`'s field in a loop of the header. -/
def Stage.markers (pair : Bool) : Stage → Nat → Nat
  | .entry, _ => 0
  | .pass1, k => k
  | .pass2, _ => nsyms pair

/-- How many symbols' values stand before symbol `k`'s field in a loop of the header. -/
def Stage.values : Stage → Nat → Nat
  | .entry, _ => 0
  | .pass1, _ => 0
  | .pass2, k => k

/-- The header's bits, the mode flag not included, before symbol `k`'s field in loop `g`. -/
def headerBefore (pair : Bool) (f : Nat → BitVec 32) (g : Stage) (k : Nat) : Bits :=
  (List.range (g.markers pair k)).flatMap (fun j => markerBits pair (f j)) ++
    (List.range (g.values k)).flatMap (fun j => valueBits pair (f j))

/-- The bits of a symbol of frequency `f` in loop `g` of the header. -/
def symbolBits (pair : Bool) (f : BitVec 32) : Stage → Bits
  | .entry => []
  | .pass1 => markerBits pair f
  | .pass2 => valueBits pair f

section
variable (pair : Bool) (f : Nat → BitVec 32)

theorem headerBefore_succ (g : Stage) (k : Nat) :
    headerBefore pair f g (k + 1) = headerBefore pair f g k ++ symbolBits pair (f k) g := by
  cases g with
  | entry => rfl
  | pass1 => simp [headerBefore, Stage.markers, Stage.values, symbolBits, List.range_succ, List.flatMap_append]
  | pass2 => simp [headerBefore, Stage.markers, Stage.values, symbolBits, List.range_succ, List.flatMap_append]

/-- What stands before a symbol's field begins what stands before a later one's. -/
theorem headerBefore_append (g : Stage) {k n : Nat} (h : k ≤ n) :
    ∃ rest, headerBefore pair f g n = headerBefore pair f g k ++ rest := by
  induction n, h using Nat.le_induction with
  | base => exact ⟨[], (List.append_nil _).symm⟩
  | succ n _ ih =>
    obtain ⟨rest, hrest⟩ := ih
    exact ⟨rest ++ symbolBits pair (f n) g, by rw [headerBefore_succ, hrest, List.append_assoc]⟩

/-- What stands before the end of a loop begins the header: the value loop begins where the marker loop ends. -/
theorem headerBits_append (g : Stage) : ∃ rest, headerBits pair f = headerBefore pair f g (nsyms pair) ++ rest := by
  cases g with
  | entry => exact ⟨headerBits pair f, rfl⟩
  | pass1 => exact headerBefore_append pair f .pass2 (Nat.zero_le _)
  | pass2 => exact ⟨[], (List.append_nil _).symm⟩

/-- The header is what stands before a symbol's field, the field, and a rest. -/
theorem headerBits_split (g : Stage) {k : Nat} (h : k < nsyms pair) :
    ∃ rest, headerBits pair f = headerBefore pair f g k ++ symbolBits pair (f k) g ++ rest := by
  obtain ⟨r₁, h₁⟩ := headerBefore_append pair f g (Nat.succ_le_of_lt h)
  obtain ⟨r₂, h₂⟩ := headerBits_append pair f g
  exact ⟨r₁ ++ r₂, by rw [h₂, h₁, headerBefore_succ, List.append_assoc, List.append_assoc]⟩

/-! ### Its length -/

theorem markerBits_length (f : BitVec 32) : (markerBits pair f).length = if pair then 1 else 2 := by
  unfold markerBits
  split_ifs <;> rfl

theorem valueBits_length (f : BitVec 32) :
    (valueBits pair f).length = if f = 0 then 0 else pair.toNat + valueWidth pair f := by
  unfold valueBits
  split_ifs with h0 hp
  · rfl
  · rw [hp, List.length_append, bitsOf_length]; rfl
  · rw [Bool.eq_false_iff.2 hp, List.length_append, bitsOf_length]; rfl

/-- The header with its mode flag is as long as 43_header.md R285 says. -/
theorem headerBits_length : 1 + (headerBits pair f).length = headerLength pair f := by
  have hmarkers : ((List.range (nsyms pair)).flatMap fun k => markerBits pair (f k)).length =
      nsyms pair * if pair then 1 else 2 := by
    simp only [List.length_flatMap, markerBits_length, List.map_const', List.length_range, List.sum_replicate, smul_eq_mul]
  rw [headerBits, List.length_append, hmarkers, List.length_flatMap]
  simp only [valueBits_length]
  cases pair with
  | false =>
    have hvalue : ∀ k ∈ List.range 256, (if f k = 0 then 0 else false.toNat + valueWidth false (f k)) =
        valueWidth false (f k) := fun k _ => by
      by_cases h0 : f k = 0
      · rw [if_pos h0, valueWidth, if_pos h0]
      · rw [if_neg h0]; exact Nat.zero_add _
    rw [headerLength, if_neg (by simp), ← List.map_congr_left hvalue, ← Nat.add_assoc]
    rfl
  | true =>
    rw [headerLength, if_pos rfl, ← Nat.add_assoc]
    rfl

end

/-! ### Two table passes -/

theorem nsyms_le (pair : Bool) : nsyms pair ≤ 65536 := by cases pair <;> decide

/-- A table pass of `m` symbols: the run goes on from where every symbol has had its finer step. -/
theorem runPhase_pass {P : Nat → State → Prop} {p : Phase} {m : Nat} (phase : ∀ k u, P k u → u.phase = p)
    (next : ∀ k u, P k u → k < m → ∃ v, fineStep u = .next v ∧ P (k + 1) v) {k : Nat} {u : State} (h : P k u) {n : Nat}
    (hk : k + n = m) : ∃ v, P m v ∧ ∀ bound, runPhase (bound + n) u = runPhase bound v := by
  induction n generalizing k u with
  | zero => exact ⟨u, by rw [← hk]; exact h, fun _ => rfl⟩
  | succ n ih =>
    obtain ⟨v, hstep, hv⟩ := next k u h (by omega)
    obtain ⟨w, hw, hrun⟩ := ih hv (by omega)
    refine ⟨w, hw, fun bound => ?_⟩
    rw [← Nat.add_assoc, runPhase_on hstep ((phase _ v hv).trans (phase _ u h).symm)]
    exact hrun bound

/-- An engine step that is the phase's start, two passes over a mode's symbols and the phase's end. -/
theorem engineStep_twoPasses {P : Stage → Nat → State → Prop} {Q : State → Prop} {s : State} {p : Phase} {m : Nat}
    (hm : m ≤ 65536) (hp : s.phase = p) (phase : ∀ g k u, P g k u → u.phase = p)
    (entry : ∃ u, fineStep s = .next u ∧ P .pass1 0 u)
    (marker : ∀ k u, P .pass1 k u → k < m → ∃ v, fineStep u = .next v ∧ P .pass1 (k + 1) v)
    (turn : ∀ u, P .pass1 m u → ∃ v, fineStep u = .next v ∧ P .pass2 0 v)
    (value : ∀ k u, P .pass2 k u → k < m → ∃ v, fineStep u = .next v ∧ P .pass2 (k + 1) v)
    (finish : ∀ u, P .pass2 m u → ∃ t, fineStep u = .next t ∧ t.phase ≠ p ∧ Q t) :
    ∃ t, engineStep s = .next t ∧ Q t := by
  obtain ⟨u₀, step₀, h₀⟩ := entry
  obtain ⟨u₁, h₁, run₁⟩ := runPhase_pass (phase .pass1) marker h₀ (Nat.zero_add m)
  obtain ⟨u₂, step₂, h₂⟩ := turn u₁ h₁
  obtain ⟨u₃, h₃, run₃⟩ := runPhase_pass (phase .pass2) value h₂ (Nat.zero_add m)
  obtain ⟨t, step₄, hne, ht⟩ := finish u₃ h₃
  have hbound : ∃ n, s.phaseBound = n + 1 + m + 1 + m + 1 :=
    ⟨s.phaseBound - (2 * m + 3), by simp only [State.phaseBound]; omega⟩
  obtain ⟨n, hn⟩ := hbound
  refine ⟨t, ?_, ht⟩
  rw [engineStep, hn, runPhase_on step₀ ((phase _ _ _ h₀).trans hp.symm), run₁,
    runPhase_on step₂ ((phase _ _ _ h₂).trans (phase _ _ _ h₁).symm), run₃]
  exact runPhase_end step₄ (by rw [phase _ _ _ h₃]; exact hne)

end Sys2Proof.Machine
end

section
/-!
SUPPORT. C_HDR: the mode flag, then each symbol's marker, then each present symbol's value is appended to the output, and the
header's length is recorded (43_header.md R280, R283, R285; 45_orchestration.md R351).
-/

namespace Sys2Proof.Machine

/-- The output's length is what the writer counts (10_state.md R35). -/
theorem written_length {s : State} (h : s.wr.ok) : s.written.length = s.wr.bits.toNat := by
  rw [State.written, List.length_append, streamBits_length, bitsOf_length, h.1]

/-- The next symbol's index. -/
theorem toNat_succ_sym {k : BitVec 17} {pair : Bool} (h : k.toNat < nsyms pair) : (k + 1).toNat = k.toNat + 1 := by
  have hlt := lt_of_lt_nsyms h
  bv_omega

/-- Where C_HDR stands at no field (45_orchestration.md R351). -/
theorem fineStep_cHdr {s : State} (hp : s.phase = .cHdr) (hi : s.nextField = none) :
    fineStep s = (headerOutStep s).outcome := by
  rw [fineStep_internal (busy_of_phase hp rfl) hi]
  simp [internalStep, hp]

/-- `u` stands at symbol `k` in loop `g` of the C_HDR that started from `s`, with what goes before written. -/
structure HeadingOut (s : State) (g : Stage) (k : Nat) (u : State) : Prop where
  inv : Inv u
  phase : u.phase = .cHdr
  stage : u.loop.stage = g
  sym : u.loop.s.toNat = k
  kept : u = { s with wr := u.wr, outMem := u.outMem, loop := u.loop }
  written : u.written = s.dp.mode :: headerBefore s.dp.mode s.freqAt g k

theorem HeadingOut.dp {s u : State} {g : Stage} {k : Nat} (h : HeadingOut s g k u) : u.dp = s.dp := by rw [h.kept]

theorem HeadingOut.freqAt {s u : State} {g : Stage} {k : Nat} (h : HeadingOut s g k u) : u.freqAt = s.freqAt := by
  rw [h.kept]; rfl

/-- The symbol's index is in range as the model asks for it. -/
theorem HeadingOut.lt {s u : State} {g : Stage} {k : Nat} (h : HeadingOut s g k u) (hk : k < nsyms s.dp.mode) :
    u.loop.s.toNat < nsyms u.dp.mode := by
  rw [h.sym, h.dp]; exact hk

/-- The bits written so far, the mode flag included. -/
theorem HeadingOut.bits {s u : State} {g : Stage} {k : Nat} (h : HeadingOut s g k u) :
    u.wr.bits.toNat = 1 + (headerBefore s.dp.mode s.freqAt g k).length := by
  rw [← written_length (h.inv.runAt h.phase rfl).writer.1, h.written, List.length_cons, Nat.add_comm]

/-- Room for the whole header is room for each of its fields. -/
theorem HeadingOut.room {s u : State} {g : Stage} {k : Nat} (h : HeadingOut s g k u) (hb : s.wr.bits = 0)
    (hr : s.room (headerLength s.dp.mode s.freqAt)) (hk : k < nsyms s.dp.mode) :
    u.room (symbolBits s.dp.mode (s.freqAt k) g).length := by
  obtain ⟨rest, hsplit⟩ := headerBits_split s.dp.mode s.freqAt g hk
  have hcfg : u.cfg = s.cfg := by rw [h.kept]
  rw [State.room, hb, ← headerBits_length, hsplit, List.length_append, List.length_append] at hr
  rw [State.room, h.bits, hcfg]
  refine (Nat.div_le_div_right ?_).trans hr
  omega

/-- The engine's first finer step of C_HDR writes the mode flag. -/
theorem headingOut_zero {s : State} (h : Inv s) (hp : s.phase = .cHdr) (hg : s.loop.stage = .entry) (hb : s.wr.bits = 0)
    (hr : s.room 1) : ∃ u, fineStep s = .next u ∧ HeadingOut s .pass1 0 u := by
  obtain ⟨t, hexec, hkept, hwritten, -⟩ := modeFlag_appends h hr hp hg
  have hempty : s.written = [] := List.length_eq_zero_iff.1 (by rw [written_length (h.runAt hp rfl).writer.1, hb]; rfl)
  have hstep := (fineStep_field (busy_of_phase hp rfl) (nextField_modeFlag hp hg)).trans hexec
  refine ⟨_, hstep,
    { inv := h.fineStep hstep
      phase := ?_
      stage := rfl
      sym := rfl
      kept := ?_
      written := ?_ }⟩
  · rw [hkept]; exact hp
  · rw [hkept]
  · rw [hempty] at hwritten
    exact hwritten

/-- A field that appends the symbol's bits leads to the next symbol. -/
theorem HeadingOut.next {s u : State} {g : Stage} {k : Nat} (h : HeadingOut s g k u) (hk : k < nsyms s.dp.mode)
    {i : Instr} (hi : u.nextField = some i)
    (happ : u.appends i (symbolBits s.dp.mode (s.freqAt k) g) { u.loop with s := u.loop.s + 1 }) :
    ∃ v, fineStep u = .next v ∧ HeadingOut s g (k + 1) v := by
  obtain ⟨t, hexec, hkept, hwritten, -⟩ := happ
  have hstep := (fineStep_field (busy_of_phase h.phase rfl) hi).trans hexec
  refine ⟨_, hstep,
    { inv := h.inv.fineStep hstep
      phase := ?_
      stage := h.stage
      sym := (toNat_succ_sym (h.lt hk)).trans (congrArg (· + 1) h.sym)
      kept := ?_
      written := ?_ }⟩
  · rw [hkept]; exact h.phase
  · rw [hkept, h.kept]
  · rw [headerBefore_succ, ← List.cons_append, ← h.written]
    exact hwritten

/-- A finer step of the marker loop writes the symbol's marker. -/
theorem HeadingOut.marker {s u : State} {k : Nat} (h : HeadingOut s .pass1 k u) (hb : s.wr.bits = 0)
    (hr : s.room (headerLength s.dp.mode s.freqAt)) (hk : k < nsyms s.dp.mode) :
    ∃ v, fineStep u = .next v ∧ HeadingOut s .pass1 (k + 1) v := by
  have hbits : fieldBits (markerInstr u.dp.mode (u.freqAt u.loop.s.toNat)) = symbolBits s.dp.mode (s.freqAt k) .pass1 := by
    rw [fieldBits_markerInstr, h.dp, h.freqAt, h.sym]; rfl
  refine h.next hk (nextField_marker_cHdr h.phase h.stage (h.lt hk)) ?_
  have happ := marker_appends h.inv h.phase h.stage (h.lt hk) rfl
  rw [hbits] at happ
  exact happ (h.room hb hr hk)

/-- An absent symbol has no value field (43_header.md R280, R283). -/
theorem fineStep_absent_cHdr {s : State} (hp : s.phase = .cHdr) (hg : s.loop.stage = .pass2)
    (hk : s.loop.s.toNat < nsyms s.dp.mode) (hf : s.freqAt s.loop.s.toNat = 0) : fineStep s = .next s.nextSym := by
  have hnext : s.nextField = none := by simp [State.nextField, hp, hg, hf]
  rw [fineStep_cHdr hp hnext, headerOutStep, hg]
  exact congrArg Flow.outcome (if_pos hk)

/-- A finer step of the value loop writes the symbol's value, if it is present. -/
theorem HeadingOut.value {s u : State} {k : Nat} (h : HeadingOut s .pass2 k u) (hb : s.wr.bits = 0)
    (hr : s.room (headerLength s.dp.mode s.freqAt)) (hpair : s.dp.mode = true → (s.freqAt k).toNat ≤ 65535)
    (hk : k < nsyms s.dp.mode) : ∃ v, fineStep u = .next v ∧ HeadingOut s .pass2 (k + 1) v := by
  have hfreq : u.freqAt u.loop.s.toNat = s.freqAt k := by rw [h.freqAt, h.sym]
  by_cases hf : s.freqAt k = 0
  · have hstep := fineStep_absent_cHdr h.phase h.stage (h.lt hk) (hfreq.trans hf)
    have hnone : symbolBits s.dp.mode (s.freqAt k) .pass2 = [] := if_pos hf
    exact ⟨_, hstep,
      { inv := h.inv.fineStep hstep
        phase := h.phase
        stage := h.stage
        sym := (toNat_succ_sym (h.lt hk)).trans (congrArg (· + 1) h.sym)
        kept := by rw [h.kept]; rfl
        written := by rw [headerBefore_succ, hnone, List.append_nil, ← h.written]; rfl }⟩
  · have hbits : fieldBits (valueInstr u.dp.mode (u.freqAt u.loop.s.toNat)) =
        symbolBits s.dp.mode (s.freqAt k) .pass2 := by
      rw [hfreq, h.dp, fieldBits_valueInstr hf hpair]; rfl
    have hf' : u.freqAt u.loop.s.toNat ≠ 0 := by rw [hfreq]; exact hf
    refine h.next hk (nextField_value_cHdr h.phase h.stage (h.lt hk) hf') ?_
    have happ := value_appends h.inv h.phase h.stage (h.lt hk) hf' rfl
    rw [hbits] at happ
    exact happ (h.room hb hr hk)

/-- After the last marker comes the value loop. -/
theorem HeadingOut.turn {s u : State} (h : HeadingOut s .pass1 (nsyms s.dp.mode) u) :
    ∃ v, fineStep u = .next v ∧ HeadingOut s .pass2 0 v := by
  have hnext : u.nextField = none := by simp [State.nextField, h.phase, h.stage, h.sym, h.dp]
  have hstep : fineStep u = .next (u.toStage .pass2) := by
    rw [fineStep_cHdr h.phase hnext, headerOutStep, h.stage]
    rfl
  exact ⟨_, hstep,
    { inv := h.inv.fineStep hstep
      phase := h.phase
      stage := rfl
      sym := rfl
      kept := by rw [h.kept]; rfl
      written := h.written }⟩

/-- After the last value the header's length is recorded and the phase ends. -/
theorem HeadingOut.finish {s u : State} (h : HeadingOut s .pass2 (nsyms s.dp.mode) u) :
    fineStep u = .next ({ u with dp := { u.dp with hdrBits := u.wr.bits } }.enter .cBuild) := by
  have hnext : u.nextField = none := by simp [State.nextField, h.phase, h.stage, h.sym, h.dp]
  rw [fineStep_cHdr h.phase hnext, headerOutStep, h.stage]
  exact congrArg Flow.outcome (if_neg (by rw [h.sym, h.dp]; exact lt_irrefl _))

/-- Settles O37: by the two passes, each finer step of which appends one symbol's bits. -/
theorem headerPhaseWritesTheHeader : Obligations.HeaderPhaseWritesTheHeader := by
  intro s h hp hg hb hpair hr
  have hone : 1 ≤ headerLength s.dp.mode s.freqAt := by rw [← headerBits_length]; exact Nat.le_add_right _ _
  refine engineStep_twoPasses (P := HeadingOut s) (nsyms_le s.dp.mode) hp (fun _ _ _ hu => hu.phase)
    (headingOut_zero h hp hg hb (room_mono hone hr)) (fun k u hu hk => hu.marker hb hr hk) (fun u hu => hu.turn)
    (fun k u hu hk => hu.value hb hr (fun hm => hpair hm k) hk) fun u hu => ⟨_, hu.finish, by simp, rfl, hu.written, ?_, ?_, ?_⟩
  · rw [State.enter_dp, hu.dp]
  · exact hu.bits.trans (headerBits_length _ _)
  · rw [hu.kept]
    exact ⟨rfl, rfl, rfl, rfl, rfl, rfl⟩

end Sys2Proof.Machine
end

section
/-!
SUPPORT. D_HDR on the header of a table: each finer step reads back the bits of one symbol's field, so the phase ends with the
table, its total and its number of symbols, at the first bit after the header (43_header.md R290).
-/

namespace Sys2Proof.Machine

/-! ### Fields one after the other -/

/-- Two fields passed are one field passed. -/
theorem State.past_past {s : State} (j k : Nat) (hok : s.rd.ok) : (s.past j).past k = s.past (j + k) := by
  obtain ⟨-, hlen, hpos⟩ := State.past_ok j hok
  have hmin : min (min (s.rd.pos + j) (8 * s.rd.len.toNat) + k) (8 * s.rd.len.toNat)
      = min (s.rd.pos + (j + k)) (8 * s.rd.len.toNat) := by omega
  rw [State.past, hlen, hpos, hmin]
  rfl

theorem State.past_zero {s : State} (hok : s.rd.ok) : s.past 0 = s := by
  rw [State.past, Nat.add_zero, Nat.min_eq_left (Reader.pos_le hok), Reader.moveTo_pos]

theorem State.nextBits_length (s : State) (k : Nat) : (s.nextBits k).length = k := by
  unfold State.nextBits
  split_ifs <;> simp

/-- Bits that the input has, as two fields. -/
theorem State.nextBits_add {s : State} {j k : Nat} (hok : s.rd.ok) (hfit : s.rd.pos + (j + k) ≤ 8 * s.rd.len.toNat) :
    s.nextBits (j + k) = s.nextBits j ++ (s.past j).nextBits k := by
  obtain ⟨-, hlen, hpos⟩ := State.past_ok j hok
  rw [Nat.min_eq_left (by omega)] at hpos
  rw [State.nextBits, if_pos hfit, State.nextBits, if_pos (by omega), State.nextBits, hlen, hpos, if_pos (by omega),
    streamBits_append]
  rfl

/-! ### One symbol -/

/-- The marker buffer of the mode holds frequency `f`'s marker at symbol `j` (43_header.md R286, R287). -/
def State.marked (s : State) (j : Nat) (f : BitVec 32) : Prop :=
  if s.dp.mode then s.exAt j = (f != 0) else s.clsAt j = sizeClass f

theorem State.marked_byte {s : State} (hm : s.dp.mode = false) (j : Nat) (f : BitVec 32) :
    s.marked j f ↔ s.clsAt j = sizeClass f := by
  rw [State.marked, if_neg (by simp [hm])]

theorem State.marked_pair {s : State} (hm : s.dp.mode = true) (j : Nat) (f : BitVec 32) :
    s.marked j f ↔ s.exAt j = (f != 0) := by
  rw [State.marked, if_pos hm]

section
variable {s : State} (h : Inv s) (hp : s.phase = .dHdr) (hk : s.loop.s.toNat < nsyms s.dp.mode) {f : BitVec 32}
include h hp hk

/-- The marker of a frequency marks the symbol with it, and no other symbol. -/
theorem marker_read (hg : s.loop.stage = .pass1)
    (hbits : s.nextBits (markerBits s.dp.mode f).length = markerBits s.dp.mode f) :
    ∃ t, fineStep s = .next t ∧
      t = { s.past (markerBits s.dp.mode f).length with
        cls := t.cls, ex := t.ex, loop := { s.loop with s := s.loop.s + 1 } } ∧
      t.marked s.loop.s.toNat f ∧ ∀ j g, j ≠ s.loop.s.toNat → s.marked j g → t.marked j g := by
  have hb := busy_of_phase hp rfl
  cases hm : s.dp.mode with
  | false =>
    have hlen : (markerBits false f).length = 2 := markerBits_length false f
    rw [hm, hlen] at hbits
    obtain ⟨hnext, t, hexec, ht, hset⟩ :=
      class_read h hp hk hg hm rfl (hbits.trans (fieldBits_markerInstr false f).symm)
    have hmode : t.dp.mode = false := by rw [ht]; exact hm
    rw [hlen]
    refine ⟨t, (fineStep_field hb hnext).trans hexec, by rw [ht], (State.marked_byte hmode _ _).2 ?_, fun j g hj hmark => ?_⟩
    · rw [hset, if_pos rfl]
    · rw [State.marked_byte hmode, hset, if_neg hj]
      exact (State.marked_byte hm j g).1 hmark
  | true =>
    have hlen : (markerBits true f).length = 1 := markerBits_length true f
    rw [hm, hlen] at hbits
    obtain ⟨hnext, t, hexec, ht, hset⟩ := existence_read h hp hk hg hm rfl hbits
    have hmode : t.dp.mode = true := by rw [ht]; exact hm
    rw [hlen]
    refine ⟨t, (fineStep_field hb hnext).trans hexec, by rw [ht], (State.marked_pair hmode _ _).2 ?_, fun j g hj hmark => ?_⟩
    · rw [hset, if_pos rfl]
    · rw [State.marked_pair hmode, hset, if_neg hj]
      exact (State.marked_pair hm j g).1 hmark

/-- The value of a frequency, at a symbol that its marker has marked, is read as that frequency. -/
theorem value_read (hg : s.loop.stage = .pass2) (hmark : s.marked s.loop.s.toNat f)
    (hpair : s.dp.mode = true → f.toNat ≤ 65535)
    (hfit : s.rd.pos + (valueBits s.dp.mode f).length ≤ 8 * s.rd.len.toNat)
    (hbits : s.nextBits (valueBits s.dp.mode f).length = valueBits s.dp.mode f) :
    SetsFreq s (s.past (valueBits s.dp.mode f).length) f (fineStep s) := by
  have hb := busy_of_phase hp rfl
  have hok := (h.runAt hp rfl).reader.1
  by_cases hf : f = 0
  · have hnone : (valueBits s.dp.mode f).length = 0 := by rw [valueBits_length, if_pos hf]
    rw [hnone, State.past_zero hok, hf]
    rw [hf] at hmark
    refine absent_read h hp hk hg ?_
    cases hm : s.dp.mode with
    | false => exact .inl ⟨rfl, (State.marked_byte hm _ _).1 hmark⟩
    | true => exact .inr ⟨rfl, (State.marked_pair hm _ _).1 hmark⟩
  cases hm : s.dp.mode with
  | false =>
    rw [hm, valueBits_byte hf, bitsOf_length] at hbits
    obtain ⟨hnext, hset⟩ := classValue_read h hp hk hg hm ((State.marked_byte hm _ _).1 hmark) (sizeClass_ne_zero hf)
      (lt_two_pow_classWidth f) rfl hbits
    rw [valueBits_byte hf, bitsOf_length, fineStep_field hb hnext]
    exact hset
  | true =>
    have hlen : (valueBits true f).length = 1 + pairWidth (pairSize f) := by
      rw [valueBits_pair hf, List.length_cons, bitsOf_length, Nat.add_comm]
    rw [hm, hlen] at hfit hbits
    rw [State.nextBits_add hok hfit, valueBits_pair hf] at hbits
    obtain ⟨hsize, hvalue⟩ := List.append_inj (s₂ := [pairSize f]) hbits (State.nextBits_length s 1)
    have hex : s.exAt s.loop.s.toNat = true := ((State.marked_pair hm _ _).1 hmark).trans (bne_iff_ne.2 hf)
    obtain ⟨hnext, hset⟩ := pairValue_read h hp hk hg hm hex (lt_two_pow_pairWidth (hpair hm)) rfl hsize hvalue
    rw [hlen, ← State.past_past 1 _ hok, fineStep_field hb hnext]
    exact hset

end

/-! ### The whole header -/

/-- The input holds the header of table `f` from bit 1 on. -/
structure HeaderAhead (s : State) (f : Nat → BitVec 32) : Prop where
  pair : s.dp.mode = true → ∀ k, (f k).toNat ≤ 65535
  fits : 1 + (headerBits s.dp.mode f).length ≤ 8 * s.rd.len.toNat
  bits : streamBits s.inByte 1 (headerBits s.dp.mode f).length = headerBits s.dp.mode f

/-- `u` stands at symbol `k` in loop `g` of the D_HDR that started from `s`, with what goes before read as table `f`. -/
structure HeadingIn (s : State) (f : Nat → BitVec 32) (g : Stage) (k : Nat) (u : State) : Prop where
  inv : Inv u
  phase : u.phase = .dHdr
  stage : u.loop.stage = g
  sym : u.loop.s.toNat = k
  kept : u = { s with rd := { u.rd with len := s.rd.len }, freq := u.freq, cls := u.cls, ex := u.ex, loop := u.loop }
  pos : u.rd.pos = 1 + (headerBefore s.dp.mode f g k).length
  marked : ∀ j < g.markers s.dp.mode k, u.marked j (f j)
  freq : ∀ j, u.freqAt j = if j < g.values k then f j else 0

section
variable {s u : State} {f : Nat → BitVec 32} {g : Stage} {k : Nat}

theorem HeadingIn.mode (h : HeadingIn s f g k u) : u.dp.mode = s.dp.mode := by rw [h.kept]

theorem HeadingIn.lt (h : HeadingIn s f g k u) (hk : k < nsyms s.dp.mode) : u.loop.s.toNat < nsyms u.dp.mode := by
  rw [h.sym, h.mode]; exact hk

/-- The reader stands at the bits of the symbol's field. -/
theorem HeadingIn.nextBits (h : HeadingIn s f g k u) (ha : HeaderAhead s f) (hk : k < nsyms s.dp.mode) :
    u.rd.pos + (symbolBits s.dp.mode (f k) g).length ≤ 8 * u.rd.len.toNat ∧
      u.nextBits (symbolBits s.dp.mode (f k) g).length = symbolBits s.dp.mode (f k) g := by
  obtain ⟨rest, hsplit⟩ := headerBits_split s.dp.mode f g hk
  have hlen : u.rd.len = s.rd.len := by rw [h.kept]
  have hbyte : u.inByte = s.inByte := by rw [h.kept]; rfl
  have hfit : u.rd.pos + (symbolBits s.dp.mode (f k) g).length ≤ 8 * u.rd.len.toNat := by
    have hall := ha.fits
    rw [hsplit, List.length_append, List.length_append] at hall
    rw [h.pos, hlen]
    omega
  have hstream : streamBits s.inByte 0 (1 + (headerBits s.dp.mode f).length) =
      streamBits s.inByte 0 1 ++ headerBefore s.dp.mode f g k ++ symbolBits s.dp.mode (f k) g ++ rest := by
    rw [streamBits_append, ha.bits, hsplit, List.append_assoc, List.append_assoc, List.append_assoc]
  refine ⟨hfit, ?_⟩
  rw [State.nextBits, if_pos hfit, h.pos, hbyte]
  have hmiddle := streamBits_middle hstream
  rwa [List.length_append, streamBits_length] at hmiddle

/-- Past the symbol's field the reader stands at the next symbol's. -/
theorem HeadingIn.pos_succ (h : HeadingIn s f g k u) (ha : HeaderAhead s f) (hk : k < nsyms s.dp.mode) :
    (u.past (symbolBits s.dp.mode (f k) g).length).rd.pos = 1 + (headerBefore s.dp.mode f g (k + 1)).length := by
  obtain ⟨-, -, hpos⟩ := State.past_ok (symbolBits s.dp.mode (f k) g).length (h.inv.runAt h.phase rfl).reader.1
  rw [hpos, Nat.min_eq_left (h.nextBits ha hk).1, h.pos, headerBefore_succ, List.length_append, Nat.add_assoc]

end

/-- The engine's first finer step of D_HDR. -/
theorem headingIn_zero {s : State} {f : Nat → BitVec 32} (h : Inv s) (hp : s.phase = .dHdr) (hg : s.loop.stage = .entry)
    (hfreq : s.freq = []) (hpos : s.rd.pos = 1) : ∃ u, fineStep s = .next u ∧ HeadingIn s f .pass1 0 u := by
  have hnext : s.nextField = none := by simp [State.nextField, hp, hg]
  have hstep : fineStep s = .next (s.toStage .pass1) := by
    rw [fineStep_dHdr hp hnext, headerInStep, hg]
    rfl
  exact ⟨_, hstep,
    { inv := h.fineStep hstep
      phase := hp
      stage := rfl
      sym := rfl
      kept := rfl
      pos := hpos
      marked := fun j hj => absurd hj (Nat.not_lt_zero j)
      freq := fun j => by
        have hnone : s.freqAt j = 0 := by rw [State.freqAt, hfreq]; rfl
        exact hnone.trans (if_neg (Nat.not_lt_zero j)).symm }⟩

/-- A finer step of the marker loop marks the symbol with its frequency. -/
theorem HeadingIn.marker {s u : State} {f : Nat → BitVec 32} {k : Nat} (h : HeadingIn s f .pass1 k u)
    (ha : HeaderAhead s f) (hk : k < nsyms s.dp.mode) : ∃ v, fineStep u = .next v ∧ HeadingIn s f .pass1 (k + 1) v := by
  have hbits := (h.nextBits ha hk).2
  have hpos := h.pos_succ ha hk
  rw [symbolBits, ← h.mode] at hbits hpos
  obtain ⟨v, hstep, hv, hset, hother⟩ := marker_read h.inv h.phase (h.lt hk) h.stage hbits
  refine ⟨v, hstep,
    { inv := h.inv.fineStep hstep
      phase := by rw [hv]; exact h.phase
      stage := by rw [hv]; exact h.stage
      sym := by rw [hv]; exact (toNat_succ_sym (h.lt hk)).trans (congrArg (· + 1) h.sym)
      kept := ?_
      pos := by rw [hv, ← h.mode]; exact hpos
      marked := fun j hj => ?_
      freq := by rw [hv]; exact h.freq }⟩
  · rw [hv, h.kept]; rfl
  · by_cases hjk : j = k
    · rw [hjk]; rwa [h.sym] at hset
    · exact hother j (f j) (by rw [h.sym]; exact hjk) (h.marked j (by simp only [Stage.markers] at hj ⊢; omega))

/-- A finer step of the value loop sets the symbol's frequency. -/
theorem HeadingIn.value {s u : State} {f : Nat → BitVec 32} {k : Nat} (h : HeadingIn s f .pass2 k u)
    (ha : HeaderAhead s f) (hk : k < nsyms s.dp.mode) : ∃ v, fineStep u = .next v ∧ HeadingIn s f .pass2 (k + 1) v := by
  obtain ⟨hfit, hbits⟩ := h.nextBits ha hk
  have hpos := h.pos_succ ha hk
  rw [symbolBits, ← h.mode] at hfit hbits hpos
  obtain ⟨v, hstep, hv, hset⟩ := value_read h.inv h.phase (h.lt hk) (f := f k) h.stage
    (by rw [h.sym]; exact h.marked k hk) (fun hm => ha.pair (h.mode.symm.trans hm) k) hfit hbits
  refine ⟨v, hstep,
    { inv := h.inv.fineStep hstep
      phase := by rw [hv]; exact h.phase
      stage := by rw [hv]; exact h.stage
      sym := by rw [hv]; exact (toNat_succ_sym (h.lt hk)).trans (congrArg (· + 1) h.sym)
      kept := ?_
      pos := by rw [hv, ← h.mode]; exact hpos
      marked := fun j hj => by rw [hv]; exact h.marked j hj
      freq := fun j => ?_ }⟩
  · rw [hv, h.kept]; rfl
  · rw [hset, h.sym, h.freq]
    by_cases hjk : j = k
    · rw [if_pos hjk, hjk]
      exact (if_pos (Nat.lt_succ_self k)).symm
    · rw [if_neg hjk]
      exact if_congr (by simp only [Stage.values]; omega) rfl rfl

/-- After the last marker comes the value loop. -/
theorem HeadingIn.turn {s u : State} {f : Nat → BitVec 32} (h : HeadingIn s f .pass1 (nsyms s.dp.mode) u) :
    ∃ v, fineStep u = .next v ∧ HeadingIn s f .pass2 0 v := by
  have hstep := markerLoop_ends h.phase (by rw [h.sym, h.mode]) h.stage
  exact ⟨_, hstep,
    { inv := h.inv.fineStep hstep
      phase := h.phase
      stage := rfl
      sym := rfl
      kept := by rw [h.kept]
      pos := h.pos
      marked := h.marked
      freq := h.freq }⟩

/-- Settles O46: by the two passes, each finer step of which reads back one symbol's bits. -/
theorem headerRoundTrips : Obligations.HeaderRoundTrips := by
  intro s f h hp hl hfreq _ _ hpos hpair hfits hbits
  have ha : HeaderAhead s f := ⟨hpair, hfits, hbits⟩
  refine engineStep_twoPasses (P := HeadingIn s f) (nsyms_le s.dp.mode) hp (fun _ _ _ hu => hu.phase)
    (headingIn_zero h hp (by rw [hl]) hfreq hpos) (fun k u hu hk => hu.marker ha hk) (fun u hu => hu.turn)
    (fun k u hu hk => hu.value ha hk) fun u hu => ?_
  obtain ⟨t, hstep, ht, htotal, hnsym, hhdr⟩ := valueLoop_ends hu.phase (by rw [hu.sym, hu.mode]) hu.inv hu.stage
  have hphase : t.phase = if t.dp.total = 0 then .dFlush else .dBuild := by rw [ht]
  have hfreqAt : t.freqAt = u.freqAt := by rw [ht]; rfl
  have hrd : t.rd = u.rd := by rw [ht]
  have hend : u.rd.pos = headerLength s.dp.mode f := hu.pos.trans (headerBits_length _ _)
  have hin : ∀ k ∈ List.range (nsyms s.dp.mode), u.freqAt k = f k := fun k hk =>
    (hu.freq k).trans (if_pos (List.mem_range.1 hk))
  rw [hu.mode] at htotal hnsym
  refine ⟨t, hstep, by rw [hphase]; split_ifs <;> simp, fun k => by rw [hfreqAt]; exact hu.freq k, by rw [hrd, hend],
    by rw [hhdr, hend], ?_, ?_, hphase⟩
  · rw [htotal, List.map_congr_left fun k hk => by rw [hin k hk]]
  · rw [hnsym]
    exact List.countP_congr fun k hk => by rw [hin k hk]

end Sys2Proof.Machine
end

section
/-!
SUPPORT. The entries of a table in canonical form as a list of distinct keys: writing a new key adds its entry, and reading
a key is membership (10_state.md R62, R64).
-/

namespace Sys2Proof.Machine

variable {α : Type}

/-- A key is listed exactly when reading it gives an entry. -/
theorem Table.isSome_look_iff (k : Nat) (t : Table α) : (Table.look k t).isSome = true ↔ k ∈ t.map Prod.fst := by
  induction t with
  | nil => simp
  | cons e t ih =>
    obtain ⟨j, v⟩ := e
    rw [Table.look_cons, List.map_cons, List.mem_cons, ← ih]
    by_cases hj : j = k
    · simp [hj]
    · simp [hj, Ne.symm hj]

/-- In canonical form reading a key is membership of its entry. -/
theorem Table.look_eq_some_iff {bound k : Nat} {v : α} {t : Table α} (h : Table.wf bound t = true) :
    Table.look k t = some v ↔ (k, v) ∈ t :=
  ⟨Table.mem_of_look, Table.look_of_mem (Table.wf_iff.1 h).1⟩

/-- Rising keys are distinct. -/
theorem Table.keys_nodup : ∀ {lo : Nat} {t : Table α}, Table.risingFrom lo t = true → (t.map Prod.fst).Nodup
  | _, [], _ => List.nodup_nil
  | _, (j, w) :: t, ht => by
    simp only [Table.risingFrom, Bool.and_eq_true] at ht
    refine List.nodup_cons.2 ⟨fun hj => ?_, Table.keys_nodup ht.2⟩
    obtain ⟨e, he, hej⟩ := List.mem_map.1 hj
    have hlt : j + 1 ≤ e.1 := Table.le_of_mem ht.2 he
    exact absurd hej (Nat.ne_of_gt hlt)

/-- Writing at a key that is not listed adds its entry. -/
theorem Table.put_perm {k : Nat} (v : α) {t : Table α} (h : k ∉ t.map Prod.fst) :
    (Table.put k v t).Perm ((k, v) :: t) := by
  induction t with
  | nil => exact List.Perm.refl _
  | cons e t ih =>
    obtain ⟨j, w⟩ := e
    simp only [List.map_cons, List.mem_cons, not_or] at h
    obtain ⟨hj, hrest⟩ := h
    simp only [Table.put]
    split_ifs with hlt heq
    · exact List.Perm.refl _
    · exact absurd heq.symm hj
    · exact ((ih hrest).cons _).trans (List.Perm.swap _ _ _)

/-- The keys whose entry is not 0 are the present symbols. -/
theorem mem_present_iff {bound k : Nat} {t : Table (BitVec 32)} (h : Table.wf bound t = true) :
    k ∈ (t.filter (fun e => e.2 != 0)).map Prod.fst ↔ Table.lookD 0 k t ≠ 0 := by
  constructor
  · intro hk
    obtain ⟨⟨j, v⟩, he, rfl⟩ := List.mem_map.1 hk
    obtain ⟨hmem, hv⟩ := List.mem_filter.1 he
    rw [Table.lookD, (Table.look_eq_some_iff h).2 hmem]
    exact bne_iff_ne.1 hv
  · intro hne
    have hmem := (lookD_zero_or_mem k t).resolve_left hne
    exact List.mem_map.2 ⟨_, List.mem_filter.2 ⟨hmem, bne_iff_ne.2 hne⟩, rfl⟩

end Sys2Proof.Machine
end

section
/-!
SUPPORT. The paths of a tree (44_codegen.md R320): one per leaf, none the start of another, and, where every node has two
children, each shorter than the number of leaves and all together complete.
-/

namespace Sys2Proof.Machine

/-- The paths lead to the leaves, left to right. -/
theorem Tree.paths_syms (t : Tree) : t.paths.map Prod.fst = t.leafList.map Prod.fst := by
  induction t with
  | empty => rfl
  | leaf => rfl
  | node l r f k ihl ihr => simp [Tree.paths, Tree.leafList, Function.comp_def, ← ihl, ← ihr]

/-- A path from a node goes on from one child, after the edge to it. -/
theorem Tree.mem_paths_node {l r : Tree} {f : BitVec 40} {k : Sym} {e : Sym × Bits} :
    e ∈ (Tree.node l r f k).paths ↔
      (∃ x ∈ l.paths, (x.1, false :: x.2) = e) ∨ ∃ x ∈ r.paths, (x.1, true :: x.2) = e := by
  rw [Tree.paths, List.mem_append, List.mem_map, List.mem_map]

/-- No path starts another leaf's (44_codegen.md R323): two paths with a common first edge go on in one child. -/
theorem Tree.eq_of_path_prefix {t : Tree} {a b : Sym × Bits} (ha : a ∈ t.paths) (hb : b ∈ t.paths) (h : a.2 <+: b.2) :
    a = b := by
  induction t generalizing a b with
  | empty => cases ha
  | leaf => exact (List.mem_singleton.1 ha).trans (List.mem_singleton.1 hb).symm
  | node l r f k ihl ihr =>
    obtain ⟨x, hx, rfl⟩ | ⟨x, hx, rfl⟩ := Tree.mem_paths_node.1 ha <;>
      obtain ⟨y, hy, rfl⟩ | ⟨y, hy, rfl⟩ := Tree.mem_paths_node.1 hb <;>
      obtain ⟨hedge, hrest⟩ := List.cons_prefix_cons.1 h
    · rw [ihl hx hy hrest]
    · cases hedge
    · cases hedge
    · rw [ihr hx hy hrest]

/-- Where there are two leaves the root is a node, and every path leaves it by an edge (44_codegen.md R323). -/
theorem Tree.path_pos {t : Tree} (h : 2 ≤ t.leafList.length) {e : Sym × Bits} (he : e ∈ t.paths) : 1 ≤ e.2.length := by
  cases t with
  | empty => cases he
  | leaf => exact absurd h (by simp [Tree.leafList])
  | node l r f k =>
    obtain ⟨x, -, rfl⟩ | ⟨x, -, rfl⟩ := Tree.mem_paths_node.1 he
    · exact Nat.succ_pos _
    · exact Nat.succ_pos _

/-- A path is no longer than the longest. -/
theorem Tree.path_le_depth {t : Tree} {e : Sym × Bits} (he : e ∈ t.paths) : e.2.length ≤ t.depth := by
  induction t generalizing e with
  | empty => cases he
  | leaf => rw [List.mem_singleton.1 he]; exact Nat.zero_le _
  | node l r f k ihl ihr =>
    obtain ⟨x, hx, rfl⟩ | ⟨x, hx, rfl⟩ := Tree.mem_paths_node.1 he
    · exact Nat.succ_le_succ ((ihl hx).trans (le_max_left _ _))
    · exact Nat.succ_le_succ ((ihr hx).trans (le_max_right _ _))

/-- A path has fewer edges than the tree has leaves (44_codegen.md R325). -/
theorem Tree.path_lt_leaves {t : Tree} (h : t.full = true) {e : Sym × Bits} (he : e ∈ t.paths) :
    e.2.length + 1 ≤ t.leafList.length := by
  have hdepth := Tree.path_le_depth he
  have hinternal := t.depth_le_internal
  have hleaves := Tree.internal_succ h
  omega

/-- Below a new edge every path weighs half. -/
theorem pathWeights_below (b : Bool) (ps : List (Sym × Bits)) :
    ((ps.map fun e => (e.1, b :: e.2)).map fun e => (1 / 2 : ℚ) ^ e.2.length).sum =
      (1 / 2) * (ps.map fun e => (1 / 2 : ℚ) ^ e.2.length).sum := by
  rw [← List.sum_map_mul_left, List.map_map]
  simp only [Function.comp_def, List.length_cons, pow_succ']

/-- Where every node has two children each child weighs a half, and the tree 1 (44_codegen.md R324). -/
theorem Tree.paths_complete {t : Tree} (h : t.full = true) :
    (t.paths.map fun e => (1 / 2 : ℚ) ^ e.2.length).sum = 1 := by
  induction t with
  | empty => cases h
  | leaf => simp [Tree.paths]
  | node l r f k ihl ihr =>
    simp only [Tree.full, Bool.and_eq_true] at h
    rw [Tree.paths, List.map_append, List.sum_append, pathWeights_below, pathWeights_below, ihl h.1, ihr h.2]
    norm_num

end Sys2Proof.Machine
end

section
/-!
SUPPORT. The code generator: the codes of a tree with distinct symbols are its paths (44_codegen.md R320), and those of a
table's tree are those of its present symbols (44_codegen.md R321).
-/

namespace Sys2Proof.Machine

/-! ### The codes of a tree -/

/-- The entries that gen writes for a tree that stands at the path `p` (44_codegen.md R320). -/
def Tree.codes (t : Tree) (p : Bits) : Table Bits :=
  t.paths.map fun e => (e.1.val.toNat, p ++ e.2)

theorem Tree.codes_node (l r : Tree) (f : BitVec 40) (k : Sym) (p : Bits) :
    (Tree.node l r f k).codes p = l.codes (p ++ [false]) ++ r.codes (p ++ [true]) := by
  simp [Tree.codes, Tree.paths, Function.comp_def]

/-- The keys of the codes are the values of the leaves, whatever the path. -/
theorem Tree.codes_keys (t : Tree) (p : Bits) : (t.codes p).map Prod.fst = t.leafList.map (fun e => e.1.val.toNat) := by
  have hsyms := congrArg (List.map fun s : Sym => s.val.toNat) t.paths_syms
  simpa [Tree.codes, Function.comp_def] using hsyms

/-- Where no two leaves share a value, and none is in the table, gen adds the tree's codes. -/
theorem genCodes_perm (t : Tree) (p : Bits) {code : Table Bits} (h : ((t.codes p ++ code).map Prod.fst).Nodup) :
    (genCodes t p code).Perm (t.codes p ++ code) := by
  induction t generalizing p code with
  | empty => exact List.Perm.refl _
  | leaf s f =>
    have hnew : s.val.toNat ∉ code.map Prod.fst := (List.nodup_cons.1 h).1
    simpa [Tree.codes, Tree.paths, genCodes] using Table.put_perm p hnew
  | node l r f k ihl ihr =>
    have hrightFirst : (r.codes (p ++ [true]) ++ (l.codes (p ++ [false]) ++ code)).Perm
        ((Tree.node l r f k).codes p ++ code) := by
      rw [Tree.codes_node, ← List.append_assoc]
      exact List.perm_append_comm.append_right _
    have hnodup := (hrightFirst.map Prod.fst).nodup_iff.2 h
    have hleft := ihl (p ++ [false]) (code := code) (by
      rw [List.map_append] at hnodup
      exact hnodup.of_append_right)
    have hright := ihr (p ++ [true]) (code := genCodes l (p ++ [false]) code)
      (((hleft.append_left _).map _).nodup_iff.2 hnodup)
    exact hright.trans ((hleft.append_left _).trans hrightFirst)

/-! ### The codes of a table -/

section

variable {pair : Bool} {freq : Table (BitVec 32)}

/-- The symbols of the built tree have the tag of the mode. -/
theorem paths_tag {e : Sym × Bits} (he : e ∈ (buildTree pair freq).paths) : e.1.pair = pair := by
  have hsym : e.1 ∈ (buildTree pair freq).leafList.map Prod.fst := Tree.paths_syms _ ▸ List.mem_map_of_mem he
  have hpresent := ((buildTree_leafList pair freq).map Prod.fst).subset hsym
  rw [List.map_map] at hpresent
  obtain ⟨x, -, hx⟩ := List.mem_map.1 hpresent
  exact congrArg Sym.pair hx.symm

/-- The codes of the built tree, by symbol: a symbol's code is its path. -/
theorem mem_codes_iff {k : Nat} {c : Bits} : (k, c) ∈ (buildTree pair freq).codes [] ↔
    ({ pair := pair, val := BitVec.ofNat 16 k }, c) ∈ (buildTree pair freq).paths ∧ k < 65536 := by
  constructor
  · intro h
    obtain ⟨⟨⟨q, v⟩, d⟩, he, hkc⟩ := List.mem_map.1 h
    obtain ⟨rfl, rfl⟩ := Prod.mk.inj hkc
    obtain rfl : q = pair := paths_tag he
    rw [BitVec.ofNat_toNat, BitVec.setWidth_eq]
    exact ⟨he, v.isLt⟩
  · rintro ⟨he, hk⟩
    have hval : (BitVec.ofNat 16 k).toNat = k := (BitVec.toNat_ofNat k 16).trans (Nat.mod_eq_of_lt hk)
    exact List.mem_map.2 ⟨_, he, congrArg (·, c) hval⟩

variable (h : Table.wf 65536 freq = true)
include h

/-- The codes' keys are the present symbols (44_codegen.md R321). -/
theorem codes_keys_perm :
    (((buildTree pair freq).codes []).map Prod.fst).Perm ((freq.filter (fun e => e.2 != 0)).map Prod.fst) := by
  have hkeys : ∀ e ∈ freq.filter (fun e => e.2 != 0), (BitVec.ofNat 16 e.1).toNat = e.1 := fun e he =>
    (BitVec.toNat_ofNat e.1 16).trans (Nat.mod_eq_of_lt ((Table.wf_iff.1 h).2 e (List.mem_of_mem_filter he)))
  rw [Tree.codes_keys, ← List.map_congr_left hkeys]
  simpa [Function.comp_def] using (buildTree_leafList pair freq).map fun e => e.1.val.toNat

/-- The code table of a table is the built tree's codes (44_codegen.md R320). -/
theorem tableCodes_perm : (genCodes (buildTree pair freq) [] []).Perm ((buildTree pair freq).codes []) := by
  have hnodup : ((freq.filter (fun e => e.2 != 0)).map Prod.fst).Nodup :=
    (Table.keys_nodup (Table.wf_iff.1 h).1).sublist (List.filter_sublist.map _)
  have hcodes := genCodes_perm (buildTree pair freq) [] (code := []) (by
    rw [List.append_nil]
    exact (codes_keys_perm h).nodup_iff.2 hnodup)
  rwa [List.append_nil] at hcodes

/-- A symbol's code is its path. -/
theorem look_tableCodes {k : Nat} {c : Bits} : Table.look k (genCodes (buildTree pair freq) [] []) = some c ↔
    ({ pair := pair, val := BitVec.ofNat 16 k }, c) ∈ (buildTree pair freq).paths ∧ k < 65536 := by
  rw [Table.look_eq_some_iff (genCodes_wf _ _ (Table.wf_nil _)), (tableCodes_perm h).mem_iff, mem_codes_iff]

/-- Exactly the present symbols have a code (44_codegen.md R321). -/
theorem isSome_look_tableCodes {k : Nat} :
    (Table.look k (genCodes (buildTree pair freq) [] [])).isSome = true ↔ Table.lookD 0 k freq ≠ 0 := by
  rw [Table.isSome_look_iff, ((tableCodes_perm h).map _).mem_iff, (codes_keys_perm h).mem_iff, mem_present_iff h]

end

/-! ### The length of a code -/

/-- A built tree with a path is no Empty, so every node has two children (42_tree.md R258). -/
theorem buildTree_full_of_path {pair : Bool} {freq : Table (BitVec 32)} {e : Sym × Bits}
    (he : e ∈ (buildTree pair freq).paths) : (buildTree pair freq).full = true := by
  refine buildTree_full pair fun hnil => ?_
  rw [buildTree, hnil, mergeLoop_nil] at he
  cases he

/-- A code has fewer bits than there are present symbols (44_codegen.md R325). -/
theorem path_lt_freqPresent {pair : Bool} {freq : Table (BitVec 32)} {e : Sym × Bits}
    (he : e ∈ (buildTree pair freq).paths) : e.2.length + 1 ≤ freqPresent freq :=
  buildTree_leafList_length pair freq ▸ Tree.path_lt_leaves (buildTree_full_of_path he) he

/-! ### The phases -/

/-- C_BUILD (45_orchestration.md R354). -/
theorem fineStep_cBuild {s : State} (hp : s.phase = .cBuild) : fineStep s = (buildOutStep s).outcome := by
  rw [fineStep_internal (busy_of_phase hp rfl) (by simp [State.nextField, hp])]
  simp [internalStep, hp]

/-- D_BUILD (45_orchestration.md R367). -/
theorem fineStep_dBuild {s : State} (hp : s.phase = .dBuild) : fineStep s = (buildInStep s).outcome := by
  rw [fineStep_internal (busy_of_phase hp rfl) (by simp [State.nextField, hp])]
  simp [internalStep, hp]

/-- C_CODEGEN (45_orchestration.md R355). -/
theorem fineStep_cCodegen {s : State} (hp : s.phase = .cCodegen) : fineStep s = (codegenStep s).outcome := by
  rw [fineStep_internal (busy_of_phase hp rfl) (by simp [State.nextField, hp])]
  simp [internalStep, hp]

/-- In C_CODEGEN the code table is made from the table's tree, and the tree is discarded (42_tree.md R260). -/
theorem fineStep_cCodegen_next {s : State} (hs : Inv s) (hp : s.phase = .cCodegen) :
    fineStep s = .next { s with
      phase := .cEmit, code := genCodes (buildTree s.dp.mode s.freq) [] [], tree := .empty, loop := Loop.start } := by
  have hcode : s.code = [] := hs.codes (by rw [hp]; rfl)
  rw [fineStep_cCodegen hp, codegenStep, hs.built (.inl hp), hcode]
  rfl

/-- Settles O43: the code table holds the paths of the table's tree, whose leaves are the present symbols. -/
theorem codesAreValidForThePresentSymbols : Obligations.CodesAreValidForThePresentSymbols := by
  intro s hs
  refine ⟨fun hp => fineStep_cBuild hp, fun hp => fineStep_dBuild hp, fun hp =>
    ⟨_, fineStep_cCodegen_next hs hp, rfl, fun k c => look_tableCodes hs.freqWf,
      fun k => isSome_look_tableCodes hs.freqWf, fun k c hk => ?_⟩⟩
  have hlen : c.length + 1 ≤ freqPresent s.freq := path_lt_freqPresent ((look_tableCodes hs.freqWf).1 hk).1
  have hmax := freqPresent_le_of_wf hs.freqWf
  exact ⟨hlen, by omega⟩

/-- Settles O44: two codes are two paths of one tree that has two leaves or more, and a path that starts another is the
same leaf's. -/
theorem codesArePrefixFree : Obligations.CodesArePrefixFree := by
  intro pair freq hwf hpresent code k c hk
  obtain ⟨hkc, hklt⟩ := (look_tableCodes hwf).1 hk
  refine ⟨Tree.path_pos (by rwa [buildTree_leafList_length]) hkc, fun j d hjk hj hprefix => hjk ?_⟩
  obtain ⟨hjd, hjlt⟩ := (look_tableCodes hwf).1 hj
  have hval := congrArg (fun e => e.1.val.toNat) (Tree.eq_of_path_prefix hkc hjd hprefix)
  simp only [BitVec.toNat_ofNat] at hval
  omega

/-- Settles O45: the codes are the tree's paths in another order, and the paths of a full tree weigh 1 together. -/
theorem codeLengthsSumToOne : Obligations.CodeLengthsSumToOne := by
  intro pair freq hwf hpresent
  have hfull := buildTree_full pair (leaves_ne_nil_of_freqPresent pair (by omega : 1 ≤ freqPresent freq))
  rw [((tableCodes_perm hwf).map _).sum_eq, Tree.codes, List.map_map]
  exact Tree.paths_complete hfull

end Sys2Proof.Machine
end

section
/-!
SUPPORT. D_MODE and the walk, one finer step each: the field that the decoder reads, a step down, the leaf's symbol, and the
two ends of the walk (45_orchestration.md R358, R361 to R365).
-/

namespace Sys2Proof.Machine

/-! ### Where DECOMPRESS stands -/

theorem toOption_of_decode {k : FieldKind} {bits : Bits} {i : Instr} (h : decode (.field k bits) = .ok i) :
    (decodeField k bits).toOption = some i :=
  congrArg Except.toOption h

theorem nextField_dMode {s : State} (hp : s.phase = .dMode) (hok : s.rd.ok) :
    s.nextField = (decodeField .modeFlag (s.nextBits 1)).toOption := by
  simp only [State.nextField, hp, State.peekField_eq 1 hok]

section
variable {s : State} (hp : s.phase = .dHdr) (hk : s.loop.s.toNat < nsyms s.dp.mode) (hok : s.rd.ok)
include hp hk hok

theorem nextField_byteMarker (hg : s.loop.stage = .pass1) (hm : s.dp.mode = false) :
    s.nextField = (decodeField .sizeClass (s.nextBits 2)).toOption := by
  rw [nextField_dHdr_pass1 hp hk hg, State.markerField, if_neg (by simp [hm]), State.peekField_eq 2 hok]

theorem nextField_pairMarker (hg : s.loop.stage = .pass1) (hm : s.dp.mode = true) :
    s.nextField = (decodeField .existence (s.nextBits 1)).toOption := by
  rw [nextField_dHdr_pass1 hp hk hg, State.markerField, if_pos hm, State.peekField_eq 1 hok]

theorem nextField_byteValue (hg : s.loop.stage = .pass2) (hm : s.dp.mode = false) {c : BitVec 2}
    (hc : s.clsAt s.loop.s.toNat = c) (hc0 : c ≠ 0) :
    s.nextField = (decodeField (valueKind c) (s.nextBits (classWidth c))).toOption := by
  subst hc
  rw [nextField_dHdr_pass2 hp hk hg, ← State.peekField_eq _ hok]
  exact (if_neg (by simp [hm])).trans (if_neg hc0)

theorem nextField_pairValue (hg : s.loop.stage = .pass2) (hm : s.dp.mode = true) (he : s.exAt s.loop.s.toNat = true)
    {z : Bool} (hz : s.nextBits 1 = [z]) :
    s.nextField =
      (decodeField .pairSize (z :: (s.past 1).nextBits (if z then 16 else 8))).toOption := by
  have hpeek : s.peekPairSize = z :: (s.past 1).nextBits (if z then 16 else 8) := by
    rw [State.peekPairSize, State.peekField_eq 1 hok, State.skipN_eq_past 1 hok,
      State.peekField_eq _ (State.past_ok 1 hok).1, hz]
    cases z <;> rfl
  rw [nextField_dHdr_pass2 hp hk hg, ← hpeek]
  exact (if_pos hm).trans (if_pos he)

end

section
variable {s : State} (hp : s.phase = .dWalk)
include hp

theorem nextField_dWalk : s.nextField = s.walkField := by
  simp only [State.nextField, hp]

/-- When every symbol is out the engine stands at the padding (45_orchestration.md R361). -/
theorem nextField_walkDone (hd : s.dp.doneSyms = s.dp.total) : s.nextField = some (.pad (padLength s.rd.pos)) := by
  rw [nextField_dWalk hp, State.walkField, if_pos hd]

/-- At a leaf with symbols left the engine stands at no field (45_orchestration.md R363). -/
theorem nextField_walkLeaf (hd : s.dp.doneSyms ≠ s.dp.total) {sym : Sym} {f : BitVec 40} (hc : s.loop.cur = .leaf sym f) :
    s.nextField = none := by
  rw [nextField_dWalk hp, State.walkField, if_neg hd, hc]

variable (hd : s.dp.doneSyms ≠ s.dp.total) {l r : Tree} {f : BitVec 40} {k : Sym} (hc : s.loop.cur = .node l r f k)
  (hok : s.rd.ok)
include hd hc hok

/-- At a Node with a bit left the engine stands at the code bit that the next bit is (45_orchestration.md R362). -/
theorem nextField_walkBit (hleft : s.rd.pos < 8 * s.rd.len.toNat) :
    s.nextField = (decodeField .codeBit (s.nextBits 1)).toOption := by
  rw [nextField_dWalk hp, State.walkField, if_neg hd, hc, ← State.peekField_eq 1 hok, State.peekField,
    State.peekN_some hok hleft]
  rfl

/-- At a Node with no bit left the engine stands at no field (45_orchestration.md R364). -/
theorem nextField_walkEnd (hend : s.rd.pos = 8 * s.rd.len.toNat) : s.nextField = none := by
  rw [nextField_dWalk hp, State.walkField, if_neg hd, hc, State.peekN_none hok (by omega)]

end

/-- Settles O19: a listed finer step runs the field, and the field is the decoder's of the next bits, phase by phase. -/
theorem stepRunsTheStreamField : Obligations.StepRunsTheStreamField := by
  refine ⟨fun s rest i hpend hb hi => ?_, fun s i hok => ⟨fun hp hdec => ?_, fun hp hg hk => ⟨fun hm hdec => ?_, fun hm hdec => ?_⟩,
    fun hp hg hk hm => ⟨fun hc hdec => ?_, fun hc hdec => ?_, fun hc hdec => ?_⟩, fun hp hg hk hm he z hz hdec => ?_,
    fun hp hd ⟨l, r, f, k, hc⟩ hleft hdec => ?_⟩⟩
  · rw [step_event hpend, eventStep, fineStep_field (by exact hb) (by exact hi)]
  · rw [nextField_dMode hp hok, toOption_of_decode hdec]
  · rw [nextField_byteMarker hp hk hok hg hm, toOption_of_decode hdec]
  · rw [nextField_pairMarker hp hk hok hg hm, toOption_of_decode hdec]
  · exact (nextField_byteValue hp hk hok hg hm hc (by decide)).trans (toOption_of_decode hdec)
  · exact (nextField_byteValue hp hk hok hg hm hc (by decide)).trans (toOption_of_decode hdec)
  · exact (nextField_byteValue hp hk hok hg hm hc (by decide)).trans (toOption_of_decode hdec)
  · rw [nextField_pairValue hp hk hok hg hm he hz, toOption_of_decode hdec]
  · rw [nextField_walkBit hp hd hc hok hleft, toOption_of_decode hdec]

/-! ### The mode flag -/

/-- D_MODE's finer step reads the mode flag (45_orchestration.md R358). -/
theorem modeFlag_read {s : State} {b : Bool} (h : Inv s) (hp : s.phase = .dMode) (hbits : s.nextBits 1 = [b]) :
    s.nextField = some (if b then .modePair else .modeByte) ∧
      exec (if b then .modePair else .modeByte) s = .next { s.past 1 with
        dp := { s.dp with mode := b }
        status := { s.status with runMode := b }
        phase := .dHdr
        loop := Loop.start } := by
  have hok := (h.runAt hp rfl).reader.1
  have hnext : s.nextField = some (if b then .modePair else .modeByte) := by
    rw [nextField_dMode hp hok, hbits]
    rfl
  refine ⟨hnext, ?_⟩
  rw [exec_modeFlag, atField_here hnext, modeField, hp, ← State.skipN_eq_past 1 hok]
  rfl

/-- Settles O25: the engine stands at the flag that the next bit is, and executing it consumes the bit. -/
theorem modeFlagIsRead : Obligations.ModeFlagIsRead :=
  fun _ _ h hp hbits => (modeFlag_read h hp hbits).2

/-! ### The walk's steps at a Node and at its end -/

/-- At a Node the finer step follows the next bit (45_orchestration.md R362). -/
theorem walk_descends {s : State} {b : Bool} {l r : Tree} {f : BitVec 40} {k : Sym} (h : Inv s) (hp : s.phase = .dWalk)
    (hc : s.loop.cur = .node l r f k) (hd : s.dp.doneSyms ≠ s.dp.total) (hleft : s.rd.pos < 8 * s.rd.len.toNat)
    (hbits : s.nextBits 1 = [b]) :
    s.nextField = some (codeBit b) ∧
      exec (codeBit b) s = .next { s.past 1 with
        dp := { s.dp with codedBits := s.dp.codedBits + 1 }
        loop := { s.loop with cur := if b then r else l } } := by
  have hok := (h.runAt hp rfl).reader.1
  have hnext : s.nextField = some (codeBit b) := by
    rw [nextField_walkBit hp hd hc hok hleft, hbits]
    rfl
  refine ⟨hnext, ?_⟩
  rw [exec_codeBit, atField_here hnext, codeField, hp, hc, ← State.skipN_eq_past 1 hok]
  rfl

/-- Settles O28: the engine stands at the code bit that the next bit is, and executing it descends. -/
theorem codeBitDescends : Obligations.CodeBitDescends :=
  fun _ _ _ _ _ _ h hp hc hd hleft hbits => (walk_descends h hp hc hd hleft hbits).2

theorem exec_pad (n : Nat) (s : State) : exec (.pad n) s = atField (.pad n) s (padField s) := rfl

/-- The padding ends the walk where it stands (45_orchestration.md R361). -/
theorem exec_pad_dWalk {s : State} (hp : s.phase = .dWalk) (hd : s.dp.doneSyms = s.dp.total) :
    exec (.pad (padLength s.rd.pos)) s = .next { s with phase := .dFlush, tree := .empty, loop := Loop.start } := by
  rw [exec_pad, atField_here (nextField_walkDone hp hd), padField, hp]
  rfl

/-- Settles O29: the engine stands at the padding, which ends the walk without a read. -/
theorem walkStopsOnTheCount : Obligations.WalkStopsOnTheCount := by
  intro s hp hd
  have hexec := exec_pad_dWalk hp hd
  exact ⟨hexec, (fineStep_field (busy_of_phase hp rfl) (nextField_walkDone hp hd)).trans hexec⟩

/-- Where D_WALK stands at no field (45_orchestration.md R363 to R365). -/
theorem fineStep_dWalk {s : State} (hp : s.phase = .dWalk) (hi : s.nextField = none) : fineStep s = walkStep s := by
  rw [fineStep_internal (busy_of_phase hp rfl) hi]
  simp [internalStep, hp]

/-- Settles O30: with no bit left the engine stands at no field, and the walk's step at a Node sets trunc. -/
theorem walkStopsAtTheEndOfTheInput : Obligations.WalkStopsAtTheEndOfTheInput := by
  intro s l r f k h hp hc hd hend
  rw [fineStep_dWalk hp (nextField_walkEnd hp hd hc (h.runAt hp rfl).reader.1 hend), walkStep, hc]
  rfl

/-! ### The walk's step at a leaf -/

/-- The high bits of a number, then the low ones. -/
theorem bitsOf_add (j k v : Nat) : bitsOf (j + k) v = bitsOf j (v / 2 ^ k) ++ bitsOf k v := by
  induction j with
  | zero => simp [bitsOf]
  | succ j ih =>
    rw [Nat.succ_add, bitsOf, bitsOf, ih, Nat.testBit_div_two_pow]
    rfl

/-- A byte whose stream bits are the low 8 of a number. -/
theorem eq_of_streamBits_byte {byteAt : Nat → Byte} {i v : Nat} (h : streamBits byteAt (8 * i) 8 = bitsOf 8 v) :
    byteAt i = BitVec.ofNat 8 v := by
  have hval := congrArg bitsVal h
  rw [bitsVal_streamBits_byte, bitsVal_bitsOf] at hval
  exact BitVec.eq_of_toNat_eq (hval.trans (BitVec.toNat_ofNat v 8).symm)

/-- A writer with no pending bit holds whole bytes. -/
theorem written_of_aligned {s : State} (h : s.wr.cnt = 0) : s.written = streamBits s.outByte 0 (8 * s.wr.idx.toNat) := by
  rw [State.written, h]
  exact List.append_nil _

/-- A writer that holds whole bytes flushes whole bytes as they are written. -/
theorem wrote_streamBits {s t : State} {bits : Bits} (h : s.wrote bits t) (hok : s.wr.ok) (hs : s.wr.cnt = 0)
    (ht : t.wr.cnt = 0) :
    t.wr.bits.toNat = 8 * t.wr.idx.toNat ∧ streamBits t.outByte (8 * s.wr.idx.toNat) bits.length = bits := by
  obtain ⟨-, hwritten, htok, hbits, -⟩ := h
  have hs0 : s.wr.cnt.toNat = 0 := by rw [hs]; rfl
  have ht0 : t.wr.cnt.toNat = 0 := by rw [ht]; rfl
  have hsbits := hok.1
  have htbits := htok.1
  have hlen : 8 * t.wr.idx.toNat = 8 * s.wr.idx.toNat + bits.length := by omega
  refine ⟨by omega, ?_⟩
  rw [written_of_aligned hs, written_of_aligned ht, hlen, streamBits_append, Nat.zero_add] at hwritten
  exact (List.append_inj hwritten (by simp)).2

theorem fineStep_walkLeaf {s : State} {sym : Sym} {f : BitVec 40} (hp : s.phase = .dWalk)
    (hd : s.dp.doneSyms ≠ s.dp.total) (hc : s.loop.cur = .leaf sym f) :
    fineStep s = ((writeBits (bitsOf (symWidth s.dp.mode) sym.val.toNat) s).andThen fun t =>
      .run { t with
        dp := { t.dp with doneSyms := t.dp.doneSyms + 1 }
        loop := { t.loop with cur := t.tree } }).outcome := by
  rw [fineStep_dWalk hp (nextField_walkLeaf hp hd hc), walkStep, hc, ← writeN_eq]

/-- At a leaf with room the walk writes the symbol, counts it and returns to the root (45_orchestration.md R363, R365). -/
theorem walk_emits {s : State} {sym : Sym} {f : BitVec 40} (h : Inv s) (hp : s.phase = .dWalk)
    (hc : s.loop.cur = .leaf sym f) (hd : s.dp.doneSyms ≠ s.dp.total) (hr : s.room (symWidth s.dp.mode)) :
    ∃ t : State, s.wrote (bitsOf (symWidth s.dp.mode) sym.val.toNat) t ∧ t.wr.cnt = 0 ∧
      fineStep s = .next { t with
        dp := { s.dp with doneSyms := s.dp.doneSyms + 1 }
        loop := { s.loop with cur := s.tree } } := by
  obtain ⟨t, ht, hwrote, -, hcnt⟩ := writeBits_room (h.canWrite (busy_of_phase hp rfl))
    (bs := bitsOf (symWidth s.dp.mode) sym.val.toNat) (by rw [bitsOf_length]; exact hr)
  refine ⟨t, hwrote, ?_, ?_⟩
  · rw [hcnt, (h.runAt hp rfl).aligned rfl, bitsOf_length]
    cases s.dp.mode <;> rfl
  · rw [fineStep_walkLeaf hp hd hc, ht, Flow.andThen_run, Flow.outcome_eq, Flow.state_run]
    obtain ⟨hkept, -⟩ := hwrote
    have hdp : t.dp = s.dp := by rw [hkept]
    have hloop : t.loop = s.loop := by rw [hkept]
    have htree : t.tree = s.tree := by rw [hkept]
    rw [hdp, hloop, htree]

/-- The bytes that the walk writes for a symbol: in pair mode the high byte first (45_orchestration.md R363). -/
theorem walk_bytes {s t : State} {v : Nat} (h : Inv s) (hp : s.phase = .dWalk)
    (hw : s.wrote (bitsOf (symWidth s.dp.mode) v) t) (ht : t.wr.cnt = 0) :
    (s.dp.mode = false → t.outByte s.wr.idx.toNat = BitVec.ofNat 8 v) ∧
      (s.dp.mode = true → t.outByte s.wr.idx.toNat = BitVec.ofNat 8 (v / 256) ∧
        t.outByte (s.wr.idx.toNat + 1) = BitVec.ofNat 8 v) := by
  have hrun := h.runAt hp rfl
  obtain ⟨-, hstream⟩ := wrote_streamBits hw hrun.writer.1 (hrun.aligned rfl) ht
  refine ⟨fun hm => ?_, fun hm => ?_⟩
  · rw [hm, symWidth, if_neg (by simp), bitsOf_length] at hstream
    exact eq_of_streamBits_byte hstream
  · rw [hm, symWidth, if_pos rfl, bitsOf_length, show 16 = 8 + 8 from rfl, streamBits_append, bitsOf_add] at hstream
    obtain ⟨hhigh, hlow⟩ := List.append_inj hstream (by simp)
    exact ⟨eq_of_streamBits_byte hhigh, eq_of_streamBits_byte hlow⟩

/-- Settles O31: with room by `walk_emits` and `walk_bytes`; without room the writer overflows. -/
theorem walkEmitsTheSymbolOfALeaf : Obligations.WalkEmitsTheSymbolOfALeaf := by
  intro s sym f h hp hc hd bits
  have hb : s.busy = true := busy_of_phase hp rfl
  have hlen : bits.length = symWidth s.dp.mode := bitsOf_length _ _
  refine ⟨fun hr => ?_, fun hr => ?_⟩
  · obtain ⟨t, hw, hcnt, hstep⟩ := walk_emits h hp hc hd (hlen ▸ hr)
    exact ⟨t, hw, hstep, walk_bytes h hp hw hcnt⟩
  · obtain ⟨hroom, -⟩ | ⟨-, t, ht, u, hwrote, hkept, hidx, -, hstream, rfl⟩ := writeBits_spec bits (h.canWrite hb)
    · exact absurd hroom hr
    · refine ⟨u, ?_, ?_, hidx, hstream, fun a ha => hkept.2 a (by omega)⟩
      · have hstatus : u.status = s.status := by rw [hwrote]
        have hres : u.res = s.res := by rw [hwrote]
        have hended : writeBits (bitsOf (symWidth s.dp.mode) sym.val.toNat) s = _ := ht
        rw [fineStep_walkLeaf hp hd hc, hended, raise_eq_failed h hb hstatus hres, hp]
        rfl
      · rw [hwrote]

end Sys2Proof.Machine
end

section
/-!
SUPPORT. The completions: the last byte of COMPRESS, and the end of DECOMPRESS, which has none (45_orchestration.md R357,
R366, R368); the result registers as numbers (R370 to R376).
-/

namespace Sys2Proof.Machine

/-- A run's result registers as numbers, where the header is not longer than the compressed stream (45_orchestration.md R370
to R376). -/
theorem State.results_eq (c : Bool) {s : State} {comp : Word} (hcomp : comp = if c then s.wr.idx else s.rd.len)
    (hle : s.dp.hdrBits.toNat / 8 ≤ comp.toNat) :
    s.results c =
      { outLen := s.wr.idx
        statOrig := if c then s.rd.len else s.wr.idx
        statHdrBits := s.dp.hdrBits
        statHdrBytes := BitVec.ofNat 32 (s.dp.hdrBits.toNat / 8)
        statCodedBits := s.dp.codedBits
        statCodedBytes := BitVec.ofNat 32 (comp.toNat - s.dp.hdrBits.toNat / 8)
        statComp := comp
        totalLo := BitVec.ofNat 32 s.dp.total.toNat
        totalHi := BitVec.ofNat 8 (s.dp.total.toNat / 2 ^ 32)
        decoded := BitVec.ofNat 32 s.dp.doneSyms.toNat
        nsym := s.dp.nsym } := by
  have hshift : (s.dp.hdrBits >>> 3).toNat = s.dp.hdrBits.toNat / 8 := by
    rw [BitVec.toNat_ushiftRight, Nat.shiftRight_eq_div_pow]
  have hbytes : s.dp.hdrBits >>> 3 = BitVec.ofNat 32 (s.dp.hdrBits.toNat / 8) := by
    rw [← hshift, BitVec.ofNat_toNat, BitVec.setWidth_eq]
  have hcoded : comp - s.dp.hdrBits >>> 3 = BitVec.ofNat 32 (comp.toNat - s.dp.hdrBits.toNat / 8) := by
    rw [← hshift] at hle ⊢
    rw [← BitVec.toNat_sub_of_le (BitVec.le_def.2 hle), BitVec.ofNat_toNat, BitVec.setWidth_eq]
  have hhigh : s.dp.total.extractLsb' 32 8 = BitVec.ofNat 8 (s.dp.total.toNat / 2 ^ 32) :=
    BitVec.eq_of_toNat_eq (by rw [BitVec.extractLsb'_toNat, Nat.shiftRight_eq_div_pow, BitVec.toNat_ofNat])
  rw [State.results, ← hcomp, hcoded, hbytes, hhigh, BitVec.ofNat_toNat, BitVec.ofNat_toNat]

/-- The flags after a completion of a run (45_orchestration.md R368). -/
theorem Inv.complete_status {s : State} (h : Inv s) (hb : s.busy = true) :
    ({ s.status with trunc := s.dp.trunc, errcode := 0, done := true } : Status) =
      { done := true, err := false, trunc := s.dp.trunc, runMode := s.status.runMode, errcode := 0 } := by
  rw [h.busyStatus hb]

/-! ### D_FLUSH -/

/-- D_FLUSH has no pending bit to write (45_orchestration.md R366). -/
theorem fineStep_dFlush {s : State} (h : Inv s) (hp : s.phase = .dFlush) : fineStep s = .next (s.complete false) := by
  have hfinish : finish s = .run s := by rw [finish, if_pos ((h.runAt hp rfl).aligned rfl)]
  rw [fineStep_internal (busy_of_phase hp rfl) (by simp [State.nextField, hp]), internalStep, hp]
  exact congrArg (fun f => Flow.outcome (f.andThen fun t => .run (t.complete false))) hfinish

/-- Settles O32: with no pending bit finish writes nothing, and the header is no longer than the input. -/
theorem decompressFlushCompletes : Obligations.DecompressFlushCompletes := by
  intro s h hp
  have hle : s.dp.hdrBits.toNat ≤ 8 * s.rd.len.toNat := (h.runAt hp rfl).headerCount
  rw [fineStep_dFlush h hp, State.complete, State.results_eq false rfl (Nat.div_le_of_le_mul hle),
    h.complete_status (busy_of_phase hp rfl)]
  rfl

/-! ### C_FLUSH -/

theorem nextField_cFlush {s : State} (hp : s.phase = .cFlush) : s.nextField = some (.pad (padLength s.wr.bits.toNat)) := by
  simp only [State.nextField, hp]

theorem exec_pad_cFlush {s : State} (hp : s.phase = .cFlush) :
    exec (.pad (padLength s.wr.bits.toNat)) s = (flushAndComplete true s).outcome := by
  rw [exec_pad, atField_here (nextField_cFlush hp), padField, hp]

theorem fineStep_cFlush {s : State} (hp : s.phase = .cFlush) : fineStep s = (flushAndComplete true s).outcome :=
  (fineStep_field (busy_of_phase hp rfl) (nextField_cFlush hp)).trans (exec_pad_cFlush hp)

/-- The output that `t` has of the run in `s`, with the last byte filled with zeros (40_bitstream.md R215). -/
structure Finished (s t : State) : Prop where
  wrote : Wrote s t
  kept : Kept s t
  bits : t.wr.bits = s.wr.bits
  cnt : t.wr.cnt = 0
  pend : t.wr.pend = if s.wr.cnt = 0 then s.wr.pend else 0
  idx : t.wr.idx.toNat = (s.wr.bits.toNat + 7) / 8
  stream : streamBits t.outByte 0 (8 * t.wr.idx.toNat) =
    s.written ++ List.replicate (padLength s.wr.bits.toNat) false

/-- C_FLUSH completes the run, or has no room for the last byte (45_orchestration.md R357; 60_exceptions.md R404). -/
theorem flush_cases {s : State} (h : Inv s) (hp : s.phase = .cFlush) :
    (∃ t, Finished s t ∧ fineStep s = .next (t.complete true)) ∨
      (s.wr.cnt ≠ 0 ∧ s.wr.idx.toNat = s.cfg.outCap ∧
        fineStep s = .next (s.raise .outOverflow (s.phase.code.setWidth 32))) := by
  rw [fineStep_cFlush hp, flushAndComplete]
  obtain ⟨t, e, wrote, kept, -, bits, cnt, -, idx, stream, hzero, hpend⟩ | ⟨e, hcnt, hidx⟩ :=
    finish_spec (h.canWrite (busy_of_phase hp rfl)) <;> rw [e]
  · refine .inl ⟨t, ⟨wrote, kept, bits, cnt, ?_, idx, stream⟩, rfl⟩
    split_ifs with h0
    · rw [hzero h0]
    · exact hpend h0
  · exact .inr ⟨hcnt, hidx, rfl⟩

/-- The header is no longer than the finished output (45_orchestration.md R377). -/
theorem Finished.header_le {s t : State} (hf : Finished s t) (h : Inv s) (hp : s.phase = .cFlush) :
    s.dp.hdrBits.toNat / 8 ≤ t.wr.idx.toNat := by
  have hle : s.dp.hdrBits.toNat ≤ s.wr.bits.toNat := (h.runAt hp rfl).headerCount
  rw [hf.idx]
  omega

theorem Wrote.exists_eq {s t : State} (h : Wrote s t) : ∃ m w, t = { s with outMem := m, wr := w } := ⟨_, _, h⟩

/-- Settles O24: with room for the last byte `flush_cases` leaves the completion. -/
theorem paddingCompletesCompress : Obligations.PaddingCompletesCompress := by
  intro s h hp hroom n len
  obtain ⟨t, hf, hstep⟩ | ⟨hcnt, hidx, -⟩ := flush_cases h hp
  · have hexec : exec (.pad n) s = .next (t.complete true) :=
      (fineStep_field (busy_of_phase hp rfl) (nextField_cFlush hp)).symm.trans hstep
    have hheader := hf.header_le h hp
    obtain ⟨m, w, rfl⟩ := hf.wrote.exists_eq
    have hidx : w.idx.toNat = len := hf.idx
    have hw : w = { pend := if s.wr.cnt = 0 then s.wr.pend else 0, cnt := 0, idx := w.idx, bits := s.wr.bits } := by
      rw [← hf.pend, ← hf.cnt, ← hf.bits]
    refine ⟨m, w.idx, ?_, hidx, ?_, fun a ha => hf.kept.2 a (ha.imp_right fun hle => hidx.trans_le hle)⟩
    · rw [hexec, State.complete, State.results_eq true rfl hheader, h.complete_status (busy_of_phase hp rfl), ← hw, ← hidx]
      rfl
    · rw [← hidx]
      exact hf.stream
  · exact (hroom.elim hcnt (fun hlt => absurd hidx hlt.ne)).elim

end Sys2Proof.Machine
end

section
/-!
SUPPORT. A bound on the finer steps that are left of a phase (45_orchestration.md R345), and that every finer step of a run
lowers it or ends the phase as R342 and R343 allow.
-/

namespace Sys2Proof.Machine

/-! ### The bound -/

/-- More bits than the loop that reads the input has still to read; at its start it goes back to the input's first bit. -/
def State.readsLeft (s : State) : Nat :=
  if s.loop.stage = .entry then 8 * s.rd.len.toNat + 2 else s.rd.bitsLeft + 1

/-- More bits than OUT_MEM has still room for. -/
def State.writesLeft (s : State) : Nat :=
  8 * s.cfg.outCap + 8 - s.wr.bits.toNat

/-- More finer steps than the two table passes have left. -/
def State.passesLeft (s : State) : Nat :=
  match s.loop.stage with
  | .entry => 2 * nsyms s.dp.mode + 3
  | .pass1 => nsyms s.dp.mode - s.loop.s.toNat + nsyms s.dp.mode + 2
  | .pass2 => nsyms s.dp.mode - s.loop.s.toNat + 1

/-- At least as many finer steps as the phase has left. -/
def State.stepsLeft (s : State) : Nat :=
  match s.phase with
  | .cScan => s.readsLeft
  | .cHdr | .dHdr => s.passesLeft
  | .cEmit => s.readsLeft + s.writesLeft + (if s.loop.emit = none then 0 else 1)
  | .dWalk => s.rd.bitsLeft + s.writesLeft
  | _ => 0

theorem State.readsLeft_le (s : State) : s.readsLeft ≤ 8 * s.rd.len.toNat + 2 := by
  unfold State.readsLeft Reader.bitsLeft
  split_ifs <;> omega

theorem State.passesLeft_le (s : State) : s.passesLeft ≤ 131075 := by
  have hn := nsyms_le s.dp.mode
  unfold State.passesLeft
  split <;> omega

/-- An engine step has finer steps enough for its phase (log entry 18). -/
theorem State.stepsLeft_lt_phaseBound (s : State) : s.stepsLeft < s.phaseBound := by
  have hr := s.readsLeft_le
  have hp := s.passesLeft_le
  have hw : s.writesLeft ≤ 8 * s.cfg.outCap + 8 := Nat.sub_le _ _
  have hb : s.rd.bitsLeft ≤ 8 * s.rd.len.toNat := Nat.sub_le _ _
  unfold State.stepsLeft State.phaseBound
  split <;> (try split_ifs) <;> omega

/-! ### A finer step's progress -/

/-- From `s` to `t` the phase goes on with fewer finer steps left, or ends as the phase order allows. -/
def Progress (s t : State) : Prop :=
  (t.phase = s.phase ∧ t.stepsLeft < s.stepsLeft) ∨ s.phase.mayBecome t.phase = true

theorem Progress.ends {s t : State} {p q : Phase} (hp : s.phase = p) (hq : t.phase = q) (h : p.mayBecome q = true) :
    Progress s t := by
  subst hp hq
  exact .inr h

/-- Writing the bits of a step, then going on: there is room, or the phase ends with an error. -/
theorem progress_writeBits {s : State} {bs : Bits} {k : State → State} (h : Inv s) (hb : s.busy = true)
    (herr : s.phase.mayBecome .error = true)
    (hk : ∀ t, s.wrote bs t → t.wr.idx.toNat ≤ s.cfg.outCap → Progress s (k t)) :
    Progress s ((writeBits bs s).andThen fun t => .run (k t)).state := by
  obtain ⟨-, t, e, wrote, kept, can, bits, -, written⟩ | ⟨-, t, e, u, -, -, -, -, -, rfl⟩ :=
    writeBits_spec bs (h.canWrite hb) <;> rw [e]
  · refine hk t ⟨wrote, written, can.ok, bits, kept.2⟩ ?_
    have hidx := can.idx
    rwa [wrote] at hidx
  · exact .inr herr

/-- Written bits are taken from the room that is left. -/
theorem State.wrote.writesLeft {s t : State} {bs : Bits} (h : s.wrote bs t) (hidx : t.wr.idx.toNat ≤ s.cfg.outCap) :
    t.writesLeft + bs.length = s.writesLeft := by
  obtain ⟨hkept, -, ⟨hcount, -⟩, hbits, -⟩ := h
  have hcfg : t.cfg = s.cfg := by rw [hkept]
  have hcnt := t.wr.cnt.isLt
  unfold State.writesLeft
  rw [hcfg]
  omega

/-- Read bits are taken from the bits that are left. -/
theorem State.skipN_bitsLeft {s : State} {k v : Nat} (hok : s.rd.ok) (h : s.peekN k = some v) :
    (s.skipN k).rd.bitsLeft + k = s.rd.bitsLeft := by
  have hle : k ≤ s.rd.bitsLeft := by
    by_contra hlt
    obtain ⟨r, e, -⟩ := Reader.readN_none s.inByte hok (Nat.lt_of_not_le hlt)
    rw [State.peekN, e] at h
    cases h
  obtain ⟨r, e, hlen, hpos, -⟩ := Reader.readN_some s.inByte hok hle
  rw [State.skipN_rd, e, Reader.bitsLeft, hlen, hpos]
  unfold Reader.bitsLeft at hle ⊢
  omega

theorem symWidth_pos (pair : Bool) : 0 < symWidth pair := by cases pair <;> decide

theorem State.readsLeft_loop {s : State} (hg : s.loop.stage ≠ .entry) : s.readsLeft = s.rd.bitsLeft + 1 := if_neg hg

/-- From a loop's start the reader goes back to the first bit (40_bitstream.md R200). -/
theorem readsLeft_rdReset {s t : State} (hg : s.loop.stage = .entry) (ht : t.loop.stage ≠ .entry)
    (hrd : t.rd = s.rd.reset) : t.readsLeft < s.readsLeft := by
  rw [State.readsLeft_loop ht, State.readsLeft, if_pos hg, hrd, Reader.bitsLeft]
  exact Nat.lt_succ_of_le (Nat.succ_le_succ (Nat.sub_le _ _))

theorem State.stepsLeft_cScan {s : State} (hp : s.phase = .cScan) : s.stepsLeft = s.readsLeft := by
  simp only [State.stepsLeft, hp]

theorem State.stepsLeft_passes {s : State} (hp : s.phase = .cHdr ∨ s.phase = .dHdr) : s.stepsLeft = s.passesLeft := by
  rcases hp with hp | hp <;> simp only [State.stepsLeft, hp]

theorem State.stepsLeft_cEmit {s : State} (hp : s.phase = .cEmit) :
    s.stepsLeft = s.readsLeft + s.writesLeft + if s.loop.emit = none then 0 else 1 := by
  simp only [State.stepsLeft, hp]

theorem State.stepsLeft_dWalk {s : State} (hp : s.phase = .dWalk) : s.stepsLeft = s.rd.bitsLeft + s.writesLeft := by
  simp only [State.stepsLeft, hp]

/-! ### The phases of COMPRESS -/

/-- A symbol of the input is counted, or its count is full (41_frequency.md R230, R233). -/
theorem progress_count {s : State} (h : Inv s) (hp : s.phase = .cScan) (hg : s.loop.stage ≠ .entry) {r : Nat}
    (hr : s.peekN (symWidth s.dp.mode) = some r) : Progress s ((s.skipN (symWidth s.dp.mode)).count r).state := by
  have hleft := State.skipN_bitsLeft (h.runAt hp rfl).reader.1 hr
  have hpos := symWidth_pos s.dp.mode
  unfold State.count
  dsimp only
  by_cases hfull : ((s.skipN (symWidth s.dp.mode)).freqAt r).toNat = 2 ^ 32 - 1
  · rw [if_pos hfull]
    exact .ends hp rfl rfl
  · rw [if_neg hfull]
    refine .inl ⟨rfl, ?_⟩
    rw [Flow.state_run, State.stepsLeft_cScan hp, State.stepsLeft_cScan (by exact hp), State.readsLeft_loop hg,
      State.readsLeft_loop (by exact hg)]
    dsimp only
    omega

theorem progress_cScan {s : State} (h : Inv s) (hp : s.phase = .cScan) : ∃ t, fineStep s = .next t ∧ Progress s t := by
  refine ⟨_, fineStep_cScan hp, ?_⟩
  unfold scanStep
  cases hg : s.loop.stage with
  | entry =>
    refine .inl ⟨rfl, ?_⟩
    rw [State.stepsLeft_cScan hp, State.stepsLeft_cScan (by exact hp)]
    exact readsLeft_rdReset hg (by simp) rfl
  | pass1 =>
    cases hr : s.peekN (symWidth s.dp.mode) with
    | none => exact .ends hp rfl rfl
    | some r => exact progress_count h hp (by simp [hg]) hr
  | pass2 =>
    cases hr : s.peekN (symWidth s.dp.mode) with
    | none => exact .ends hp rfl rfl
    | some r => exact progress_count h hp (by simp [hg]) hr

theorem progress_cCheck {s : State} (hp : s.phase = .cCheck) : ∃ t, fineStep s = .next t ∧ Progress s t := by
  refine ⟨_, fineStep_cCheck hp, ?_⟩
  cases hm : s.dp.mode with
  | false =>
    rw [checkStep_goes_on (by simp [hm])]
    refine .ends hp rfl ?_
    split_ifs <;> rfl
  | true =>
    cases ho : overRange s.freq with
    | none =>
      rw [checkStep_goes_on fun _ => ho]
      refine .ends hp rfl ?_
      split_ifs <;> rfl
    | some k =>
      rw [checkStep_raises hm ho]
      exact .ends hp rfl rfl

/-- The two passes' next symbol, where it has an index of the mode. -/
theorem passesLeft_nextSym {s t : State} (hp : s.phase = .cHdr ∨ s.phase = .dHdr) (hg : s.loop.stage ≠ .entry)
    (hk : s.loop.s.toNat < nsyms s.dp.mode) (hphase : t.phase = s.phase) (hdp : t.dp = s.dp)
    (hloop : t.loop = { s.loop with s := s.loop.s + 1 }) : Progress s t := by
  refine .inl ⟨hphase, ?_⟩
  have hsucc := toNat_succ_sym hk
  rw [State.stepsLeft_passes hp, State.stepsLeft_passes (by rwa [hphase]), State.passesLeft, State.passesLeft, hdp, hloop]
  dsimp only
  rw [hsucc]
  cases hs : s.loop.stage with
  | entry => exact absurd hs hg
  | pass1 => dsimp only; omega
  | pass2 => dsimp only; omega

/-- The two passes' next loop. -/
theorem passesLeft_toStage {s t : State} (hp : s.phase = .cHdr ∨ s.phase = .dHdr)
    (hg : s.loop.stage = .entry ∧ t.loop.stage = .pass1 ∨ s.loop.stage = .pass1 ∧ t.loop.stage = .pass2)
    (hphase : t.phase = s.phase) (hdp : t.dp = s.dp) (hsym : t.loop.s = 0) : Progress s t := by
  refine .inl ⟨hphase, ?_⟩
  rw [State.stepsLeft_passes hp, State.stepsLeft_passes (by rwa [hphase]), State.passesLeft, State.passesLeft, hdp, hsym]
  rcases hg with ⟨h1, h2⟩ | ⟨h1, h2⟩ <;> simp [h1, h2]
  omega

/-- A header field of C_HDR is written, and the next symbol is next. -/
theorem progress_headerField {s : State} {i : Instr} {pair : Bool} (h : Inv s) (hp : s.phase = .cHdr)
    (hi : s.nextField = some i) (hkind : (fieldKind i).bind kindMode = some pair) (hg : s.loop.stage ≠ .entry)
    (hk : s.loop.s.toNat < nsyms s.dp.mode) : ∃ t, fineStep s = .next t ∧ Progress s t := by
  have hb := busy_of_phase hp rfl
  have hexec := (exec_headerField hkind s).trans (atField_here hi _)
  rw [headerField, hp] at hexec
  refine ⟨_, (fineStep_field hb hi).trans hexec, progress_writeBits h hb (by rw [hp]; rfl) fun t ht _ => ?_⟩
  obtain ⟨hkept, -⟩ := ht
  exact passesLeft_nextSym (.inl hp) hg hk (by rw [hkept]; rfl) (by rw [hkept]; rfl) (by rw [hkept]; rfl)

theorem progress_cHdr {s : State} (h : Inv s) (hp : s.phase = .cHdr) : ∃ t, fineStep s = .next t ∧ Progress s t := by
  have hb := busy_of_phase hp rfl
  cases hg : s.loop.stage with
  | entry =>
    have hnext := nextField_modeFlag hp hg
    have hexec := (exec_modeFlag s.dp.mode s).trans (atField_here hnext _)
    rw [modeField_cHdr hp] at hexec
    refine ⟨_, (fineStep_field hb hnext).trans hexec, progress_writeBits h hb (by rw [hp]; rfl) fun t ht _ => ?_⟩
    obtain ⟨hkept, -⟩ := ht
    exact passesLeft_toStage (.inl hp) (.inl ⟨hg, rfl⟩) (by rw [hkept]; rfl) (by rw [hkept]; rfl) rfl
  | pass1 =>
    by_cases hk : s.loop.s.toNat < nsyms s.dp.mode
    · exact progress_headerField h hp (nextField_marker_cHdr hp hg hk) (kindMode_markerInstr _ _) (by simp [hg]) hk
    · have hnext : s.nextField = none := by simp [State.nextField, hp, hg, hk]
      refine ⟨s.toStage .pass2, ?_, passesLeft_toStage (.inl hp) (.inr ⟨hg, rfl⟩) rfl rfl rfl⟩
      rw [fineStep_cHdr hp hnext, headerOutStep, hg]
      rfl
  | pass2 =>
    by_cases hk : s.loop.s.toNat < nsyms s.dp.mode
    · by_cases hf : s.freqAt s.loop.s.toNat = 0
      · exact ⟨_, fineStep_absent_cHdr hp hg hk hf, passesLeft_nextSym (.inl hp) (by simp [hg]) hk rfl rfl rfl⟩
      · exact progress_headerField h hp (nextField_value_cHdr hp hg hk hf) (kindMode_valueInstr _ _) (by simp [hg]) hk
    · have hnext : s.nextField = none := by simp [State.nextField, hp, hg, hk]
      refine ⟨_, fineStep_cHdr hp hnext, ?_⟩
      rw [headerOutStep, hg]
      exact .ends hp (congrArg (fun f : Flow => f.state.phase) (if_neg hk)) rfl

/-- Where C_EMIT stands at no field (45_orchestration.md R356). -/
theorem fineStep_cEmit {s : State} (hp : s.phase = .cEmit) (hi : s.nextField = none) : fineStep s = (emitStep s).outcome := by
  rw [fineStep_internal (busy_of_phase hp rfl) hi]
  simp [internalStep, hp]

/-- In C_EMIT with a code bit to write the finer step writes it (45_orchestration.md R356). -/
theorem fineStep_codeBit {s : State} {b : Bool} {rest : Bits} (hp : s.phase = .cEmit)
    (he : s.loop.emit = some (b :: rest)) :
    fineStep s = ((writeBits [b] s).andThen fun t =>
      .run { t with loop := { t.loop with emit := t.loop.emit.map List.tail } }).outcome := by
  have hnext := nextField_codeBit hp he
  rw [fineStep_field (busy_of_phase hp rfl) hnext, exec_codeBit, atField_here hnext, codeField_cEmit hp, fieldBits_codeBit]

theorem emitStep_entry {s : State} (hg : s.loop.stage = .entry) :
    emitStep s = .run ({ s with rd := s.rd.reset }.toStage .pass1) := by
  simp only [emitStep, hg]

/-- After a code's last bit its symbol is counted (log entry 15). -/
theorem emitStep_codeEnd {s : State} {c : Bits} (hg : s.loop.stage ≠ .entry) (he : s.loop.emit = some c) :
    emitStep s = .run { s with
      dp := { s.dp with doneSyms := s.dp.doneSyms + 1 }
      loop := { s.loop with emit := none } } := by
  unfold emitStep
  split
  · exact absurd ‹_› hg
  all_goals rw [he]

/-- Between codes a symbol is read and its code is next; a symbol with no valid code is skipped (45_orchestration.md R383). -/
theorem emitStep_symbol {s : State} {r : Nat} (hg : s.loop.stage ≠ .entry) (he : s.loop.emit = none)
    (hr : s.peekN (symWidth s.dp.mode) = some r) :
    emitStep s = .run { s.skipN (symWidth s.dp.mode) with loop := { s.loop with emit := Table.look r s.code } } := by
  have hskip : s.skipN (symWidth s.dp.mode) =
      { s.skipN (symWidth s.dp.mode) with loop := { s.loop with emit := none } } := by
    rw [← he]
    rfl
  unfold emitStep
  split
  · exact absurd ‹_› hg
  all_goals
    rw [he, hr]
    dsimp only
    rw [State.skipN_code]
    cases Table.look r s.code with
    | some c => rfl
    | none => exact congrArg Flow.run hskip

/-- Past the last symbol the coded bits are counted and the phase ends. -/
theorem emitStep_end {s : State} (hg : s.loop.stage ≠ .entry) (he : s.loop.emit = none)
    (hr : s.peekN (symWidth s.dp.mode) = none) :
    emitStep s = .run ({ s.skipN (symWidth s.dp.mode) with
      dp := { s.dp with codedBits := s.wr.bits - s.dp.hdrBits } }.enter .cFlush) := by
  unfold emitStep
  split
  · exact absurd ‹_› hg
  all_goals rw [he, hr]

/-- Between code bits C_EMIT makes progress. -/
theorem progress_emitStep {s : State} (h : Inv s) (hp : s.phase = .cEmit) : Progress s (emitStep s).state := by
  by_cases hg : s.loop.stage = .entry
  · rw [emitStep_entry hg]
    refine .inl ⟨rfl, ?_⟩
    rw [State.stepsLeft_cEmit hp, State.stepsLeft_cEmit (by exact hp)]
    have hlt := readsLeft_rdReset (t := { s with rd := s.rd.reset }.toStage .pass1) hg (by simp) rfl
    exact Nat.add_lt_add_right (Nat.add_lt_add_right hlt _) _
  cases he : s.loop.emit with
  | some c =>
    rw [emitStep_codeEnd hg he]
    refine .inl ⟨rfl, ?_⟩
    rw [State.stepsLeft_cEmit hp, State.stepsLeft_cEmit (by exact hp), he]
    exact Nat.add_lt_add_left Nat.zero_lt_one _
  | none =>
    cases hr : s.peekN (symWidth s.dp.mode) with
    | none =>
      rw [emitStep_end hg he hr]
      exact .ends hp rfl rfl
    | some r =>
      rw [emitStep_symbol hg he hr]
      have hleft := State.skipN_bitsLeft (h.runAt hp rfl).reader.1 hr
      have hwrites (l : Loop) : ({ s.skipN (symWidth s.dp.mode) with loop := l } : State).writesLeft = s.writesLeft := rfl
      refine .inl ⟨rfl, ?_⟩
      rw [Flow.state_run, State.stepsLeft_cEmit hp, State.stepsLeft_cEmit (by exact hp), State.readsLeft_loop hg,
        State.readsLeft_loop (by exact hg), hwrites]
      dsimp only
      rcases symWidth_eq s.dp.mode with hw | hw <;> rw [hw] at hleft ⊢ <;> split_ifs <;> omega

theorem progress_cEmit {s : State} (h : Inv s) (hp : s.phase = .cEmit) : ∃ t, fineStep s = .next t ∧ Progress s t := by
  have hb := busy_of_phase hp rfl
  have hbetween (hnext : s.nextField = none) : ∃ t, fineStep s = .next t ∧ Progress s t :=
    ⟨_, fineStep_cEmit hp hnext, progress_emitStep h hp⟩
  cases he : s.loop.emit with
  | none => exact hbetween (by simp [State.nextField, hp, he])
  | some c =>
    cases c with
    | nil => exact hbetween (by simp [State.nextField, hp, he])
    | cons b rest =>
      refine ⟨_, fineStep_codeBit hp he, progress_writeBits h hb (by rw [hp]; rfl) fun t ht hidx => ?_⟩
      have hleft := ht.writesLeft hidx
      obtain ⟨hkept, -⟩ := ht
      have hloop : t.loop = s.loop := by rw [hkept]
      have hphase : t.phase = .cEmit := by rw [hkept]; exact hp
      have hreads : t.readsLeft = s.readsLeft := by rw [hkept]; rfl
      refine .inl ⟨hphase.trans hp.symm, ?_⟩
      rw [State.stepsLeft_cEmit hp, State.stepsLeft_cEmit (by exact hphase), he]
      change t.readsLeft + t.writesLeft + (if t.loop.emit.map List.tail = none then 0 else 1) < _
      rw [hloop, he, hreads]
      simp only [List.length_singleton] at hleft
      simp
      omega

theorem progress_cFlush {s : State} (h : Inv s) (hp : s.phase = .cFlush) : ∃ t, fineStep s = .next t ∧ Progress s t := by
  obtain ⟨t, -, hstep⟩ | ⟨-, -, hstep⟩ := flush_cases h hp
  · exact ⟨_, hstep, .ends hp rfl rfl⟩
  · exact ⟨_, hstep, .ends hp rfl rfl⟩

/-! ### The phases of DECOMPRESS -/

theorem progress_dMode {s : State} (h : Inv s) (hp : s.phase = .dMode) : ∃ t, fineStep s = .next t ∧ Progress s t := by
  obtain ⟨b, hbits⟩ := List.length_eq_one_iff.1 (s.nextBits_length 1)
  obtain ⟨hnext, hexec⟩ := modeFlag_read h hp hbits
  exact ⟨_, (fineStep_field (busy_of_phase hp rfl) hnext).trans hexec, .ends hp rfl rfl⟩

/-- Reading a header field moves neither PHASE nor the loop position, and keeps the datapath registers. -/
theorem headerRead_kept (i : Instr) (s : State) :
    (headerRead i s).phase = s.phase ∧ (headerRead i s).dp = s.dp ∧ (headerRead i s).loop = s.loop := by
  cases i with
  | classF8 value => cases value <;> exact ⟨rfl, rfl, rfl⟩
  | classF16 value => cases value <;> exact ⟨rfl, rfl, rfl⟩
  | classF32 value => cases value <;> exact ⟨rfl, rfl, rfl⟩
  | _ => exact ⟨rfl, rfl, rfl⟩

theorem progress_dHdr {s : State} (hp : s.phase = .dHdr) : ∃ t, fineStep s = .next t ∧ Progress s t := by
  cases hi : s.nextField with
  | some i =>
    obtain ⟨hphase, hdp, hloop⟩ := headerRead_kept i s
    have hg : s.loop.stage ≠ .entry := fun hg => by simp [State.nextField, hp, hg] at hi
    exact ⟨_, (fineStep_field (busy_of_phase hp rfl) hi).trans (exec_dHdr hp hi),
      passesLeft_nextSym (.inr hp) hg (nextField_dHdr hp hi).1 hphase hdp (by rw [State.nextSym_loop, hloop])⟩
  | none =>
    refine ⟨_, fineStep_dHdr hp hi, ?_⟩
    unfold headerInStep
    cases hg : s.loop.stage with
    | entry => exact passesLeft_toStage (.inr hp) (.inl ⟨hg, rfl⟩) rfl rfl rfl
    | pass1 => exact passesLeft_toStage (.inr hp) (.inr ⟨hg, rfl⟩) rfl rfl rfl
    | pass2 =>
      dsimp only
      by_cases hk : s.loop.s.toNat < nsyms s.dp.mode
      · rw [if_pos hk]
        exact passesLeft_nextSym (.inr hp) (by simp [hg]) hk rfl rfl rfl
      · rw [if_neg hk]
        refine .ends hp rfl ?_
        split_ifs <;> rfl

theorem progress_dWalk {s : State} (h : Inv s) (hp : s.phase = .dWalk) : ∃ t, fineStep s = .next t ∧ Progress s t := by
  have hb := busy_of_phase hp rfl
  have hrun := h.runAt hp rfl
  by_cases hd : s.dp.doneSyms = s.dp.total
  · exact ⟨_, (fineStep_field hb (nextField_walkDone hp hd)).trans (exec_pad_dWalk hp hd), .ends hp rfl rfl⟩
  cases hc : s.loop.cur with
  | empty => exact absurd (hrun.walkable rfl).2 (by simp [hc, Tree.full])
  | leaf sym f =>
    refine ⟨_, fineStep_walkLeaf hp hd hc, progress_writeBits h hb (by rw [hp]; rfl) fun t ht hidx => ?_⟩
    have hleft := ht.writesLeft hidx
    have hpos := symWidth_pos s.dp.mode
    obtain ⟨hkept, -⟩ := ht
    have hphase : t.phase = .dWalk := by rw [hkept]; exact hp
    have hrd : t.rd = s.rd := by rw [hkept]
    refine .inl ⟨hphase.trans hp.symm, ?_⟩
    rw [State.stepsLeft_dWalk hp, State.stepsLeft_dWalk (by exact hphase), ← hleft, bitsOf_length, ← hrd]
    exact Nat.add_lt_add_left (Nat.lt_add_of_pos_right hpos) _
  | node l r f k =>
    by_cases hend : s.rd.pos = 8 * s.rd.len.toNat
    · exact ⟨_, walkStopsAtTheEndOfTheInput s l r f k h hp hc hd hend, .ends hp rfl rfl⟩
    · have hpos := Reader.pos_le hrun.reader.1
      obtain ⟨b, hbits⟩ := List.length_eq_one_iff.1 (s.nextBits_length 1)
      obtain ⟨hnext, hexec⟩ := walk_descends h hp hc hd (by omega) hbits
      refine ⟨_, (fineStep_field hb hnext).trans hexec, .inl ⟨rfl, ?_⟩⟩
      obtain ⟨-, hlen, hpast⟩ := State.past_ok 1 hrun.reader.1
      have hbits : (s.past 1).rd.bitsLeft < s.rd.bitsLeft := by
        rw [Reader.bitsLeft, Reader.bitsLeft, hlen, hpast]
        omega
      rw [State.stepsLeft_dWalk hp, State.stepsLeft_dWalk (by exact hp)]
      exact Nat.add_lt_add_right hbits _

/-- Every finer step of a run makes progress (45_orchestration.md R345, R470). -/
theorem fineStep_progress {s : State} (h : Inv s) (hb : s.busy = true) : ∃ t, fineStep s = .next t ∧ Progress s t := by
  cases hp : s.phase with
  | cScan => exact progress_cScan h hp
  | cCheck => exact progress_cCheck hp
  | cHdr => exact progress_cHdr h hp
  | cBuild => exact ⟨_, fineStep_cBuild hp, .ends hp rfl rfl⟩
  | cCodegen => exact ⟨_, fineStep_cCodegen hp, .ends hp rfl rfl⟩
  | cEmit => exact progress_cEmit h hp
  | cFlush => exact progress_cFlush h hp
  | dMode => exact progress_dMode h hp
  | dHdr => exact progress_dHdr hp
  | dBuild => exact ⟨_, fineStep_dBuild hp, .ends hp rfl rfl⟩
  | dWalk => exact progress_dWalk h hp
  | dFlush => exact ⟨_, fineStep_dFlush h hp, .ends hp rfl rfl⟩
  | idle => exact absurd hb (by simp [State.busy, hp, Phase.busy])
  | done => exact absurd hp (busy_ne_done hb)
  | error => exact absurd hp (busy_ne_error hb)

end Sys2Proof.Machine
end

section
/-!
SUPPORT. The engine step as a chain of finer steps inside a phase and the one that ends it (70_reset_and_hazards.md R470,
R471), the number of engine steps of a run (45_orchestration.md R345), and what its completion leaves (R377).
-/

namespace Sys2Proof.Machine

/-! ### Finer steps inside a phase -/

/-- The finer step from `s` leads to `t` in the same phase. -/
def FineWithin (s t : State) : Prop :=
  fineStep s = .next t ∧ t.phase = s.phase

/-- Finer steps of one phase lead from `s` to `t`. -/
def Within : State → State → Prop :=
  Relation.ReflTransGen FineWithin

theorem Within.refl (s : State) : Within s s := Relation.ReflTransGen.refl

theorem Within.trans {s t u : State} (h : Within s t) (k : Within t u) : Within s u := Relation.ReflTransGen.trans h k

theorem Within.single {s t : State} (h : fineStep s = .next t) (hp : t.phase = s.phase) : Within s t :=
  Relation.ReflTransGen.single ⟨h, hp⟩

theorem Within.phase {s t : State} (h : Within s t) : t.phase = s.phase := by
  induction h with
  | refl => rfl
  | tail _ hstep ih => exact hstep.2.trans ih

theorem Within.inv {s t : State} (h : Within s t) (hs : Inv s) : Inv t := by
  induction h with
  | refl => exact hs
  | tail _ hstep ih => exact ih.fineStep hstep.1

theorem Phase.mayBecome_irrefl (p : Phase) : p.mayBecome p = false := by cases p <;> rfl

/-- A finer step inside a phase lowers the bound. -/
theorem FineWithin.stepsLeft_lt {s t : State} (h : FineWithin s t) (hs : Inv s) (hb : s.busy = true) :
    t.stepsLeft < s.stepsLeft := by
  obtain ⟨hstep, hp⟩ := h
  obtain ⟨t', hstep', ⟨-, hlt⟩ | hmay⟩ := fineStep_progress hs hb <;> cases hstep.symm.trans hstep'
  · exact hlt
  · rw [hp, Phase.mayBecome_irrefl] at hmay
    cases hmay

/-- A chain of finer steps and the one that ends the phase are the phase's run. -/
theorem runPhase_of_within {s u t : State} (h : Within s u) (hs : Inv s) (hb : s.busy = true)
    (hstep : fineStep u = .next t) (hp : t.phase ≠ u.phase) {n : Nat} (hn : s.stepsLeft < n) :
    runPhase n s = .next t := by
  induction h using Relation.ReflTransGen.head_induction_on generalizing n with
  | refl =>
    obtain ⟨m, rfl⟩ := Nat.exists_eq_succ_of_ne_zero (Nat.ne_of_gt (Nat.zero_lt_of_lt hn))
    exact runPhase_end hstep hp
  | head hfirst _ ih =>
    obtain ⟨m, rfl⟩ := Nat.exists_eq_succ_of_ne_zero (Nat.ne_of_gt (Nat.zero_lt_of_lt hn))
    have hlt := hfirst.stepsLeft_lt hs hb
    obtain ⟨hstep₁, hp₁⟩ := hfirst
    rw [runPhase_on hstep₁ hp₁]
    exact ih (hs.fineStep hstep₁) (busy_of_phase hp₁ hb) (by omega)

theorem engineStep_of_within {s u t : State} (h : Within s u) (hs : Inv s) (hb : s.busy = true)
    (hstep : fineStep u = .next t) (hp : t.phase ≠ u.phase) : engineStep s = .next t :=
  runPhase_of_within h hs hb hstep hp s.stepsLeft_lt_phaseBound

/-- A phase of one finer step. -/
theorem engineStep_of_fineStep {s t : State} (hs : Inv s) (hb : s.busy = true) (hstep : fineStep s = .next t)
    (hp : t.phase ≠ s.phase) : engineStep s = .next t :=
  engineStep_of_within (Within.refl s) hs hb hstep hp

/-- Every phase comes to an end that the phase order allows, by a chain of finer steps and one that ends it. -/
theorem within_ends {s : State} (hs : Inv s) (hb : s.busy = true) :
    ∃ u t, Within s u ∧ fineStep u = .next t ∧ s.phase.mayBecome t.phase = true := by
  obtain ⟨t, hstep, ⟨hp, hlt⟩ | hmay⟩ := fineStep_progress hs hb
  · obtain ⟨u, v, hwithin, hend, hmay⟩ := within_ends (hs.fineStep hstep) (busy_of_phase hp hb)
    exact ⟨u, v, (Within.single hstep hp).trans hwithin, hend, hp ▸ hmay⟩
  · exact ⟨s, t, Within.refl s, hstep, hmay⟩
termination_by s.stepsLeft

theorem ne_of_mayBecome {p q : Phase} (h : p.mayBecome q = true) : q ≠ p := by
  rintro rfl
  rw [Phase.mayBecome_irrefl] at h
  cases h

/-- The engine step of a run: it ends its phase as the phase order allows. -/
theorem engineStep_ends {s : State} (hs : Inv s) (hb : s.busy = true) :
    ∃ u t, Within s u ∧ fineStep u = .next t ∧ engineStep s = .next t ∧ s.phase.mayBecome t.phase = true := by
  obtain ⟨u, t, hwithin, hstep, hmay⟩ := within_ends hs hb
  refine ⟨u, t, hwithin, hstep, engineStep_of_within hwithin hs hb hstep ?_, hmay⟩
  rw [hwithin.phase]
  exact ne_of_mayBecome hmay

/-- Settles O49: the bound of an engine step is above the finer steps of its phase, so it reaches the phase's end. -/
theorem engineStepsFollowThePhaseOrder : Obligations.EngineStepsFollowThePhaseOrder := by
  intro s hs hb
  obtain ⟨-, t, -, -, hstep, hmay⟩ := engineStep_ends hs hb
  exact ⟨t, hstep, hmay⟩

/-! ### Every step answers -/

theorem mapNext_answers {f : State → State} {o : Host.Outcome State Fault Refusal} (h : ∃ t, o = .next t) :
    ∃ t, mapNext f o = .next t := by
  obtain ⟨t, rfl⟩ := h
  exact ⟨f t, rfl⟩

theorem engineStep_answers {s : State} (hs : Inv s) (hb : s.busy = true) : ∃ t, engineStep s = .next t := by
  obtain ⟨-, t, -, -, hstep, -⟩ := engineStep_ends hs hb
  exact ⟨t, hstep⟩

theorem fineStep_answers {s : State} (hs : Inv s) : ∃ t, fineStep s = .next t := by
  cases hb : s.busy with
  | false => exact ⟨s, fineStep_idle hb⟩
  | true =>
    obtain ⟨t, hstep, -⟩ := fineStep_progress hs hb
    exact ⟨t, hstep⟩

/-- An event has an outcome (45_orchestration.md R384; 20_memory.md R111). -/
theorem eventStep_answers {s : State} (hs : Inv s) (e : Event) : ∃ t, eventStep e s = .next t := by
  cases e with
  | host x =>
    cases x with
    | read n addr => exact ⟨_, hostStep_read n addr s⟩
    | write n addr v => exact ⟨_, hostStep_write n addr v s⟩
  | engine =>
    refine mapNext_answers ?_
    split_ifs with hb
    · exact engineStep_answers hs hb
    · exact ⟨s, rfl⟩
  | fine => exact mapNext_answers (fineStep_answers hs)
  | reset => exact ⟨_, rfl⟩

/-- Settles O57: an event and the quiet step each have an outcome. -/
theorem noStepFaultsOrIsRefused : Obligations.NoStepFaultsOrIsRefused := by
  intro s hs
  cases hp : s.pending with
  | cons e rest =>
    rw [step_event hp]
    exact eventStep_answers (hs.setPending rest) e
  | nil =>
    rw [step_quiet hp, quietStep]
    split_ifs with hb
    · exact mapNext_answers (engineStep_answers hs hb)
    · exact ⟨s, rfl⟩

/-! ### The steps of a run with no other event -/

theorem HostKept.pending {s t : State} (h : HostKept s t) : t.pending = s.pending := by
  unfold HostKept at h
  rw [h]

theorem step_engine {s t : State} (hp : s.pending = []) (hb : s.busy = true) (h : engineStep s = .next t) :
    step s = .next t.newFree := by
  rw [step_quiet hp, quietStep, if_pos hb, h]
  rfl

theorem stepN_engine {s t : State} (n : Nat) (hp : s.pending = []) (hb : s.busy = true) (h : engineStep s = .next t) :
    stepN (n + 1) s = stepN n t.newFree := by
  rw [stepN, step_engine hp hb h]

/-- An idle block with no event to come waits (70_reset_and_hazards.md R452). -/
theorem stepN_idle {s : State} (n : Nat) (hp : s.pending = []) (hb : s.busy = false) : stepN n s = .next s := by
  induction n with
  | zero => rfl
  | succ n ih =>
    have hstep : step s = .next s := by rw [step_quiet hp, quietStep, if_neg (by simp [hb])]
    rw [stepN, hstep]
    exact ih

/-- The engine steps from a phase to the end of its run, at most (45_orchestration.md R342, R343). -/
def Phase.enginesLeft : Phase → Nat
  | .cScan => 7
  | .cCheck => 6
  | .cHdr => 5
  | .cBuild => 4
  | .cCodegen => 3
  | .cEmit => 2
  | .cFlush => 1
  | .dMode => 5
  | .dHdr => 4
  | .dBuild => 3
  | .dWalk => 2
  | .dFlush => 1
  | .idle | .done | .error => 0

/-- The phase order leads to the end of the run. -/
theorem Phase.mayBecome_lt {p q : Phase} (h : p.mayBecome q = true) :
    q.enginesLeft < p.enginesLeft ∧ (q.busy = true ∨ q = .done ∨ q = .error) := by
  revert h
  cases p <;> cases q <;> decide

theorem Phase.enginesLeft_le (p : Phase) : p.enginesLeft ≤ if p.decompress then 5 else 7 := by cases p <;> decide

/-- A run ends within the engine steps that its phase has left. -/
theorem run_ends {s : State} (hs : Inv s) (hb : s.busy = true) (hp : s.pending = []) :
    ∃ n t, stepN n s = .next t ∧ n ≤ s.phase.enginesLeft ∧ (t.phase = .done ∨ t.phase = .error) := by
  obtain ⟨-, u, -, -, hstep, hmay⟩ := engineStep_ends hs hb
  obtain ⟨hlt, hbusy | hend⟩ := Phase.mayBecome_lt hmay
  · have hu : Inv u.newFree := Inv.newFree (Inv.runPhase hs hstep)
    have hup : u.newFree.pending = [] := (engineStep_hostKept hstep).pending.trans hp
    obtain ⟨n, t, hn, hle, ht⟩ := run_ends hu hbusy hup
    refine ⟨n + 1, t, (stepN_engine n hp hb hstep).trans hn, ?_, ht⟩
    rw [State.newFree_phase] at hle
    omega
  · exact ⟨1, u.newFree, stepN_engine 0 hp hb hstep, by omega, hend⟩
termination_by s.phase.enginesLeft

/-- Settles O50: each engine step leads on in the phase order, which is no longer than 7 phases, or 5 for DECOMPRESS. -/
theorem everyRunEnds : Obligations.EveryRunEnds := by
  intro s hs hb hp
  obtain ⟨n, t, hn, hle, ht⟩ := run_ends hs hb hp
  exact ⟨n, t, hn, hle.trans s.phase.enginesLeft_le, ht⟩

/-! ### Header accounting (45_orchestration.md R377) -/

theorem Phase.mayBecome_done {p : Phase} (h : p.mayBecome .done = true) : p = .cFlush ∨ p = .dFlush := by
  revert h
  cases p <;> decide

/-- The two byte counts of a completed run add up, where the header is not longer than the compressed stream. -/
theorem State.results_add_up (c : Bool) {s : State} {comp : Word} (hcomp : comp = if c then s.wr.idx else s.rd.len)
    (hle : s.dp.hdrBits.toNat / 8 ≤ comp.toNat) :
    (s.results c).statHdrBytes.toNat + (s.results c).statCodedBytes.toNat = (s.results c).statComp.toNat := by
  have hlt := comp.isLt
  rw [State.results_eq c hcomp hle]
  simp only [BitVec.toNat_ofNat]
  omega

/-- Settles O53: the step that completes the run is the last of C_FLUSH or D_FLUSH. -/
theorem headerAndCodedBytesAddUp : Obligations.HeaderAndCodedBytesAddUp := by
  intro s t hs hb hstep ht
  obtain ⟨u, t', hwithin, hlast, hstep', hmay⟩ := engineStep_ends hs hb
  cases hstep.symm.trans hstep'
  have hu := hwithin.inv hs
  rw [ht, ← hwithin.phase] at hmay
  rw [← hwithin.phase]
  rcases Phase.mayBecome_done hmay with hp | hp
  · obtain ⟨v, hf, hdone⟩ | ⟨-, -, hraise⟩ := flush_cases hu hp
    · cases hlast.symm.trans hdone
      have hheader := hf.header_le hu hp
      have hcount := hu.codedCount hp
      have hidx := hf.idx
      obtain ⟨m, w, rfl⟩ := hf.wrote.exists_eq
      refine ⟨State.results_add_up true rfl hheader, fun _ => ?_⟩
      rw [hcount] at hidx
      exact hidx
    · cases hlast.symm.trans hraise
      cases ht
  · cases hlast.symm.trans (fineStep_dFlush hu hp)
    have hle : u.dp.hdrBits.toNat ≤ 8 * u.rd.len.toNat := (hu.runAt hp rfl).headerCount
    exact ⟨State.results_add_up false rfl (Nat.div_le_of_le_mul hle), fun h => absurd (hp.symm.trans h) (by decide)⟩

end Sys2Proof.Machine
end

section
/-!
SUPPORT. C_EMIT: the codes of the input's symbols are appended one after the other, each bit by bit (45_orchestration.md
R356, R383; 30_encoding.md R152).
-/

namespace Sys2Proof.Machine

/-! ### Passes of several finer steps -/

/-- A pass of `m` rounds, each of any number of finer steps of the phase; a round that can end otherwise ends in `E`. -/
theorem within_pass {P : Nat → State → Prop} {E : State → Prop} {m : Nat}
    (back : ∀ u v, Within u v → E v → E u)
    (next : ∀ k u, P k u → k < m → (∃ v, Within u v ∧ P (k + 1) v) ∨ E u) {k : Nat} {u : State} (h : P k u) (hk : k ≤ m) :
    (∃ v, Within u v ∧ P m v) ∨ E u := by
  induction m, hk using Nat.le_induction with
  | base => exact .inl ⟨u, Within.refl u, h⟩
  | succ n hkn ih =>
    obtain ⟨v, huv, hv⟩ | hE := ih fun j w hw hj => next j w hw (Nat.lt_succ_of_lt hj)
    · obtain ⟨w, hvw, hw⟩ | hE := next n v hv (Nat.lt_succ_self n)
      · exact .inl ⟨w, huv.trans hvw, hw⟩
      · exact .inr (back u v huv hE)
    · exact .inr hE

/-- The phase ends with an error. -/
def FailsIn (s : State) : Prop :=
  ∃ u t, Within s u ∧ fineStep u = .next t ∧ t.phase = .error

theorem FailsIn.back {s t : State} (h : Within s t) (hf : FailsIn t) : FailsIn s := by
  obtain ⟨u, v, hu, hstep, hv⟩ := hf
  exact ⟨u, v, h.trans hu, hstep, hv⟩

theorem FailsIn.engineStep {s : State} (hf : FailsIn s) (hs : Inv s) (hb : s.busy = true) :
    ∃ t, engineStep s = .next t ∧ t.phase = .error := by
  obtain ⟨u, t, hwithin, hstep, ht⟩ := hf
  refine ⟨t, engineStep_of_within hwithin hs hb hstep ?_, ht⟩
  rw [ht, hwithin.phase]
  exact (busy_ne_error hb).symm

/-! ### Writing a code -/

/-- Room for more bits, by the length of the output. -/
theorem room_iff {s : State} (h : s.wr.ok) (k : Nat) : s.room k ↔ (s.written.length + k) / 8 ≤ s.cfg.outCap := by
  rw [written_length h]
  rfl

/-- In C_EMIT the finer step at a code bit writes it where there is room, and else ends the run. -/
theorem codeBit_step {u : State} {b : Bool} {rest : Bits} (h : Inv u) (hp : u.phase = .cEmit)
    (he : u.loop.emit = some (b :: rest)) :
    (u.room 1 ∧ ∃ v, fineStep u = .next v ∧
        v = { u with wr := v.wr, outMem := v.outMem, loop := { u.loop with emit := some rest } } ∧
        v.written = u.written ++ [b]) ∨
      (¬ u.room 1 ∧ FailsIn u) := by
  have hstep := fineStep_codeBit hp he
  obtain ⟨hroom, t, e, wrote, -, -, -, -, written⟩ | ⟨hroom, t, e, v, -, -, -, -, -, rfl⟩ :=
    writeBits_spec [b] (h.canWrite (busy_of_phase hp rfl)) <;> rw [e] at hstep
  · refine .inl ⟨hroom, _, hstep, ?_, written⟩
    obtain ⟨m, w, rfl⟩ := wrote.exists_eq
    simp only [Flow.andThen_run, Flow.state_run, he, Option.map_some, List.tail_cons]
  · exact .inr ⟨hroom, u, _, Within.refl u, hstep, rfl⟩

/-- `v` is `u` after the code `c` has been written. -/
def CodeOut (u : State) (c : Bits) (v : State) : Prop :=
  v = { u with wr := v.wr, outMem := v.outMem, loop := { u.loop with emit := some [] } } ∧ v.written = u.written ++ c

/-- In C_EMIT the bits of a code are written where there is room, and else the run ends with an error. -/
theorem code_out {u : State} {c : Bits} (h : Inv u) (hp : u.phase = .cEmit) (he : u.loop.emit = some c) :
    (∃ v, Within u v ∧ CodeOut u c v) ∨ (¬ u.room c.length ∧ FailsIn u) := by
  induction c generalizing u with
  | nil =>
    refine .inl ⟨u, Within.refl u, ?_, (List.append_nil _).symm⟩
    rw [← he]
  | cons b rest ih =>
    obtain ⟨-, v, hstep, hkept, hwritten⟩ | ⟨hroom, hfails⟩ := codeBit_step h hp he
    · have hphase : v.phase = .cEmit := by rw [hkept]; exact hp
      have hv := h.fineStep hstep
      have huv := Within.single hstep (hphase.trans hp.symm)
      obtain ⟨w, hvw, hw, hw'⟩ | ⟨hroom, hfails⟩ := ih hv hphase (by rw [hkept])
      · refine .inl ⟨w, huv.trans hvw, ?_, by rw [hw', hwritten, List.append_assoc]; rfl⟩
        rw [hw, hkept]
      · have hcfg : v.cfg = u.cfg := by rw [hkept]
        refine .inr ⟨fun hr => hroom ?_, FailsIn.back huv hfails⟩
        rw [room_iff (hv.runAt hphase rfl).writer.1, hwritten, hcfg, List.length_append, Nat.add_assoc]
        rw [room_iff (h.runAt hp rfl).writer.1, List.length_cons, Nat.add_comm rest.length 1] at hr
        exact hr
    · exact .inr ⟨fun hr => hroom (room_mono (by simp) hr), hfails⟩

/-! ### The loop -/

/-- The code of symbol `r`; a symbol with no valid code has no bits (45_orchestration.md R383). -/
def codeOf (code : Table Bits) (r : Nat) : Bits :=
  (Table.look r code).getD []

/-- The first n symbols of the input. -/
def firstSymbols (s : State) (n : Nat) : List Nat :=
  (List.range n).map (symbolAt s.dp.mode s.inByte)

theorem firstSymbols_succ (s : State) (n : Nat) :
    firstSymbols s (n + 1) = firstSymbols s n ++ [symbolAt s.dp.mode s.inByte n] := by
  rw [firstSymbols, List.range_succ, List.map_append]
  rfl

/-- `u` stands between codes in the C_EMIT that started from `s`, with the codes of the first n symbols written. -/
structure Emitting (s : State) (n : Nat) (u : State) : Prop where
  inv : Inv u
  phase : u.phase = .cEmit
  stage : u.loop.stage = .pass1
  emit : u.loop.emit = none
  kept : u = { s with
    rd := { u.rd with len := s.rd.len }
    wr := u.wr
    outMem := u.outMem
    dp := { s.dp with doneSyms := u.dp.doneSyms }
    loop := u.loop }
  pos : u.rd.pos = symWidth s.dp.mode * n
  written : u.written = s.written ++ (firstSymbols s n).flatMap (codeOf s.code)
  done : u.dp.doneSyms.toNat = (firstSymbols s n).countP fun r => (Table.look r s.code).isSome

/-- The engine's first finer step of C_EMIT. -/
theorem emitting_zero {s : State} (h : Inv s) (hp : s.phase = .cEmit) (hg : s.loop.stage = .entry)
    (he : s.loop.emit = none) (hd : s.dp.doneSyms = 0) : ∃ u, Within s u ∧ Emitting s 0 u := by
  have hnext : s.nextField = none := by simp [State.nextField, hp, he]
  have hstep : fineStep s = .next ({ s with rd := s.rd.reset }.toStage .pass1) := by
    rw [fineStep_cEmit hp hnext, emitStep_entry hg]
    rfl
  exact ⟨_, Within.single hstep rfl,
    { inv := h.fineStep hstep
      phase := hp
      stage := rfl
      emit := he
      kept := rfl
      pos := rfl
      written := (List.append_nil _).symm
      done := by rw [State.toStage_dp, hd]; rfl }⟩

section
variable {s u : State} {n : Nat}

theorem Emitting.mode (h : Emitting s n u) : u.dp.mode = s.dp.mode := by rw [h.kept]

theorem Emitting.len (h : Emitting s n u) : u.rd.len = s.rd.len := by rw [h.kept]

theorem Emitting.inByte (h : Emitting s n u) : u.inByte = s.inByte := by rw [h.kept]; rfl

theorem Emitting.code (h : Emitting s n u) : u.code = s.code := by rw [h.kept]

theorem Emitting.nextField (h : Emitting s n u) : u.nextField = none := by simp [State.nextField, h.phase, h.emit]

theorem Emitting.reader_ok (h : Emitting s n u) : u.rd.ok := (h.inv.runAt h.phase rfl).reader.1

/-- While a whole symbol is left, the finer step reads it. -/
theorem Emitting.read (h : Emitting s n u) (hn : n < 8 * s.rd.len.toNat / symWidth s.dp.mode) :
    fineStep u = .next { u.past (symWidth s.dp.mode) with
        loop := { u.loop with emit := Table.look (symbolAt s.dp.mode s.inByte n) s.code } } ∧
      (u.past (symWidth s.dp.mode)).rd.pos = symWidth s.dp.mode * (n + 1) := by
  have hfit : u.rd.pos + symWidth s.dp.mode ≤ 8 * u.rd.len.toNat := by
    rw [h.pos, h.len, ← Nat.mul_succ, Nat.mul_comm]
    exact (Nat.le_div_iff_mul_le (symWidth_pos _)).1 hn
  have hpeek : u.peekN (symWidth s.dp.mode) = some (symbolAt s.dp.mode s.inByte n) := by
    rw [State.peekN_some h.reader_ok hfit, h.inByte, h.pos]
    rfl
  obtain ⟨-, -, hpos⟩ := State.past_ok (symWidth s.dp.mode) h.reader_ok
  refine ⟨?_, by rw [hpos, Nat.min_eq_left hfit, h.pos, Nat.mul_succ]⟩
  rw [fineStep_cEmit h.phase h.nextField, emitStep_symbol (by simp [h.stage]) h.emit (by rw [h.mode]; exact hpeek), h.mode,
    h.code, State.skipN_eq_past _ h.reader_ok]
  rfl

/-- The symbols so far are fewer than done_syms can count. -/
theorem Emitting.done_lt (h : Emitting s n u) (hn : n ≤ 8 * s.rd.len.toNat / symWidth s.dp.mode) :
    (u.dp.doneSyms + 1).toNat = u.dp.doneSyms.toNat + 1 := by
  have hle : u.dp.doneSyms.toNat ≤ n := by
    rw [h.done]
    exact List.countP_le_length.trans_eq (by simp [firstSymbols])
  have hsyms := symbols_le s.dp.mode s.rd.len.toNat
  have hlen := s.rd.len.isLt
  bv_omega

/-- A symbol with its code, if it has one, is written where there is room, and else the run ends with an error. -/
theorem Emitting.next (h : Emitting s n u) (hn : n < 8 * s.rd.len.toNat / symWidth s.dp.mode) :
    (∃ v, Within u v ∧ Emitting s (n + 1) v) ∨
      (¬ u.room (codeOf s.code (symbolAt s.dp.mode s.inByte n)).length ∧ FailsIn u) := by
  obtain ⟨hread, hpos⟩ := h.read hn
  have hv := h.inv.fineStep hread
  have huv := Within.single hread rfl
  cases hlook : Table.look (symbolAt s.dp.mode s.inByte n) s.code with
  | none =>
    rw [hlook] at hv huv
    refine .inl ⟨_, huv,
      { inv := hv
        phase := h.phase
        stage := h.stage
        emit := rfl
        kept := by rw [h.kept]; rfl
        pos := hpos
        written := ?_
        done := ?_ }⟩
    · rw [firstSymbols_succ, List.flatMap_append, List.flatMap_singleton, codeOf, hlook, Option.getD_none, List.append_nil]
      exact h.written
    · rw [firstSymbols_succ, List.countP_append, List.countP_singleton, hlook]
      exact h.done
  | some c =>
    rw [hlook] at hv huv
    rw [codeOf, hlook, Option.getD_some]
    obtain ⟨w, hvw, hkept, hwritten⟩ | ⟨hroom, hfails⟩ := code_out (c := c) hv h.phase rfl
    · have hw := hvw.inv hv
      have hphase : w.phase = .cEmit := hvw.phase.trans h.phase
      have hstage : w.loop.stage = .pass1 := by rw [hkept]; exact h.stage
      have hemit : w.loop.emit = some [] := by rw [hkept]
      have hdone : w.dp.doneSyms = u.dp.doneSyms := by rw [hkept]; rfl
      have hnext : w.nextField = none := by simp [State.nextField, hphase, hemit]
      have hstep := fineStep_cEmit hphase hnext
      rw [emitStep_codeEnd (by simp [hstage]) hemit] at hstep
      refine .inl ⟨_, huv.trans (hvw.trans (Within.single hstep rfl)),
        { inv := hw.fineStep hstep
          phase := hphase
          stage := hstage
          emit := rfl
          kept := ?_
          pos := ?_
          written := ?_
          done := ?_ }⟩
      · rw [hkept, h.kept]; rfl
      · rw [hkept]; exact hpos
      · rw [firstSymbols_succ, List.flatMap_append, List.flatMap_singleton, codeOf, hlook, Option.getD_some,
          ← List.append_assoc, ← h.written]
        exact hwritten
      · rw [firstSymbols_succ, List.countP_append, List.countP_singleton, hlook, ← h.done, ← hdone]
        exact (by rw [hdone]; exact h.done_lt hn.le)
    · exact .inr ⟨hroom, FailsIn.back huv hfails⟩

/-- Past the last whole symbol the coded bits are counted and the phase ends. -/
theorem Emitting.finish (h : Emitting s (8 * s.rd.len.toNat / symWidth s.dp.mode) u) :
    fineStep u = .next ({ u.past (symWidth s.dp.mode) with
      dp := { u.dp with codedBits := u.wr.bits - u.dp.hdrBits } }.enter .cFlush) := by
  have hshort : 8 * u.rd.len.toNat < u.rd.pos + symWidth s.dp.mode := by
    rw [h.pos, h.len]
    exact Nat.lt_mul_div_succ _ (symWidth_pos _)
  rw [fineStep_cEmit h.phase h.nextField,
    emitStep_end (by simp [h.stage]) h.emit (by rw [h.mode]; exact State.peekN_none h.reader_ok hshort), h.mode,
    State.skipN_eq_past _ h.reader_ok]
  rfl

end

/-- C_EMIT ends in C_FLUSH with every code written, unless it ends with an error. -/
theorem emit_ends {E : State → Prop} {s : State} (h : Inv s) (hp : s.phase = .cEmit) (hg : s.loop.stage = .entry)
    (he : s.loop.emit = none) (hd : s.dp.doneSyms = 0) (back : ∀ u v, Within u v → E v → E u)
    (full : ∀ n u, Emitting s n u → n < 8 * s.rd.len.toNat / symWidth s.dp.mode →
      ¬ u.room (codeOf s.code (symbolAt s.dp.mode s.inByte n)).length → FailsIn u → E u) :
    (∃ u, Emitting s (8 * s.rd.len.toNat / symWidth s.dp.mode) u ∧
      engineStep s = .next ({ u.past (symWidth s.dp.mode) with
        dp := { u.dp with codedBits := u.wr.bits - u.dp.hdrBits } }.enter .cFlush)) ∨ E s := by
  obtain ⟨u, hsu, hu⟩ := emitting_zero h hp hg he hd
  obtain ⟨v, huv, hv⟩ | hE := within_pass back
    (fun n w hw hn => hw.next hn |>.imp_right fun ⟨hroom, hfails⟩ => full n w hw hn hroom hfails) hu (Nat.zero_le _)
  · refine .inl ⟨v, hv, engineStep_of_within (hsu.trans huv) h (busy_of_phase hp rfl) hv.finish ?_⟩
    simp [hv.phase]
  · exact .inr (back s u hsu hE)

theorem inputSymbols_eq_firstSymbols (s : State) :
    inputSymbols s.dp.mode s.inByte s.rd.len.toNat = firstSymbols s (8 * s.rd.len.toNat / symWidth s.dp.mode) :=
  inputSymbols_eq _ _ _

/-- The codes of the first symbols begin the codes of all. -/
theorem firstSymbols_flatMap_le (s : State) (f : Nat → Bits) {m n : Nat} (h : m ≤ n) :
    ((firstSymbols s m).flatMap f).length ≤ ((firstSymbols s n).flatMap f).length := by
  induction n, h using Nat.le_induction with
  | base => exact le_rfl
  | succ n _ ih =>
    rw [firstSymbols_succ, List.flatMap_append, List.length_append]
    exact ih.trans (Nat.le_add_right _ _)

/-- Settles O38: with room for all codes there is room for each, so the phase cannot end with an error. -/
theorem emitPhaseWritesTheCodes : Obligations.EmitPhaseWritesTheCodes := by
  intro s h hp hg he hd syms bits hr hhdr
  have hok := (h.runAt hp rfl).writer.1
  have hsyms : syms = firstSymbols s (8 * s.rd.len.toNat / symWidth s.dp.mode) := inputSymbols_eq_firstSymbols s
  have full (n : Nat) (u : State) (hu : Emitting s n u) (hn : n < 8 * s.rd.len.toNat / symWidth s.dp.mode) :
      u.room (codeOf s.code (symbolAt s.dp.mode s.inByte n)).length := by
    have hcfg : u.cfg = s.cfg := by rw [hu.kept]
    have hle := firstSymbols_flatMap_le s (codeOf s.code) (Nat.succ_le_of_lt hn)
    rw [← hsyms, firstSymbols_succ, List.flatMap_append, List.length_append, List.flatMap_singleton] at hle
    rw [room_iff (hu.inv.runAt hu.phase rfl).writer.1, hu.written, hcfg, List.length_append]
    rw [room_iff hok] at hr
    refine (Nat.div_le_div_right ?_).trans hr
    rw [Nat.add_assoc]
    exact Nat.add_le_add_left hle _
  obtain ⟨u, hu, hstep⟩ | hfalse := emit_ends (E := fun _ => False) h hp hg he hd (fun _ _ _ hE => hE)
    fun n u hu hn hroom _ => hroom (full n u hu hn)
  · have hbits : u.wr.bits.toNat = s.wr.bits.toNat + bits.length := by
      rw [← written_length (hu.inv.runAt hu.phase rfl).writer.1, hu.written, List.length_append, written_length hok, ← hsyms]
      rfl
    have hhdrBits : u.dp.hdrBits = s.wr.bits := by rw [hu.kept, hhdr]
    refine ⟨_, hstep, rfl, ?_, ?_, ?_, ?_, ?_, ?_, ?_⟩
    · exact hu.written.trans (by rw [← hsyms]; rfl)
    · show (u.wr.bits - u.dp.hdrBits).toNat = bits.length
      rw [hhdrBits, BitVec.toNat_sub_of_le (BitVec.le_def.2 (by omega)), hbits]
      omega
    · exact hu.done.trans (by rw [← hsyms])
    all_goals
      simp only [State.enter_dp, State.enter_code, State.enter_inMem, State.past]
      rw [hu.kept]
  · exact hfalse.elim

end Sys2Proof.Machine
end

section
/-!
SUPPORT. Two runs over the same input: what the engine leaves does not depend on CTRL, on the rest of the memories, or on the
model's own fields, so two runs that differ there only stay alike at every step (45_orchestration.md R381, R385).
-/

namespace Sys2Proof.Machine

/-! ### Runs that are alike -/

/-- `s` with the fields taken from `u` on which no run depends: CTRL, the code registers, the memories, the port and the
model's own indices. -/
def State.withOuter (u s : State) : State :=
  { s with
    ctrl := u.ctrl, codeSel := u.codeSel, codeWsel := u.codeWsel, inMem := u.inMem, outMem := u.outMem, resp := u.resp
    freeCtr := u.freeCtr, memSeed := u.memSeed }

/-- The input that `s` has still to read is in `u`'s IN_MEM too. -/
def SameInput (u s : State) : Prop :=
  ∀ a, a < s.rd.len.toNat → u.inByte a = s.inByte a

/-- The bytes flushed so far, and those that OUT_LEN counts, are in `u`'s OUT_MEM too. -/
def SameFlushed (u s : State) : Prop :=
  ∀ a, a < s.wr.idx.toNat ∨ a < s.res.outLen.toNat → u.outByte a = s.outByte a

/-- `t` is `s` but for fields on which no run depends, with the same input and the same output. -/
def SameRun (s t : State) : Prop :=
  ∃ u : State, t = u.withOuter s ∧ SameInput u s ∧ SameFlushed u s

/-- Where a line of pseudocode leaves two runs that are alike. -/
inductive Flow.Same : Flow → Flow → Prop
  /-- Both go on. -/
  | run {s t : State} (h : SameRun s t) : Flow.Same (.run s) (.run t)
  /-- Both have ended. -/
  | ended {s t : State} (h : SameRun s t) : Flow.Same (.ended s) (.ended t)

/-- A line of pseudocode that keeps two runs alike. -/
def KeepsSame (k : State → Flow) : Prop :=
  ∀ ⦃s t : State⦄, SameRun s t → (k s).Same (k t)

/-- Two steps that leave two runs alike, where both have a next state. -/
def SameNext (o o' : Host.Outcome State Fault Refusal) : Prop :=
  ∀ ⦃s t : State⦄, o = .next s → o' = .next t → SameRun s t

theorem SameNext.next {s t : State} (h : SameRun s t) : SameNext (.next s) (.next t) := by
  intro s' t' hs ht
  cases hs
  cases ht
  exact h

theorem Flow.Same.sameNext {f g : Flow} (h : f.Same g) : SameNext f.outcome g.outcome := by
  cases h with
  | run h => exact .next h
  | ended h => exact .next h

/-- Two lines in order. -/
theorem Flow.Same.andThen {f g : Flow} {k k' : State → Flow} (h : f.Same g)
    (hk : ∀ ⦃s t : State⦄, SameRun s t → (k s).Same (k' t)) : (f.andThen k).Same (g.andThen k') := by
  cases h with
  | run h => exact hk h
  | ended h => exact .ended h

theorem KeepsSame.andThen {f k : State → Flow} (hf : KeepsSame f) (hk : KeepsSame k) :
    KeepsSame fun s => (f s).andThen k :=
  fun _ _ h => (hf h).andThen hk

/-- Two alike lines, chosen by a condition that both runs decide alike. -/
theorem Flow.Same.ite {c : Prop} {i j : Decidable c} {x y x' y' : Flow} (hx : x.Same x') (hy : y.Same y') :
    (@ite _ c i x y).Same (@ite _ c j x' y') := by
  by_cases hc : c
  · rwa [if_pos hc, if_pos hc]
  · rwa [if_neg hc, if_neg hc]

section
variable (u s : State)

@[simp] theorem State.withOuter_phase : (u.withOuter s).phase = s.phase := rfl
@[simp] theorem State.withOuter_dp : (u.withOuter s).dp = s.dp := rfl
@[simp] theorem State.withOuter_loop : (u.withOuter s).loop = s.loop := rfl
@[simp] theorem State.withOuter_freq : (u.withOuter s).freq = s.freq := rfl
@[simp] theorem State.withOuter_code : (u.withOuter s).code = s.code := rfl

end

/-! ### Reading -/

theorem Reader.readBit_congr {f g : Nat → Byte} {r : Reader} (h : ∀ a, a < r.len.toNat → f a = g a) :
    r.readBit f = r.readBit g ∧ (r.readBit f).2.len = r.len := by
  unfold Reader.readBit
  by_cases hend : r.len.toNat ≤ r.byte.toNat
  · rw [if_pos hend, if_pos hend]
    exact ⟨rfl, rfl⟩
  · rw [if_neg hend, if_neg hend, h _ (Nat.lt_of_not_le hend)]
    refine ⟨rfl, ?_⟩
    dsimp only
    split_ifs <;> rfl

/-- read_n_bits sees no byte past the input (40_bitstream.md R201, R203). -/
theorem Reader.readN_congr {f g : Nat → Byte} (k : Nat) {r : Reader} (h : ∀ a, a < r.len.toNat → f a = g a) :
    r.readN f k = r.readN g k ∧ (r.readN f k).2.len = r.len := by
  unfold Reader.readN
  generalize 0 = v
  induction k generalizing r v with
  | zero => exact ⟨rfl, rfl⟩
  | succ k ih =>
    obtain ⟨hbit, hlen⟩ := Reader.readBit_congr h
    simp only [Reader.readNLoop, ← hbit]
    rcases hr : r.readBit f with ⟨b, r'⟩
    rw [hr] at hlen
    cases b with
    | none => exact ⟨rfl, hlen⟩
    | some b =>
      have hlen' : r'.len = r.len := hlen
      obtain ⟨hloop, hlast⟩ := ih (r := r') (by rw [hlen']; exact h) (2 * v + b.toNat)
      exact ⟨hloop, hlast.trans hlen'⟩

theorem State.skipN_len (s : State) (k : Nat) : (s.skipN k).rd.len = s.rd.len :=
  (Reader.readN_congr (g := s.inByte) k fun _ _ => rfl).2

section
variable {u s : State} (h : SameInput u s)
include h

theorem SameInput.peekN (k : Nat) : (u.withOuter s).peekN k = s.peekN k :=
  congrArg Prod.fst (Reader.readN_congr k h).1

theorem SameInput.skipN (k : Nat) : (u.withOuter s).skipN k = u.withOuter (s.skipN k) := by
  have hrd : s.rd.readN u.inByte k = s.rd.readN s.inByte k := (Reader.readN_congr k h).1
  show { u.withOuter s with rd := (s.rd.readN u.inByte k).2 } = _
  rw [hrd]
  rfl

theorem SameInput.skipped (k : Nat) : SameInput u (s.skipN k) := fun a ha => h a (by rwa [State.skipN_len] at ha)

theorem SameInput.peekField (k : Nat) : (u.withOuter s).peekField k = s.peekField k := by
  rw [State.peekField, h.peekN]
  rfl

theorem SameInput.peekPairSize : (u.withOuter s).peekPairSize = s.peekPairSize := by
  rw [State.peekPairSize, State.peekPairSize, h.peekField, h.skipN, (h.skipped 1).peekField]

/-- Runs that are alike stand at the same field. -/
theorem SameInput.nextField : (u.withOuter s).nextField = s.nextField := by
  have hmarker : (u.withOuter s).markerField = s.markerField := by
    unfold State.markerField
    rw [h.peekField, h.peekField]
    rfl
  have hvalue : (u.withOuter s).valueField = s.valueField := by
    unfold State.valueField
    dsimp only
    rw [h.peekPairSize, h.peekField]
    rfl
  have hwalk : (u.withOuter s).walkField = s.walkField := by
    unfold State.walkField
    rw [h.peekN]
    rfl
  unfold State.nextField
  rw [hmarker, hvalue, hwalk, h.peekField]
  rfl

end

/-! ### The rules of the relation -/

/-- A change that the fields of `withOuter` do not touch, and that keeps the input and the output. -/
theorem SameRun.of_commutes {u s s' t' : State} (hin : SameInput u s) (hout : SameFlushed u s)
    (ht : t' = u.withOuter s') (hlen : s'.rd.len = s.rd.len)
    (hinMem : s'.inByte = s.inByte) (houtMem : s'.outByte = s.outByte)
    (hidx : ∀ a, a < s'.wr.idx.toNat ∨ a < s'.res.outLen.toNat → a < s.wr.idx.toNat ∨ a < s.res.outLen.toNat) :
    SameRun s' t' := by
  refine ⟨u, ht, fun a ha => ?_, fun a ha => ?_⟩
  · rw [hinMem]
    exact hin a (by rwa [← hlen])
  · rw [houtMem]
    exact hout a (hidx a ha)

theorem raise_sameRun {s t : State} (h : SameRun s t) (e : RunError) (i : Word) : SameRun (s.raise e i) (t.raise e i) := by
  obtain ⟨u, rfl, hin, hout⟩ := h
  exact .of_commutes hin hout rfl rfl rfl rfl fun a ha => .inl (by simpa using ha)

theorem complete_sameRun (c : Bool) : KeepsSame fun s => .run (s.complete c) := by
  rintro s t ⟨u, rfl, hin, hout⟩
  exact .run (.of_commutes hin hout rfl rfl rfl rfl fun a ha => .inl (by simpa [State.results] using ha))

/-! ### The writer -/

theorem flush_same (x : Byte) : KeepsSame (flush x) := by
  intro s t h
  have hraise := raise_sameRun h .outOverflow (s.phase.code.setWidth 32)
  obtain ⟨u, rfl, hin, hout⟩ := h
  refine Flow.Same.ite (.ended hraise) (.run ⟨{ u with outMem := u.outMem.write s.wr.idx.toNat x }, rfl, hin, fun a ha => ?_⟩)
  have hle : (s.wr.idx + 1).toNat ≤ s.wr.idx.toNat + 1 := by rw [BitVec.toNat_add]; exact Nat.mod_le _ _
  by_cases hi : a = s.wr.idx.toNat
  · simp [State.outByte, hi]
  · have := hout a (ha.imp_left fun hlt => by simp only at hlt; omega)
    simpa [State.outByte, hi] using this

theorem writeBit_same (b : Bool) : KeepsSame (writeBit b) := by
  intro s t h
  have hflush := (flush_same ((s.wr.pend <<< 1) ||| (BitVec.ofBool b).setWidth 8)).andThen
    (k := fun t => .run { t with wr := { t.wr with pend := 0, cnt := 0, bits := t.wr.bits + 1 } })
    (by
      rintro s t ⟨u, rfl, hin, hout⟩
      exact .run ⟨u, rfl, hin, hout⟩) h
  obtain ⟨u, rfl, hin, hout⟩ := h
  exact Flow.Same.ite hflush (.run ⟨u, rfl, hin, hout⟩)

theorem writeBits_same (bs : Bits) : KeepsSame (writeBits bs) := by
  induction bs with
  | nil => exact fun _ _ h => .run h
  | cons b bs ih => exact (writeBit_same b).andThen ih

theorem finish_same : KeepsSame finish := by
  intro s t h
  have hflush := (flush_same (s.wr.pend <<< (8 - s.wr.cnt.toNat))).andThen
    (k := fun t => .run { t with wr := { t.wr with pend := 0, cnt := 0 } })
    (by
      rintro s t ⟨u, rfl, hin, hout⟩
      exact .run ⟨u, rfl, hin, hout⟩) h
  have hrun : Flow.Same (.run s) (.run t) := .run h
  obtain ⟨u, rfl, hin, hout⟩ := h
  exact Flow.Same.ite hrun hflush

theorem flushAndComplete_same (c : Bool) : KeepsSame (flushAndComplete c) :=
  finish_same.andThen (complete_sameRun c)

/-! ### The engine between fields -/

theorem count_same (r : Nat) : KeepsSame (State.count r) := by
  intro s t h
  have hraise := raise_sameRun h .freqOverflow (BitVec.ofNat 32 r)
  obtain ⟨u, rfl, hin, hout⟩ := h
  exact Flow.Same.ite (.ended hraise) (.run ⟨u, rfl, hin, hout⟩)

/-- Reading keeps two runs alike. -/
theorem skipN_same {s t : State} (k : Nat) (h : SameRun s t) : SameRun (s.skipN k) (t.skipN k) := by
  obtain ⟨u, rfl, hin, hout⟩ := h
  exact ⟨u, hin.skipN k, hin.skipped k, hout⟩

theorem enter_same {s t : State} (p : Phase) (h : SameRun s t) : SameRun (s.enter p) (t.enter p) := by
  obtain ⟨u, rfl, hin, hout⟩ := h
  exact ⟨u, rfl, hin, hout⟩

theorem scanStep_same : KeepsSame scanStep := by
  intro s t h
  have hskip := skipN_same (symWidth s.dp.mode) h
  obtain ⟨u, rfl, hin, hout⟩ := h
  simp only [scanStep, State.withOuter_loop, State.withOuter_dp, hin.peekN]
  cases s.loop.stage with
  | entry => exact .run ⟨u, rfl, hin, hout⟩
  | pass1 | pass2 =>
    cases s.peekN (symWidth s.dp.mode) with
    | none => exact .run (enter_same .cCheck hskip)
    | some r => exact count_same r hskip

theorem checkStep_same : KeepsSame checkStep := by
  have hr : KeepsSame State.pairRangeCheck := by
    intro s t h
    have hraise := raise_sameRun (e := .pairFreqRange) h
    have hrun : Flow.Same (.run s) (.run t) := .run h
    obtain ⟨u, rfl, hin, hout⟩ := h
    refine Flow.Same.ite ?_ hrun
    rw [State.withOuter_freq]
    cases overRange s.freq with
    | some k => exact .ended (hraise _)
    | none => exact hrun
  refine hr.andThen ?_
  rintro s t ⟨u, rfl, hin, hout⟩
  exact .run (enter_same _ ⟨u, rfl, hin, hout⟩)

theorem headerOutStep_same : KeepsSame headerOutStep := by
  rintro s t ⟨u, rfl, hin, hout⟩
  simp only [headerOutStep, State.withOuter_loop, State.withOuter_dp]
  cases s.loop.stage with
  | entry | pass1 => exact .run ⟨u, rfl, hin, hout⟩
  | pass2 => exact Flow.Same.ite (.run ⟨u, rfl, hin, hout⟩) (.run ⟨u, rfl, hin, hout⟩)

theorem emitStep_same : KeepsSame emitStep := by
  intro s t h
  have hskip := skipN_same (symWidth s.dp.mode) h
  obtain ⟨u, rfl, hin, hout⟩ := h
  simp only [emitStep, State.withOuter_loop, State.withOuter_dp, State.withOuter_code, hin.peekN, hin.skipN]
  cases s.loop.stage with
  | entry => exact .run ⟨u, rfl, hin, hout⟩
  | pass1 | pass2 =>
    cases s.loop.emit with
    | some c => exact .run ⟨u, rfl, hin, hout⟩
    | none =>
      cases s.peekN (symWidth s.dp.mode) with
      | none => exact .run ⟨u, rfl, hin.skipped _, hout⟩
      | some r =>
        cases hl : Table.look r s.code <;> simp only [hl] <;> exact .run ⟨u, rfl, hin.skipped _, hout⟩

theorem headerInStep_same : KeepsSame headerInStep := by
  rintro s t ⟨u, rfl, hin, hout⟩
  simp only [headerInStep, State.withOuter_loop, State.withOuter_dp]
  cases s.loop.stage with
  | entry | pass1 => exact .run ⟨u, rfl, hin, hout⟩
  | pass2 => exact Flow.Same.ite (.run ⟨u, rfl, hin, hout⟩) (.run ⟨u, rfl, hin, hout⟩)

/-! ### The finer step -/

theorem KeepsSame.outcome {k : State → Flow} (h : KeepsSame k) {s t : State} (hst : SameRun s t) :
    SameNext (k s).outcome (k t).outcome :=
  (h hst).sameNext

theorem SameNext.refused (r r' : Refusal) : SameNext (.refused r) (.refused r') := fun _ _ h => nomatch h

theorem writeThen_same (bs : Bits) {k : State → State} (hk : ∀ ⦃s t : State⦄, SameRun s t → SameRun (k s) (k t))
    {s t : State} (h : SameRun s t) :
    SameNext ((writeBits bs s).andThen fun s => .run (k s)).outcome ((writeBits bs t).andThen fun s => .run (k s)).outcome :=
  ((writeBits_same bs h).andThen fun _ _ h => .run (hk h)).sameNext

theorem nextSym_same {s t : State} (h : SameRun s t) : SameRun s.nextSym t.nextSym := by
  obtain ⟨u, rfl, hin, hout⟩ := h
  exact ⟨u, rfl, hin, hout⟩

theorem walkStep_same {s t : State} (h : SameRun s t) : SameNext (walkStep s) (walkStep t) := by
  have hwrite := fun v => writeThen_same (bitsOf (symWidth s.dp.mode) v) (s := s) (t := t) (k := fun t => { t with
      dp := { t.dp with doneSyms := t.dp.doneSyms + 1 }
      loop := { t.loop with cur := t.tree } }) (by
    rintro s t ⟨u, rfl, hin, hout⟩
    exact ⟨u, rfl, hin, hout⟩) h
  obtain ⟨u, rfl, hin, hout⟩ := h
  simp only [walkStep, State.withOuter_loop, State.withOuter_dp]
  cases s.loop.cur with
  | empty => exact fun _ _ h => nomatch h
  | node l r f k => exact .next ⟨u, rfl, hin, hout⟩
  | leaf sym f =>
    simp only [writeN_eq]
    exact hwrite _

theorem internalStep_same {s t : State} (h : SameRun s t) : SameNext (internalStep s) (internalStep t) := by
  have hst := h
  obtain ⟨u, rfl, hin, hout⟩ := h
  simp only [internalStep, State.withOuter_phase]
  cases s.phase
  case cScan => exact scanStep_same.outcome hst
  case cCheck => exact checkStep_same.outcome hst
  case cHdr => exact headerOutStep_same.outcome hst
  case cBuild => exact .next ⟨u, rfl, hin, hout⟩
  case cCodegen => exact .next ⟨u, rfl, hin, hout⟩
  case cEmit => exact emitStep_same.outcome hst
  case dHdr => exact headerInStep_same.outcome hst
  case dBuild => exact .next ⟨u, rfl, hin, hout⟩
  case dWalk => exact walkStep_same hst
  case dFlush => exact (flushAndComplete_same false).outcome hst
  all_goals exact .next hst

theorem modeField_same (pair : Bool) (i : Instr) {s t : State} (h : SameRun s t) :
    SameNext (modeField pair i s) (modeField pair i t) := by
  have hwrite := writeThen_same (fieldBits i) (k := fun t => t.toStage .pass1) (by
    rintro s t ⟨u, rfl, hin, hout⟩
    exact ⟨u, rfl, hin, hout⟩) h
  obtain ⟨u, rfl, hin, hout⟩ := h
  simp only [modeField, State.withOuter_phase, hin.skipN]
  cases s.phase
  case cHdr => exact hwrite
  case dMode => exact .next ⟨u, rfl, hin.skipped 1, hout⟩
  all_goals exact .refused _ _

/-- What reading a header field does keeps two runs alike. -/
theorem headerRead_same (i : Instr) {s t : State} (h : SameRun s t) : SameRun (headerRead i s) (headerRead i t) := by
  have hclass : ∀ c, SameRun (s.decodeClass c) (t.decodeClass c) := fun c => by
    obtain ⟨u, rfl, hin, hout⟩ := h
    unfold State.decodeClass
    rw [hin.skipN]
    exact ⟨u, rfl, hin.skipped _, hout⟩
  have hexistence : ∀ e, SameRun (s.decodeExistence e) (t.decodeExistence e) := fun e => by
    obtain ⟨u, rfl, hin, hout⟩ := h
    unfold State.decodeExistence
    rw [hin.skipN]
    exact ⟨u, rfl, hin.skipped _, hout⟩
  have hfreq : ∀ {s t : State}, SameRun s t → ∀ w f, SameRun (s.decodeFreq w f) (t.decodeFreq w f) := by
    rintro s _ ⟨u, rfl, hin, hout⟩ w f
    unfold State.decodeFreq
    rw [hin.skipN]
    exact ⟨u, rfl, hin.skipped _, hout⟩
  cases i with
  | classF8 value | classF16 value | classF32 value =>
    cases value with
    | none => exact hclass _
    | some v => exact hfreq h _ _
  | classAbsent => exact hclass _
  | pairAbsent | pairPresent => exact hexistence _
  | pairSize8 v | pairSize16 v => exact hfreq (skipN_same 1 h) _ _
  | _ => exact h

theorem headerField_same (i : Instr) {s t : State} (h : SameRun s t) :
    SameNext (headerField i (headerRead i) s) (headerField i (headerRead i) t) := by
  have hwrite := writeThen_same (fieldBits i) (k := State.nextSym) (fun _ _ h => nextSym_same h) h
  have hread := nextSym_same (headerRead_same i h)
  obtain ⟨u, rfl, hin, hout⟩ := h
  simp only [headerField, State.withOuter_phase]
  cases s.phase
  case cHdr => exact hwrite
  case dHdr => exact .next hread
  all_goals exact .refused _ _

theorem codeField_same (b : Bool) (i : Instr) {s t : State} (h : SameRun s t) :
    SameNext (codeField b i s) (codeField b i t) := by
  have hwrite := writeThen_same (fieldBits i)
    (k := fun t => { t with loop := { t.loop with emit := t.loop.emit.map List.tail } }) (by
    rintro s t ⟨u, rfl, hin, hout⟩
    exact ⟨u, rfl, hin, hout⟩) h
  obtain ⟨u, rfl, hin, hout⟩ := h
  simp only [codeField, State.withOuter_phase, State.withOuter_dp, State.withOuter_loop, hin.skipN]
  cases s.phase
  case cEmit => exact hwrite
  case dWalk => exact .next ⟨u, rfl, hin.skipped 1, hout⟩
  all_goals exact .refused _ _

theorem padField_same {s t : State} (h : SameRun s t) : SameNext (padField s) (padField t) := by
  have hflush := (flushAndComplete_same true).outcome h
  obtain ⟨u, rfl, hin, hout⟩ := h
  simp only [padField, State.withOuter_phase]
  cases s.phase
  case cFlush => exact hflush
  case dWalk => exact .next ⟨u, rfl, hin, hout⟩
  all_goals exact .refused _ _

theorem SameNext.atField (i : Instr) {s t : State} {o o' : Host.Outcome State Fault Refusal} (h : SameNext o o') :
    SameNext (atField i s o) (atField i t o') := fun _ _ hs ht => h (atField_eq_next hs).2 (atField_eq_next ht).2

/-- A stream field keeps two runs alike. -/
theorem exec_same {i : Instr} {k : FieldKind} (hi : fieldKind i = some k) {s t : State} (h : SameRun s t) :
    SameNext (exec i s) (exec i t) := by
  cases hm : kindMode k with
  | some pair =>
    have hk : (fieldKind i).bind kindMode = some pair := by rw [hi]; exact hm
    rw [exec_headerField hk, exec_headerField hk]
    exact (headerField_same i h).atField i
  | none =>
    cases i with
    | modeByte | modePair => exact (modeField_same _ _ h).atField _
    | codeLeft | codeRight => exact (codeField_same _ _ h).atField _
    | pad n => exact (padField_same h).atField _
    | classF8 value | classF16 value | classF32 value => cases value <;> cases hi <;> cases hm
    | _ => cases hi <;> cases hm

/-- A finer step keeps two runs alike. -/
theorem fineStep_same {s t : State} (h : SameRun s t) : SameNext (fineStep s) (fineStep t) := by
  have hbusy : t.busy = s.busy := by
    obtain ⟨u, rfl, -, -⟩ := h
    rfl
  have hnext : t.nextField = s.nextField := by
    obtain ⟨u, rfl, hin, -⟩ := h
    exact hin.nextField
  cases hb : s.busy with
  | false =>
    rw [fineStep_idle hb, fineStep_idle (hbusy.trans hb)]
    exact .next h
  | true =>
    cases hi : s.nextField with
    | some i =>
      obtain ⟨k, hk⟩ := nextField_kind hi
      rw [fineStep_field hb hi, fineStep_field (hbusy.trans hb) (hnext.trans hi)]
      exact exec_same hk h
    | none =>
      rw [fineStep_internal hb hi, fineStep_internal (hbusy.trans hb) (hnext.trans hi)]
      exact internalStep_same h

/-! ### Steps -/

theorem SameRun.phase {s t : State} (h : SameRun s t) : t.phase = s.phase := by
  obtain ⟨u, rfl, -, -⟩ := h
  rfl

theorem runPhase_same (n : Nat) {s t : State} (h : SameRun s t) : SameNext (runPhase n s) (runPhase n t) := by
  induction n generalizing s t with
  | zero => exact .next h
  | succ n ih =>
    have hstep := fineStep_same h
    simp only [runPhase]
    cases hs : fineStep s with
    | fault | refused => exact fun _ _ h => nomatch h
    | next s' =>
      cases ht : fineStep t with
      | fault | refused => exact fun _ _ _ h => nomatch h
      | next t' =>
        have hnext : SameRun s' t' := hstep hs ht
        simp only [hnext.phase, h.phase]
        split_ifs
        · exact ih hnext
        · exact .next hnext

theorem engineStep_same {s t : State} (h : SameRun s t) : SameNext (engineStep s) (engineStep t) := by
  have hbound : t.phaseBound = s.phaseBound := by
    obtain ⟨u, rfl, -, -⟩ := h
    rfl
  unfold engineStep
  rw [hbound]
  exact runPhase_same _ h

theorem newFree_same {s t : State} (h : SameRun s t) : SameRun s.newFree t.newFree := by
  obtain ⟨u, rfl, hin, hout⟩ := h
  exact ⟨u.newFree, rfl, hin, hout⟩

/-- The quiet step keeps two runs alike, and lists no event. -/
theorem quietStep_same {s t : State} (h : SameRun s t) : SameNext (quietStep s) (quietStep t) := by
  have hbusy : t.busy = s.busy := by
    obtain ⟨u, rfl, -, -⟩ := h
    rfl
  intro s' t' hs ht
  unfold quietStep at hs ht
  rw [hbusy] at ht
  split_ifs at hs ht
  · obtain ⟨s1, hs1, rfl⟩ := mapNext_eq_next.1 hs
    obtain ⟨t1, ht1, rfl⟩ := mapNext_eq_next.1 ht
    exact newFree_same (engineStep_same h hs1 ht1)
  · cases hs
    cases ht
    exact h

theorem quietStep_pending {s t : State} (h : quietStep s = .next t) : t.pending = s.pending := by
  unfold quietStep at h
  split_ifs at h
  · obtain ⟨u, hu, rfl⟩ := mapNext_eq_next.1 h
    exact (engineStep_hostKept hu).pending
  · cases h
    rfl

/-- With no event to come, two runs stay alike. -/
theorem stepN_same (n : Nat) {s t : State} (hp : s.pending = []) (h : SameRun s t) : SameNext (stepN n s) (stepN n t) := by
  induction n generalizing s t with
  | zero => exact .next h
  | succ n ih =>
    have hp' : t.pending = [] := by
      obtain ⟨u, rfl, -, -⟩ := h
      exact hp
    have hstep := quietStep_same h
    rw [stepN, stepN, step_quiet hp, step_quiet hp']
    cases hs : quietStep s with
    | fault | refused => exact fun _ _ h => nomatch h
    | next s' =>
      cases ht : quietStep t with
      | fault | refused => exact fun _ _ _ h => nomatch h
      | next t' => exact ih ((quietStep_pending hs).trans hp) (hstep hs ht)

/-! ### START -/

/-- The checks of START for a command that is none of the reserved ones (45_orchestration.md R340). -/
theorem launch_eq {s : State} (h : s.ctrl.cmd = 0b01 ∨ s.ctrl.cmd = 0b10) :
    s.launch = if s.inLen.toNat ≤ s.cfg.inCap then s.enter (if s.ctrl.cmd = 0b01 then .cScan else .dMode)
      else s.raise .inLenRange s.inLen := by
  rcases h with h | h <;> simp [State.launch, h]

section
variable {s t : State} (hcfg : s.cfg = t.cfg) (hlen : s.inLen = t.inLen) (hpending : s.pending = t.pending)
  (hbytes : ∀ a, a < s.inLen.toNat → s.inByte a = t.inByte a) (hcmd : s.ctrl.cmd = t.ctrl.cmd)
  (hmode : s.ctrl.cmd = 0b01 → s.ctrl.mode = t.ctrl.mode)
include hcfg hlen hpending hbytes hcmd hmode

theorem initRun_same (p : Phase) : SameRun (s.initRun.enter p) (t.initRun.enter p) := by
  rw [hcmd] at hmode
  have hm : (if t.ctrl.cmd = 0b01 then s.ctrl.mode else false) = if t.ctrl.cmd = 0b01 then t.ctrl.mode else false :=
    if_ctx_congr .rfl hmode fun _ => rfl
  refine ⟨t, ?_, fun a ha => (hbytes a ha).symm, fun a ha => ?_⟩
  · unfold State.initRun State.enter State.withOuter
    simp only [hm, hcfg, hlen, hpending, hcmd]
  · simp [State.enter, State.initRun, Results.zero] at ha

/-- START leaves two blocks with the same command, mode, input and capacities alike (45_orchestration.md R340). -/
theorem start_same (hstart : s.ctrl.cmd = 0b01 ∨ s.ctrl.cmd = 0b10) : SameRun s.start t.start := by
  have hinit := initRun_same hcfg hlen hpending hbytes hcmd hmode
  have hraise := raise_sameRun (hinit .idle) .inLenRange s.inLen
  have hs : s.start = if s.inLen.toNat ≤ s.cfg.inCap then s.initRun.enter (if s.ctrl.cmd = 0b01 then .cScan else .dMode)
      else s.initRun.raise .inLenRange s.inLen := launch_eq (s := s.initRun) hstart
  have ht : t.start = if t.inLen.toNat ≤ t.cfg.inCap then t.initRun.enter (if t.ctrl.cmd = 0b01 then .cScan else .dMode)
      else t.initRun.raise .inLenRange t.inLen := launch_eq (s := t.initRun) (hcmd ▸ hstart)
  rw [hs, ht, ← hlen, ← hcfg, ← hcmd]
  split_ifs
  · exact hinit _
  · exact hinit _
  · exact hraise

end

theorem respond_same {s t : State} (r : Response) (h : SameRun s t) : SameRun (s.respond r) (t.respond r) := by
  obtain ⟨u, rfl, hin, hout⟩ := h
  exact ⟨u.respond r, rfl, hin, hout⟩

/-- A START writes CTRL, begins the run and answers OK (10_state.md R41, R42). -/
theorem exec_start {s s0 : State} (hb : s.busy = false) {i : Instr} {cmd : BitVec 2} {m p : Bool}
    (hi : i = .compress m p ∧ cmd = 0b01 ∨ i = .decompress m p ∧ cmd = 0b10) (h : exec i s = .next s0) :
    s0 = ({ s with ctrl := { cmd := cmd, mode := m, irqEn := p } }.start).respond .okWrite := by
  rcases hi with ⟨rfl, rfl⟩ | ⟨rfl, rfl⟩
  · rw [exec, execCompress, State.writeCtrl_start hb] at h
    exact (Host.Outcome.next.inj h).symm
  · rw [exec, execDecompress, State.writeCtrl_start hb] at h
    exact (Host.Outcome.next.inj h).symm

/-- The same two commands, as CTRL holds them: equal but for IRQ_EN, and for MODE in DECOMPRESS. -/
theorem sameCommand_ctrl {i j : Instr}
    (h : (∃ m p q, i = .compress m p ∧ j = .compress m q) ∨ ∃ m m' p q, i = .decompress m p ∧ j = .decompress m' q) :
    ∃ (cmd : BitVec 2) (m m' p q : Bool), (cmd = 0b01 ∨ cmd = 0b10) ∧ (cmd = 0b01 → m = m') ∧
      (i = .compress m p ∧ cmd = 0b01 ∨ i = .decompress m p ∧ cmd = 0b10) ∧
      (j = .compress m' q ∧ cmd = 0b01 ∨ j = .decompress m' q ∧ cmd = 0b10) := by
  rcases h with ⟨m, p, q, hi, hj⟩ | ⟨m, m', p, q, hi, hj⟩
  · exact ⟨0b01, m, m, p, q, .inl rfl, fun _ => rfl, .inl ⟨hi, rfl⟩, .inl ⟨hj, rfl⟩⟩
  · exact ⟨0b10, m, m', p, q, .inr rfl, fun h => absurd h (by decide), .inr ⟨hi, rfl⟩, .inr ⟨hj, rfl⟩⟩

/-- What two alike runs share. -/
theorem SameRun.results {s t : State} (h : SameRun s t) :
    s.phase = t.phase ∧ s.res = t.res ∧ s.status = t.status ∧ s.errInfo = t.errInfo ∧ s.code = t.code ∧
      ∀ a, a < s.res.outLen.toNat → s.outByte a = t.outByte a := by
  obtain ⟨u, rfl, -, hout⟩ := h
  exact ⟨rfl, rfl, rfl, rfl, rfl, fun a ha => (hout a (.inr ha)).symm⟩

theorem start_pending (s : State) : s.start.pending = s.pending := by
  unfold State.start State.launch
  split_ifs <;> rfl

/-- Settles O48: START leaves the two blocks alike, and every step keeps them so. -/
theorem runsAreDeterminedByTheirInput : Obligations.RunsAreDeterminedByTheirInput := by
  intro s t s0 t0 s1 t1 i j n _ _ hsb htb hsp htp hcfg hlen hbytes hij hs0 ht0 hs1 ht1
  obtain ⟨cmd, m, m', p, q, hstart, hm, hi, hj⟩ := sameCommand_ctrl hij
  have hs : s0 = _ := exec_start hsb hi hs0
  have ht : t0 = _ := exec_start htb hj ht0
  have hbegin : SameRun s0 t0 := by
    rw [hs, ht]
    exact respond_same _ (start_same hcfg hlen (hsp.trans htp.symm) hbytes rfl hm hstart)
  have hpending : s0.pending = [] := by
    rw [hs]
    exact (start_pending _).trans hsp
  exact (stepN_same n hpending hbegin hs1 ht1).results

end Sys2Proof.Machine
end

section
/-!
SUPPORT. A COMPRESS that ends with DONE: the stream it leaves is the mode flag, the header of the input's counts and the codes of
the input's symbols (45_orchestration.md R350 to R357). A phase without room ends with an error, and then DONE is never set.
-/

namespace Sys2Proof.Machine

/-! ### Steps of a run -/

/-- From `s`, which meets the invariant and has no event to come, n steps lead to `s'`. -/
structure StepsTo (n : Nat) (s s' : State) : Prop where
  inv : Inv s
  pending : s.pending = []
  steps : stepN n s = .next s'

/-- Every number of steps leads somewhere. -/
theorem stepsTo_exists (n : Nat) {s : State} (h : Inv s) (hp : s.pending = []) : ∃ s', StepsTo n s s' := by
  suffices ∃ s', stepN n s = .next s' by
    obtain ⟨s', hs'⟩ := this
    exact ⟨s', h, hp, hs'⟩
  induction n generalizing s with
  | zero => exact ⟨s, rfl⟩
  | succ n ih =>
    obtain ⟨t, ht⟩ := noStepFaultsOrIsRefused s h
    have hpending : t.pending = [] := by
      rw [step_quiet hp] at ht
      exact (quietStep_pending ht).trans hp
    obtain ⟨s', hs'⟩ := ih (everyStepKeepsTheInvariant s t h ht) hpending
    exact ⟨s', by rw [stepN, ht]; exact hs'⟩

theorem StepsTo.engine {n : Nat} {s s' t : State} (h : StepsTo (n + 1) s s') (hb : s.busy = true)
    (hstep : engineStep s = .next t) : StepsTo n t.newFree s' :=
  ⟨(h.inv.runPhase hstep).newFree, (engineStep_hostKept hstep).pending.trans h.pending,
    (stepN_engine n h.pending hb hstep).symm.trans h.steps⟩

theorem StepsTo.eq_of_idle {n : Nat} {s s' : State} (h : StepsTo n s s') (hb : s.busy = false) : s' = s :=
  (Host.Outcome.next.inj ((stepN_idle n h.pending hb).symm.trans h.steps)).symm

/-! ### A run that ends with DONE -/

/-- The run that stands in `s` ends with DONE in `s'`. -/
def EndsDone (s s' : State) : Prop :=
  (∃ n, StepsTo n s s') ∧ s'.status.done = true

theorem EndsDone.inv {s s' : State} (h : EndsDone s s') : Inv s := h.1.choose_spec.inv

/-- An idle block stays as it is. -/
theorem EndsDone.eq_of_idle {s s' : State} (h : EndsDone s s') (hb : s.busy = false) : s' = s := by
  obtain ⟨⟨n, hn⟩, -⟩ := h
  exact hn.eq_of_idle hb

/-- A run that has failed does not end with DONE. -/
theorem EndsDone.phase_ne_error {s s' : State} (h : EndsDone s s') : s.phase ≠ .error := by
  intro hp
  have hidle : s.busy = false := by rw [State.busy, hp]; rfl
  have hdone : s'.status.done = true := h.2
  rw [h.eq_of_idle hidle] at hdone
  exact Phase.noConfusion (hp.symm.trans (h.inv.doneFlag hdone))

/-- The run goes on with the engine's step, which is no error. -/
theorem EndsDone.step {s s' t : State} (h : EndsDone s s') (hb : s.busy = true) (hstep : engineStep s = .next t) :
    EndsDone t.newFree s' := by
  obtain ⟨⟨n, hn⟩, hdone⟩ := h
  cases n with
  | zero =>
    obtain rfl := Host.Outcome.next.inj hn.steps
    exact absurd (hn.inv.doneFlag hdone) (busy_ne_done hb)
  | succ n => exact ⟨⟨n, hn.engine hb hstep⟩, hdone⟩

/-- No phase of the run fails. -/
theorem EndsDone.not_failsIn {s s' : State} (h : EndsDone s s') (hb : s.busy = true) : ¬ FailsIn s := by
  intro hf
  obtain ⟨t, hstep, ht⟩ := hf.engineStep h.inv hb
  exact (h.step hb hstep).phase_ne_error ht

/-! ### C_HDR -/

/-- After C_CHECK a pair count is at most 65535 (41_frequency.md R236; 43_header.md R287). -/
theorem Inv.freqAt_le {s : State} (h : Inv s) (hb : s.busy = true) (hscan : s.phase ≠ .cScan) (hcheck : s.phase ≠ .cCheck)
    (hm : s.dp.mode = true) (k : Nat) : (s.freqAt k).toNat ≤ 65535 := by
  rcases lookD_zero_or_mem k s.freq with h0 | hmem
  · rw [State.freqAt, h0]; decide
  · exact h.freqPair hb hscan hcheck hm _ hmem

/-- The header field at which C_HDR stands is written where there is room, and else the run ends with an error. -/
theorem HeadingOut.next_or_fails {s u : State} {g : Stage} {k : Nat} (h : HeadingOut s g k u) (hk : k < nsyms s.dp.mode)
    {i : Instr} {pair : Bool} (hi : u.nextField = some i) (hkind : (fieldKind i).bind kindMode = some pair)
    (hbits : fieldBits i = symbolBits s.dp.mode (s.freqAt k) g) :
    (∃ v, fineStep u = .next v ∧ HeadingOut s g (k + 1) v) ∨ FailsIn u := by
  by_cases hr : u.room (fieldBits i).length
  · refine .inl (h.next hk hi ?_)
    rw [← hbits]
    exact headerField_appends h.inv h.phase hi hkind hr
  · have hb := busy_of_phase h.phase rfl
    have hstep : fineStep u = ((writeBits (fieldBits i) u).andThen fun t => .run t.nextSym).outcome := by
      rw [fineStep_field hb hi, exec_headerField hkind, atField_here hi, headerField, h.phase]
    obtain ⟨hroom, -⟩ | ⟨-, t, e, v, -, -, -, -, -, rfl⟩ := writeBits_spec (fieldBits i) (h.inv.canWrite hb)
    · exact absurd hroom hr
    · rw [e] at hstep
      exact .inr ⟨u, _, Within.refl u, hstep, rfl⟩

/-- A finer step of the marker loop, with or without room. -/
theorem HeadingOut.marker_or_fails {s u : State} {k : Nat} (h : HeadingOut s .pass1 k u) (hk : k < nsyms s.dp.mode) :
    (∃ v, fineStep u = .next v ∧ HeadingOut s .pass1 (k + 1) v) ∨ FailsIn u := by
  refine h.next_or_fails hk (nextField_marker_cHdr h.phase h.stage (h.lt hk)) (kindMode_markerInstr _ _) ?_
  rw [fieldBits_markerInstr, h.dp, h.freqAt, h.sym]
  rfl

/-- A finer step of the value loop, with or without room. -/
theorem HeadingOut.value_or_fails {s u : State} {k : Nat} (h : HeadingOut s .pass2 k u)
    (hpair : s.dp.mode = true → (s.freqAt k).toNat ≤ 65535) (hk : k < nsyms s.dp.mode) :
    (∃ v, fineStep u = .next v ∧ HeadingOut s .pass2 (k + 1) v) ∨ FailsIn u := by
  have hfreq : u.freqAt u.loop.s.toNat = s.freqAt k := by rw [h.freqAt, h.sym]
  by_cases hf : s.freqAt k = 0
  · have hstep := fineStep_absent_cHdr h.phase h.stage (h.lt hk) (hfreq.trans hf)
    have hnone : symbolBits s.dp.mode (s.freqAt k) .pass2 = [] := if_pos hf
    refine .inl ⟨_, hstep, h.inv.fineStep hstep, h.phase, h.stage,
      (toNat_succ_sym (h.lt hk)).trans (congrArg (· + 1) h.sym), by rw [h.kept]; rfl, ?_⟩
    rw [headerBefore_succ, hnone, List.append_nil]
    exact h.written
  · refine h.next_or_fails hk (nextField_value_cHdr h.phase h.stage (h.lt hk) (by rw [hfreq]; exact hf))
      (kindMode_valueInstr _ _) ?_
    rw [hfreq, h.dp, fieldBits_valueInstr hf hpair]
    rfl

/-- C_HDR ends with the header written, unless it ends with an error. -/
theorem header_ends {s : State} (h : Inv s) (hp : s.phase = .cHdr) (hg : s.loop.stage = .entry) (hb : s.wr.bits = 0) :
    (∃ u, HeadingOut s .pass2 (nsyms s.dp.mode) u ∧
      engineStep s = .next ({ u with dp := { u.dp with hdrBits := u.wr.bits } }.enter .cBuild)) ∨ FailsIn s := by
  have within {g : Stage} {k j : Nat} {u v : State} (hu : HeadingOut s g k u) (hv : HeadingOut s g j v)
      (hstep : fineStep u = .next v) : Within u v := Within.single hstep (hv.phase.trans hu.phase.symm)
  have hpair : s.dp.mode = true → ∀ k, (s.freqAt k).toNat ≤ 65535 := 
    h.freqAt_le (busy_of_phase hp rfl) (by simp [hp]) (by simp [hp])
  have hone : s.room 1 := by rw [State.room, hb]; exact Nat.zero_le _
  obtain ⟨u₀, step₀, h₀⟩ := headingOut_zero h hp hg hb hone
  have hw₀ : Within s u₀ := Within.single step₀ (h₀.phase.trans hp.symm)
  obtain ⟨u₁, hw₁, h₁⟩ | hE := within_pass (fun _ _ => FailsIn.back) (fun k u hu hk =>
    (hu.marker_or_fails hk).imp_left fun ⟨v, hstep, hv⟩ => ⟨v, within hu hv hstep, hv⟩) h₀ (Nat.zero_le _)
  · obtain ⟨u₂, step₂, h₂⟩ := h₁.turn
    have hw₂ : Within u₁ u₂ := Within.single step₂ (h₂.phase.trans h₁.phase.symm)
    obtain ⟨u₃, hw₃, h₃⟩ | hE := within_pass (fun _ _ => FailsIn.back) (fun k u hu hk =>
      (hu.value_or_fails (fun hm => hpair hm k) hk).imp_left fun ⟨v, hstep, hv⟩ => ⟨v, within hu hv hstep, hv⟩)
      h₂ (Nat.zero_le _)
    · refine .inl ⟨u₃, h₃, engineStep_of_within (hw₀.trans (hw₁.trans (hw₂.trans hw₃))) h (busy_of_phase hp rfl)
        h₃.finish ?_⟩
      simp [h₃.phase]
    · exact .inr (hE.back (hw₀.trans (hw₁.trans hw₂)))
  · exact .inr (hE.back hw₀)

/-! ### The phases of COMPRESS, one after the other -/

/-- `s` stands at the start of phase `p` of the COMPRESS that started in `src`, with the input's table `freq` counted, no symbol
coded yet, and `bits` written. -/
structure Coding (src : State) (freq : Table (BitVec 32)) (p : Phase) (bits : Bits) (s : State) : Prop where
  phase : s.phase = p
  start : p ≠ .cCheck → s.loop = Loop.start
  mode : s.dp.mode = src.dp.mode
  len : s.rd.len = src.rd.len
  bytes : s.inByte = src.inByte
  table : s.freq = freq
  uncoded : s.dp.doneSyms = 0
  written : s.written = bits

/-- The free-value counter is none of it. -/
theorem Coding.newFree {src s : State} {freq : Table (BitVec 32)} {p : Phase} {bits : Bits} (h : Coding src freq p bits s) :
    Coding src freq p bits s.newFree := { h with }

/-- Where no bit is counted none is written. -/
theorem written_eq_nil {s : State} (hok : s.wr.ok) (hb : s.wr.bits = 0) : s.written = [] :=
  List.length_eq_zero_iff.1 (by rw [written_length hok, hb]; rfl)

/-- C_SCAN of a run that ends with DONE counts the input (45_orchestration.md R350). -/
theorem EndsDone.scan {s s' : State} (h : EndsDone s s') (hp : s.phase = .cScan) (hg : s.loop.stage = .entry)
    (hf : s.freq = []) (hd : s.dp.doneSyms = 0) :
    ∃ t, EndsDone t s' ∧ Coding s t.freq .cCheck [] t ∧ FreqTally t (inputSymbols s.dp.mode s.inByte s.rd.len.toNat) := by
  obtain ⟨t, hstep, ht⟩ := engineStep_cScan h.inv hp hg hf
  have hnext := h.step (busy_of_phase hp rfl) hstep
  have hwr := hnext.inv.writer (busy_of_phase ht.phase rfl)
  refine ⟨t.newFree, hnext,
    { phase := ht.phase
      start := fun hne => absurd rfl hne
      mode := ht.kept.mode
      len := ht.kept.len
      bytes := ht.kept.inByte
      table := rfl
      uncoded := by rw [State.newFree_dp, ht.kept]; exact hd
      written := written_eq_nil hwr.1 (hnext.inv.unwritten (.inr ht.phase)).1 }, ht.tally.congr rfl rfl⟩

section
variable {src s s' : State} {freq : Table (BitVec 32)} {bits : Bits} (h : EndsDone s s')
include h

/-- C_CHECK of a run that ends with DONE raises nothing (45_orchestration.md R352, R353). -/
theorem EndsDone.check (hs : Coding src freq .cCheck bits s) :
    ∃ t, EndsDone t s' ∧ Coding src freq (if s.dp.total = 0 then .cFlush else .cHdr) bits t := by
  have hb := busy_of_phase hs.phase rfl
  have hfine := fineStep_cCheck hs.phase
  by_cases hover : s.dp.mode = true → overRange s.freq = none
  · rw [checkStep_goes_on hover] at hfine
    have hne : (if s.dp.total = 0 then Phase.cFlush else .cHdr) ≠ s.phase := by
      rw [hs.phase]
      split_ifs <;> simp
    have hnext := h.step hb (engineStep_of_fineStep h.inv hb hfine hne)
    exact ⟨_, hnext, { hs with phase := rfl, start := fun _ => rfl }⟩
  · obtain ⟨hm, hsome⟩ := Classical.not_imp.1 hover
    obtain ⟨k, hk⟩ := Option.ne_none_iff_exists'.1 hsome
    rw [checkStep_raises hm hk] at hfine
    exact absurd ⟨s, _, Within.refl s, hfine, rfl⟩ (h.not_failsIn hb)

/-- C_HDR of a run that ends with DONE writes the mode flag and the header (45_orchestration.md R351). -/
theorem EndsDone.header (hs : Coding src freq .cHdr [] s) :
    ∃ t, EndsDone t s' ∧
      Coding src freq .cBuild (src.dp.mode :: headerBits src.dp.mode fun k => Table.lookD 0 k freq) t := by
  have hb := busy_of_phase hs.phase rfl
  have hbits : s.wr.bits = 0 := BitVec.eq_of_toNat_eq (by
    rw [← written_length (h.inv.writer hb).1, hs.written]
    rfl)
  have hfreq : s.freqAt = fun k => Table.lookD 0 k freq := by rw [← hs.table]; rfl
  obtain ⟨u, hu, hstep⟩ | hE := header_ends h.inv hs.phase (by rw [hs.start (by simp)]; rfl) hbits
  · refine ⟨_, h.step hb hstep,
      { phase := rfl
        start := fun _ => rfl
        mode := ?_
        len := ?_
        bytes := ?_
        table := ?_
        uncoded := ?_
        written := ?_ }⟩
    · exact (congrArg Datapath.mode hu.dp).trans hs.mode
    · rw [← hs.len, hu.kept]; rfl
    · rw [← hs.bytes, hu.kept]; rfl
    · rw [← hs.table, hu.kept]; rfl
    · exact (congrArg Datapath.doneSyms hu.dp).trans hs.uncoded
    · rw [← hfreq, ← hs.mode]
      exact hu.written
  · exact absurd hE (h.not_failsIn hb)

/-- C_BUILD (45_orchestration.md R354). -/
theorem EndsDone.build (hs : Coding src freq .cBuild bits s) : ∃ t, EndsDone t s' ∧ Coding src freq .cCodegen bits t := by
  have hb := busy_of_phase hs.phase rfl
  have hnext := h.step hb (engineStep_of_fineStep h.inv hb (fineStep_cBuild hs.phase)
    (ne_of_ne_of_eq (by decide : Phase.cCodegen ≠ .cBuild) hs.phase.symm))
  exact ⟨_, hnext, { hs with phase := rfl, start := fun _ => rfl }⟩

/-- C_CODEGEN makes the codes of the table (45_orchestration.md R355). -/
theorem EndsDone.codegen (hs : Coding src freq .cCodegen bits s) :
    ∃ t, EndsDone t s' ∧ Coding src freq .cEmit bits t ∧ t.code = genCodes (buildTree src.dp.mode freq) [] [] := by
  have hb := busy_of_phase hs.phase rfl
  have hnext := h.step hb (engineStep_of_fineStep h.inv hb (fineStep_cCodegen_next h.inv hs.phase)
    (ne_of_ne_of_eq (by decide : Phase.cEmit ≠ .cCodegen) hs.phase.symm))
  exact ⟨_, hnext, { hs with phase := rfl, start := fun _ => rfl }, by rw [← hs.mode, ← hs.table]; rfl⟩

/-- C_EMIT of a run that ends with DONE writes the codes of the input's symbols (45_orchestration.md R356). -/
theorem EndsDone.emit (hs : Coding src freq .cEmit bits s) :
    ∃ t, EndsDone t s' ∧ t.phase = .cFlush ∧
      t.written = bits ++ (inputSymbols src.dp.mode src.inByte src.rd.len.toNat).flatMap (codeOf s.code) := by
  have hb := busy_of_phase hs.phase rfl
  have hloop := hs.start (by simp)
  obtain ⟨u, hu, hstep⟩ | hE := emit_ends h.inv hs.phase (by rw [hloop]; rfl) (by rw [hloop]; rfl) hs.uncoded
    (fun _ _ => FailsIn.back) fun _ _ _ _ _ hf => hf
  · refine ⟨_, h.step hb hstep, rfl, ?_⟩
    rw [← hs.written, ← hs.mode, ← hs.bytes, ← hs.len, inputSymbols_eq_firstSymbols]
    exact hu.written
  · exact absurd hE (h.not_failsIn hb)

/-- C_FLUSH of a run that ends with DONE fills the last byte (45_orchestration.md R357). -/
theorem EndsDone.flush (hp : s.phase = .cFlush) :
    s'.res.outLen.toNat = (s.written.length + 7) / 8 ∧
      streamBits s'.outByte 0 (8 * s'.res.outLen.toNat) =
        s.written ++ List.replicate (padLength s.written.length) false := by
  have hb := busy_of_phase hp rfl
  rw [written_length (h.inv.writer hb).1]
  obtain ⟨t, hf, hstep⟩ | ⟨-, -, hstep⟩ := flush_cases h.inv hp
  · have hnext := h.step hb (engineStep_of_fineStep h.inv hb hstep
      (ne_of_ne_of_eq (by decide : Phase.done ≠ .cFlush) hp.symm))
    rw [hnext.eq_of_idle rfl]
    exact ⟨hf.idx, hf.stream⟩
  · exact absurd ⟨s, _, Within.refl s, hstep, rfl⟩ (h.not_failsIn hb)

end

/-! ### The stream of a COMPRESS -/

/-- `freq` is the table of counts of the symbols `syms` of a mode (41_frequency.md R234, R236). -/
structure CountsOf (pair : Bool) (syms : List Nat) (freq : Table (BitVec 32)) : Prop where
  wf : Table.wf (nsyms pair) freq = true
  present : ∀ e ∈ freq, e.2 ≠ 0
  count : ∀ k, (Table.lookD 0 k freq).toNat = syms.count k
  total : freqTotal freq = syms.length
  range : pair = true → ∀ k, (Table.lookD 0 k freq).toNat ≤ 65535

/-- The code of a symbol in the code table of the table `freq` (44_codegen.md R320). -/
def tableCode (pair : Bool) (freq : Table (BitVec 32)) (r : Nat) : Bits :=
  codeOf (genCodes (buildTree pair freq) [] []) r

/-- The stream of the symbols `syms` with the table `freq`, the padding not included: nothing for no symbols, else the mode
flag, the header and the codes (45_orchestration.md R351, R353, R356). -/
def streamOf (pair : Bool) (freq : Table (BitVec 32)) (syms : List Nat) : Bits :=
  if syms = [] then []
  else pair :: headerBits pair (fun k => Table.lookD 0 k freq) ++ syms.flatMap (tableCode pair freq)

/-- What a COMPRESS that ends with DONE leaves in OUT. -/
theorem EndsDone.compress {s s' : State} (h : EndsDone s s') (hp : s.phase = .cScan) (hg : s.loop.stage = .entry)
    (hf : s.freq = []) (hd : s.dp.doneSyms = 0) :
    let syms := inputSymbols s.dp.mode s.inByte s.rd.len.toNat
    ∃ freq, CountsOf s.dp.mode syms freq ∧
      s'.res.outLen.toNat = ((streamOf s.dp.mode freq syms).length + 7) / 8 ∧
      streamBits s'.outByte 0 (8 * s'.res.outLen.toNat) =
        streamOf s.dp.mode freq syms ++ List.replicate (padLength (streamOf s.dp.mode freq syms).length) false := by
  intro syms
  obtain ⟨t, ht, hscan, htally⟩ := h.scan hp hg hf hd
  obtain ⟨u, hu, hcheck⟩ := ht.check hscan
  have hzero : t.dp.total = 0 ↔ syms = [] := by
    rw [← List.length_eq_zero_iff, ← htally.total]
    exact ⟨fun h0 => by rw [h0]; rfl, fun h0 => BitVec.eq_of_toNat_eq h0⟩
  have hb : u.busy = true := by rw [State.busy, hcheck.phase]; split_ifs <;> rfl
  have hcounts : CountsOf s.dp.mode syms t.freq :=
    { wf := by rw [← hcheck.mode, ← hcheck.table]; exact hu.inv.freqWf_mode hb
      present := ht.inv.freqPresent
      count := htally.freq
      total := htally.sum
      range := fun hm k => by
        rw [← hcheck.table]
        exact hu.inv.freqAt_le hb (by rw [hcheck.phase]; split_ifs <;> simp) (by rw [hcheck.phase]; split_ifs <;> simp)
          (hcheck.mode.trans hm) k }
  refine ⟨t.freq, hcounts, ?_⟩
  by_cases hsyms : syms = []
  · rw [if_pos (hzero.2 hsyms)] at hcheck
    have hstream : streamOf s.dp.mode t.freq syms = u.written := (if_pos hsyms).trans hcheck.written.symm
    rw [hstream]
    exact hu.flush hcheck.phase
  · rw [if_neg (mt hzero.1 hsyms)] at hcheck
    obtain ⟨u₁, hu₁, hheader⟩ := hu.header hcheck
    obtain ⟨u₂, hu₂, hbuild⟩ := hu₁.build hheader
    obtain ⟨u₃, hu₃, hcodegen, hcode⟩ := hu₂.codegen hbuild
    obtain ⟨u₄, hu₄, hphase, hwritten⟩ := hu₃.emit hcodegen
    have hstream : streamOf s.dp.mode t.freq syms = u₄.written := by
      rw [hwritten, hcode]
      exact if_neg hsyms
    rw [hstream]
    exact hu₄.flush hphase

end Sys2Proof.Machine
end

section
/-!
SUPPORT. DECOMPRESS up to the walk: the mode flag, the header and the tree of a stream that COMPRESS made, and the header of an
empty input, which reads as a table of no symbols (45_orchestration.md R358 to R360, R367).
-/

namespace Sys2Proof.Machine

/-! ### Tables that read alike -/

/-- Two tables in canonical form that read alike are the same. -/
theorem Table.eq_of_look {α : Type} {lo : Nat} {t u : Table α} (ht : Table.risingFrom lo t = true)
    (hu : Table.risingFrom lo u = true) (h : ∀ k, Table.look k t = Table.look k u) : t = u := by
  induction t generalizing lo u with
  | nil =>
    cases u with
    | nil => rfl
    | cons e u =>
      have hk := h e.1
      rw [Table.look_cons, if_pos rfl] at hk
      cases hk
  | cons e t ih =>
    cases u with
    | nil =>
      have hk := h e.1
      rw [Table.look_cons, if_pos rfl] at hk
      cases hk
    | cons e' u =>
      obtain ⟨j, v⟩ := e
      obtain ⟨k, w⟩ := e'
      simp only [Table.risingFrom, Bool.and_eq_true, decide_eq_true_eq] at ht hu
      have hnone {i n : Nat} {x : α} {r : Table α} (hr : Table.risingFrom (n + 1) r = true) (hi : i < n) :
          Table.look i ((n, x) :: r) = none := by
        rw [Table.look_cons, if_neg hi.ne', Table.look_lt hr (Nat.lt_succ_of_lt hi)]
      have hj := h j
      have hk := h k
      rcases lt_trichotomy j k with hlt | rfl | hlt
      · rw [hnone hu.2 hlt, Table.look_cons, if_pos rfl] at hj
        cases hj
      · rw [Table.look_cons, Table.look_cons, if_pos rfl, if_pos rfl] at hj
        obtain rfl := Option.some.inj hj
        rw [ih ht.2 hu.2 fun i => ?_]
        by_cases hi : j = i
        · rw [← hi, Table.look_lt ht.2 (Nat.lt_succ_self j), Table.look_lt hu.2 (Nat.lt_succ_self j)]
        · have hrest := h i
          rwa [Table.look_cons, Table.look_cons, if_neg hi, if_neg hi] at hrest
      · rw [hnone ht.2 hlt, Table.look_cons, if_pos rfl] at hk
        cases hk

/-- Where no entry is 0, reading gives an entry exactly for a count that is not 0. -/
theorem look_eq_of_present {t : Table (BitVec 32)} (h : ∀ e ∈ t, e.2 ≠ 0) (k : Nat) :
    Table.look k t = if Table.lookD 0 k t = 0 then none else some (Table.lookD 0 k t) := by
  unfold Table.lookD
  cases hl : Table.look k t with
  | none => rfl
  | some v => exact (if_neg (h _ (Table.mem_of_look hl))).symm

/-- Two tables in canonical form with the same counts are the same. -/
theorem table_eq_of_counts {bound : Nat} {t u : Table (BitVec 32)} (ht : Table.wf bound t = true)
    (hu : Table.wf bound u = true) (htp : ∀ e ∈ t, e.2 ≠ 0) (hup : ∀ e ∈ u, e.2 ≠ 0)
    (h : ∀ k < bound, Table.lookD 0 k t = Table.lookD 0 k u) : t = u := by
  refine Table.eq_of_look (Table.wf_iff.1 ht).1 (Table.wf_iff.1 hu).1 fun k => ?_
  have hcount : Table.lookD 0 k t = Table.lookD 0 k u := by
    by_cases hk : k < bound
    · exact h k hk
    · have hout {r : Table (BitVec 32)} (hr : Table.wf bound r = true) : Table.lookD 0 k r = 0 :=
        Table.lookD_of_forall_ne fun e he => ((Table.wf_iff.1 hr).2 e he).trans_le (Nat.not_lt.1 hk) |>.ne
      rw [hout ht, hout hu]
  rw [look_eq_of_present htp, look_eq_of_present hup, hcount]

/-! ### The phases of DECOMPRESS, one after the other -/

/-- `s` stands at the start of phase `p` of the DECOMPRESS that started in `o`, with the mode and the table as read so far, the
reader at `pos`, and nothing written. -/
structure Decoding (o : State) (pair : Bool) (freq : Table (BitVec 32)) (p : Phase) (pos : Nat) (s : State) : Prop where
  phase : s.phase = p
  start : s.loop = Loop.start
  mode : s.dp.mode = pair
  table : s.freq = freq
  cfg : s.cfg = o.cfg
  len : s.rd.len = o.rd.len
  bytes : s.inByte = o.inByte
  pos : s.rd.pos = pos
  uncounted : s.dp.doneSyms = 0
  whole : s.dp.trunc = false
  unwritten : s.wr.bits = 0

section
variable {o s s' : State} {n : Nat} (h : StepsTo (n + 1) s s')
include h

/-- D_MODE (45_orchestration.md R358). -/
theorem StepsTo.modeFlag {b : Bool} (hs : Decoding o false [] .dMode 0 s) (hbits : s.nextBits 1 = [b]) :
    ∃ t, StepsTo n t s' ∧ Decoding o b [] .dHdr (min 1 (8 * o.rd.len.toNat)) t ∧ t.cls = s.cls := by
  have hb := busy_of_phase hs.phase rfl
  obtain ⟨hnext, hexec⟩ := modeFlag_read h.inv hs.phase hbits
  obtain ⟨-, hlen, hpos⟩ := State.past_ok 1 (h.inv.reader hb).1
  have hstep := engineStep_of_fineStep h.inv hb ((fineStep_field hb hnext).trans hexec)
    (ne_of_ne_of_eq (by decide : Phase.dHdr ≠ .dMode) hs.phase.symm)
  exact ⟨_, h.engine hb hstep,
    { hs with
      phase := rfl
      start := rfl
      mode := rfl
      len := hlen.trans hs.len
      pos := hpos.trans (by rw [hs.pos, hs.len, Nat.zero_add]) }, rfl⟩

omit h in
/-- What the end of D_HDR leaves of a run whose header has been read into table `freq`. -/
theorem Decoding.headerEnds {pair : Bool} {freq : Table (BitVec 32)} {p : Phase} {u t : State} {k : Nat}
    (hs : Decoding o pair [] .dHdr k s)
    (hu : u = { s with rd := { u.rd with len := s.rd.len }, freq := u.freq, cls := u.cls, ex := u.ex, loop := u.loop })
    (ht : u.headerEnds t) (hfreq : u.freq = freq) (hp : (if t.dp.total = 0 then Phase.dFlush else .dBuild) = p) :
    Decoding o pair freq p u.rd.pos t.newFree := by
  obtain ⟨ht, -⟩ := ht
  have hdp : t.dp = { s.dp with total := t.dp.total, nsym := t.dp.nsym, hdrBits := t.dp.hdrBits } := by
    rw [ht, hu]
  exact
    { phase := by rw [State.newFree_phase, ← hp, ht]
      start := by rw [State.newFree_loop, ht]
      mode := by rw [State.newFree_dp, hdp]; exact hs.mode
      table := by rw [State.newFree_freq, ht]; exact hfreq
      cfg := by rw [State.newFree_cfg, ht, hu]; exact hs.cfg
      len := by rw [State.newFree_rd, ht, hu]; exact hs.len
      bytes := by rw [← hs.bytes, ht, hu]; rfl
      pos := by rw [State.newFree_rd, ht]
      uncounted := by rw [State.newFree_dp, hdp]; exact hs.uncounted
      whole := by rw [State.newFree_dp, hdp]; exact hs.whole
      unwritten := by rw [State.newFree_wr, ht, hu]; exact hs.unwritten }

/-- D_HDR at the header of a stream of COMPRESS (45_orchestration.md R359, R360). -/
theorem StepsTo.headerAhead {pair : Bool} {freq : Table (BitVec 32)} {syms : List Nat} (hs : Decoding o pair [] .dHdr 1 s)
    (hc : CountsOf pair syms freq) (hne : syms ≠ []) (ha : HeaderAhead s fun k => Table.lookD 0 k freq) :
    ∃ t, StepsTo n t s' ∧ t.dp.total.toNat = syms.length ∧
      Decoding o pair freq .dBuild (1 + (headerBits pair fun k => Table.lookD 0 k freq).length) t := by
  have hb := busy_of_phase hs.phase rfl
  obtain ⟨t, hstep, u, hu, ht⟩ := engineStep_twoPasses (P := HeadingIn s fun k => Table.lookD 0 k freq)
    (Q := fun t => ∃ u, HeadingIn s (fun k => Table.lookD 0 k freq) .pass2 (nsyms s.dp.mode) u ∧ u.headerEnds t)
    (nsyms_le s.dp.mode) hs.phase (fun _ _ _ hu => hu.phase)
    (headingIn_zero h.inv hs.phase (by rw [hs.start]; rfl) hs.table hs.pos) (fun k u hu hk => hu.marker ha hk)
    (fun u hu => hu.turn) (fun k u hu hk => hu.value ha hk) fun u hu => by
      obtain ⟨t, hstep, ht⟩ := valueLoop_ends hu.phase (by rw [hu.sym, hu.mode]) hu.inv hu.stage
      exact ⟨t, hstep, by rw [ht.1]; split_ifs <;> simp, u, hu, ht⟩
  have hmode : u.dp.mode = pair := hu.mode.trans hs.mode
  have hbu := busy_of_phase hu.phase rfl
  have hwf : Table.wf (nsyms pair) u.freq = true := by rw [← hmode]; exact hu.inv.freqWf_mode hbu
  have hfreq : u.freq = freq := table_eq_of_counts hwf hc.wf hu.inv.freqPresent hc.present fun k hk =>
    (hu.freq k).trans (if_pos (by rw [Stage.values, hs.mode]; exact hk))
  have htotal : t.dp.total.toNat = syms.length := by
    rw [ht.2.1, ← hc.total, ← hfreq, freqTotal_eq_sum hwf, hmode]
    rfl
  have hphase : (if t.dp.total = 0 then Phase.dFlush else .dBuild) = .dBuild := if_neg fun h0 => hne (by
    rw [h0] at htotal
    exact List.length_eq_zero_iff.1 htotal.symm)
  have hpos : u.rd.pos = 1 + (headerBits pair fun k => Table.lookD 0 k freq).length := by
    rw [hu.pos, hs.mode]
    rfl
  exact ⟨_, h.engine hb hstep, htotal, hpos ▸ hs.headerEnds hu.kept ht hfreq hphase⟩

/-- D_BUILD (45_orchestration.md R367). -/
theorem StepsTo.buildTree {pair : Bool} {freq : Table (BitVec 32)} {k : Nat} (hs : Decoding o pair freq .dBuild k s) :
    StepsTo n { s with
      tree := Machine.buildTree pair freq, phase := .dWalk
      loop := { Loop.start with cur := Machine.buildTree pair freq } }.newFree s' := by
  have hb := busy_of_phase hs.phase rfl
  have hstep := engineStep_of_fineStep h.inv hb (fineStep_dBuild hs.phase)
    (ne_of_ne_of_eq (by decide : Phase.dWalk ≠ .dBuild) hs.phase.symm)
  have hnext := h.engine hb hstep
  rw [← hs.mode, ← hs.table]
  exact hnext

/-- D_FLUSH completes the run (45_orchestration.md R366). -/
theorem StepsTo.flush (hp : s.phase = .dFlush) : s' = (s.complete false).newFree := by
  have hb := busy_of_phase hp rfl
  have hstep := engineStep_of_fineStep h.inv hb (fineStep_dFlush h.inv hp)
    (ne_of_ne_of_eq (by decide : Phase.done ≠ .dFlush) hp.symm)
  exact (h.engine hb hstep).eq_of_idle rfl

end

/-! ### The header of an empty input -/

/-- `u` stands in the D_HDR that started from `s` in byte mode over an empty input, with nothing but zeros read. -/
structure BlankHeader (s u : State) : Prop where
  inv : Inv u
  phase : u.phase = .dHdr
  kept : u = { s with rd := { u.rd with len := s.rd.len }, freq := u.freq, cls := u.cls, ex := u.ex, loop := u.loop }
  marks : ∀ j, u.clsAt j = 0
  counts : ∀ j, u.freqAt j = 0

/-- A finer step of such a D_HDR reads a zero, or ends the phase (40_bitstream.md R207; 45_orchestration.md R359). -/
theorem BlankHeader.step {s u : State} (h : BlankHeader s u) (hm : s.dp.mode = false) (hlen : s.rd.len = 0) :
    ∃ v, fineStep u = .next v ∧ (BlankHeader s v ∨ u.headerEnds v) := by
  have hmode : u.dp.mode = false := by rw [h.kept]; exact hm
  have hulen : u.rd.len = 0 := by rw [h.kept]; exact hlen
  have hb := busy_of_phase h.phase rfl
  suffices ∃ v, fineStep u = .next v ∧ (v.phase = .dHdr ∧
      v = { s with rd := { v.rd with len := s.rd.len }, freq := v.freq, cls := v.cls, ex := v.ex, loop := v.loop } ∧
      (∀ j, v.clsAt j = 0) ∧ (∀ j, v.freqAt j = 0) ∨ u.headerEnds v) by
    obtain ⟨v, hstep, hv⟩ := this
    exact ⟨v, hstep, hv.imp_left fun ⟨hp, hkept, hmarks, hcounts⟩ =>
      ⟨h.inv.fineStep hstep, hp, hkept, hmarks, hcounts⟩⟩
  cases hg : u.loop.stage with
  | entry =>
    have hnext : u.nextField = none := by simp [State.nextField, h.phase, hg]
    refine ⟨u.toStage .pass1, ?_, .inl ⟨h.phase, by rw [h.kept]; rfl, h.marks, h.counts⟩⟩
    rw [fineStep_dHdr h.phase hnext, headerInStep, hg]
    rfl
  | pass1 =>
    by_cases hk : u.loop.s.toNat < nsyms u.dp.mode
    · have hbits : u.nextBits 2 = fieldBits (classMarker 0) := by
        rw [State.nextBits, if_neg (by simp [hulen])]
        rfl
      obtain ⟨hnext, t, hexec, ht, hset⟩ := class_read h.inv h.phase hk hg hmode rfl hbits
      refine ⟨t, (fineStep_field hb hnext).trans hexec, .inl ⟨by rw [ht]; exact h.phase, by rw [ht, h.kept]; rfl, fun j => ?_,
        fun j => by rw [ht]; exact h.counts j⟩⟩
      rw [hset]
      split_ifs
      · rfl
      · exact h.marks j
    · exact ⟨_, markerLoop_ends h.phase (Nat.not_lt.1 hk) hg, .inl ⟨h.phase, by rw [h.kept], h.marks, h.counts⟩⟩
  | pass2 =>
    by_cases hk : u.loop.s.toNat < nsyms u.dp.mode
    · obtain ⟨t, hstep, ht, hset⟩ := absent_read h.inv h.phase hk hg (.inl ⟨hmode, h.marks _⟩)
      refine ⟨t, hstep, .inl ⟨by rw [ht]; exact h.phase, by rw [ht, h.kept], fun j => by rw [ht]; exact h.marks j,
        fun j => ?_⟩⟩
      rw [hset]
      split_ifs
      · rfl
      · exact h.counts j
    · obtain ⟨t, hstep, ht⟩ := valueLoop_ends h.phase (Nat.not_lt.1 hk) h.inv hg
      exact ⟨t, hstep, .inr ht⟩

theorem State.headerEnds.phase_ne {u t : State} (h : u.headerEnds t) : t.phase ≠ .dHdr := by
  rw [h.1]
  split_ifs <;> simp

/-- The finer steps of such a D_HDR read zeros only. -/
theorem BlankHeader.within {s u v : State} (h : BlankHeader s u) (hm : s.dp.mode = false) (hlen : s.rd.len = 0)
    (huv : Within u v) : BlankHeader s v := by
  induction huv with
  | refl => exact h
  | tail _ hlast ih =>
    obtain ⟨hstep, hp⟩ := hlast
    obtain ⟨w, hw, hblank | hend⟩ := ih.step hm hlen
    · rwa [Host.Outcome.next.inj (hstep.symm.trans hw)]
    · rw [Host.Outcome.next.inj (hstep.symm.trans hw)] at hp
      exact absurd (hp.trans ih.phase) hend.phase_ne

/-- A table in canonical form with no count is empty. -/
theorem table_eq_nil {t : Table (BitVec 32)} (hw : Table.wf 65536 t = true) (hp : ∀ e ∈ t, e.2 ≠ 0)
    (h : ∀ k, Table.lookD 0 k t = 0) : t = [] :=
  table_eq_of_counts hw (Table.wf_nil _) hp (by simp) fun k _ => h k

/-- D_HDR over an empty input ends with no symbol (45_orchestration.md R360). -/
theorem StepsTo.headerBlank {o s s' : State} {n : Nat} (h : StepsTo (n + 1) s s')
    (hs : Decoding o false [] .dHdr 0 s) (hcls : s.cls = []) (hlen : o.rd.len = 0) :
    ∃ t k, StepsTo n t s' ∧ Decoding o false [] .dFlush k t := by
  have hb := busy_of_phase hs.phase rfl
  have hslen : s.rd.len = 0 := hs.len.trans hlen
  have hstart : BlankHeader s s :=
    { inv := h.inv
      phase := hs.phase
      kept := rfl
      marks := fun j => by rw [State.clsAt, hcls]; rfl
      counts := fun j => by rw [State.freqAt, hs.table]; rfl }
  obtain ⟨u, t, hwithin, hfine, hstep, hmay⟩ := engineStep_ends h.inv hb
  have hu := hstart.within hs.mode hslen hwithin
  obtain ⟨v, hv, hblank | hend⟩ := hu.step hs.mode hslen
  · rw [Host.Outcome.next.inj (hv.symm.trans hfine)] at hblank
    exact absurd (hblank.phase.trans hs.phase.symm) (ne_of_mayBecome hmay)
  · rw [Host.Outcome.next.inj (hv.symm.trans hfine)] at hend
    have htotal : t.dp.total = 0 := BitVec.eq_of_toNat_eq (by
      rw [hend.2.1]
      simp [hu.counts])
    exact ⟨_, _, h.engine hb hstep, hs.headerEnds hu.kept hend (table_eq_nil hu.inv.freqWf hu.inv.freqPresent hu.counts)
      (if_pos htotal)⟩

end Sys2Proof.Machine
end

section
/-!
SUPPORT. The walk over the codes that COMPRESS wrote: the bits of a symbol's code lead down its path to its leaf, the symbol is
written, and after the last one the walk stops on the count (45_orchestration.md R361 to R365).
-/

namespace Sys2Proof.Machine

/-! ### Down a path -/

/-- A path from a node takes an edge and goes on in the child there (44_codegen.md R320). -/
theorem Tree.path_step {l r : Tree} {f : BitVec 40} {k : Sym} {e : Sym × Bits} (he : e ∈ (Tree.node l r f k).paths) :
    ∃ (b : Bool) (x : Sym × Bits), x ∈ (if b then r else l).paths ∧ e = (x.1, b :: x.2) := by
  obtain ⟨x, hx, rfl⟩ | ⟨x, hx, rfl⟩ := Tree.mem_paths_node.1 he
  · exact ⟨false, x, hx, rfl⟩
  · exact ⟨true, x, hx, rfl⟩

/-- The walk has gone down from `u` to `v`: only the reader, the coded bits and the current node differ. -/
def Descended (u v : State) : Prop :=
  v = { u with
    rd := { v.rd with len := u.rd.len }
    dp := { u.dp with codedBits := v.dp.codedBits }
    loop := { u.loop with cur := v.loop.cur } }

theorem Descended.trans {u v w : State} (h : Descended u v) (k : Descended v w) : Descended u w := by
  unfold Descended at *
  rw [h] at k
  exact k

section
variable {u v : State} (h : Descended u v)
include h

theorem Descended.phase : v.phase = u.phase := by rw [h]
theorem Descended.len : v.rd.len = u.rd.len := by rw [h]
theorem Descended.inByte : v.inByte = u.inByte := by rw [h]; rfl
theorem Descended.done : v.dp.doneSyms = u.dp.doneSyms := by rw [h]
theorem Descended.total : v.dp.total = u.dp.total := by rw [h]
theorem Descended.mode : v.dp.mode = u.dp.mode := by rw [h]
theorem Descended.tree : v.tree = u.tree := by rw [h]
theorem Descended.wr : v.wr = u.wr := by rw [h]
theorem Descended.cfg : v.cfg = u.cfg := by rw [h]
theorem Descended.written : v.written = u.written := by rw [h]; rfl

end

/-- A bit leads from a node down to the child it says (45_orchestration.md R362). -/
theorem walk_bit {u : State} {b : Bool} {rest : Bits} {l r : Tree} {f : BitVec 40} {k : Sym} (h : Inv u)
    (hp : u.phase = .dWalk) (hc : u.loop.cur = .node l r f k) (hd : u.dp.doneSyms ≠ u.dp.total)
    (hfit : u.rd.pos + (b :: rest).length ≤ 8 * u.rd.len.toNat)
    (hbits : streamBits u.inByte u.rd.pos (b :: rest).length = b :: rest) :
    ∃ v, fineStep u = .next v ∧ Descended u v ∧ v.loop.cur = (if b then r else l) ∧ v.rd.pos = u.rd.pos + 1 := by
  have hleft : u.rd.pos + 1 ≤ 8 * u.rd.len.toNat := by
    rw [List.length_cons] at hfit
    omega
  have hnextBits : u.nextBits 1 = [b] := by
    rw [State.nextBits, if_pos hleft, ← (List.cons.inj hbits).1]
    rfl
  obtain ⟨hnext, hexec⟩ := walk_descends h hp hc hd hleft hnextBits
  obtain ⟨-, -, hpos⟩ := State.past_ok 1 (h.runAt hp rfl).reader.1
  rw [Nat.min_eq_left hleft] at hpos
  exact ⟨_, (fineStep_field (busy_of_phase hp rfl) hnext).trans hexec, rfl, rfl, hpos⟩

/-- Where the next bits are a path of the current node's tree, the walk comes to the path's leaf. -/
theorem walk_path {t : Tree} {e : Sym × Bits} (he : e ∈ t.paths) {u : State} (h : Inv u) (hp : u.phase = .dWalk)
    (hc : u.loop.cur = t) (hd : u.dp.doneSyms ≠ u.dp.total) (hfit : u.rd.pos + e.2.length ≤ 8 * u.rd.len.toNat)
    (hbits : streamBits u.inByte u.rd.pos e.2.length = e.2) :
    ∃ v f, Within u v ∧ v.loop.cur = .leaf e.1 f ∧ Descended u v ∧ v.rd.pos = u.rd.pos + e.2.length := by
  induction t generalizing e u with
  | empty => cases he
  | leaf sym f =>
    obtain rfl := List.mem_singleton.1 he
    exact ⟨u, f, Within.refl u, hc, rfl, rfl⟩
  | node l r f k ihl ihr =>
    obtain ⟨b, x, hx, rfl⟩ := Tree.path_step he
    obtain ⟨w, hstep, hdesc, hcur, hpos⟩ := walk_bit h hp hc hd hfit hbits
    have hinv := h.fineStep hstep
    have hphase := hdesc.phase.trans hp
    have hdone : w.dp.doneSyms ≠ w.dp.total := by rw [hdesc.done, hdesc.total]; exact hd
    have hfit' : w.rd.pos + x.2.length ≤ 8 * w.rd.len.toNat := by
      rw [hpos, hdesc.len, Nat.add_assoc, Nat.add_comm 1]
      exact hfit
    have hbits' : streamBits w.inByte w.rd.pos x.2.length = x.2 := by
      rw [hpos, hdesc.inByte]
      exact (List.cons.inj hbits).2
    obtain ⟨v, g, hwithin, hleaf, hdesc', hvpos⟩ : ∃ v f, Within w v ∧ v.loop.cur = .leaf x.1 f ∧ Descended w v ∧
        v.rd.pos = w.rd.pos + x.2.length := by
      cases b with
      | false => exact ihl hx hinv hphase hcur hdone hfit' hbits'
      | true => exact ihr hx hinv hphase hcur hdone hfit' hbits'
    refine ⟨v, g, (Within.single hstep hdesc.phase).trans hwithin, hleaf, hdesc.trans hdesc', ?_⟩
    rw [hvpos, hpos, Nat.add_assoc, Nat.add_comm 1]
    rfl

/-! ### One symbol after the other -/

/-- The path of a present symbol in the table's tree is its code. -/
theorem CountsOf.path {pair : Bool} {freq : Table (BitVec 32)} {syms : List Nat} (h : CountsOf pair syms freq) {r : Nat}
    (hr : r ∈ syms) : ({ pair := pair, val := BitVec.ofNat 16 r }, tableCode pair freq r) ∈ (buildTree pair freq).paths ∧
      r < 65536 := by
  have hwf : Table.wf 65536 freq = true := Table.wf_iff.2
    ⟨(Table.wf_iff.1 h.wf).1, fun e he => ((Table.wf_iff.1 h.wf).2 e he).trans_le (nsyms_le pair)⟩
  have hne : Table.lookD 0 r freq ≠ 0 := fun h0 => by
    have hcount := h.count r
    rw [h0] at hcount
    exact (List.count_pos_iff.2 hr).ne hcount
  obtain ⟨c, hc⟩ := Option.isSome_iff_exists.1 ((isSome_look_tableCodes (pair := pair) hwf).2 hne)
  rw [tableCode, codeOf, hc]
  exact (look_tableCodes hwf).1 hc

/-- `s` is the start of a walk over the codes of `syms`, which stand after `pre` in the input, with room for the symbols. -/
structure WalkStart (pair : Bool) (freq : Table (BitVec 32)) (syms : List Nat) (pre post : Bits) (s : State) : Prop where
  counts : CountsOf pair syms freq
  inv : Inv s
  phase : s.phase = .dWalk
  mode : s.dp.mode = pair
  tree : s.tree = buildTree pair freq
  cur : s.loop.cur = s.tree
  total : s.dp.total.toNat = syms.length
  uncounted : s.dp.doneSyms = 0
  unwritten : s.wr.bits = 0
  pos : s.rd.pos = pre.length
  stream : streamBits s.inByte 0 (8 * s.rd.len.toNat) = pre ++ syms.flatMap (tableCode pair freq) ++ post
  cap : symWidth pair * syms.length ≤ 8 * s.cfg.outCap

/-- `u` stands at the root in the walk that started from `s`, with the first n symbols written. -/
structure Walking (pair : Bool) (freq : Table (BitVec 32)) (syms : List Nat) (pre : Bits) (s : State) (n : Nat) (u : State) :
    Prop where
  inv : Inv u
  phase : u.phase = .dWalk
  kept : u = { s with
    rd := { u.rd with len := s.rd.len }
    wr := u.wr
    outMem := u.outMem
    dp := { s.dp with codedBits := u.dp.codedBits, doneSyms := u.dp.doneSyms }
    loop := { s.loop with cur := s.tree } }
  pos : u.rd.pos = (pre ++ (syms.take n).flatMap (tableCode pair freq)).length
  done : u.dp.doneSyms.toNat = n
  written : u.written = (syms.take n).flatMap (bitsOf (symWidth pair))

section
variable {pair : Bool} {freq : Table (BitVec 32)} {syms : List Nat} {pre post : Bits} {s u : State} {n : Nat}
  (hs : WalkStart pair freq syms pre post s)
include hs

theorem WalkStart.walking : Walking pair freq syms pre s 0 s where
  inv := hs.inv
  phase := hs.phase
  kept := by
    have hloop : ({ s.loop with cur := s.tree } : Loop) = s.loop := by rw [← hs.cur]
    rw [hloop]
  pos := hs.pos.trans (by simp)
  done := by rw [hs.uncounted]; rfl
  written := written_eq_nil (hs.inv.runAt hs.phase rfl).writer.1 hs.unwritten

omit hs in
/-- The codes of all symbols are those of the first n, the next one's and a rest. -/
theorem codes_split (code : Nat → Bits) (hn : n < syms.length) :
    ∃ rest, syms.flatMap code = (syms.take n).flatMap code ++ code syms[n] ++ rest := by
  have htake : syms.take (n + 1) = syms.take n ++ [syms[n]] := (List.take_concat_get' syms n hn).symm
  refine ⟨(syms.drop (n + 1)).flatMap code, ?_⟩
  rw [← List.flatMap_singleton (f := code), ← List.flatMap_append, ← htake, ← List.flatMap_append, List.take_append_drop]

/-- The reader stands at the next symbol's code. -/
theorem Walking.codeAhead (h : Walking pair freq syms pre s n u) (hn : n < syms.length) :
    u.rd.pos + (tableCode pair freq syms[n]).length ≤ 8 * u.rd.len.toNat ∧
      streamBits u.inByte u.rd.pos (tableCode pair freq syms[n]).length = tableCode pair freq syms[n] := by
  obtain ⟨rest, hrest⟩ := codes_split (tableCode pair freq) hn
  have hlen : u.rd.len = s.rd.len := by rw [h.kept]
  have hbytes : u.inByte = s.inByte := by rw [h.kept]; rfl
  have hstream : streamBits s.inByte 0 (8 * s.rd.len.toNat) =
      (pre ++ (syms.take n).flatMap (tableCode pair freq)) ++ tableCode pair freq syms[n] ++ (rest ++ post) := by
    rw [hs.stream, hrest]
    simp
  rw [h.pos, hlen, hbytes]
  refine ⟨?_, streamBits_middle hstream⟩
  have hall := congrArg List.length hstream
  rw [streamBits_length, List.length_append, List.length_append] at hall
  omega

omit hs in
/-- The symbols of a mode are each W bits long. -/
theorem symbols_length (w : Nat) (l : List Nat) : (l.flatMap (bitsOf w)).length = w * l.length := by
  simp [List.length_flatMap, Nat.mul_comm]

/-- There is room for the next symbol. -/
theorem Walking.room (h : Walking pair freq syms pre s n u) (hn : n < syms.length) : u.room (symWidth pair) := by
  have hcfg : u.cfg = s.cfg := by rw [h.kept]
  have hcap := hs.cap
  rw [room_iff (h.inv.runAt h.phase rfl).writer.1, h.written, symbols_length, List.length_take, Nat.min_eq_left hn.le, hcfg,
    ← Nat.mul_succ]
  have hmul := Nat.mul_le_mul_left (symWidth pair) (Nat.succ_le_of_lt hn)
  omega

/-- The walk writes the next symbol. -/
theorem Walking.next (h : Walking pair freq syms pre s n u) (hn : n < syms.length) :
    ∃ v, Within u v ∧ Walking pair freq syms pre s (n + 1) v := by
  obtain ⟨hpath, hlt⟩ := hs.counts.path (List.getElem_mem hn)
  obtain ⟨hfit, hbits⟩ := h.codeAhead hs hn
  have hcur : u.loop.cur = buildTree pair freq := by rw [h.kept]; exact hs.tree
  have hmode : u.dp.mode = pair := by rw [h.kept]; exact hs.mode
  have hd : u.dp.doneSyms ≠ u.dp.total := fun he => hn.ne (by
    rw [← h.done, he, h.kept]
    exact hs.total)
  obtain ⟨v, f, hwithin, hleaf, hdesc, hpos⟩ := walk_path hpath h.inv h.phase hcur hd hfit hbits
  have hv := hwithin.inv h.inv
  have hphase := hdesc.phase.trans h.phase
  have hroom : v.room (symWidth v.dp.mode) := by
    rw [hdesc.mode, hmode, State.room, hdesc.wr, hdesc.cfg]
    exact h.room hs hn
  have hd' : v.dp.doneSyms ≠ v.dp.total := by rw [hdesc.done, hdesc.total]; exact hd
  obtain ⟨t, ⟨hkept, hwritten, -⟩, -, hstep⟩ := walk_emits hv hphase hleaf hd' hroom
  have hstep' := Within.single hstep (by rw [hkept])
  have htake : syms.take (n + 1) = syms.take n ++ [syms[n]] := (List.take_concat_get' syms n hn).symm
  have hval : (BitVec.ofNat 16 syms[n]).toNat = syms[n] := (BitVec.toNat_ofNat _ 16).trans (Nat.mod_eq_of_lt hlt)
  refine ⟨_, hwithin.trans hstep',
    { inv := hv.fineStep hstep
      phase := by rw [hkept]; exact hphase
      kept := ?_
      pos := ?_
      done := ?_
      written := ?_ }⟩
  · rw [hkept, hdesc, h.kept]
  · rw [hkept, htake, List.flatMap_append, List.flatMap_singleton, ← List.append_assoc, List.length_append, ← h.pos]
    exact hpos
  · have hmax : n + 1 < 2 ^ 40 := (Nat.succ_le_of_lt hn).trans_lt (hs.total ▸ s.dp.total.isLt)
    have hdone : v.dp.doneSyms.toNat = n := by rw [hdesc.done, h.done]
    show (v.dp.doneSyms + 1).toNat = n + 1
    bv_omega
  · rw [htake, List.flatMap_append, List.flatMap_singleton, ← h.written, ← hdesc.written, ← hval]
    rw [hdesc.mode, hmode] at hwritten
    exact hwritten

/-- After the last symbol the walk stops on the count (45_orchestration.md R361). -/
theorem Walking.finish (h : Walking pair freq syms pre s syms.length u) :
    fineStep u = .next { u with phase := .dFlush, tree := .empty, loop := Loop.start } := by
  have hdone : u.dp.doneSyms = u.dp.total := BitVec.eq_of_toNat_eq (by
    rw [h.done, ← hs.total, h.kept])
  exact (walkStopsOnTheCount u h.phase hdone).2

end

/-- D_WALK over the codes of COMPRESS writes the symbols (45_orchestration.md R361 to R365). -/
theorem StepsTo.walk {pair : Bool} {freq : Table (BitVec 32)} {syms : List Nat} {pre post : Bits} {s s' : State} {n : Nat}
    (h : StepsTo (n + 1) s s') (hs : WalkStart pair freq syms pre post s) :
    ∃ t, StepsTo n t s' ∧ t.phase = .dFlush ∧ t.dp.trunc = s.dp.trunc ∧
      t.written = syms.flatMap (bitsOf (symWidth pair)) := by
  obtain ⟨u, hwithin, hu⟩ | hfalse := within_pass (P := Walking pair freq syms pre s) (E := fun _ => False)
    (fun _ _ _ hE => hE) (fun k v hv hk => .inl (hv.next hs hk)) hs.walking (Nat.zero_le syms.length)
  · have hb := busy_of_phase hs.phase rfl
    have hstep := engineStep_of_within hwithin hs.inv hb (hu.finish hs)
      (ne_of_ne_of_eq (by decide : Phase.dFlush ≠ .dWalk) hu.phase.symm)
    refine ⟨_, h.engine hb hstep, rfl, ?_, ?_⟩
    · show u.dp.trunc = s.dp.trunc
      rw [hu.kept]
    · have hwritten := hu.written
      rw [List.take_length] at hwritten
      exact hwritten
  · exact hfalse.elim

end Sys2Proof.Machine
end

section
/-!
SUPPORT. The round trip: DECOMPRESS over the stream that COMPRESS left writes the input's symbols, which are the input's bytes, in
pair mode without a last odd one (45_orchestration.md R380).
-/

namespace Sys2Proof.Machine

/-! ### Symbols and bytes -/

/-- The first n symbols of an input are the bits at its start (41_frequency.md R231). -/
theorem symbols_bits (pair : Bool) (byteAt : Nat → Byte) (n : Nat) :
    ((List.range n).map (symbolAt pair byteAt)).flatMap (bitsOf (symWidth pair)) = streamBits byteAt 0 (symWidth pair * n) := by
  induction n with
  | zero => rfl
  | succ n ih =>
    have hsym : bitsOf (symWidth pair) (symbolAt pair byteAt n) = streamBits byteAt (symWidth pair * n) (symWidth pair) := by
      have hbits := bitsOf_bitsVal (streamBits byteAt (symWidth pair * n) (symWidth pair))
      rwa [streamBits_length] at hbits
    rw [List.range_succ, List.map_append, List.flatMap_append, ih, List.map_singleton, List.flatMap_singleton, hsym,
      Nat.mul_succ, streamBits_append, Nat.zero_add]

/-- Two streams of the same bits are of the same bytes. -/
theorem bytes_eq_of_streamBits {f g : Nat → Byte} {n : Nat} (h : streamBits f 0 (8 * n) = streamBits g 0 (8 * n)) {a : Nat}
    (ha : a < n) : f a = g a := by
  have hn : 8 * n = 8 * a + 8 + (8 * n - (8 * a + 8)) := by omega
  have hsplit : streamBits f 0 (8 * n) = streamBits g 0 (8 * a) ++ streamBits g (8 * a) 8 ++
      streamBits g (8 * a + 8) (8 * n - (8 * a + 8)) := by
    rw [h, hn, streamBits_append, streamBits_append, Nat.zero_add, Nat.zero_add]
    simp
  have hbyte := streamBits_middle hsplit
  rw [streamBits_length, streamBits_length, streamBits_byte g] at hbyte
  rw [eq_of_streamBits_byte hbyte, BitVec.ofNat_toNat, BitVec.setWidth_eq]

/-- The bytes that the symbols of an input take: all, in pair mode without a last odd one (41_frequency.md R232). -/
theorem symbols_bytes (pair : Bool) (len : Nat) :
    symWidth pair * (8 * len / symWidth pair) = 8 * if pair then 2 * (len / 2) else len := by
  cases pair with
  | false => simp only [symWidth, Bool.false_eq_true, if_false]; omega
  | true => simp only [symWidth, if_true]; omega

/-! ### The run of DECOMPRESS -/

/-- START begins DECOMPRESS at D_MODE with nothing read or written (45_orchestration.md R341, R343). -/
theorem decoding_started (s : State) (mode irqEn : Bool) :
    let t := (s.started 2 mode irqEn false .dMode).answered true 0
    Decoding t false [] .dMode 0 t :=
  ⟨rfl, rfl, rfl, rfl, rfl, rfl, rfl, rfl, rfl, rfl, rfl⟩

section
variable {pair : Bool} {freq : Table (BitVec 32)} {syms : List Nat} {post : Bits} {s s' : State} (h : StepsTo 5 s s')
  (hs : Decoding s false [] .dMode 0 s)
include h hs

/-- DECOMPRESS over an empty input comes to D_FLUSH with nothing written (45_orchestration.md R360). -/
theorem StepsTo.decompress_empty (hcls : s.cls = []) (hlen : s.rd.len = 0) :
    ∃ n t, StepsTo (n + 1) t s' ∧ t.phase = .dFlush ∧ t.dp.trunc = false ∧ t.written = [] := by
  have hbits : s.nextBits 1 = [false] := by
    rw [State.nextBits, if_neg (by simp [hlen])]
    rfl
  obtain ⟨t, ht, hmode, htcls⟩ := h.modeFlag hs hbits
  have hpos : min 1 (8 * s.rd.len.toNat) = 0 := by rw [hlen]; rfl
  rw [hpos] at hmode
  obtain ⟨u, k, hu, hflush⟩ := ht.headerBlank hmode (htcls.trans hcls) hlen
  exact ⟨2, u, hu, hflush.phase, hflush.whole,
    written_eq_nil (hu.inv.writer (busy_of_phase hflush.phase rfl)).1 hflush.unwritten⟩

/-- DECOMPRESS over the stream of a symbol or more comes to D_FLUSH with the symbols written. -/
theorem StepsTo.decompress_stream (hc : CountsOf pair syms freq) (hne : syms ≠ [])
    (hstream : streamBits s.inByte 0 (8 * s.rd.len.toNat) = streamOf pair freq syms ++ post)
    (hcap : symWidth pair * syms.length ≤ 8 * s.cfg.outCap) :
    ∃ n t, StepsTo (n + 1) t s' ∧ t.phase = .dFlush ∧ t.dp.trunc = false ∧
      t.written = syms.flatMap (bitsOf (symWidth pair)) := by
  have hbits : streamOf pair freq syms = [pair] ++ (headerBits pair fun k => Table.lookD 0 k freq) ++
      syms.flatMap (tableCode pair freq) := if_neg hne
  rw [hbits] at hstream
  have hlen := congrArg List.length hstream
  simp only [streamBits_length, List.length_append, List.length_singleton] at hlen
  have hflag : s.nextBits 1 = [pair] := by
    rw [State.nextBits, hs.pos, if_pos (by omega)]
    have hfirst : streamBits s.inByte 0 (8 * s.rd.len.toNat) = [] ++ [pair] ++
        ((headerBits pair fun k => Table.lookD 0 k freq) ++ syms.flatMap (tableCode pair freq) ++ post) := by
      rw [hstream]
      simp
    exact streamBits_middle hfirst
  obtain ⟨t, ht, hmode, -⟩ := h.modeFlag hs hflag
  rw [Nat.min_eq_left (by omega)] at hmode
  have hahead : HeaderAhead t fun k => Table.lookD 0 k freq :=
    { pair := fun hm => hc.range (hmode.mode.symm.trans hm)
      fits := by rw [hmode.mode, hmode.len]; omega
      bits := by
        rw [hmode.mode, hmode.bytes]
        exact streamBits_middle (pre := [pair]) (hstream.trans (List.append_assoc _ _ _)) }
  obtain ⟨u, hu, htotal, hbuild⟩ := ht.headerAhead hmode hc hne hahead
  have hwalk := hu.buildTree hbuild
  obtain ⟨v, hv, hphase, hwhole, hwritten⟩ := hwalk.walk (syms := syms)
    (pre := [pair] ++ headerBits pair fun k => Table.lookD 0 k freq) (post := post)
    { counts := hc
      inv := hwalk.inv
      phase := rfl
      mode := hbuild.mode
      tree := rfl
      cur := rfl
      total := htotal
      uncounted := hbuild.uncounted
      unwritten := hbuild.unwritten
      pos := hbuild.pos.trans (by simp [Nat.add_comm])
      stream := by
        show streamBits u.inByte 0 (8 * u.rd.len.toNat) = _
        rw [hbuild.bytes, hbuild.len]
        exact hstream
      cap := by
        show _ ≤ 8 * u.cfg.outCap
        rw [hbuild.cfg]
        exact hcap }
  exact ⟨0, v, hv, hphase, hwhole.trans hbuild.whole, hwritten⟩

end

/-- What D_FLUSH leaves when the symbols of an input are written: the input's bytes. -/
theorem StepsTo.flush_bytes {pair : Bool} {byteAt : Nat → Byte} {len n : Nat} {s s' : State} (h : StepsTo (n + 1) s s')
    (hp : s.phase = .dFlush) (hwhole : s.dp.trunc = false)
    (hw : s.written = (inputSymbols pair byteAt len).flatMap (bitsOf (symWidth pair))) :
    s'.status.done = true ∧ s'.status.trunc = false ∧
      s'.res.outLen.toNat = (if pair then 2 * (len / 2) else len) ∧
      ∀ a, a < s'.res.outLen.toNat → s'.outByte a = byteAt a := by
  rw [inputSymbols_eq, symbols_bits, symbols_bytes, written_of_aligned (h.inv.aligned (by rw [hp]; rfl))] at hw
  have hidx : s.wr.idx.toNat = if pair then 2 * (len / 2) else len := by
    have hlen := congrArg List.length hw
    rw [streamBits_length, streamBits_length] at hlen
    omega
  rw [h.flush hp]
  refine ⟨rfl, hwhole, hidx, fun a ha => ?_⟩
  rw [← hidx] at hw
  exact bytes_eq_of_streamBits hw ha

/-- DECOMPRESS over what COMPRESS leaves in OUT comes to D_FLUSH with the symbols written. -/
theorem StepsTo.decompress {pair : Bool} {freq : Table (BitVec 32)} {syms : List Nat} {s s' : State} (h : StepsTo 5 s s')
    (hs : Decoding s false [] .dMode 0 s) (hcls : s.cls = []) (hc : CountsOf pair syms freq)
    (hlen : s.rd.len.toNat = ((streamOf pair freq syms).length + 7) / 8)
    (hstream : streamBits s.inByte 0 (8 * s.rd.len.toNat) =
      streamOf pair freq syms ++ List.replicate (padLength (streamOf pair freq syms).length) false)
    (hcap : symWidth pair * syms.length ≤ 8 * s.cfg.outCap) :
    ∃ n t, StepsTo (n + 1) t s' ∧ t.phase = .dFlush ∧ t.dp.trunc = false ∧
      t.written = syms.flatMap (bitsOf (symWidth pair)) := by
  by_cases hne : syms = []
  · have hempty : s.rd.len = 0 := BitVec.eq_of_toNat_eq (by rw [hlen, streamOf, if_pos hne]; rfl)
    rw [hne]
    exact h.decompress_empty hs hcls hempty
  · exact h.decompress_stream hs hc hne hstream hcap

/-- Settles O47: the stream of COMPRESS is that of the input's symbols, and DECOMPRESS reads the symbols back from it. -/
theorem decompressInvertsCompress : Obligations.DecompressInvertsCompress := by
  intro s s0 s1 t mode irqEn mode' irqEn' hs ht hsb htb hsp htp hscap hs0 hs1 hdone htlen htcap hout hbytes
  have hs0eq : s0 = (s.started 1 mode irqEn mode .cScan).answered true 0 :=
    Host.Outcome.next.inj (hs0.symm.trans ((ctrlWriteWhileIdle s hsb).2 hscap mode irqEn).1)
  have hends : EndsDone s0 s1 := ⟨⟨7, hs.exec hs0, by rw [hs0eq]; exact hsp, hs1⟩, hdone⟩
  rw [hs0eq] at hends
  obtain ⟨freq, hc, hlen, hstream⟩ := hends.compress rfl rfl rfl rfl
  have ht0 := ((ctrlWriteWhileIdle t htb).2 htcap mode' irqEn').2
  obtain ⟨t1, ht1⟩ := stepsTo_exists 5 (ht.exec ht0) htp
  have hinput : streamBits t.inByte 0 (8 * t.inLen.toNat) = streamBits s1.outByte 0 (8 * t.inLen.toNat) :=
    streamBits_congr fun i _ _ hi => hbytes i (by omega)
  rw [← htlen] at hlen hstream
  have hcap : symWidth mode * (inputSymbols mode s.inByte s.inLen.toNat).length ≤ 8 * t.cfg.outCap := by
    rw [inputSymbols_eq, List.length_map, List.length_range]
    exact (Nat.mul_div_le _ _).trans (Nat.mul_le_mul_left 8 hout)
  obtain ⟨n, v, hv, hphase, hwhole, hwritten⟩ :=
    ht1.decompress (decoding_started t mode' irqEn') rfl hc hlen (hinput.trans hstream) hcap
  exact ⟨_, t1, ht0, ht1.steps, hv.flush_bytes hphase hwhole hwritten⟩

end Sys2Proof.Machine
end

section
/-!
SUPPORT. What ends a run early: a START that fails its checks (60_exceptions.md R401, R402), a full count in C_SCAN (R403), a
field or a last byte that OUT_MEM has no room for (R404); and the interrupt line (R420).
-/

namespace Sys2Proof.Machine

/-! ### OUT_OVERFLOW -/

/-- In C_HDR the engine stands at the mode flag or at a header field of the run's mode (43_header.md R280, R283;
45_orchestration.md R351). -/
theorem nextField_cHdr_cases {s : State} {i : Instr} (hp : s.phase = .cHdr) (hi : s.nextField = some i) :
    i = (if s.dp.mode then .modePair else .modeByte) ∨ (fieldKind i).bind kindMode = some s.dp.mode := by
  cases hg : s.loop.stage with
  | entry => exact .inl (Option.some.inj (hi.symm.trans (nextField_modeFlag hp hg)))
  | pass1 =>
    by_cases hk : s.loop.s.toNat < nsyms s.dp.mode
    · obtain rfl := Option.some.inj (hi.symm.trans (nextField_marker_cHdr hp hg hk))
      exact .inr (kindMode_markerInstr _ _)
    · simp [State.nextField, hp, hg, hk] at hi
  | pass2 =>
    by_cases hk : s.loop.s.toNat < nsyms s.dp.mode ∧ s.freqAt s.loop.s.toNat ≠ 0
    · obtain rfl := Option.some.inj (hi.symm.trans (nextField_value_cHdr hp hg hk.1 hk.2))
      exact .inr (kindMode_valueInstr _ _)
    · have hnone : s.nextField = none := by
        simp only [State.nextField, hp, hg, Bool.and_eq_true, decide_eq_true_eq, bne_iff_ne, if_neg hk]
      exact absurd (hnone.symm.trans hi) nofun

/-- In C_EMIT the engine stands at a code bit or at no field (45_orchestration.md R356). -/
theorem nextField_cEmit_eq {s : State} {i : Instr} (hp : s.phase = .cEmit) (hi : s.nextField = some i) :
    ∃ b, i = codeBit b := by
  cases he : s.loop.emit with
  | none => simp [State.nextField, hp, he] at hi
  | some c =>
    cases c with
    | nil => simp [State.nextField, hp, he] at hi
    | cons b rest => exact ⟨b, Option.some.inj (hi.symm.trans (nextField_codeBit hp he))⟩

/-- A field of C_HDR or C_EMIT first writes its bits (45_orchestration.md R351, R356). -/
theorem exec_writes_fieldBits {s : State} {i : Instr} (hp : s.phase = .cHdr ∨ s.phase = .cEmit) (hi : s.nextField = some i) :
    ∃ k, exec i s = ((writeBits (fieldBits i) s).andThen k).outcome := by
  rcases hp with hp | hp
  · obtain rfl | hk := nextField_cHdr_cases hp hi
    · exact ⟨_, (exec_modeFlag _ s).trans ((atField_here hi _).trans (modeField_cHdr hp _ _))⟩
    · have hexec := (exec_headerField hk s).trans (atField_here hi _)
      rw [headerField, hp] at hexec
      exact ⟨_, hexec⟩
  · obtain ⟨b, rfl⟩ := nextField_cEmit_eq hp hi
    exact ⟨_, (exec_codeBit b s).trans ((atField_here hi _).trans (codeField_cEmit hp b _))⟩

/-- Bits without room end a run with OUT_OVERFLOW and the phase in ERR_INFO, once OUT_MEM is full (60_exceptions.md R404,
R410, R411). -/
theorem writeBits_no_room {s : State} {bs : Bits} (h : Inv s) (hb : s.busy = true) (hr : ¬ s.room bs.length) :
    ∃ u : State, writeBits bs s = .ended (u.failed .outOverflow (BitVec.ofNat 32 s.phase.code.toNat)) ∧ Wrote s u ∧
      Kept s u ∧ u.wr.idx.toNat = s.cfg.outCap ∧
      streamBits u.outByte 0 (8 * s.cfg.outCap) = (s.written ++ bs).take (8 * s.cfg.outCap) := by
  obtain ⟨hroom, -⟩ | ⟨-, t, ht, u, hwrote, hkept, hidx, -, hstream, rfl⟩ := writeBits_spec bs (h.canWrite hb)
  · exact absurd hroom hr
  · have hstatus : u.status = s.status := by rw [hwrote]
    have hres : u.res = s.res := by rw [hwrote]
    rw [raise_eq_failed h hb hstatus hres, ← BitVec.ofNat_toNat] at ht
    exact ⟨u, ht, hwrote, hkept, hidx, hstream⟩

/-- The last byte without room (40_bitstream.md R212, R215). -/
theorem finish_full {s : State} (hcnt : s.wr.cnt ≠ 0) (hidx : s.cfg.outCap ≤ s.wr.idx.toNat) :
    finish s = .ended (s.raise .outOverflow (s.phase.code.setWidth 32)) := by
  rw [finish, if_neg hcnt, flush_full _ hidx, Flow.andThen_ended]

/-- Settles O23: a field's bits without room end by `writeBits_no_room`, C_FLUSH's last byte by `finish_full`. -/
theorem outputOverflowEndsTheRun : Obligations.OutputOverflowEndsTheRun := by
  intro s h
  refine ⟨fun i hp hi hr => ?_, fun hp hcnt hidx => ?_⟩
  · have hb : s.busy = true := hp.elim (busy_of_phase · rfl) (busy_of_phase · rfl)
    obtain ⟨k, hexec⟩ := exec_writes_fieldBits hp hi
    obtain ⟨u, hended, hwrote, hkept, hidx, hstream⟩ := writeBits_no_room h hb hr
    exact ⟨u, by rw [hexec, hended]; rfl, hwrote, hidx, hstream, fun a ha => hkept.2 a (by omega)⟩
  · rw [exec_pad_cFlush hp, flushAndComplete, finish_full hcnt hidx.ge, raise_eq_failed h (busy_of_phase hp rfl) rfl rfl, hp]
    rfl

/-! ### A full count -/

/-- A count of 2^32 − 1 is not incremented (41_frequency.md R233; 60_exceptions.md R403). -/
theorem count_full {s : State} {r : Nat} (h : (s.freqAt r).toNat = 2 ^ 32 - 1) :
    s.count r = .ended (s.raise .freqOverflow (BitVec.ofNat 32 r)) :=
  if_pos h

/-- Settles O35: the symbol read is counted by `count_full`, in a state whose flags and results are still those of the run. -/
theorem fullCountRaisesFreqOverflow : Obligations.FullCountRaisesFreqOverflow := by
  intro s r h hp hg hfit hr hfull
  have hok := (h.runAt hp rfl).reader.1
  rw [State.nextBits, if_pos hfit] at hr
  have hcount : (s.past (symWidth s.dp.mode)).count r = _ := count_full hfull
  rw [fineStep_cScan hp, scanStep_symbol hg hok hfit, ← hr, hcount]
  exact congrArg Host.Outcome.next (raise_eq_failed (u := s.past _) h (busy_of_phase hp rfl) rfl rfl _ _)

/-! ### A START that fails -/

/-- A START with a reserved CMD, whatever IN_LEN is (60_exceptions.md R401). -/
theorem State.start_badCmd {s : State} (hc : s.ctrl.cmd = 0b00 ∨ s.ctrl.cmd = 0b11) :
    s.start = s.initRun.raise .badCmd (s.ctrl.cmd.setWidth 32) := by
  rcases hc with hc | hc <;> simp [State.start, State.launch, hc]

/-- A START of COMPRESS or DECOMPRESS with IN_LEN above IN_CAP (60_exceptions.md R402). -/
theorem State.start_inLenRange {s : State} (hc : s.ctrl.cmd = 0b01 ∨ s.ctrl.cmd = 0b10) (hl : s.cfg.inCap < s.inLen.toNat) :
    s.start = s.initRun.raise .inLenRange s.inLen :=
  (launch_eq (s := s.initRun) hc).trans (if_neg (Nat.not_le.2 hl))

/-- A START whose checks raise ends the run at its start values and answers OK (45_orchestration.md R341; 60_exceptions.md
R410, R430). -/
theorem writeCtrl_failed {s : State} (hb : s.busy = false) (cmd : BitVec 2) (mode irqEn : Bool) {e : RunError} {info : Word}
    (h : { s with ctrl := { cmd := cmd, mode := mode, irqEn := irqEn } }.start =
      { s with ctrl := { cmd := cmd, mode := mode, irqEn := irqEn } }.initRun.raise e info) :
    (s.writeCtrl true cmd mode irqEn).respond .okWrite =
      ((s.started cmd mode irqEn (if cmd = 0b01 then mode else false) .idle).failed e info).answered true 0 := by
  rw [State.writeCtrl_start hb, h]
  rfl

/-- Settles O7: the check of CMD comes first, then that of IN_LEN, and both raise from the start values. -/
theorem startErrorsEndTheRunAtOnce : Obligations.StartErrorsEndTheRunAtOnce := by
  intro s mode irqEn hb
  refine ⟨?_, ?_, fun hl => ⟨?_, ?_⟩⟩
  · exact congrArg Host.Outcome.next (writeCtrl_failed hb 0b00 mode irqEn (State.start_badCmd (.inl rfl)))
  · exact congrArg Host.Outcome.next (writeCtrl_failed hb 0b11 mode irqEn (State.start_badCmd (.inr rfl)))
  · exact congrArg Host.Outcome.next (writeCtrl_failed hb 0b01 mode irqEn (State.start_inLenRange (.inl rfl) hl))
  · exact congrArg Host.Outcome.next (writeCtrl_failed hb 0b10 mode irqEn (State.start_inLenRange (.inr rfl) hl))

/-! ### The interrupt line -/

/-- The line is high exactly when it is enabled and a run has ended with DONE or ERR (60_exceptions.md R420). -/
theorem State.irq_iff (s : State) :
    s.irq = true ↔ s.ctrl.irqEn = true ∧ (s.status.done = true ∨ s.status.err = true) := by
  rw [State.irq, Bool.and_eq_true, Bool.or_eq_true]

theorem State.irq_low_of_disabled {s : State} (h : s.ctrl.irqEn = false) : s.irq = false := by
  rw [State.irq, h, Bool.false_and]

theorem State.irq_low_of_flags_clear {s : State} (hd : s.status.done = false) (he : s.status.err = false) :
    s.irq = false := by
  rw [State.irq, hd, he, Bool.or_false, Bool.and_false]

/-- Settles O60: W1C and START leave both flags clear, and a CTRL write stores IRQ_EN whether the block is busy or not. -/
theorem interruptFollowsTheFlags : Obligations.InterruptFollowsTheFlags := by
  intro s
  refine ⟨s.irq_iff, ⟨_, rfl, State.irq_low_of_flags_clear (Bool.and_false _) (Bool.and_false _)⟩, fun cmd mode => ?_,
    fun hb hl mode irqEn => ?_⟩
  · cases hb : s.busy with
    | false => exact ⟨_, (ctrlWriteWhileIdle s hb).1 cmd mode false, State.irq_low_of_disabled rfl⟩
    | true =>
      exact ⟨_, ctrlWriteWhileBusyStoresOnlyIrqEn s cmd mode false hb _ List.mem_cons_self, State.irq_low_of_disabled rfl⟩
  · obtain ⟨hcompress, hdecompress⟩ := (ctrlWriteWhileIdle s hb).2 hl mode irqEn
    exact ⟨⟨_, hcompress, State.irq_low_of_flags_clear rfl rfl⟩, ⟨_, hdecompress, State.irq_low_of_flags_clear rfl rfl⟩⟩

end Sys2Proof.Machine
end

section
/-!
SUPPORT. A finer step in place of the start of an engine step (70_reset_and_hazards.md R471).
-/

namespace Sys2Proof.Machine

/-- Finer steps of one phase do not change where its engine step leads: the chain that ends the phase goes on from them. -/
theorem Within.engineStep_eq {s t : State} (h : Within s t) (hs : Inv s) (hb : s.busy = true) :
    engineStep s = engineStep t := by
  obtain ⟨u, v, hwithin, hlast, hstep, hmay⟩ := engineStep_ends (h.inv hs) (busy_of_phase h.phase hb)
  have hend : v.phase ≠ u.phase := hwithin.phase ▸ ne_of_mayBecome hmay
  exact (engineStep_of_within (h.trans hwithin) hs hb hlast hend).trans hstep.symm

/-- Settles O51: a finer step that stays in its phase is a chain of one. -/
theorem finerStepsReachTheSamePhaseEnd : Obligations.FinerStepsReachTheSamePhaseEnd :=
  fun _ _ hs hb hstep hp => (Within.single hstep hp).engineStep_eq hs hb

end Sys2Proof.Machine
end

section
/-!
SUPPORT. What a step fetches and what a field refuses: the host transaction that comes next (30_encoding.md R171), and the
refusal of a stream field away from its place (log entry 16).
-/

namespace Sys2Proof.Machine

/-! ### The next host transaction -/

/-- Settles O18: the step takes the event, and a host access runs what the transaction decodes to. -/
theorem stepRunsTheHostTransaction : Obligations.StepRunsTheHostTransaction := by
  intro s t rest i hp hdec
  obtain rfl : decodeTxn t = i := Except.ok.inj hdec
  cases t with
  | read n addr => exact step_event hp
  | write n addr data => exact step_event hp

/-! ### A stream field away from its place -/

/-- Away from its place a field is refused, whatever its meaning there. -/
theorem atField_elsewhere {i : Instr} {s : State} (h : s.nextField ≠ some i) (o : Host.Outcome State Fault Refusal) :
    atField i s o = .refused .fieldNotHere :=
  if_neg h

/-- What encodes to the bits of a field is a stream field of that kind. -/
theorem fieldKind_of_encode {i : Instr} {k : FieldKind} {bits : Bits} (h : encode i = .field k bits) :
    fieldKind i = some k := by
  cases i with
  | classF8 value | classF16 value | classF32 value => cases value <;> cases h <;> rfl
  | _ => cases h <;> rfl

/-- A stream field's meaning is given at its own place only. -/
theorem exec_eq_atField {i : Instr} {k : FieldKind} (hi : fieldKind i = some k) (s : State) :
    ∃ o, exec i s = atField i s o := by
  cases hm : kindMode k with
  | some pair => exact ⟨_, exec_headerField (by rw [hi]; exact hm) s⟩
  | none =>
    cases i with
    | modeByte => exact ⟨_, exec_modeFlag false s⟩
    | modePair => exact ⟨_, exec_modeFlag true s⟩
    | codeLeft => exact ⟨_, exec_codeBit false s⟩
    | codeRight => exact ⟨_, exec_codeBit true s⟩
    | pad n => exact ⟨_, exec_pad n s⟩
    | classF8 value | classF16 value | classF32 value => cases value <;> cases hi <;> cases hm
    | _ => cases hi <;> cases hm

/-- Settles O33: every stream field has its meaning at its place only. -/
theorem fieldElsewhereIsRefused : Obligations.FieldElsewhereIsRefused := by
  intro s i k bits henc helse
  obtain ⟨o, hexec⟩ := exec_eq_atField (fieldKind_of_encode henc) s
  rw [hexec, atField_elsewhere helse]

end Sys2Proof.Machine
end
